-- ==== Sys2Proof/Word.lean ====
section
/-!
DEFINITION. The plain data every other file speaks of: words, bytes, the items of the IN channel, the three node codes of a
tree description, and the two forms an encoding takes (a 32-bit command word, or a bit sequence in stream order).
-/

namespace Sys2Proof

/-- A register value: 32-bit unsigned (R10, `REG_W` of R8). -/
abbrev Word := BitVec 32

/-- A byte, bit 7 the most significant (R10). -/
abbrev Byte := BitVec 8

/-- A bit sequence in stream order, the first bit at the head (R9); `true` is 1. -/
abbrev Bits := List Bool

/-- An item of the IN channel: a byte, or the end-of-stream marker (R73). -/
inductive InItem where
  | byte (b : Byte)
  | eos
deriving DecidableEq, Repr

/-- The three node codes of a tree description (R113 to R115). -/
inductive NodeCode where
  | branch
  | eom
  | leaf (sym : Byte)
deriving DecidableEq, Repr

/-- What an encoding is made of: a command is one 32-bit word (R110), a node code is a bit sequence (R113 to R115). -/
inductive Code where
  | word (w : Word)
  | bits (bs : Bits)
deriving DecidableEq, Repr

end Sys2Proof
end

