-- ==== Sys2Proof/Config.lean ====
section
/-!
DEFINITION. The two capacities, which the spec makes parameters of the model (R6, R7, I19), and the free value of a register
read while a command runs (R66, I11).
-/

namespace Sys2Proof

/-- The implementation parameters: `NODE_CAP` (R6) and `DEPTH_CAP` (R7). -/
structure Config where
  nodeCap : Nat
  depthCap : Nat
deriving DecidableEq, Repr

/-- The parameters of this hardware: `NODE_CAP = 513`, `DEPTH_CAP = 256` (R6, R7). -/
def Config.hardware : Config := { nodeCap := 513, depthCap := 256 }

/-- The free draw of R66 and I11: what a read of a register other than STATUS, ID and CFG returns while BUSY = 1.
It has no body, so nothing can be proved of its value; the machine applies it to a counter that every draw advances, so
each read is a draw of its own. -/
opaque Config.freeRead : Nat → Word

end Sys2Proof
end

