-- ==== Sys2Proof/Syntax.lean ====
section
/-!
DEFINITION. The instructions: one constructor for each row of spec/opcode_table.json. The first twelve are the commands of
R111, which have no operand fields (R110); the last three are the node codes of a tree description (R113 to R115), which the
tree decoder reads from the bit source and carries out one at a time (R160).
-/

namespace Sys2Proof

/-- The rows of the opcode table. -/
inductive Instr where
  /-- NOP, word 0x00000000 (R220). -/
  | nop
  /-- TREE_ENC, word 0x00000001 (R141). -/
  | treeEnc
  /-- TREE_DEC, word 0x00000002 (R160). -/
  | treeDec
  /-- TABLE_BUILD, word 0x00000003 (R180). -/
  | tableBuild
  /-- SYM_ENC, word 0x00000004 (R184). -/
  | symEnc
  /-- SYM_DEC, word 0x00000005 (R200). -/
  | symDec
  /-- FLUSH, word 0x00000006 (R221). -/
  | flush
  /-- COMPRESS, word 0x00000007 (R224). -/
  | compress
  /-- DECOMPRESS, word 0x00000008 (R225). -/
  | decompress
  /-- SINK_RESET, word 0x00000009 (R222). -/
  | sinkReset
  /-- SOURCE_RESET, word 0x0000000A (R223). -/
  | sourceReset
  /-- DRAIN_IN, word 0x0000000B (R227). -/
  | drainIn
  /-- D_BRANCH, the bit `1` (R113). -/
  | dBranch
  /-- D_EOM, the bits `00` (R114). -/
  | dEom
  /-- D_LEAF, the bits `01` and the eight symbol bits, most significant first (R115). -/
  | dLeaf (sym : Byte)
deriving DecidableEq, Repr

/-- The instruction a node code stands for. -/
def NodeCode.toInstr : NodeCode → Instr
  | .branch => .dBranch
  | .eom => .dEom
  | .leaf s => .dLeaf s

end Sys2Proof
end

