-- ==== Sys2Proof/WellFormed.lean ====
section
/-!
DEFINITION. Well-formedness. An instruction carries no field that its type does not already bound (a symbol is a byte, R8),
so the checks are on what the types leave open: the parameters' ranges (R6, R7) and, for encodings, their lengths (R110, R116).
-/

namespace Sys2Proof

/-- The ranges of the two parameters: NODE_CAP 1 to 65535 (R6), DEPTH_CAP 1 to 256 (R7). -/
def Config.wf (c : Config) : Bool :=
  decide (1 ≤ c.nodeCap) && decide (c.nodeCap ≤ 65535) && decide (1 ≤ c.depthCap) && decide (c.depthCap ≤ 256)

/-- Every term of `Instr` is an instruction: the commands have no operand fields (R110) and D_LEAF's symbol is 8 bits wide
by its type (R115). -/
def Instr.wf : Instr → Bool
  | .nop => true
  | .treeEnc => true
  | .treeDec => true
  | .tableBuild => true
  | .symEnc => true
  | .symDec => true
  | .flush => true
  | .compress => true
  | .decompress => true
  | .sinkReset => true
  | .sourceReset => true
  | .drainIn => true
  | .dBranch => true
  | .dEom => true
  | .dLeaf _ => true

/-- The lengths an encoding may have: a command word has `RSVD = 0` and an opcode of the map (R111, R112); a node code is
1 bit starting with 1, 2 bits `00`, or 10 bits starting with `01` (R116). -/
def Code.wf : Code → Bool
  | .word w => decide (w.toNat < 12)
  | .bits [true] => true
  | .bits [false, false] => true
  | .bits (false :: true :: s) => decide (s.length = 8)
  | .bits _ => false

end Sys2Proof
end

