-- ==== Sys2Proof/Decode.lean ====
section
/-!
DEFINITION. The decoder and the encoder of both encoding layers: the command word (R110 to R112) and the node codes of a tree
description (R113 to R117). Both decoders are total and reject by name.
-/

namespace Sys2Proof

/-- The bits of an N-bit value, most significant first (R10, R79). -/
def msbBits {n : Nat} (v : BitVec n) : Bits := (List.range n).map fun j => v.getMsbD j

/-- The byte that eight bits stand for, most significant first: v ← (v << 1) | b from v = 0 (R82). -/
def byteOfBits (bs : Bits) : Byte := bs.foldl (fun v b => (v <<< 1) ||| (BitVec.ofBool b).setWidth 8) 0

/-- Bytes as a bit sequence: the bits of each byte from bit 7 down to bit 0 (R76, R77). -/
def streamBits (bs : List Byte) : Bits := bs.flatMap msbBits

/-- Why a decoder refuses. -/
inductive DecodeError where
  /-- CMD[31:4] ≠ 0 (R112). -/
  | reservedBits
  /-- OPCODE 0xC to 0xF with RSVD = 0 (R112). -/
  | unassignedOpcode
  /-- The bits end before a node code completes (R116, R117). -/
  | truncatedCode
  /-- More bits than the one node code takes (R116). -/
  | trailingBits
deriving DecidableEq, Repr

/-- The command a whole word names (R111); every other word is illegal (R112). -/
def decodeWord (w : Word) : Except DecodeError Instr :=
  match w.toNat with
  | 0 => .ok .nop
  | 1 => .ok .treeEnc
  | 2 => .ok .treeDec
  | 3 => .ok .tableBuild
  | 4 => .ok .symEnc
  | 5 => .ok .symDec
  | 6 => .ok .flush
  | 7 => .ok .compress
  | 8 => .ok .decompress
  | 9 => .ok .sinkReset
  | 10 => .ok .sourceReset
  | 11 => .ok .drainIn
  | _ => if w.extractLsb' 4 28 = 0 then .error .unassignedOpcode else .error .reservedBits

/-- The node code at the head of a bit sequence, and the bits after it (R113 to R116). -/
def decodeNode : Bits → Except DecodeError (NodeCode × Bits)
  | true :: rest => .ok (.branch, rest)
  | false :: false :: rest => .ok (.eom, rest)
  | false :: true :: s7 :: s6 :: s5 :: s4 :: s3 :: s2 :: s1 :: s0 :: rest =>
    .ok (.leaf (byteOfBits [s7, s6, s5, s4, s3, s2, s1, s0]), rest)
  | _ => .error .truncatedCode

/-- The decoder of both layers. -/
def decode : Code → Except DecodeError Instr
  | .word w => decodeWord w
  | .bits bs =>
    match decodeNode bs with
    | .ok (k, []) => .ok k.toInstr
    | .ok (_, _ :: _) => .error .trailingBits
    | .error e => .error e

/-- The bits of a node code (R113 to R115). -/
def NodeCode.bits : NodeCode → Bits
  | .branch => [true]
  | .eom => [false, false]
  | .leaf s => false :: true :: msbBits s

/-- The encoder, from R111 and R113 to R115. -/
def encode : Instr → Code
  | .nop => .word 0x00000000#32
  | .treeEnc => .word 0x00000001#32
  | .treeDec => .word 0x00000002#32
  | .tableBuild => .word 0x00000003#32
  | .symEnc => .word 0x00000004#32
  | .symDec => .word 0x00000005#32
  | .flush => .word 0x00000006#32
  | .compress => .word 0x00000007#32
  | .decompress => .word 0x00000008#32
  | .sinkReset => .word 0x00000009#32
  | .sourceReset => .word 0x0000000A#32
  | .drainIn => .word 0x0000000B#32
  | .dBranch => .bits NodeCode.branch.bits
  | .dEom => .bits NodeCode.eom.bits
  | .dLeaf s => .bits (NodeCode.leaf s).bits

/-- The two bytes that hold a table row of at most 16 bits: the first byte is bits 7 to 0 of `w`, the second bits 15 to 8;
the bits of each byte are then read from its most significant bit down (R77). -/
def tableBytes (w : Nat) : List Byte := [BitVec.ofNat 8 w, BitVec.ofNat 8 (w / 256)]

/-- The instruction the decoder reads from a table row's bits. A row of more than 16 bits is a command word (the table's
command rows have 32); a shorter row is a node code, which stands in bytes as the bit source reads them. -/
def decodeTableWord (nbits w : Nat) : Option Instr :=
  if nbits ≤ 16 then
    match decodeNode (streamBits (tableBytes w)) with
    | .ok (k, _) => some k.toInstr
    | .error _ => none
  else
    match decodeWord (BitVec.ofNat 32 w) with
    | .ok i => some i
    | .error _ => none

end Sys2Proof
end

