-- ==== Sys2Proof/Machine/State.lean ====
section
/-!
DEFINITION. The state of `huffman_core` (R20), the two channels and the host's side of the model (R14), the reasons a step can
stop, and the state after reset (R281). All of it is plain data.

Views that are not stored twice: `STATUS.BUSY` and `STATUS.HOLD_IN` are read off the sequencer, `STATUS.ERR` and
`STATUS.ERRCODE` off the recorded error, `NODE[i].V` and `CODE[k].PRESENT` off the listing of an entry, and `INT` is a
function of STATUS and IE (notes/assumptions/2.md, 3.md).
-/

namespace Sys2Proof.Machine

/-- The KIND codes of a node entry (R50): 0b00, 0b01, 0b10 and the reserved 0b11, which a host write may store. -/
inductive Kind where
  | eom
  | leaf
  | branch
  | reserved
deriving DecidableEq, Repr

/-- A node entry that has been written (V = 1): KIND, SYM, LEFT and RIGHT (R49). -/
structure NodeEntry where
  kind : Kind
  sym : Byte
  left : BitVec 16
  right : BitVec 16
deriving DecidableEq, Repr

/-- A present code-table entry (PRESENT = 1): LEN and PATH (R52). -/
structure CodeEntry where
  len : BitVec 9
  path : Bits
deriving DecidableEq, Repr

/-- The node memory: the written entries by index, indices strictly rising. An index that is not listed is an entry with
V = 0, whose other fields are unspecified and never read (R49, I8). -/
abbrev Memory := List (Nat × NodeEntry)

/-- The code table: the present entries by key, keys strictly rising. A key that is not listed is the entry
`PRESENT 0, LEN 0, PATH []` (R52). -/
abbrev CodeTable := List (Nat × CodeEntry)

/-- The error codes of R251. -/
inductive ErrorCode where
  | malformedTree
  | truncatedPayload
  | mismatch
  | noEom
  | illegalCmd
  | badNode
  | nodeCap
  | depth
  | shared
  | dupLeaf
  | noTable
  | rootSymbol
deriving DecidableEq, Repr

/-- A node visited by a walk: its index, depth and path (R140). -/
structure Visit where
  index : BitVec 16
  depth : Nat
  path : Bits
deriving DecidableEq, Repr

/-- The cursor of a walk (R56, R140): the stack (top at the head), the visit count, the keys met, and the visits made, in
pre-order. -/
structure WalkState where
  stack : List Visit
  visits : Nat
  seen : List Nat
  order : List Visit
deriving DecidableEq, Repr

/-- The command a walk belongs to. -/
inductive WalkUse where
  | treeEnc
  | tableBuild
  | compress
deriving DecidableEq, Repr

/-- What follows once the bits being written are out: the end of TREE_ENC or SYM_ENC, the input loop of COMPRESS, or the
final flush of COMPRESS. -/
inductive AfterWrite where
  | treeEnc
  | symEnc
  | payload
  | flush
deriving DecidableEq, Repr

/-- Where a node that is about to be read hangs (R160): at the root, or at the left or right link of an entry. -/
inductive Slot where
  | root
  | leftOf (j : Nat)
  | rightOf (j : Nat)
deriving DecidableEq, Repr

/-- An open position of the tree being read, with its depth (R160). -/
structure Hole where
  slot : Slot
  depth : Nat
deriving DecidableEq, Repr

/-- The cursor of TREE_DEC (R56, R160): the next free index, the hole stack (top at the head), and the bits already read of
the node code in hand, which a hold inside a node code must keep (R83). -/
structure TreeCursor where
  n : Nat
  holes : List Hole
  code : Bits
deriving DecidableEq, Repr

/-- The sequencer's cursor (R56): which command runs, and how far it has come. -/
inductive Cursor where
  /-- Accepted, not yet begun: the whole written word (R24). -/
  | issued (w : Word)
  /-- A tree walk of TREE_ENC, TABLE_BUILD or COMPRESS (R140). -/
  | walk (u : WalkUse) (w : WalkState)
  /-- Bits still to be written to the sink (R79) by TREE_ENC, SYM_ENC or COMPRESS. -/
  | write (bits : Bits) (next : AfterWrite)
  /-- TREE_DEC, or with `composite` the tree phase of DECOMPRESS (R160, R225). -/
  | treeDec (composite : Bool) (c : TreeCursor)
  /-- The traversal of SYM_DEC, or with `composite` of DECOMPRESS: the current node and depth (R201). -/
  | traverse (composite : Bool) (i : BitVec 16) (d : Nat)
  /-- The loop of DRAIN_IN (R227). -/
  | drain
  /-- The input loop of COMPRESS (R224, phase 3). -/
  | payload
deriving DecidableEq, Repr

/-- The sequencer (R56): no command, a command that runs, or a command that waits in InRead (R83). -/
inductive Seq where
  | idle
  | running (c : Cursor)
  | held (c : Cursor)
deriving DecidableEq, Repr

/-- One turn of the interleaving of host and core (R14, R255). The host's turns are the bus actions of R123, the line `WAIT`,
which reads STATUS and stays until BUSY reads 0 (R124), an OUT byte taken (R290) and the reset input (R280); the core's turns
let it run to the command's end or hold (R15), or make one iteration of its pseudocode; in a pause no agent moves (R288). -/
inductive Event where
  | write (offset : BitVec 8) (v : Word)
  | read (offset : BitVec 8)
  | append (x : InItem)
  | wait
  | take
  | reset
  | core
  | tick
  | pause
deriving DecidableEq, Repr

/-- The state (R20), the channels (R73, R74) and the host's side (R14). -/
structure State where
  /-- The parameters, reported by CFG (R23). No step changes them. -/
  cfg : Config
  /-- STATUS.DONE (R26). -/
  done : Bool
  /-- The recorded error: ERR = 1 with its ERRCODE, or none (R27). -/
  err : Option ErrorCode
  /-- STATUS.TABLE_VALID (R28). -/
  tableValid : Bool
  /-- STATUS.RES_EOM (R29). -/
  resEom : Bool
  /-- STATUS.CMD_OVR (R30). -/
  cmdOvr : Bool
  /-- IE[2:0]: OVR_IE, ERR_IE, DONE_IE (R33). -/
  ie : BitVec 3
  /-- ROOT[15:0] (R34). -/
  root : BitVec 16
  /-- NODE_COUNT[16:0] (R35). -/
  nodeCount : BitVec 17
  /-- NODE_ADDR[15:0] (R36). -/
  nodeAddr : BitVec 16
  /-- NODE_LINK: LEFT in bits 15:0, RIGHT in bits 31:16 (R37). -/
  nodeLink : Word
  /-- SYMBOL[8:0] (R41). -/
  symbol : BitVec 9
  /-- RESULT[8:0] (R42). -/
  result : BitVec 9
  /-- OUT_BITS (R43). -/
  outBits : Word
  /-- IN_BITS (R44). -/
  inBits : Word
  /-- IN_LIMIT (R45). -/
  inLimit : Word
  /-- CODE_SEL.KEY (R47). -/
  codeKey : BitVec 9
  /-- CODE_SEL.WORD (R47). -/
  codeWord : BitVec 3
  /-- The node memory (R49). -/
  nodes : Memory
  /-- The code table (R52). -/
  codes : CodeTable
  /-- The bit sink's partial byte (R54). -/
  obuf : Byte
  /-- The number of bits in it (R54). -/
  ocnt : BitVec 3
  /-- The bit source's byte (R55). -/
  ibuf : Byte
  /-- The number of its bits not yet returned, 0 to 8 (R55). -/
  icnt : BitVec 4
  /-- The sequencer (R56). -/
  seq : Seq
  /-- The IN channel: the items not yet consumed, the next one first (R73). -/
  inq : List InItem
  /-- The OUT channel: the bytes the host has not taken, the oldest first (R74). -/
  out : List Byte
  /-- The turns still to come, the next one first (R255). -/
  events : List Event
  /-- The values the host's register reads returned, the oldest first. -/
  reads : List Word
  /-- The OUT bytes the host has taken, the oldest first (R290). -/
  taken : List Byte
  /-- The model's own counter of free draws (R66, I11). -/
  freeCount : Nat
deriving DecidableEq, Repr

/-- Why the machine stops with a fault. -/
inductive Fault where
  /-- Raised by D_BRANCH, D_EOM and D_LEAF, executed in a state in which no tree description is being read: they use the
  hole stack of the sequencer's cursor, which R56 leaves undefined there and I12 treats as a fault if it is read. `step`
  never raises it: it runs a node code only under TREE_DEC or DECOMPRESS. Safe. -/
  | cursorUndefined
deriving DecidableEq, Repr

/-- Why the machine refuses an instruction. -/
inductive Refusal where
  /-- Raised by no arm of `exec`: every instruction of the table has its meaning. Safe. -/
  | notModelled (mnemonic : String)
deriving DecidableEq, Repr

/-- What executing an instruction, or one step, answers. -/
abbrev Outcome := Host.Outcome State Fault Refusal

/-- The state after reset: the values of R281; the channels and the host's side, which no reset value of the spec covers,
are empty (notes/assumptions/4.md). -/
def State.reset : State where
  cfg := Config.hardware
  done := false
  err := none
  tableValid := false
  resEom := false
  cmdOvr := false
  ie := 0
  root := 0
  nodeCount := 0
  nodeAddr := 0
  nodeLink := 0
  symbol := 0
  result := 0
  outBits := 0
  inBits := 0
  inLimit := 0xFFFFFFFF
  codeKey := 0
  codeWord := 0
  nodes := []
  codes := []
  obuf := 0
  ocnt := 0
  ibuf := 0
  icnt := 0
  seq := .idle
  inq := []
  out := []
  events := []
  reads := []
  taken := []
  freeCount := 0

end Sys2Proof.Machine
end

