-- ==== Sys2Proof/Machine/Ops.lean ====
section
/-!
DEFINITION. The named operations every meaning is written over: the sparse tables, the node memory and the code table, the two
channels, the bit sink and the bit source (R76 to R84), and the sequencer's transitions: the acceptance of a command (R24), its
end in success (R26), its end in an error (R250) and the acknowledgement of that error (R257), the hold (R83), and the reset
event (R280).
-/

namespace Sys2Proof.Machine

/-! ### Sparse tables -/

/-- The entry listed under a key. -/
def tableGet {α : Type} : List (Nat × α) → Nat → Option α
  | [], _ => none
  | (k, v) :: rest, i => if i = k then some v else tableGet rest i

/-- Write the entry of a key, keeping the keys strictly rising. -/
def tablePut {α : Type} : List (Nat × α) → Nat → α → List (Nat × α)
  | [], i, x => [(i, x)]
  | (k, v) :: rest, i, x =>
    if i < k then (i, x) :: (k, v) :: rest
    else if i = k then (i, x) :: rest
    else (k, v) :: tablePut rest i x

/-- The canonical form of a sparse table: the keys are strictly rising from `lo` and below `hi`. -/
def tableWf {α : Type} (lo hi : Nat) : List (Nat × α) → Bool
  | [] => true
  | (k, _) :: rest => decide (lo ≤ k) && decide (k < hi) && tableWf (k + 1) hi rest

/-- The canonical form of the node memory: indices strictly rising, each below NODE_CAP (R71). Every listed entry has V = 1,
so none equals what an unlisted index reads as. -/
def Memory.wf (cap : Nat) (m : Memory) : Bool := tableWf 0 cap m

/-- The canonical form of the code table: keys strictly rising, each at most 256 (R72). -/
def CodeTable.wf (t : CodeTable) : Bool := tableWf 0 257 t

/-! ### Node entries -/

/-- The KIND that two bits code (R50). -/
def Kind.ofBits (b : BitVec 2) : Kind :=
  match b.toNat with
  | 0 => .eom
  | 1 => .leaf
  | 2 => .branch
  | _ => .reserved

/-- The KIND code (R50). -/
def Kind.toBits : Kind → BitVec 2
  | .eom => 0
  | .leaf => 1
  | .branch => 2
  | .reserved => 3

/-- The entry a walk or traversal may visit under an index: below NODE_CAP, V = 1, and not of the reserved kind. In every
other case the visitor raises E_BAD_NODE (R50, R140, R201). -/
def usableNode (cap : Nat) (m : Memory) (i : BitVec 16) : Option NodeEntry :=
  if cap ≤ i.toNat then none
  else
    match tableGet m i.toNat with
    | none => none
    | some e => if e.kind = .reserved then none else some e

/-- The key of a leaf entry: the symbol zero-extended, or 256 for the end-of-message marker (R120). -/
def NodeEntry.key (e : NodeEntry) : BitVec 9 :=
  if e.kind = .leaf then e.sym.setWidth 9 else 256

/-- The entry TREE_DEC writes at index `n` for a node code (R160). -/
def nodeOfCode (n : Nat) : NodeCode → NodeEntry
  | .branch => { kind := .branch, sym := 0, left := BitVec.ofNat 16 (n + 1), right := 0 }
  | .eom => { kind := .eom, sym := 0, left := 0, right := 0 }
  | .leaf s => { kind := .leaf, sym := s, left := 0, right := 0 }

/-- The bits TREE_ENC writes for an entry (R141): the node code of its kind. No walk visits a reserved entry. -/
def NodeEntry.codeBits (e : NodeEntry) : Bits :=
  match e.kind with
  | .branch => NodeCode.branch.bits
  | .leaf => (NodeCode.leaf e.sym).bits
  | .eom => NodeCode.eom.bits
  | .reserved => []

namespace State

/-- BUSY (R25). -/
def busy (s : State) : Bool := decide (s.seq ≠ .idle)

/-- HOLD_IN (R31). -/
def holdIn (s : State) : Bool :=
  match s.seq with
  | .held _ => true
  | _ => false

/-! ### Channels -/

/-- `OutWrite(b)` (R84). -/
def outWrite (b : Byte) (s : State) : State := { s with out := s.out ++ [b] }

/-- The host appends an item to IN (R73). A held InRead is retried from then on, and HOLD_IN falls (R83). -/
def appendIn (x : InItem) (s : State) : State :=
  { s with
    inq := s.inq ++ [x]
    seq := match s.seq with
      | .held c => .running c
      | q => q }

/-- The host takes the oldest byte of OUT, if there is one (R14, R290). -/
def takeOut (s : State) : State :=
  match s.out with
  | [] => s
  | b :: rest => { s with out := rest, taken := s.taken ++ [b] }

/-! ### The bit sink -/

end State

/-- `v[i] <- b`. -/
def setBit (v : Byte) (i : Nat) (b : Bool) : Byte :=
  (v &&& ~~~(1#8 <<< i)) ||| ((BitVec.ofBool b).setWidth 8 <<< i)

namespace State

/-- `BitWrite(b)` (R78). -/
def bitWrite (s : State) (b : Bool) : State :=
  let byte := setBit s.obuf (7 - s.ocnt.toNat) b
  if s.ocnt.toNat + 1 = 8 then
    { s with outBits := s.outBits + 1, obuf := 0, ocnt := 0 }.outWrite byte
  else
    { s with outBits := s.outBits + 1, obuf := byte, ocnt := s.ocnt + 1 }

/-- `WritePath(p)` and `WriteBits`: the bits of a sequence in order (R79). -/
def bitWrites (s : State) (bs : Bits) : State := bs.foldl bitWrite s

/-- `Flush()` (R80). -/
def sinkFlush (s : State) : State :=
  if s.ocnt = 0 then s else { s with obuf := 0, ocnt := 0 }.outWrite s.obuf

end State

/-! ### The bit source -/

/-- What `BitRead()` answers: a bit and the state after it, EXHAUSTED and the state after it, or a hold in InRead, which
changes no state (R81, R83). -/
inductive BitResult where
  | bit (b : Bool) (s : State)
  | exhausted (s : State)
  | hold
deriving DecidableEq, Repr

namespace State

/-- The part of `BitRead()` after the byte is in hand: return `IBUF[ICNT-1]` (R81). -/
def bitFromBuffer (s : State) : BitResult :=
  .bit (s.ibuf.getLsbD (s.icnt.toNat - 1)) { s with icnt := s.icnt - 1, inBits := s.inBits + 1 }

/-- `BitRead()` (R81). -/
def bitRead (s : State) : BitResult :=
  if s.inLimit ≤ s.inBits then .exhausted s
  else if s.icnt = 0 then
    match s.inq with
    | [] => .hold
    | .eos :: rest => .exhausted { s with inq := rest }
    | .byte b :: rest => { s with inq := rest, ibuf := b, icnt := 8 }.bitFromBuffer
  else s.bitFromBuffer

/-- An upper bound of the bits the source can still return without a further append. -/
def bitsAvail (s : State) : Nat := s.icnt.toNat + 8 * s.inq.length

/-! ### The sequencer -/

/-- The command goes on from a cursor. -/
def setCursor (c : Cursor) (s : State) : State := { s with seq := .running c }

/-- The command waits in InRead at a cursor: HOLD_IN = 1 (R83). -/
def holdAt (c : Cursor) (s : State) : State := { s with seq := .held c }

/-- The acceptance of a CMD write: BUSY ← 1, DONE ← 0, and the command named by the whole word starts (R24). -/
def accept (w : Word) (s : State) : State := { s with done := false, seq := .running (.issued w) }

/-- The command ends in success: BUSY ← 0 and DONE ← 1 in one step (R26, R17). -/
def succeed (s : State) : State := { s with done := true, seq := .idle }

/-- `raise Error(e)`: HOLD_IN ← 0, ERR ← 1, ERRCODE ← e, BUSY ← 0, DONE ← 1, all in one step; what the command did before
stays (R250). -/
def raise (e : ErrorCode) (s : State) : State := { s with err := some e, done := true, seq := .idle }

/-- The return from an error: ERR ← 0 and ERRCODE ← 0 together (R27, R257). -/
def ackError (s : State) : State := { s with err := none }

/-- The reset event: every piece of block state takes its reset value; the parameters, the channels and the host's side
stay (R280, R281). -/
def resetBlock (s : State) : State :=
  { State.reset with
    cfg := s.cfg
    inq := s.inq
    out := s.out
    events := s.events
    reads := s.reads
    taken := s.taken
    freeCount := s.freeCount }

/-! ### The code table -/

/-- `CODE[k].PATH`; an absent entry has the empty path (R52). -/
def codePath (k : Nat) (s : State) : Bits :=
  match tableGet s.codes k with
  | some e => e.path
  | none => []

end State

end Sys2Proof.Machine
end

