-- ==== Sys2Proof/Machine/Flags.lean ====
section
/-!
DEFINITION. The flags: the error codes (R251), the STATUS word (R25 to R31), its write-one-to-clear write (R32), and the
interrupt output (R258).
-/

namespace Sys2Proof.Machine

/-- The ERRCODE value of an error (R251). -/
def ErrorCode.code : ErrorCode → BitVec 8
  | .malformedTree => 0x01
  | .truncatedPayload => 0x02
  | .mismatch => 0x03
  | .noEom => 0x04
  | .illegalCmd => 0x05
  | .badNode => 0x06
  | .nodeCap => 0x07
  | .depth => 0x08
  | .shared => 0x09
  | .dupLeaf => 0x0A
  | .noTable => 0x0B
  | .rootSymbol => 0x0C

namespace State

/-- ERRCODE: 0x00 whenever ERR = 0 (R27). -/
def errCode (s : State) : BitVec 8 :=
  match s.err with
  | none => 0
  | some e => e.code

/-- One bit of a register word. -/
def flag (b : Bool) (i : Nat) : Word := (BitVec.ofBool b).setWidth 32 <<< i

/-- The STATUS word: BUSY 0, DONE 1, ERR 2, TABLE_VALID 3, RES_EOM 4, CMD_OVR 5, HOLD_IN 6, ERRCODE 15:8; the reserved bits
read 0 (R25 to R31, R63). -/
def statusWord (s : State) : Word :=
  flag s.busy 0 ||| flag s.done 1 ||| flag s.err.isSome 2 ||| flag s.tableValid 3 ||| flag s.resEom 4
    ||| flag s.cmdOvr 5 ||| flag s.holdIn 6 ||| (s.errCode.setWidth 32 <<< 8)

/-- A write of `w` to STATUS while BUSY = 0: bit 1 clears DONE, bit 2 clears ERR and ERRCODE, bit 5 clears CMD_OVR; the other
bits are ignored (R32). -/
def statusWrite (w : Word) (s : State) : State :=
  let s1 := if w.getLsbD 1 then { s with done := false } else s
  let s2 := if w.getLsbD 2 then s1.ackError else s1
  if w.getLsbD 5 then { s2 with cmdOvr := false } else s2

/-- The interrupt output, a level: DONE & DONE_IE, or ERR & ERR_IE, or CMD_OVR & OVR_IE (R258). -/
def interrupt (s : State) : Bool :=
  (s.done && s.ie.getLsbD 0) || (s.err.isSome && s.ie.getLsbD 1) || (s.cmdOvr && s.ie.getLsbD 2)

end State

end Sys2Proof.Machine
end

