-- ==== Sys2Proof/Machine/Operands.lean ====
section
/-!
DEFINITION. The register window (R21): the registers by offset, what a read returns (R22 to R48, R66) and what a write does
(R24 to R47, R60 to R65).
-/

namespace Sys2Proof.Machine

/-- The registers of the map (R21). -/
inductive Reg where
  | id
  | cfg
  | cmd
  | status
  | ie
  | root
  | nodeCount
  | nodeAddr
  | nodeLink
  | nodeData
  | nodeRdlink
  | symbol
  | result
  | outBits
  | inBits
  | inLimit
  | bitState
  | codeSel
  | codeInfo
  | codeData
deriving DecidableEq, Repr

/-- The register an access at an offset reaches: offset bits 1:0 are ignored (R85); 0x50 to 0xFC are reserved (R62). -/
def Reg.ofOffset (o : BitVec 8) : Option Reg :=
  match (o &&& 0xFC).toNat with
  | 0x00 => some .id
  | 0x04 => some .cfg
  | 0x08 => some .cmd
  | 0x0C => some .status
  | 0x10 => some .ie
  | 0x14 => some .root
  | 0x18 => some .nodeCount
  | 0x1C => some .nodeAddr
  | 0x20 => some .nodeLink
  | 0x24 => some .nodeData
  | 0x28 => some .nodeRdlink
  | 0x2C => some .symbol
  | 0x30 => some .result
  | 0x34 => some .outBits
  | 0x38 => some .inBits
  | 0x3C => some .inLimit
  | 0x40 => some .bitState
  | 0x44 => some .codeSel
  | 0x48 => some .codeInfo
  | 0x4C => some .codeData
  | _ => none

/-- The offset of a register (R21). -/
def Reg.offset : Reg → BitVec 8
  | .id => 0x00
  | .cfg => 0x04
  | .cmd => 0x08
  | .status => 0x0C
  | .ie => 0x10
  | .root => 0x14
  | .nodeCount => 0x18
  | .nodeAddr => 0x1C
  | .nodeLink => 0x20
  | .nodeData => 0x24
  | .nodeRdlink => 0x28
  | .symbol => 0x2C
  | .result => 0x30
  | .outBits => 0x34
  | .inBits => 0x38
  | .inLimit => 0x3C
  | .bitState => 0x40
  | .codeSel => 0x44
  | .codeInfo => 0x48
  | .codeData => 0x4C

/-! ### Operands and host word formats -/

/-- The constant ID reads (R22). -/
def idWord : Word := 0x48554631

/-- CFG: NODE_CAP in bits 15:0, DEPTH_CAP in bits 24:16 (R23). -/
def cfgWord (c : Config) : Word :=
  (BitVec.ofNat 16 c.nodeCap).setWidth 32 ||| ((BitVec.ofNat 9 c.depthCap).setWidth 32 <<< 16)

/-- NODEW as read: V 31, SYM 15:8, KIND 1:0 (R39, R121). -/
def nodeDataWord (e : NodeEntry) : Word :=
  0x80000000 ||| (e.sym.setWidth 32 <<< 8) ||| e.kind.toBits.setWidth 32

/-- LINKW: RIGHT 31:16, LEFT 15:0 (R40, R121). -/
def linkWord (e : NodeEntry) : Word := (e.right.setWidth 32 <<< 16) ||| e.left.setWidth 32

/-- CODEINFOW: PRESENT 31, LEN 8:0 (R48, R121). -/
def codeInfoWord (e : CodeEntry) : Word := 0x80000000 ||| e.len.setWidth 32

/-- Word `w` of a path in stream order: bit (31 - t) is path bit 32w + t, and 0 from LEN on (R48, R122). -/
def pathWord (e : CodeEntry) (w : Nat) : Word :=
  (List.range 32).foldl
    (fun v t => (v <<< 1) ||| (BitVec.ofBool (decide (32 * w + t < e.len.toNat) && e.path.getD (32 * w + t) false)).setWidth 32) 0

/-- The entry a NODE_DATA write stores: V 1, KIND w[1:0], SYM w[15:8], and both halves of NODE_LINK (R38). -/
def nodeOfWrite (w link : Word) : NodeEntry :=
  { kind := Kind.ofBits (w.extractLsb' 0 2), sym := w.extractLsb' 8 8, left := link.extractLsb' 0 16, right := link.extractLsb' 16 16 }

namespace State

/-- The key operand of SYM_ENC, SYMBOL[8:0] (R41, R120). -/
def symbolKey (s : State) : Nat := s.symbol.toNat

/-- The entry NODE_ADDR selects, if the address is below NODE_CAP and V = 1 (R36, R39). -/
def selectedNode (s : State) : Option NodeEntry :=
  if s.nodeAddr.toNat < s.cfg.nodeCap then tableGet s.nodes s.nodeAddr.toNat else none

/-- The present entry CODE_SEL selects, if the key is at most 256 (R47, R48). -/
def selectedCode (s : State) : Option CodeEntry :=
  if s.codeKey.toNat ≤ 256 then tableGet s.codes s.codeKey.toNat else none

/-- BITSTATE: OCNT 2:0, OBUF 15:8, ICNT 19:16, IBUF 31:24 (R46). -/
def bitStateWord (s : State) : Word :=
  s.ocnt.setWidth 32 ||| (s.obuf.setWidth 32 <<< 8) ||| (s.icnt.setWidth 32 <<< 16) ||| (s.ibuf.setWidth 32 <<< 24)

/-- CODE_SEL: KEY 8:0, WORD 18:16 (R47). -/
def codeSelWord (s : State) : Word := s.codeKey.setWidth 32 ||| (s.codeWord.setWidth 32 <<< 16)

/-- The exact value of a register (R22 to R48); CMD holds none and reads 0 (R24). -/
def regValue (s : State) : Reg → Word
  | .id => idWord
  | .cfg => cfgWord s.cfg
  | .cmd => 0
  | .status => s.statusWord
  | .ie => s.ie.setWidth 32
  | .root => s.root.setWidth 32
  | .nodeCount => s.nodeCount.setWidth 32
  | .nodeAddr => s.nodeAddr.setWidth 32
  | .nodeLink => s.nodeLink
  | .nodeData => match s.selectedNode with | some e => nodeDataWord e | none => 0
  | .nodeRdlink => match s.selectedNode with | some e => linkWord e | none => 0
  | .symbol => s.symbol.setWidth 32
  | .result => s.result.setWidth 32
  | .outBits => s.outBits
  | .inBits => s.inBits
  | .inLimit => s.inLimit
  | .bitState => s.bitStateWord
  | .codeSel => s.codeSelWord
  | .codeInfo => match s.selectedCode with | some e => codeInfoWord e | none => 0
  | .codeData => match s.selectedCode with | some e => pathWord e s.codeWord.toNat | none => 0

/-! ### Host accesses -/

/-- The registers whose read is exact while BUSY = 1 (R66). -/
def exactWhileBusy : Reg → Bool
  | .id => true
  | .cfg => true
  | .status => true
  | _ => false

/-- A host register read. A reserved offset reads 0 (R62). While BUSY = 1 a register other than STATUS, ID and CFG returns a
free draw (R66, I11); nothing but the host's own record and the draw counter changes (R87). -/
def hostRead (o : BitVec 8) (s : State) : State :=
  match Reg.ofOffset o with
  | none => { s with reads := s.reads ++ [0] }
  | some r =>
    if s.busy && !exactWhileBusy r then
      { s with reads := s.reads ++ [Config.freeRead s.freeCount], freeCount := s.freeCount + 1 }
    else { s with reads := s.reads ++ [s.regValue r] }

/-- A CMD write while BUSY = 0: accepted while ERR = 0 (R24), otherwise dropped with CMD_OVR (R61). -/
def writeCmd (v : Word) (s : State) : State :=
  if s.err.isSome then { s with cmdOvr := true } else s.accept v

/-- A NODE_DATA write while BUSY = 0 (R38). -/
def writeNodeData (v : Word) (s : State) : State :=
  if s.nodeAddr.toNat < s.cfg.nodeCap then
    { s with nodes := tablePut s.nodes s.nodeAddr.toNat (nodeOfWrite v s.nodeLink), tableValid := false }
  else s

/-- A write to a register while BUSY = 0. Reserved bits are ignored (R63); a write to a RO register is dropped (R65). -/
def writeReg (r : Reg) (v : Word) (s : State) : State :=
  match r with
  | .cmd => s.writeCmd v
  | .status => s.statusWrite v
  | .ie => { s with ie := v.extractLsb' 0 3 }
  | .root => { s with root := v.extractLsb' 0 16, tableValid := false }
  | .nodeAddr => { s with nodeAddr := v.extractLsb' 0 16 }
  | .nodeLink => { s with nodeLink := v }
  | .nodeData => s.writeNodeData v
  | .symbol => { s with symbol := v.extractLsb' 0 9 }
  | .inLimit => { s with inLimit := v }
  | .codeSel => { s with codeKey := v.extractLsb' 0 9, codeWord := v.extractLsb' 16 3 }
  | .id => s
  | .cfg => s
  | .nodeCount => s
  | .nodeRdlink => s
  | .result => s
  | .outBits => s
  | .inBits => s
  | .bitState => s
  | .codeInfo => s
  | .codeData => s

/-- A host register write. While BUSY = 1 it is dropped and only sets CMD_OVR (R60); a write to a reserved offset is dropped
and sets nothing (R62). -/
def hostWrite (o : BitVec 8) (v : Word) (s : State) : State :=
  if s.busy then { s with cmdOvr := true }
  else
    match Reg.ofOffset o with
    | none => s
    | some r => s.writeReg r v

end State

/-! ### The line WAIT -/

/-- The turns that may pass a `WAIT` whose read showed BUSY = 1: all but the lines of the host's program, which come after it
(R123, R124). -/
def Event.passesWait : Event → Bool
  | .write _ _ => false
  | .read _ => false
  | .append _ => false
  | .wait => false
  | .take => true
  | .reset => true
  | .core => true
  | .tick => true
  | .pause => true

/-- The schedule after a `WAIT` has read BUSY = 1: one turn passes it, the core's where the schedule has none to pass, and then
STATUS is read again (R124). -/
def waitAgain : List Event → List Event
  | [] => [.core, .wait]
  | x :: rest => if x.passesWait then x :: .wait :: rest else .core :: .wait :: x :: rest

/-- One read of `WAIT`, the line being off the schedule: it is over once BUSY reads 0, and repeated otherwise (R124). -/
def State.waitTurn (s : State) : State :=
  if s.busy then { s.hostRead Reg.status.offset with events := waitAgain s.events } else s.hostRead Reg.status.offset

end Sys2Proof.Machine
end

