-- ==== Sys2Proof/Machine/Walk.lean ====
section
/-!
DEFINITION. The validated pre-order walk (R140) that TREE_ENC, TABLE_BUILD and COMPRESS share.
-/

namespace Sys2Proof.Machine

/-- The walk's cursor before the first visit: the root at depth 0 with the empty path (R140). -/
def WalkState.start (root : BitVec 16) : WalkState :=
  { stack := [{ index := root, depth := 0, path := [] }], visits := 0, seen := [], order := [] }

/-- One visit, of the node `v` popped from the stack: the checks in their order (E_BAD_NODE, E_DEPTH, E_SHARED, E_DUP_LEAF),
and the cursor after it (R140). A branch pushes its right child, then its left, so the left is visited first. -/
def walkVisit (cfg : Config) (m : Memory) (dup : Bool) (v : Visit) (rest : List Visit) (w : WalkState) :
    Except ErrorCode WalkState :=
  match usableNode cfg.nodeCap m v.index with
  | none => .error .badNode
  | some e =>
    if cfg.depthCap < v.depth then .error .depth
    else if cfg.nodeCap < w.visits + 1 then .error .shared
    else if e.kind = .branch then
      .ok { stack := { index := e.left, depth := v.depth + 1, path := v.path ++ [false] }
              :: { index := e.right, depth := v.depth + 1, path := v.path ++ [true] } :: rest
            visits := w.visits + 1
            seen := w.seen
            order := w.order ++ [v] }
    else if dup && w.seen.contains e.key.toNat then .error .dupLeaf
    else
      .ok { stack := rest
            visits := w.visits + 1
            seen := if dup then e.key.toNat :: w.seen else w.seen
            order := w.order ++ [v] }

/-- The rest of a walk, from a cursor. The fuel bounds the visits; `walk` gives one more than NODE_CAP, the visit at which
E_SHARED is raised, so the case of no fuel left never arises in it. -/
def walkLoop (cfg : Config) (m : Memory) (dup : Bool) : Nat → WalkState → Except ErrorCode (List Visit)
  | fuel, w =>
    match w.stack with
    | [] => .ok w.order
    | v :: rest =>
      match fuel with
      | 0 => .error .shared
      | fuel + 1 =>
        match walkVisit cfg m dup v rest w with
        | .error e => .error e
        | .ok w' => walkLoop cfg m dup fuel w'

/-- A walk run to its end from a cursor. -/
def State.walkFrom (s : State) (dup : Bool) (w : WalkState) : Except ErrorCode (List Visit) :=
  walkLoop s.cfg s.nodes dup (s.cfg.nodeCap + 1) w

/-- `Walk(ROOT, checkDup)` (R140). -/
def State.walk (s : State) (dup : Bool) : Except ErrorCode (List Visit) := s.walkFrom dup (WalkState.start s.root)

end Sys2Proof.Machine
end

