-- ==== Sys2Proof/Machine/SymEnc.lean ====
section
/-!
DEFINITION. huffman_symbol_encoder: TABLE_BUILD (R180 to R183) and SYM_ENC (R184).
-/

namespace Sys2Proof.Machine

/-- The code table with the entry of one visit: a leaf's key gets its depth and path; a branch gets none (R180). -/
def codeOfVisit (m : Memory) (t : CodeTable) (v : Visit) : CodeTable :=
  match tableGet m v.index.toNat with
  | none => t
  | some e =>
    match e.kind with
    | .leaf => tablePut t e.key.toNat { len := BitVec.ofNat 9 v.depth, path := v.path }
    | .eom => tablePut t e.key.toNat { len := BitVec.ofNat 9 v.depth, path := v.path }
    | .branch => t
    | .reserved => t

/-- The code table of a walk's visits, from a table with every entry absent (R180). -/
def codesOf (m : Memory) (order : List Visit) : CodeTable := order.foldl (codeOfVisit m) []

namespace State

/-- TABLE_BUILD's start: TABLE_VALID ← 0 and every entry absent (R180). -/
def clearTable (s : State) : State := { s with tableValid := false, codes := [] }

/-- TABLE_BUILD's end: the entries of the visits, and TABLE_VALID ← 1 (R180). -/
def fillTable (s : State) (order : List Visit) : State :=
  { s with codes := codesOf s.nodes order, tableValid := true }

/-- TABLE_BUILD from its walk's result on (R180). -/
def tableBuildAfter (s : State) (r : Except ErrorCode (List Visit)) : State :=
  match r with
  | .error e => s.raise e
  | .ok order => (s.fillTable order).succeed

/-- TABLE_BUILD begun: the table is cleared and the walk is about to visit the root. -/
def beginTableBuild (s : State) : State := s.clearTable.setCursor (.walk .tableBuild (WalkState.start s.root))

/-- SYM_ENC's checks and look-up: E_NO_TABLE, then E_MISMATCH, then the path of the key in SYMBOL (R184). -/
def symEncPath (s : State) : Except ErrorCode Bits :=
  if s.tableValid = false then .error .noTable
  else if 256 < s.symbolKey then .error .mismatch
  else
    match tableGet s.codes s.symbolKey with
    | none => .error .mismatch
    | some e => .ok e.path

/-- SYM_ENC begun: the checks are made and the path is about to be written. -/
def beginSymEnc (s : State) : State :=
  match s.symEncPath with
  | .error e => s.raise e
  | .ok p => s.setCursor (.write p .symEnc)

end State

/-- TABLE_BUILD (R180). -/
def execTableBuild (s : State) : Outcome := .next (s.clearTable.tableBuildAfter (s.clearTable.walk true))

/-- SYM_ENC (R184). -/
def execSymEnc (s : State) : Outcome :=
  match s.symEncPath with
  | .error e => .next (s.raise e)
  | .ok p => .next (s.bitWrites p).succeed

end Sys2Proof.Machine
end

