-- ==== Sys2Proof/Machine/SymDec.lean ====
section
/-!
DEFINITION. huffman_bitstream_decoder: the traversal (R201, R202) and SYM_DEC (R200). The same traversal serves DECOMPRESS
(R225), told apart by `composite`.
-/

namespace Sys2Proof.Machine

namespace State

/-- The start of a traversal: the root's checks, E_BAD_NODE and then E_ROOT_SYMBOL, before any bit is read (R201, R202). -/
def enterTraverse (composite : Bool) (s : State) : State :=
  match usableNode s.cfg.nodeCap s.nodes s.root with
  | none => s.raise .badNode
  | some e => if e.kind = .leaf then s.raise .rootSymbol else s.setCursor (.traverse composite s.root 0)

/-- RESULT ← k, RES_EOM ← (k = 256), and the end in success (R200, R225). -/
def endWithKey (k : BitVec 9) (s : State) : State :=
  { s with result := k, resEom := decide (k = 256) }.succeed

/-- A leaf of key `k` is reached. SYM_DEC ends with the key (R200); DECOMPRESS ends at the end-of-message marker, and
otherwise writes the symbol to OUT and starts the next traversal (R225). -/
def leafReached (composite : Bool) (k : BitVec 9) (s : State) : State :=
  if composite then
    if k = 256 then s.endWithKey 256 else (s.outWrite (k.setWidth 8)).enterTraverse true
  else s.endWithKey k

/-- The node a traversal moves to after a bit: 0 to the left, 1 to the right (R125), one deeper; then E_BAD_NODE and E_DEPTH
in this order (R201). -/
def moveTo (composite : Bool) (e : NodeEntry) (b : Bool) (d : Nat) (s : State) : State :=
  let j := if b then e.right else e.left
  match usableNode s.cfg.nodeCap s.nodes j with
  | none => s.raise .badNode
  | some _ => if s.cfg.depthCap < d + 1 then s.raise .depth else s.setCursor (.traverse composite j (d + 1))

/-- One iteration of the traversal's loop, at node `i` and depth `d` (R201). -/
def traverseTick (composite : Bool) (i : BitVec 16) (d : Nat) (s : State) : State :=
  match usableNode s.cfg.nodeCap s.nodes i with
  | none => s.raise .badNode
  | some e =>
    if e.kind = .branch then
      match s.bitRead with
      | .hold => s.holdAt (.traverse composite i d)
      | .exhausted s' => s'.raise .truncatedPayload
      | .bit b s' => s'.moveTo composite e b d
    else s.leafReached composite e.key

/-- The loop of the traversals while the command runs in one. -/
def traverseLoop : Nat → State → State
  | 0, s => s
  | fuel + 1, s =>
    match s.seq with
    | .running (.traverse composite i d) => traverseLoop fuel (s.traverseTick composite i d)
    | _ => s

/-- The traversals run to the command's end or hold. A bit read takes one iteration, and from a leaf at most two lead back to
a branch or to the end, so three times the bits the source can return, and three, is more than the loop can use. -/
def traverseRun (s : State) : State := traverseLoop (3 * s.bitsAvail + 3) s

end State

/-- SYM_DEC (R200). -/
def execSymDec (s : State) : Outcome := .next (s.enterTraverse false).traverseRun

end Sys2Proof.Machine
end

