-- ==== Sys2Proof/Machine/TreeDec.lean ====
section
/-!
DEFINITION. huffman_tree_decoder: reading and placing node codes (R113 to R117, R160), TREE_DEC (R160 to R165), and the
meanings of the three node codes, each the iteration of R160's loop that the code selects.
-/

namespace Sys2Proof.Machine

/-- What reading one node description answers: a complete node code and the state after its last bit, a hold with the bits
read so far, or the error that ends the command (R160). -/
inductive NodeFetch where
  | code (k : NodeCode) (s : State)
  | hold (code : Bits) (s : State)
  | fail (e : ErrorCode) (s : State)
deriving DecidableEq, Repr

/-- The check made once a node's first bit is read: E_NODE_CAP, then E_DEPTH (R160, R254). -/
def firstBitCheck (cfg : Config) (n d : Nat) : Option ErrorCode :=
  if cfg.nodeCap ≤ n then some .nodeCap
  else if cfg.depthCap < d then some .depth
  else none

/-- Read the bits of one node description, `code` being those already read; `n` and `d` are the node's index and depth
(R160). A node code has at most 10 bits (R116), which the fuel bounds. -/
def readNode (n d : Nat) : Nat → Bits → State → NodeFetch
  | 0, _, s => .fail .malformedTree s
  | fuel + 1, code, s =>
    match s.bitRead with
    | .hold => .hold code s
    | .exhausted s' => .fail .malformedTree s'
    | .bit b s' =>
      match if code = [] then firstBitCheck s'.cfg n d else none with
      | some e => .fail e s'
      | none =>
        match decodeNode (code ++ [b]) with
        | .ok (k, _) => .code k s'
        | .error _ => readNode n d fuel (code ++ [b]) s'

/-- The memory with the right link of entry `j` set to `n` (R160, `NODE[j].RIGHT <- n`). -/
def setRight (m : Memory) (j n : Nat) : Memory :=
  match tableGet m j with
  | some e => tablePut m j { e with right := BitVec.ofNat 16 n }
  | none => m

/-- The holes a node code opens: a branch opens its left and its right subtree, the left on top (R160). -/
def openHoles (n d : Nat) (rest : List Hole) : NodeCode → List Hole
  | .branch => { slot := .leftOf n, depth := d + 1 } :: { slot := .rightOf n, depth := d + 1 } :: rest
  | .eom => rest
  | .leaf _ => rest

/-- The link to the new entry `n`: only a right link needs a write, a left link is already right (R160). -/
def linkSlot (m : Memory) (slot : Slot) (n : Nat) : Memory :=
  match slot with
  | .root => m
  | .leftOf _ => m
  | .rightOf j => setRight m j n

namespace State

/-- The rest of one iteration of R160's loop once the node code is known: the entry is written at the next free index, its
holes are opened, its parent is linked to it, and the next free index advances. There is no such iteration, and no cursor to
use, unless a tree description is being read with a hole open (R56, I12). -/
def placeNode (k : NodeCode) (s : State) : Option State :=
  match s.seq with
  | .running (.treeDec composite c) =>
    match c.holes with
    | [] => none
    | h :: rest =>
      some { s with
        nodes := linkSlot (tablePut s.nodes c.n (nodeOfCode c.n k)) h.slot c.n
        seq := .running (.treeDec composite
          { n := c.n + 1, holes := openHoles c.n h.depth rest k, code := [] }) }
  | _ => none

/-- `fail(e)` of R160: every V ← 0, NODE_COUNT ← 0, and the error. -/
def failTree (e : ErrorCode) (s : State) : State := { s with nodes := [], nodeCount := 0 }.raise e

/-- The start of TREE_DEC, or of DECOMPRESS: every V ← 0, TABLE_VALID ← 0, NODE_COUNT ← 0, ROOT ← 0, and one hole, the root
(R160). -/
def beginTreeDec (composite : Bool) (s : State) : State :=
  { s with nodes := [], tableValid := false, nodeCount := 0, root := 0 }.setCursor
    (.treeDec composite { n := 0, holes := [{ slot := .root, depth := 0 }], code := [] })

/-- No hole is left: NODE_COUNT ← n; TREE_DEC ends in success (R160), and DECOMPRESS starts its first traversal (R225). -/
def finishTree (composite : Bool) (n : Nat) (s : State) : State :=
  let s1 := { s with nodeCount := BitVec.ofNat 17 n }
  if composite then s1.enterTraverse true else s1.succeed

/-- The node description that the tree decoder is about to read, if one is open. -/
def fetchNode (c : TreeCursor) (s : State) : Option NodeFetch :=
  match c.holes with
  | [] => none
  | h :: _ => some (readNode c.n h.depth 10 c.code s)

/-- The tree decoder's move when no node code completes: no hole is left, or the source holds or fails inside one (R160). -/
def treeDecStop (composite : Bool) (c : TreeCursor) (f : Option NodeFetch) (s : State) : State :=
  match f with
  | none => s.finishTree composite c.n
  | some (.hold code s') => s'.holdAt (.treeDec composite { c with code := code })
  | some (.fail e s') => s'.failTree e
  | some (.code _ s') => s'

/-- One iteration of R160's loop. -/
def treeDecTick (composite : Bool) (c : TreeCursor) (s : State) : State :=
  match s.fetchNode c with
  | some (.code k s') => (s'.placeNode k).getD s'
  | f => s.treeDecStop composite c f

/-- R160's loop while the command runs in it. -/
def treeDecLoop : Nat → State → State
  | 0, s => s
  | fuel + 1, s =>
    match s.seq with
    | .running (.treeDec composite c) => treeDecLoop fuel (s.treeDecTick composite c)
    | _ => s

/-- The tree decoder run to the command's end or hold; DECOMPRESS goes on with its traversals. Every iteration places one of
at most NODE_CAP nodes or ends the loop, so NODE_CAP and two is more than the loop can use. -/
def treeDecRun (s : State) : State := (treeDecLoop (s.cfg.nodeCap + 2) s).traverseRun

end State

/-- TREE_DEC (R160). -/
def execTreeDec (s : State) : Outcome := .next (s.beginTreeDec false).treeDecRun

/-- D_BRANCH: the tree decoder has read the bit `1` (R113): the iteration of R160 for a branch. -/
def execDBranch (s : State) : Outcome :=
  match s.placeNode .branch with
  | some t => .next t
  | none => .fault .cursorUndefined

/-- D_EOM: the tree decoder has read the bits `00` (R114): the iteration of R160 for the end-of-message leaf. -/
def execDEom (s : State) : Outcome :=
  match s.placeNode .eom with
  | some t => .next t
  | none => .fault .cursorUndefined

/-- D_LEAF: the tree decoder has read `01` and the symbol's bits (R115): the iteration of R160 for a symbol leaf. -/
def execDLeaf (sym : Byte) (s : State) : Outcome :=
  match s.placeNode (.leaf sym) with
  | some t => .next t
  | none => .fault .cursorUndefined

end Sys2Proof.Machine
end

