-- ==== Sys2Proof/Machine/TreeEnc.lean ====
section
/-!
DEFINITION. TREE_ENC (R141 to R143).
-/

namespace Sys2Proof.Machine

/-- The bits a walk's visits describe, in visiting order (R141). -/
def descBits (m : Memory) (order : List Visit) : Bits :=
  order.flatMap fun v =>
    match tableGet m v.index.toNat with
    | some e => e.codeBits
    | none => []

/-- TREE_ENC from its walk's result on: an error ends it before any bit is written; otherwise the description goes into the
sink, with no flush (R141, R143). -/
def State.treeEncAfter (s : State) (r : Except ErrorCode (List Visit)) : State :=
  match r with
  | .error e => s.raise e
  | .ok order => (s.bitWrites (descBits s.nodes order)).succeed

/-- TREE_ENC begun: its walk is about to visit the root. -/
def State.beginTreeEnc (s : State) : State := s.setCursor (.walk .treeEnc (WalkState.start s.root))

/-- TREE_ENC (R141). -/
def execTreeEnc (s : State) : Outcome := .next (s.treeEncAfter (s.walk false))

end Sys2Proof.Machine
end

