-- ==== Sys2Proof/Machine/Codec.lean ====
section
/-!
DEFINITION. The composite commands COMPRESS (R224) and DECOMPRESS (R225).
-/

namespace Sys2Proof.Machine

/-- The input loop of COMPRESS over the items IN holds, and what follows it (R224, phase 3): each byte's path is written; EOS
is consumed and ends the input, then the end-of-message path is written and the sink flushed; a byte with no entry ends the
command in E_MISMATCH, itself consumed; with IN empty the command holds. -/
def payloadLoop : List InItem → State → State
  | [], s => { s with inq := [] }.holdAt .payload
  | .eos :: rest, s => ({ s with inq := rest }.bitWrites (s.codePath 256)).sinkFlush.succeed
  | .byte b :: rest, s =>
    match tableGet s.codes b.toNat with
    | none => { s with inq := rest }.raise .mismatch
    | some e => payloadLoop rest ({ s with inq := rest }.bitWrites e.path)

namespace State

/-- COMPRESS's input loop run to the command's end or hold. -/
def payloadRun (s : State) : State := payloadLoop s.inq s

/-- One iteration of COMPRESS's input loop: the bits it has to write become the cursor (R224). -/
def payloadTick (s : State) : State :=
  match s.inq with
  | [] => s.holdAt .payload
  | .eos :: rest => { s with inq := rest }.setCursor (.write (s.codePath 256) .flush)
  | .byte b :: rest =>
    match tableGet s.codes b.toNat with
    | none => { s with inq := rest }.raise .mismatch
    | some e => { s with inq := rest }.setCursor (.write e.path .payload)

/-- COMPRESS from its walk's result on: the rest of phase 1, which ends in the walk's error or in E_NO_EOM with no bit
written; the tree description, from the same walk; then the input (R224). -/
def compressAfter (s : State) (r : Except ErrorCode (List Visit)) : State :=
  match r with
  | .error e => s.raise e
  | .ok order =>
    match tableGet (s.fillTable order).codes 256 with
    | none => (s.fillTable order).raise .noEom
    | some _ => ((s.fillTable order).bitWrites (descBits s.nodes order)).payloadRun

/-- COMPRESS begun: the table is cleared and the walk of phase 1 is about to visit the root. -/
def beginCompress (s : State) : State := s.clearTable.setCursor (.walk .compress (WalkState.start s.root))

end State

/-- COMPRESS (R224). -/
def execCompress (s : State) : Outcome := .next (s.clearTable.compressAfter (s.clearTable.walk true))

/-- DECOMPRESS (R225). -/
def execDecompress (s : State) : Outcome := .next (s.beginTreeDec true).treeDecRun

end Sys2Proof.Machine
end

