-- ==== Sys2Proof/Machine/Control.lean ====
section
/-!
DEFINITION. The control commands NOP, FLUSH, SINK_RESET, SOURCE_RESET and DRAIN_IN (R220 to R223, R227), and the
illegal-command behaviour (R226).
-/

namespace Sys2Proof.Machine

/-- NOP (R220). -/
def execNop (s : State) : Outcome := .next s.succeed

/-- FLUSH (R221). -/
def execFlush (s : State) : Outcome := .next s.sinkFlush.succeed

/-- SINK_RESET (R222). -/
def execSinkReset (s : State) : Outcome := .next { s with obuf := 0, ocnt := 0, outBits := 0 }.succeed

/-- SOURCE_RESET (R223). -/
def execSourceReset (s : State) : Outcome := .next { s with ibuf := 0, icnt := 0, inBits := 0 }.succeed

/-- An accepted word outside the opcode map: E_ILLEGAL_CMD at once, and no other effect (R226). -/
def State.illegalCommand (s : State) : State := s.raise .illegalCmd

/-- The loop of DRAIN_IN over the items IN holds: every item up to and including EOS is consumed; without an EOS it holds
(R227). -/
def drainLoop : List InItem → State → State
  | [], s => { s with inq := [] }.holdAt .drain
  | .eos :: rest, s => { s with inq := rest }.succeed
  | .byte _ :: rest, s => drainLoop rest s

/-- DRAIN_IN run to its end or hold. -/
def State.drainRun (s : State) : State := drainLoop s.inq s

/-- One iteration of DRAIN_IN's loop (R227). -/
def State.drainTick (s : State) : State :=
  match s.inq with
  | [] => s.holdAt .drain
  | .eos :: rest => { s with inq := rest }.succeed
  | .byte _ :: rest => { s with inq := rest }

/-- DRAIN_IN (R227). -/
def execDrainIn (s : State) : Outcome := .next s.drainRun

end Sys2Proof.Machine
end

