-- ==== Sys2Proof/Machine/Dispatch.lean ====
section
/-!
DEFINITION. The meaning of each instruction, one arm a constructor.
-/

namespace Sys2Proof.Machine

def exec (i : Instr) (s : State) : Host.Outcome State Fault Refusal :=
  match i with
  | .nop => Sys2Proof.Machine.execNop s
  | .treeEnc => Sys2Proof.Machine.execTreeEnc s
  | .treeDec => Sys2Proof.Machine.execTreeDec s
  | .tableBuild => Sys2Proof.Machine.execTableBuild s
  | .symEnc => Sys2Proof.Machine.execSymEnc s
  | .symDec => Sys2Proof.Machine.execSymDec s
  | .flush => Sys2Proof.Machine.execFlush s
  | .compress => Sys2Proof.Machine.execCompress s
  | .decompress => Sys2Proof.Machine.execDecompress s
  | .sinkReset => Sys2Proof.Machine.execSinkReset s
  | .sourceReset => Sys2Proof.Machine.execSourceReset s
  | .drainIn => Sys2Proof.Machine.execDrainIn s
  | .dBranch => Sys2Proof.Machine.execDBranch s
  | .dEom => Sys2Proof.Machine.execDEom s
  | .dLeaf sym => Sys2Proof.Machine.execDLeaf sym s

end Sys2Proof.Machine
end

