-- ==== Sys2Proof/Machine/Sequencer.lean ====
section
/-!
DEFINITION. The sequencer (R56): how a command goes on from its cursor, either to its end or its next hold in one transition
(R15), or by one iteration of its pseudocode, and where the command or node code that comes next is fetched from.
-/

namespace Sys2Proof.Machine

namespace State

/-- What follows written bits, run to the command's end or hold. -/
def afterWrite (next : AfterWrite) (s : State) : State :=
  match next with
  | .treeEnc => s.succeed
  | .symEnc => s.succeed
  | .payload => s.payloadRun
  | .flush => s.sinkFlush.succeed

/-- What follows a walk, run to the command's end or hold (R141, R180, R224). -/
def afterWalk (u : WalkUse) (r : Except ErrorCode (List Visit)) (s : State) : State :=
  match u with
  | .treeEnc => s.treeEncAfter r
  | .tableBuild => s.tableBuildAfter r
  | .compress => s.compressAfter r

/-- Whether a walk looks for repeated keys: all but TREE_ENC's (R141, R180, R224). -/
def walkDup : WalkUse → Bool
  | .treeEnc => false
  | .tableBuild => true
  | .compress => true

/-- The running command, from its cursor to its end or its next hold (R15). A command not yet begun starts in `exec`. -/
def resume (s : State) : State :=
  match s.seq with
  | .idle => s
  | .held _ => s
  | .running (.issued _) => s
  | .running (.walk u w) => s.afterWalk u (s.walkFrom (walkDup u) w)
  | .running (.write bs next) => (s.bitWrites bs).afterWrite next
  | .running (.treeDec _ _) => s.treeDecRun
  | .running (.traverse _ _ _) => s.traverseRun
  | .running .drain => s.drainRun
  | .running .payload => s.payloadRun

/-- Written bits are out: the next move of the command. -/
def afterWriteTick (next : AfterWrite) (s : State) : State :=
  match next with
  | .treeEnc => s.succeed
  | .symEnc => s.succeed
  | .payload => s.setCursor .payload
  | .flush => s.sinkFlush.succeed

/-- A walk has ended: the next move of its command (R141, R180, R224). -/
def afterWalkTick (u : WalkUse) (r : Except ErrorCode (List Visit)) (s : State) : State :=
  match r with
  | .error e => s.raise e
  | .ok order =>
    match u with
    | .treeEnc => s.setCursor (.write (descBits s.nodes order) .treeEnc)
    | .tableBuild => (s.fillTable order).succeed
    | .compress =>
      match tableGet (s.fillTable order).codes 256 with
      | none => (s.fillTable order).raise .noEom
      | some _ => (s.fillTable order).setCursor (.write (descBits s.nodes order) .payload)

/-- One visit of a walk, or what follows its last (R140). -/
def walkTick (u : WalkUse) (w : WalkState) (s : State) : State :=
  match w.stack with
  | [] => s.afterWalkTick u (.ok w.order)
  | v :: rest =>
    match walkVisit s.cfg s.nodes (walkDup u) v rest w with
    | .error e => s.afterWalkTick u (.error e)
    | .ok w' => s.setCursor (.walk u w')

/-- One bit written, or what follows the last (R79). -/
def writeTick (bs : Bits) (next : AfterWrite) (s : State) : State :=
  match bs with
  | [] => s.afterWriteTick next
  | b :: rest => (s.bitWrite b).setCursor (.write rest next)

/-- The running command, by one iteration of its pseudocode. A command not yet begun starts in `start`, and a complete node
code is carried out by `exec`. -/
def tick (s : State) : State :=
  match s.seq with
  | .idle => s
  | .held _ => s
  | .running (.issued _) => s
  | .running (.walk u w) => s.walkTick u w
  | .running (.write bs next) => s.writeTick bs next
  | .running (.treeDec composite c) => s.treeDecTick composite c
  | .running (.traverse composite i d) => s.traverseTick composite i d
  | .running .drain => s.drainTick
  | .running .payload => s.payloadTick

/-- The node code the running tree decoder reads next, and the state after its last bit, if the bit source completes one
(R116, R160). -/
def fetchCode (s : State) : Option (NodeCode × State) :=
  match s.seq with
  | .running (.treeDec _ c) =>
    match s.fetchNode c with
    | some (.code k s') => some (k, s')
    | _ => none
  | _ => none

/-- The word of a command that is accepted and not yet begun (R24, R93). -/
def fetchCommand (s : State) : Option Word :=
  match s.seq with
  | .running (.issued w) => some w
  | _ => none

end State

/-- The first move of a command: the commands with a loop take their first cursor, the others are done at once. -/
def start (i : Instr) (s : State) : Outcome :=
  match i with
  | .nop => execNop s
  | .treeEnc => .next s.beginTreeEnc
  | .treeDec => .next (s.beginTreeDec false)
  | .tableBuild => .next s.beginTableBuild
  | .symEnc => .next s.beginSymEnc
  | .symDec => .next (s.enterTraverse false)
  | .flush => execFlush s
  | .compress => .next s.beginCompress
  | .decompress => .next (s.beginTreeDec true)
  | .sinkReset => execSinkReset s
  | .sourceReset => execSourceReset s
  | .drainIn => .next (s.setCursor .drain)
  | .dBranch => execDBranch s
  | .dEom => execDEom s
  | .dLeaf sym => execDLeaf sym s

end Sys2Proof.Machine
end

