-- ==== Sys2Proof/Machine/Fetch.lean ====
section
/-!
DEFINITION. The host's loading of one table row's bits where the machine fetches its next instruction from.
-/

namespace Sys2Proof.Machine

/-- The state in which the word `w` has just been accepted by CMD (R24) and the next turn is the core's. -/
def State.withCommand (s : State) (w : Word) : State :=
  { s with err := none, events := .core :: s.events }.accept w

/-- The state in which a TREE_DEC has just begun (R160), the bit source stands before the given bytes, IN_LIMIT is the default
and the next turn is one iteration of the core. -/
def State.withNodeCode (s : State) (bs : List Byte) : State :=
  { s with
    err := none
    done := false
    ibuf := 0
    icnt := 0
    inBits := 0
    inLimit := 0xFFFFFFFF
    inq := bs.map InItem.byte ++ s.inq
    events := .tick :: s.events }.beginTreeDec false

end Sys2Proof.Machine
end

