-- ==== Sys2Proof/Machine/Step.lean ====
section
/-!
DEFINITION. One step: the next turn of the interleaving (R14, R255). With no turn queued it is the core's, which runs its
command to its end or hold (R15); an idle or held core leaves the state as it is.
-/

namespace Sys2Proof.Machine

/-- The core's turn: an accepted command is decoded and executed whole, to its end or its first hold (R15); a command under way
goes on to its end or its next hold. -/
def State.coreTurn (s : State) : Outcome :=
  match s.fetchCommand with
  | some w =>
    match decodeWord w with
    | .ok i => exec i s
    | .error _ => .next s.illegalCommand
  | none => .next s.resume

/-- The core's turn for one iteration: an accepted command is decoded and begun; the tree decoder reads a node code and
executes it; any other loop makes one iteration. -/
def State.coreTick (s : State) : Outcome :=
  match s.fetchCommand with
  | some w =>
    match decodeWord w with
    | .ok i => start i s
    | .error _ => .next s.illegalCommand
  | none =>
    match s.fetchCode with
    | some (k, s') => exec k.toInstr s'
    | none => .next s.tick

/-- One step. -/
def step (s : State) : Host.Outcome State Fault Refusal :=
  match s.events with
  | [] => s.coreTurn
  | ev :: rest =>
    match ev with
    | .write o v => .next ({ s with events := rest }.hostWrite o v)
    | .read o => .next ({ s with events := rest }.hostRead o)
    | .append x => .next ({ s with events := rest }.appendIn x)
    | .wait => .next { s with events := rest }.waitTurn
    | .take => .next { s with events := rest }.takeOut
    | .reset => .next { s with events := rest }.resetBlock
    | .core => { s with events := rest }.coreTurn
    | .tick => { s with events := rest }.coreTick
    | .pause => .next { s with events := rest }

/-- The table row's bits stored where the next step fetches an instruction: a command word as just accepted by CMD, a node code
in the bit source of a TREE_DEC that has just begun. -/
def State.withFetchWord (s : State) (nbits w : Nat) : State :=
  if nbits ≤ 16 then s.withNodeCode (tableBytes w) else s.withCommand (BitVec.ofNat 32 w)

end Sys2Proof.Machine
end

