-- ==== Sys2Proof/Machine/Program.lean ====
section
/-!
DEFINITION. The host's program lines (R123) are the host's events (`Event.write`, `Event.read`, `Event.append`); here are the
pseudo-instructions, expanded (R124). `WAIT`, which has no bound, is an event of its own (`Event.wait`).
-/

namespace Sys2Proof.Machine

/-- `CMD <MNEMONIC>`: write the command's word to CMD. A node code is no command and has no such line. -/
def hostCmd (i : Instr) : List Event :=
  match encode i with
  | .word w => [.write Reg.cmd.offset w]
  | .bits _ => []

/-- `WAIT`: STATUS is read until BUSY reads 0 (`State.waitTurn`). How often is unspecified, at least once (R124, I17): `polls` is how
often it is read before the core's turn, the pauses letting it be read again. -/
def hostWait : Nat → List Event
  | 0 => [.core, .wait]
  | polls + 1 => .wait :: List.replicate polls .pause

/-- `RUN <MNEMONIC>`. -/
def hostRun (i : Instr) (polls : Nat) : List Event := hostCmd i ++ hostWait polls

/-- `ACK`: clears DONE, ERR with ERRCODE, and CMD_OVR. -/
def hostAck : List Event := [.write Reg.status.offset 0x00000026]

/-- `NODE <i>, BRANCH, <l>, <r>`. -/
def hostNodeBranch (i l r : BitVec 16) : List Event :=
  [.write Reg.nodeAddr.offset (i.setWidth 32),
    .write Reg.nodeLink.offset ((r.setWidth 32 <<< 16) ||| l.setWidth 32),
    .write Reg.nodeData.offset 0x00000002]

/-- `NODE <i>, LEAF, <s>`. -/
def hostNodeLeaf (i : BitVec 16) (sym : Byte) : List Event :=
  [.write Reg.nodeAddr.offset (i.setWidth 32),
    .write Reg.nodeLink.offset 0,
    .write Reg.nodeData.offset ((sym.setWidth 32 <<< 8) ||| 0x1)]

/-- `NODE <i>, EOM`. -/
def hostNodeEom (i : BitVec 16) : List Event :=
  [.write Reg.nodeAddr.offset (i.setWidth 32),
    .write Reg.nodeLink.offset 0,
    .write Reg.nodeData.offset 0x00000000]

end Sys2Proof.Machine
end

