-- ==== Sys2Proof/Machine/Tree.lean ====
section
/-!
DEFINITION. The tree a node memory denotes (R12, R51), its description (R118) and size (R142), and its paths (R125, R181): what
the rules about trees are stated in. The machine itself never uses these.
-/

namespace Sys2Proof.Machine

/-- Trees in the spelling of R12. -/
inductive Tree where
  | branch (l r : Tree)
  | leaf (sym : Byte)
  | endMessage
deriving DecidableEq, Repr

namespace Tree

/-- `desc(t)`: the depth-first pre-order description (R118). -/
def desc : Tree → Bits
  | .branch l r => NodeCode.branch.bits ++ l.desc ++ r.desc
  | .leaf s => (NodeCode.leaf s).bits
  | .endMessage => NodeCode.eom.bits

/-- The number of nodes of the unfolding. -/
def nodeCount : Tree → Nat
  | .branch l r => 1 + l.nodeCount + r.nodeCount
  | .leaf _ => 1
  | .endMessage => 1

/-- The depth of the deepest node, the root being at depth 0 (R7). -/
def height : Tree → Nat
  | .branch l r => 1 + max l.height r.height
  | .leaf _ => 0
  | .endMessage => 0

/-- `size(t)` by its recursion: 1 for a branch beside its subtrees, 10 for a symbol leaf, 2 for the end marker (R142). -/
def size : Tree → Nat
  | .branch l r => 1 + l.size + r.size
  | .leaf _ => 10
  | .endMessage => 2

/-- The nodes in pre-order, each with its depth and the number of description bits before its first bit (R118, R142). `d` is the
depth of the tree's own root and `b` the number of bits before it. -/
def preorder : Tree → Nat → Nat → List (Nat × Nat)
  | .branch l r, d, b => (d, b) :: (l.preorder (d + 1) (b + 1) ++ r.preorder (d + 1) (b + 1 + l.size))
  | .leaf _, d, b => [(d, b)]
  | .endMessage, d, b => [(d, b)]

/-- The leaves in pre-order, each with its key (R120) and its path, root first: 0 for a left step, 1 for a right step
(R125, R181). `p` is the path of the tree's own root. -/
def leaves : Tree → Bits → List (Nat × Bits)
  | .branch l r, p => l.leaves (p ++ [false]) ++ r.leaves (p ++ [true])
  | .leaf s, p => [(s.toNat, p)]
  | .endMessage, p => [(256, p)]

/-- The keys of the leaves in pre-order. -/
def keys (t : Tree) : List Nat := (t.leaves []).map Prod.fst

/-- The path of a key: that of its first leaf in pre-order (R181). -/
def pathOf (t : Tree) (k : Nat) : Option Bits := ((t.leaves []).find? fun e => e.1 == k).map Prod.snd

/-- A tree whose root is a symbol leaf (R202). -/
def isLeaf : Tree → Bool
  | .leaf _ => true
  | _ => false

end Tree

/-- The entries reached from index `i` denote the tree (R51): every one of them is below the capacity and written, a BRANCH
entry denotes the branch of what its links denote, a LEAF entry its symbol, an EOM entry the end marker. -/
def denotes (cap : Nat) (m : Memory) : Tree → BitVec 16 → Bool
  | .branch l r, i =>
    match usableNode cap m i with
    | some e => decide (e.kind = .branch) && denotes cap m l e.left && denotes cap m r e.right
    | none => false
  | .leaf s, i =>
    match usableNode cap m i with
    | some e => decide (e.kind = .leaf) && decide (e.sym = s)
    | none => false
  | .endMessage, i =>
    match usableNode cap m i with
    | some e => decide (e.kind = .eom)
    | none => false

/-- Where the bits of a path lead from index `i`, each through a branch entry: 0 to the left, 1 to the right (R125, R201). The
entry at the end need not be usable. -/
def follow (cap : Nat) (m : Memory) : BitVec 16 → Bits → Option (BitVec 16)
  | i, [] => some i
  | i, b :: p =>
    match usableNode cap m i with
    | some e => if e.kind = .branch then follow cap m (if b then e.right else e.left) p else none
    | none => none

/-- The entries of TREE_DEC's tree, numbered in pre-order from `n`: a branch's left child is the next entry, and its right child
follows the left subtree (R160, R161). -/
def numbered (m : Memory) : Tree → Nat → Prop
  | .branch l r, n =>
    tableGet m n = some { kind := .branch, sym := 0, left := BitVec.ofNat 16 (n + 1),
                          right := BitVec.ofNat 16 (n + 1 + l.nodeCount) } ∧
      numbered m l (n + 1) ∧ numbered m r (n + 1 + l.nodeCount)
  | .leaf s, n => tableGet m n = some { kind := .leaf, sym := s, left := 0, right := 0 }
  | .endMessage, n => tableGet m n = some { kind := .eom, sym := 0, left := 0, right := 0 }

/-- The tree at ROOT is `t` (R51). -/
def State.treeAtRoot (s : State) (t : Tree) : Bool := denotes s.cfg.nodeCap s.nodes t s.root

end Sys2Proof.Machine
end

