-- ==== Sys2Proof/Machine/Streams.lean ====
section
/-!
DEFINITION. The bit streams the rules speak of: what has been written to the sink (R76), what the source will return (R77), and
the compressed stream of a tree and an input (R119).
-/

namespace Sys2Proof.Machine

/-- The bits of the IN items in order, up to the first end-of-stream marker (R73, R77). -/
def itemBits : List InItem → Bits
  | [] => []
  | .eos :: _ => []
  | .byte b :: rest => msbBits b ++ itemBits rest

namespace State

/-- The bits written to OUT and the sink's partial byte, in stream order (R76, R54). -/
def sinkBits (s : State) : Bits := streamBits s.out ++ (msbBits s.obuf).take s.ocnt.toNat

/-- The bits the source returns next, in order, up to the end of the IN items or the first EOS: those of IBUF not yet
returned, then those of IN (R55, R77). -/
def sourceBits (s : State) : Bits := (msbBits s.ibuf).drop (8 - s.icnt.toNat) ++ itemBits s.inq

/-- The state after the source has returned `n` bits by BitRead (R81), as far as it returns them. -/
def afterBits : Nat → State → State
  | 0, s => s
  | n + 1, s =>
    match s.bitRead with
    | .bit _ t => t.afterBits n
    | .exhausted _ => s
    | .hold => s

/-- IN_LIMIT lets the source return `n` more bits (R45, R81): no bit at all wherever IN_LIMIT stands (R291). -/
def limitAllows (s : State) (n : Nat) : Prop := n = 0 ∨ s.inBits.toNat + n ≤ s.inLimit.toNat

/-- The source ends after the bits `q`: IN_LIMIT is reached there, or stood at or below IN_BITS from the start (R291), or an
end-of-stream marker follows them (R81). -/
def endsAfter (s : State) (q : Bits) : Prop :=
  ∃ rest, s.sourceBits = q ++ rest ∧
    (s.inLimit.toNat = s.inBits.toNat + q.length ∨ (q = [] ∧ s.inLimit.toNat ≤ s.inBits.toNat) ∨
      (rest = [] ∧ s.inBits.toNat + q.length < s.inLimit.toNat ∧ InItem.eos ∈ s.inq))

/-- The source runs dry after the bits `q`: IN has no more items, and IN_LIMIT is not reached (R81, R83). -/
def driesAfter (s : State) (q : Bits) : Prop :=
  s.sourceBits = q ∧ s.inBits.toNat + q.length < s.inLimit.toNat ∧ InItem.eos ∉ s.inq

/-- The unfilled low bits of the sink's byte are 0 (R54). -/
def SinkClear (s : State) : Prop := ∀ i, i < 8 - s.ocnt.toNat → s.obuf.getLsbD i = false

end State

/-- The payload of an input: the path of each byte in order, then the path of the end-of-message marker (R119). -/
def Tree.payload (t : Tree) (input : List Byte) : Bits :=
  input.flatMap (fun b => (t.pathOf b.toNat).getD []) ++ (t.pathOf 256).getD []

/-- The compressed stream before its padding: the tree description, then the payload (R119). -/
def Tree.stream (t : Tree) (input : List Byte) : Bits := t.desc ++ t.payload input

/-- The trees a walk accepts at `s`: of depth at most DEPTH_CAP and at most NODE_CAP nodes in the unfolding (R144). -/
def State.fits (s : State) (t : Tree) : Prop := t.height ≤ s.cfg.depthCap ∧ t.nodeCount ≤ s.cfg.nodeCap

end Sys2Proof.Machine
end

