-- ==== Sys2Proof/Safety.lean ====
section
/-!
DEFINITION. What claims about runs are stated in: how a command ends (R17), when a run has ended (R289), what no command changes,
and the invariants of the machine.
-/

namespace Sys2Proof.Machine

/-- The bits a RW register stores, the others being reserved (R33, R34, R36, R37, R41, R45, R47, R63). The windows and the
registers with effects of their own (CMD, STATUS, NODE_DATA) have rules of their own. -/
def Reg.rwMask : Reg → Option Word
  | .ie => some 0x00000007
  | .root => some 0x0000FFFF
  | .nodeAddr => some 0x0000FFFF
  | .nodeLink => some 0xFFFFFFFF
  | .symbol => some 0x000001FF
  | .inLimit => some 0xFFFFFFFF
  | .codeSel => some 0x000701FF
  | .id => none
  | .cfg => none
  | .cmd => none
  | .status => none
  | .nodeCount => none
  | .nodeData => none
  | .nodeRdlink => none
  | .result => none
  | .outBits => none
  | .inBits => none
  | .bitState => none
  | .codeInfo => none
  | .codeData => none

/-- The registers whose value a write to a RW register may change beside its own: STATUS by a ROOT write, which clears
TABLE_VALID (R34), and the windows by the registers that select what they show (R36, R47). -/
def Reg.shownBy : Reg → List Reg
  | .root => [.status]
  | .nodeAddr => [.nodeData, .nodeRdlink]
  | .codeSel => [.codeInfo, .codeData]
  | _ => []

/-- The RO registers (R65). -/
def Reg.readOnly : List Reg :=
  [.id, .cfg, .nodeCount, .nodeRdlink, .result, .outBits, .inBits, .bitState, .codeInfo, .codeData]

namespace State

/-- A host read of a register, at whatever offset reaches it, returns `v` and changes nothing but the host's record. -/
def ReadsAs (s : State) (r : Reg) (v : Word) : Prop :=
  ∀ (o : BitVec 8) (rest : List Event), Reg.ofOffset o = some r →
    step { s with events := .read o :: rest } = .next { s with events := rest, reads := s.reads ++ [v] }

/-- A host write of `v` to a register, at whatever offset reaches it, leads to `t`. -/
def WritesTo (s : State) (r : Reg) (v : Word) (t : State) : Prop :=
  ∀ (o : BitVec 8) (rest : List Event), Reg.ofOffset o = some r →
    step { s with events := .write o v :: rest } = .next { t with events := rest }

/-- `n` iterations of the core, one after another. -/
def coreTicks : Nat → State → Outcome
  | 0, s => .next s
  | n + 1, s =>
    match s.coreTick with
    | .next t => coreTicks n t
    | .fault f => .fault f
    | .refused r => .refused r

/-- Success (R17), of a command accepted with ERR = 0. -/
def Succeeded (t : State) : Prop := t.seq = .idle ∧ t.done = true ∧ t.err = none

/-- Error (R17). -/
def Failed (t : State) (e : ErrorCode) : Prop := t.seq = .idle ∧ t.done = true ∧ t.err = some e

/-- Held (R17): BUSY = 1 and HOLD_IN = 1, and IN has no item. -/
def Waiting (t : State) : Prop := (∃ c, t.seq = .held c) ∧ t.inq = []

/-- A run has ended: the host has done its last action and BUSY = 0 (R289). -/
def Ended (s : State) : Prop := s.events = [] ∧ s.busy = false

/-- What only the host changes: the parameters, the registers that only host writes set (CMD_OVR, IE, NODE_ADDR, NODE_LINK,
SYMBOL, IN_LIMIT, CODE_SEL), and the host's side of the model. -/
structure HostFrame (s t : State) : Prop where
  cfg : t.cfg = s.cfg
  cmdOvr : t.cmdOvr = s.cmdOvr
  ie : t.ie = s.ie
  nodeAddr : t.nodeAddr = s.nodeAddr
  nodeLink : t.nodeLink = s.nodeLink
  symbol : t.symbol = s.symbol
  inLimit : t.inLimit = s.inLimit
  codeKey : t.codeKey = s.codeKey
  codeWord : t.codeWord = s.codeWord
  events : t.events = s.events
  reads : t.reads = s.reads
  taken : t.taken = s.taken
  freeCount : t.freeCount = s.freeCount

/-- The tree, its root and its node count. -/
structure SameTree (s t : State) : Prop where
  nodes : t.nodes = s.nodes
  root : t.root = s.root
  nodeCount : t.nodeCount = s.nodeCount

/-- The code table and TABLE_VALID. -/
structure SameTable (s t : State) : Prop where
  codes : t.codes = s.codes
  tableValid : t.tableValid = s.tableValid

/-- RESULT and RES_EOM. -/
structure SameResult (s t : State) : Prop where
  result : t.result = s.result
  resEom : t.resEom = s.resEom

/-- The bit sink. -/
structure SameSink (s t : State) : Prop where
  obuf : t.obuf = s.obuf
  ocnt : t.ocnt = s.ocnt
  outBits : t.outBits = s.outBits

/-- The bit source. -/
structure SameSource (s t : State) : Prop where
  ibuf : t.ibuf = s.ibuf
  icnt : t.icnt = s.icnt
  inBits : t.inBits = s.inBits

end State

/-! ### The storage invariant -/

/-- A visit's path is as long as its depth (R181). -/
def Visit.ok (v : Visit) : Prop := v.path.length = v.depth

/-- A present code entry: LEN is the length of PATH, at most DEPTH_CAP (R52, R96). -/
def CodeEntry.ok (cfg : Config) (e : CodeEntry) : Prop := e.len.toNat = e.path.length ∧ e.path.length ≤ cfg.depthCap

/-- The bounds of R96 on a cursor: visit counts, depths and the next free index stay within the capacities, and a node whose
description is under way has an index to go to. -/
def Cursor.ok (cfg : Config) : Cursor → Prop
  | .issued _ => True
  | .walk _ w =>
    w.visits ≤ cfg.nodeCap ∧ (∀ v ∈ w.stack, v.ok) ∧ ∀ v ∈ w.order, v.ok ∧ v.depth ≤ cfg.depthCap
  | .write _ _ => True
  | .treeDec _ c => c.n ≤ cfg.nodeCap ∧ (c.code ≠ [] → c.n < cfg.nodeCap)
  | .traverse _ _ d => d ≤ cfg.depthCap
  | .drain => True
  | .payload => True

namespace State

/-- What the storage of the block always satisfies: the parameters are in range; the node memory and the code table are in
canonical form with the bounds of R96; the sink's unfilled bits are 0 (R54); ICNT is at most 8 (R55); NODE_COUNT is at most
NODE_CAP (R96); no command runs while ERR = 1 (R257); and the cursor keeps its bounds. -/
structure StorageInv (s : State) : Prop where
  cfg : s.cfg.wf = true
  nodes : Memory.wf s.cfg.nodeCap s.nodes = true
  codes : CodeTable.wf s.codes = true
  entries : ∀ e ∈ s.codes, e.2.ok s.cfg
  sink : ∀ i, i < 8 - s.ocnt.toNat → s.obuf.getLsbD i = false
  source : s.icnt.toNat ≤ 8
  count : s.nodeCount.toNat ≤ s.cfg.nodeCap
  error : s.err ≠ none → s.seq = .idle
  cursor : ∀ c, s.seq = .running c ∨ s.seq = .held c → c.ok s.cfg

/-! ### The table invariant -/

/-- When TABLE_VALID = 1, the code table is the table of the walk of the tree at ROOT (R53). -/
def TableCurrent (s : State) : Prop :=
  s.tableValid = true → ∃ order, s.walk true = .ok order ∧ s.codes = codesOf s.nodes order

/-- The walk under way of a command that will fill the table ends as the walk from ROOT does, and a tree that is being read
has no valid table (R28). -/
def TableCursor (s : State) : Cursor → Prop
  | .walk u w => u ≠ .treeEnc → s.walkFrom true w = s.walk true
  | .treeDec _ _ => s.tableValid = false
  | .issued _ => True
  | .write _ _ => True
  | .traverse _ _ _ => True
  | .drain => True
  | .payload => True

/-- R53 as an invariant. -/
structure TableInv (s : State) : Prop where
  current : s.TableCurrent
  cursor : ∀ c, s.seq = .running c ∨ s.seq = .held c → s.TableCursor c

end State

end Sys2Proof.Machine
end

