-- ==== Sys2Proof/Certificates/Slice0/Obligations.lean ====
section
/-!
DEFINITION. The statements for the provers. Each docstring names the rule of spec/ the statement formalises, or says that it rests
on a choice of the model and names the log entry.
-/

open Sys2Proof Sys2Proof.Machine

/-! ### Encodings -/

/-- R111: a word selects a command exactly as the opcode map says, the whole word being compared. -/
def Obligations.OpcodeMapIsExact : Prop :=
  ∀ (w : Word) (i : Instr), decodeWord w = .ok i ↔
    (w, i) ∈ ([(0x00000000, .nop), (0x00000001, .treeEnc), (0x00000002, .treeDec), (0x00000003, .tableBuild),
      (0x00000004, .symEnc), (0x00000005, .symDec), (0x00000006, .flush), (0x00000007, .compress),
      (0x00000008, .decompress), (0x00000009, .sinkReset), (0x0000000A, .sourceReset), (0x0000000B, .drainIn)] :
      List (Word × Instr))

/-- R113, R114, R115, R118: the node codes bit by bit, the key of a symbol leaf, and the description of each kind of tree. -/
def Obligations.NodeCodesDecode : Prop :=
  decode (.bits [true]) = .ok .dBranch ∧
  decode (.bits [false, false]) = .ok .dEom ∧
  (∀ s : Byte, decode (.bits [false, true, s.getLsbD 7, s.getLsbD 6, s.getLsbD 5, s.getLsbD 4, s.getLsbD 3, s.getLsbD 2,
    s.getLsbD 1, s.getLsbD 0]) = .ok (.dLeaf s)) ∧
  (∀ e : NodeEntry, e.kind = .leaf → e.key = e.sym.setWidth 9) ∧
  (∀ l r : Tree, (Tree.branch l r).desc = [true] ++ l.desc ++ r.desc) ∧
  Tree.endMessage.desc = [false, false] ∧
  (∀ s : Byte, (Tree.leaf s).desc = [false, true] ++ [s.getLsbD 7, s.getLsbD 6, s.getLsbD 5, s.getLsbD 4, s.getLsbD 3,
    s.getLsbD 2, s.getLsbD 1, s.getLsbD 0])

/-- R110 to R117: the decoder answers an instruction for exactly the words and bit sequences the encoder writes for it, so no bit
of an encoding is dropped and no other encoding means anything. -/
def Obligations.DecodeAgreesWithEncode : Prop :=
  ∀ (c : Code) (i : Instr), decode c = .ok i ↔ encode i = c

/-- R116, R117: a node code has 1, 2 or 10 bits, told apart by its first two; no node code is a prefix of another; a tree description
parses in exactly one way; and there is no invalid node code: where none stands at the head of a bit sequence, the sequence is one
cut off before it completes. -/
def Obligations.NodeCodesArePrefixFree : Prop :=
  (∀ k : NodeCode, (k.bits.length = 1 ∧ k.bits.take 1 = [true]) ∨ (k.bits.length = 2 ∧ k.bits.take 2 = [false, false]) ∨
    (k.bits.length = 10 ∧ k.bits.take 2 = [false, true])) ∧
  (∀ j k : NodeCode, j.bits <+: k.bits → j = k) ∧
  (∀ (t u : Tree) (x y : Bits), t.desc ++ x = u.desc ++ y → t = u ∧ x = y) ∧
  (∀ (bs : Bits) (e : DecodeError), decodeNode bs = .error e → ∃ (k : NodeCode) (q : Bits), q ≠ [] ∧ bs ++ q = k.bits)

/-! ### What a step runs -/

/-- R24, R15: the core's turn runs the command whose word was accepted. That a turn of the schedule is the core's run or one iteration
of the core is the model's grain (notes/assumptions/11.md); that an empty schedule leaves the turn to the core, as the clauses on
`events := []` say, is the model's choice (notes/assumptions/5.md). -/
def Obligations.StepRunsAcceptedCommand : Prop :=
  ∀ (s : State) (rest : List Event),
    step { s with events := .core :: rest } = { s with events := rest }.coreTurn ∧
    step { s with events := .tick :: rest } = { s with events := rest }.coreTick ∧
    step { s with events := [] } = { s with events := [] }.coreTurn ∧
    ∀ (w : Word) (i : Instr), s.seq = .running (.issued w) → decode (.word w) = .ok i →
      step { s with events := .core :: rest } = exec i { s with events := rest } ∧
      step { s with events := [] } = exec i { s with events := [] }

/-- R160, R116: one iteration of the tree decoder reads the node code that stands at the head of the source's bits, to its last bit
and no further, and runs that node code. That a node code is an instruction of its own is the model's reading
(notes/assumptions/10.md). -/
def Obligations.StepRunsFetchedNodeCode : Prop :=
  ∀ (s : State) (composite : Bool) (n : Nat) (h : Hole) (holes : List Hole) (k : NodeCode) (more : Bits) (rest : List Event),
    s.seq = .running (.treeDec composite { n := n, holes := h :: holes, code := [] }) →
    n < s.cfg.nodeCap → h.depth ≤ s.cfg.depthCap → s.icnt.toNat ≤ 8 → s.limitAllows k.bits.length →
    s.sourceBits = k.bits ++ more →
    ∃ t : State, step { s with events := .tick :: rest } = exec k.toInstr { t with events := rest } ∧
      t = { s with ibuf := t.ibuf, icnt := t.icnt, inq := t.inq, inBits := s.inBits + BitVec.ofNat 32 k.bits.length } ∧
      t.sourceBits = more

/-- Every step answers a next state. Where the core has a command to run, or the host or the reset input has a turn, this is what R250,
R17, R85 and R280 come to; that an idle or held core with no turn queued answers a next state too is the model's choice
(notes/assumptions/5.md). -/
def Obligations.StepNeverStops : Prop := ∀ s : State, ∃ t : State, step s = .next t

/-! ### Reset -/

/-- R281: the reset values of every piece of state. -/
def Obligations.ResetValues : Prop :=
  State.reset.ReadsAs .id 0x48554631 ∧ State.reset.ReadsAs .cfg 0x01000201 ∧ State.reset.ReadsAs .cmd 0 ∧
  State.reset.ReadsAs .status 0 ∧ State.reset.ReadsAs .ie 0 ∧ State.reset.ReadsAs .root 0 ∧
  State.reset.ReadsAs .nodeCount 0 ∧ State.reset.ReadsAs .nodeAddr 0 ∧ State.reset.ReadsAs .nodeLink 0 ∧
  State.reset.ReadsAs .nodeData 0 ∧ State.reset.ReadsAs .nodeRdlink 0 ∧ State.reset.ReadsAs .symbol 0 ∧
  State.reset.ReadsAs .result 0 ∧ State.reset.ReadsAs .outBits 0 ∧ State.reset.ReadsAs .inBits 0 ∧
  State.reset.ReadsAs .inLimit 0xFFFFFFFF ∧ State.reset.ReadsAs .bitState 0 ∧ State.reset.ReadsAs .codeSel 0 ∧
  State.reset.ReadsAs .codeInfo 0 ∧ State.reset.ReadsAs .codeData 0 ∧
  State.reset.busy = false ∧ State.reset.done = false ∧ State.reset.err = none ∧ State.reset.tableValid = false ∧
  State.reset.resEom = false ∧ State.reset.cmdOvr = false ∧ State.reset.holdIn = false ∧ State.reset.errCode = 0 ∧
  (∀ i, tableGet State.reset.nodes i = none) ∧ (∀ k, tableGet State.reset.codes k = none) ∧
  State.reset.obuf = 0 ∧ State.reset.ocnt = 0 ∧ State.reset.ibuf = 0 ∧ State.reset.icnt = 0 ∧
  State.reset.seq = .idle ∧ State.reset.interrupt = false

/-- R280: a reset, at any time, ends the running command with no error and no DONE, sets all block state to its reset value, and
leaves the two channels. The parameters and the host's side are no block state. -/
def Obligations.ResetEvent : Prop :=
  ∀ (s : State) (rest : List Event),
    step { s with events := .reset :: rest } = .next { State.reset with
      cfg := s.cfg
      inq := s.inq
      out := s.out
      events := rest
      reads := s.reads
      taken := s.taken
      freeCount := s.freeCount }

/-! ### Host accesses -/

/-- R60: while BUSY = 1 every write to a register is dropped and only sets CMD_OVR. -/
def Obligations.WritesWhileBusyAreDropped : Prop :=
  ∀ (s : State) (r : Reg) (v : Word), s.busy = true → s.WritesTo r v { s with cmdOvr := true }

/-- R61: while BUSY = 0 and ERR = 1 a CMD write is dropped and sets CMD_OVR; a write to any other register does what it does
without the error, which it leaves, but for STATUS, whose bit 2 acknowledges it. -/
def Obligations.CommandsWhileErrorAreDropped : Prop :=
  ∀ (s : State) (e : ErrorCode), s.busy = false → s.err = some e →
    (∀ v, s.WritesTo .cmd v { s with cmdOvr := true }) ∧
    (∀ r v t, r ≠ .cmd → r ≠ .status → { s with err := none }.WritesTo r v t → s.WritesTo r v { t with err := some e }) ∧
    (∀ v, v.getLsbD 2 = true → ∃ t : State, s.WritesTo .status v t ∧ t.err = none)

/-- R24: a CMD write is accepted when BUSY = 0 and ERR = 0: BUSY becomes 1 and DONE 0, and the command of the whole word runs in
the core's turn; an illegal word gets the illegal-command behaviour; CMD reads 0. -/
def Obligations.CommandsAreAccepted : Prop :=
  ∀ (s : State) (v : Word) (rest : List Event), s.busy = false → s.err = none →
    s.WritesTo .cmd v { s with done := false, seq := .running (.issued v) } ∧
    { s with done := false, seq := .running (.issued v) }.busy = true ∧
    (∀ i, decodeWord v = .ok i →
      step { s with done := false, seq := .running (.issued v), events := .core :: rest } =
        exec i { s with done := false, seq := .running (.issued v), events := rest }) ∧
    (∀ e, decodeWord v = .error e →
      step { s with done := false, seq := .running (.issued v), events := .core :: rest } =
        .next { s with done := true, err := some .illegalCmd, seq := .idle, events := rest }) ∧
    s.ReadsAs .cmd 0

/-- R112, R226: a word with OPCODE 0xC to 0xF and RSVD = 0, or with RSVD ≠ 0, written to CMD while it is accepted, ends at once in
E_ILLEGAL_CMD and changes nothing else. -/
def Obligations.IllegalWordsEndInError : Prop :=
  ∀ (s : State) (w : Word) (rest : List Event), s.busy = false → s.err = none →
    (w.extractLsb' 4 28 = 0 ∧ 12 ≤ (w.extractLsb' 0 4).toNat) ∨ w.extractLsb' 4 28 ≠ 0 →
    Sys2Proof.core.run 2 { s with events := .write 0x08 w :: .core :: rest } =
      .next { s with done := true, err := some .illegalCmd, seq := .idle, events := rest } ∧
    { s with done := true, err := some .illegalCmd, seq := .idle }.errCode = 0x05

/-- R33, R34, R36, R37, R41, R45, R47, R63, R64: a write to a RW register while BUSY = 0 is read back at once with its reserved
bits 0; a ROOT write also clears TABLE_VALID; nothing else changes but what a window shows through a changed selection. -/
def Obligations.RegistersReadBackWrites : Prop :=
  ∀ (s : State) (r : Reg) (m v : Word), s.busy = false → r.rwMask = some m →
    ∃ t : State, s.WritesTo r v t ∧ t.ReadsAs r (v &&& m) ∧
      (r = .root → t.tableValid = false) ∧ (r ≠ .root → t.tableValid = s.tableValid) ∧
      (∀ r', r' ≠ r → r' ∉ r.shownBy → t.regValue r' = s.regValue r') ∧
      t = { s with tableValid := t.tableValid, ie := t.ie, root := t.root, nodeAddr := t.nodeAddr, nodeLink := t.nodeLink,
                   symbol := t.symbol, inLimit := t.inLimit, codeKey := t.codeKey, codeWord := t.codeWord }

/-- R21, R62, R65, R85: the offsets of the register map; reserved offsets read 0 and writes to them set nothing while BUSY = 0; RO
registers drop writes; offset bits 1:0 are ignored. That a reserved offset reads 0 while BUSY = 1 too, and that a write to one then sets CMD_OVR, is the model's reading
(notes/assumptions/7.md, 8.md). -/
def Obligations.ReservedAndReadOnlyAccesses : Prop :=
  ([0x00, 0x04, 0x08, 0x0C, 0x10, 0x14, 0x18, 0x1C, 0x20, 0x24, 0x28, 0x2C, 0x30, 0x34, 0x38, 0x3C, 0x40, 0x44, 0x48, 0x4C].map
    Reg.ofOffset = [.id, .cfg, .cmd, .status, .ie, .root, .nodeCount, .nodeAddr, .nodeLink, .nodeData, .nodeRdlink, .symbol,
      .result, .outBits, .inBits, .inLimit, .bitState, .codeSel, .codeInfo, .codeData].map some) ∧
  (∀ o : BitVec 8, Reg.ofOffset o = none ↔ 0x50 ≤ o.toNat) ∧
  (∀ (s : State) (o : BitVec 8) (rest : List Event), Reg.ofOffset o = none →
    step { s with events := .read o :: rest } = .next { s with events := rest, reads := s.reads ++ [0] }) ∧
  (∀ (s : State) (o : BitVec 8) (v : Word) (rest : List Event), Reg.ofOffset o = none →
    step { s with events := .write o v :: rest } = .next { s with events := rest, cmdOvr := s.cmdOvr || s.busy }) ∧
  (∀ (s : State) (r : Reg) (v : Word), r ∈ Reg.readOnly → s.busy = false → s.WritesTo r v s) ∧
  (∀ (s : State) (o : BitVec 8) (v : Word) (rest : List Event),
    step { s with events := .read o :: rest } = step { s with events := .read (o &&& 0xFC) :: rest } ∧
    step { s with events := .write o v :: rest } = step { s with events := .write (o &&& 0xFC) v :: rest })

/-- R38: a NODE_DATA write while BUSY = 0 stores the whole entry NODE_ADDR names, with both halves of NODE_LINK, and clears
TABLE_VALID; with NODE_ADDR out of range it has no effect. -/
def Obligations.NodeDataWriteStoresEntry : Prop :=
  ∀ (s : State) (v : Word), s.busy = false →
    (s.nodeAddr.toNat < s.cfg.nodeCap → ∃ t : State, s.WritesTo .nodeData v t ∧
      t = { s with nodes := t.nodes, tableValid := false } ∧
      ∀ i, tableGet t.nodes i =
        if i = s.nodeAddr.toNat then
          some { kind := Kind.ofBits (v.extractLsb' 0 2)
                 sym := v.extractLsb' 8 8
                 left := s.nodeLink.extractLsb' 0 16
                 right := s.nodeLink.extractLsb' 16 16 }
        else tableGet s.nodes i) ∧
    (s.cfg.nodeCap ≤ s.nodeAddr.toNat → s.WritesTo .nodeData v s)

/-- R39, R40: NODE_DATA and NODE_RDLINK show the entry NODE_ADDR names when it is in range and written, and read 0 otherwise;
reading them changes nothing; NODE_RDLINK drops writes. -/
def Obligations.NodeReadback : Prop :=
  ∀ s : State, s.busy = false →
    (∀ v, s.WritesTo .nodeRdlink v s) ∧
    (∀ e, s.nodeAddr.toNat < s.cfg.nodeCap → tableGet s.nodes s.nodeAddr.toNat = some e →
      ∃ v w : Word, s.ReadsAs .nodeData v ∧ s.ReadsAs .nodeRdlink w ∧
        v.getLsbD 31 = true ∧ v.extractLsb' 16 15 = 0 ∧ v.extractLsb' 8 8 = e.sym ∧ v.extractLsb' 2 6 = 0 ∧
        Kind.ofBits (v.extractLsb' 0 2) = e.kind ∧ w.extractLsb' 16 16 = e.right ∧ w.extractLsb' 0 16 = e.left) ∧
    (s.cfg.nodeCap ≤ s.nodeAddr.toNat ∨ tableGet s.nodes s.nodeAddr.toNat = none →
      s.ReadsAs .nodeData 0 ∧ s.ReadsAs .nodeRdlink 0)

/-- R25 to R31, R63, R251, R50: STATUS at any time, bit by bit; the ERRCODE values; the KIND codes. -/
def Obligations.StatusWordFields : Prop :=
  (∀ s : State, ∃ v : Word, s.ReadsAs .status v ∧
    v.getLsbD 0 = decide (s.seq ≠ .idle) ∧ v.getLsbD 1 = s.done ∧ v.getLsbD 2 = s.err.isSome ∧
    v.getLsbD 3 = s.tableValid ∧ v.getLsbD 4 = s.resEom ∧ v.getLsbD 5 = s.cmdOvr ∧ v.getLsbD 6 = s.holdIn ∧
    v.getLsbD 7 = false ∧ v.extractLsb' 8 8 = s.errCode ∧ v.extractLsb' 16 16 = 0 ∧
    (s.holdIn = true ↔ ∃ c, s.seq = .held c) ∧ (s.err = none → s.errCode = 0) ∧
    (∀ e, s.err = some e → s.errCode = e.code)) ∧
  [ErrorCode.malformedTree, .truncatedPayload, .mismatch, .noEom, .illegalCmd, .badNode, .nodeCap, .depth, .shared, .dupLeaf,
    .noTable, .rootSymbol].map ErrorCode.code = [1, 2, 3, 4, 5, 6, 7, 8, 9, 10, 11, 12] ∧
  [Kind.eom, .leaf, .branch, .reserved].map Kind.toBits = [0, 1, 2, 3] ∧
  ∀ b : BitVec 2, (Kind.ofBits b).toBits = b

/-- R32: a STATUS write while BUSY = 0 clears DONE by bit 1, ERR and ERRCODE by bit 2 and CMD_OVR by bit 5, all in one step, and
ignores the other bits; while BUSY = 1 it is dropped; reading STATUS has no side effect. -/
def Obligations.StatusWriteClears : Prop :=
  ∀ (s : State) (w : Word),
    (s.busy = false → s.WritesTo .status w { s with
      done := s.done && !w.getLsbD 1
      err := if w.getLsbD 2 then none else s.err
      cmdOvr := s.cmdOvr && !w.getLsbD 5 }) ∧
    (s.busy = true → s.WritesTo .status w { s with cmdOvr := true }) ∧
    s.ReadsAs .status s.statusWord

/-- R258: INT is the OR of the three enabled STATUS bits; it is 0 after reset, falls when its bits are cleared or its enables are,
and its DONE term falls when a command is accepted. -/
def Obligations.InterruptLevel : Prop :=
  (∀ s : State, s.interrupt =
    ((s.statusWord.getLsbD 1 && (s.regValue .ie).getLsbD 0) || (s.statusWord.getLsbD 2 && (s.regValue .ie).getLsbD 1) ||
      (s.statusWord.getLsbD 5 && (s.regValue .ie).getLsbD 2))) ∧
  State.reset.interrupt = false ∧
  (∀ s : State, s.busy = false → ∃ t : State, s.WritesTo .status 0x26 t ∧ t.interrupt = false) ∧
  (∀ s : State, s.busy = false → ∃ t : State, s.WritesTo .ie 0 t ∧ t.interrupt = false) ∧
  (∀ (s : State) (v : Word), s.busy = false → s.err = none → s.cmdOvr = false →
    ∃ t : State, s.WritesTo .cmd v t ∧ t.interrupt = false)

/-- While BUSY = 1 a read of STATUS is exact (R66) and of ID and CFG their constants as at any time (R22, R23). A read of any other
register returns a free draw, a new one at every read, and changes nothing else: that R66's unspecified value is such a draw is the
model's choice (notes/assumptions/6.md), and that CMD is one of these registers, although a read of CMD returns 0 by R24, is the
model's reading (notes/assumptions/7.md). -/
def Obligations.ReadsWhileBusyAreFree : Prop :=
  ∀ s : State,
    s.ReadsAs .status s.statusWord ∧ s.ReadsAs .id (s.regValue .id) ∧ s.ReadsAs .cfg (s.regValue .cfg) ∧
    (s.busy = true → ∀ (r : Reg) (o : BitVec 8) (rest : List Event), Reg.ofOffset o = some r →
      r ≠ .status → r ≠ .id → r ≠ .cfg →
      step { s with events := .read o :: rest } = .next { s with
        events := rest
        reads := s.reads ++ [Config.freeRead s.freeCount]
        freeCount := s.freeCount + 1 })

/-- R22, R23: ID and CFG at any time; R35, R42 to R44, R46: BITSTATE, NODE_COUNT, RESULT, OUT_BITS and IN_BITS while BUSY = 0. All of
them drop writes then. -/
def Obligations.ConstantAndBufferReads : Prop :=
  ∀ s : State, s.cfg.wf = true →
    (∀ r v, r ∈ [Reg.id, .cfg, .bitState, .nodeCount, .result, .outBits, .inBits] → s.busy = false → s.WritesTo r v s) ∧
    (s.busy = false → s.ReadsAs .nodeCount (s.nodeCount.setWidth 32) ∧ s.ReadsAs .result (s.result.setWidth 32) ∧
      s.ReadsAs .outBits s.outBits ∧ s.ReadsAs .inBits s.inBits) ∧
    s.ReadsAs .id 0x48554631 ∧
    (∃ v : Word, s.ReadsAs .cfg v ∧ (v.extractLsb' 0 16).toNat = s.cfg.nodeCap ∧ (v.extractLsb' 16 9).toNat = s.cfg.depthCap ∧
      v.extractLsb' 25 7 = 0) ∧
    (s.cfg = Config.hardware → s.ReadsAs .cfg 0x01000201) ∧
    (s.busy = false → ∃ v : Word, s.ReadsAs .bitState v ∧ v.extractLsb' 0 3 = s.ocnt ∧ v.extractLsb' 3 5 = 0 ∧
      v.extractLsb' 8 8 = s.obuf ∧ v.extractLsb' 16 4 = s.icnt ∧ v.extractLsb' 20 4 = 0 ∧ v.extractLsb' 24 8 = s.ibuf)

/-- R48: CODE_INFO and CODE_DATA show the entry of KEY, word WORD of its path in stream order; an absent entry and a key above 256
read 0; both drop writes, and reading them changes nothing. -/
def Obligations.CodeReadback : Prop :=
  ∀ s : State, s.busy = false →
    (∀ v, s.WritesTo .codeInfo v s ∧ s.WritesTo .codeData v s) ∧
    (∀ e, s.codeKey.toNat ≤ 256 → tableGet s.codes s.codeKey.toNat = some e →
      ∃ v w : Word, s.ReadsAs .codeInfo v ∧ s.ReadsAs .codeData w ∧
        v.getLsbD 31 = true ∧ v.extractLsb' 9 22 = 0 ∧ v.extractLsb' 0 9 = e.len ∧
        ∀ t, t < 32 → w.getLsbD (31 - t) =
          if 32 * s.codeWord.toNat + t < e.len.toNat then e.path.getD (32 * s.codeWord.toNat + t) false else false) ∧
    (256 < s.codeKey.toNat ∨ tableGet s.codes s.codeKey.toNat = none →
      s.ReadsAs .codeInfo 0 ∧ s.ReadsAs .codeData 0)

/-! ### The bit streams -/

/-- R78, R76: BitWrite puts its bit at OBUF[7 - OCNT], counts it, moves a full byte to OUT, and touches nothing else; so written bits
fill the output bytes from the most significant bit down, in order: bit n of the stream is bit 7 - (n mod 8) of byte n / 8. -/
def Obligations.SinkPacksMsbFirst : Prop :=
  (∀ (s : State) (b : Bool), ∃ byte : Byte,
    (∀ i, i < 8 → byte.getLsbD i = if i = 7 - s.ocnt.toNat then b else s.obuf.getLsbD i) ∧
    s.bitWrite b =
      if s.ocnt.toNat + 1 = 8 then
        { s with obuf := 0, ocnt := 0, outBits := s.outBits + 1, out := s.out ++ [byte] }
      else { s with obuf := byte, ocnt := s.ocnt + 1, outBits := s.outBits + 1 }) ∧
  (∀ (s : State) (bs : Bits), (s.bitWrites bs).sinkBits = s.sinkBits ++ bs ∧
    (s.bitWrites bs).outBits = s.outBits + BitVec.ofNat 32 bs.length) ∧
  (∀ (bytes : List Byte) (n : Nat), n < 8 * bytes.length →
    (streamBits bytes).getD n false = (bytes.getD (n / 8) 0).getLsbD (7 - n % 8))

/-- R81, R77: BitRead in its four cases, the limit first; and the bits come from each byte's most significant bit down. -/
def Obligations.BitReadStep : Prop :=
  (∀ s : State,
    (s.inLimit.toNat ≤ s.inBits.toNat → s.bitRead = .exhausted s) ∧
    (s.inBits.toNat < s.inLimit.toNat →
      (s.icnt = 0 → s.inq = [] → s.bitRead = .hold) ∧
      (∀ rest, s.icnt = 0 → s.inq = .eos :: rest → s.bitRead = .exhausted { s with inq := rest }) ∧
      (∀ b rest, s.icnt = 0 → s.inq = .byte b :: rest →
        s.bitRead = .bit (b.getLsbD 7) { s with inq := rest, ibuf := b, icnt := 7, inBits := s.inBits + 1 }) ∧
      (s.icnt ≠ 0 → s.bitRead = .bit (s.ibuf.getLsbD (s.icnt.toNat - 1)) { s with icnt := s.icnt - 1, inBits := s.inBits + 1 }))) ∧
  (∀ (s : State) (b : Bool) (bs : Bits), s.icnt.toNat ≤ 8 → s.inBits.toNat < s.inLimit.toNat → s.sourceBits = b :: bs →
    ∃ t : State, s.bitRead = .bit b t ∧ t.sourceBits = bs) ∧
  (∀ bytes : List Byte, itemBits (bytes.map .byte) = streamBits bytes)

/-- R73, R74, R83, R290: an append goes to the end of IN and makes a held command go on; a take removes the oldest OUT byte; a hold
ends only by an append, which the same InRead retries, or by a reset. -/
def Obligations.ChannelTurnsAndHolds : Prop :=
  (∀ (s : State) (rest : List Event),
    (∀ x, (∀ c, s.seq ≠ .held c) →
      step { s with events := .append x :: rest } = .next { s with events := rest, inq := s.inq ++ [x] }) ∧
    (∀ x c, s.seq = .held c →
      step { s with events := .append x :: rest } = .next { s with events := rest, inq := s.inq ++ [x], seq := .running c }) ∧
    (∀ b bs, s.out = b :: bs →
      step { s with events := .take :: rest } = .next { s with events := rest, out := bs, taken := s.taken ++ [b] }) ∧
    (s.out = [] → step { s with events := .take :: rest } = .next { s with events := rest })) ∧
  (∀ (s t : State) (c : Cursor), s.seq = .held c → step s = .next t →
    (t.seq = .held c ∧ t.holdIn = true) ∨ (∃ x rest, s.events = .append x :: rest ∧ t.seq = .running c ∧ t.holdIn = false) ∨
      (∃ rest, s.events = .reset :: rest ∧ t.seq = .idle))

/-! ### Control commands -/

/-- R220, R222, R223: NOP ends in success and changes nothing but BUSY and DONE; SINK_RESET discards the partial byte and zeroes
OUT_BITS; SOURCE_RESET discards the unread bits and zeroes IN_BITS. -/
def Obligations.NopAndBufferResetsComplete : Prop :=
  (encode .nop = .word 0x00000000 ∧ encode .sinkReset = .word 0x00000009 ∧ encode .sourceReset = .word 0x0000000A) ∧
  ∀ s : State,
    exec .nop s = .next { s with done := true, seq := .idle } ∧
    exec .sinkReset s = .next { s with obuf := 0, ocnt := 0, outBits := 0, done := true, seq := .idle } ∧
    exec .sourceReset s = .next { s with ibuf := 0, icnt := 0, inBits := 0, done := true, seq := .idle }

/-- R221, R80: FLUSH emits a partial byte, whose unfilled bits are 0, and nothing when there is none; OUT_BITS stays. -/
def Obligations.FlushCompletes : Prop :=
  encode .flush = .word 0x00000006 ∧ ∀ s : State,
    (s.ocnt = 0 → exec .flush s = .next { s with done := true, seq := .idle }) ∧
    (s.ocnt ≠ 0 → exec .flush s =
      .next { s with out := s.out ++ [s.obuf], obuf := 0, ocnt := 0, done := true, seq := .idle }) ∧
    (s.SinkClear → ∃ t : State, exec .flush s = .next t ∧
      streamBits t.out = s.sinkBits ++ List.replicate ((8 - s.ocnt.toNat) % 8) false ∧ exec .flush t = .next t)

/-- R227: DRAIN_IN consumes the items of IN up to and including the first EOS, and without one consumes all and holds. -/
def Obligations.DrainInCompletes : Prop :=
  encode .drainIn = .word 0x0000000B ∧ ∀ (s : State) (bytes : List Byte),
    (∀ rest, s.inq = bytes.map .byte ++ .eos :: rest →
      exec .drainIn s = .next { s with inq := rest, done := true, seq := .idle }) ∧
    (s.inq = bytes.map .byte → exec .drainIn s = .next { s with inq := [], seq := .held .drain })

/-! ### The tree walk, TREE_ENC and TABLE_BUILD -/

/-- R140: a walk visits the node on top of its stack, checks E_BAD_NODE, E_DEPTH, E_SHARED and E_DUP_LEAF in this order, and goes on
with the left subtree, then the right; it makes at most NODE_CAP visits. -/
def Obligations.WalkChecksInOrder : Prop :=
  (∀ (m : Memory) (cap : Nat) (i : BitVec 16), usableNode cap m i = none ↔
    (cap ≤ i.toNat ∨ tableGet m i.toNat = none ∨ ∃ e, tableGet m i.toNat = some e ∧ e.kind = .reserved)) ∧
  (∀ (s : State) (dup : Bool),
    s.walk dup = s.walkFrom dup
      { stack := [{ index := s.root, depth := 0, path := [] }], visits := 0, seen := [], order := [] } ∧
    (∀ order, s.walk dup = .ok order → order.length ≤ s.cfg.nodeCap)) ∧
  (∀ (s : State) (dup : Bool) (w : WalkState), w.stack = [] → s.walkFrom dup w = .ok w.order) ∧
  (∀ (s : State) (dup : Bool) (w : WalkState) (v : Visit) (rest : List Visit), w.stack = v :: rest →
    (usableNode s.cfg.nodeCap s.nodes v.index = none → s.walkFrom dup w = .error .badNode) ∧
    ∀ e, usableNode s.cfg.nodeCap s.nodes v.index = some e →
      (s.cfg.depthCap < v.depth → s.walkFrom dup w = .error .depth) ∧
      (v.depth ≤ s.cfg.depthCap →
        (s.cfg.nodeCap < w.visits + 1 → s.walkFrom dup w = .error .shared) ∧
        (w.visits + 1 ≤ s.cfg.nodeCap →
          (e.kind = .branch → s.walkFrom dup w = s.walkFrom dup
            { stack := { index := e.left, depth := v.depth + 1, path := v.path ++ [false] } ::
                { index := e.right, depth := v.depth + 1, path := v.path ++ [true] } :: rest
              visits := w.visits + 1, seen := w.seen, order := w.order ++ [v] }) ∧
          (e.kind ≠ .branch → dup = false → s.walkFrom dup w = s.walkFrom dup
            { stack := rest, visits := w.visits + 1, seen := w.seen, order := w.order ++ [v] }) ∧
          (e.kind ≠ .branch → dup = true → e.key.toNat ∈ w.seen → s.walkFrom dup w = .error .dupLeaf) ∧
          (e.kind ≠ .branch → dup = true → e.key.toNat ∉ w.seen → s.walkFrom dup w = s.walkFrom dup
            { stack := rest, visits := w.visits + 1, seen := e.key.toNat :: w.seen, order := w.order ++ [v] }))))

/-- R142, R143: TREE_ENC of a tree that fits writes exactly its description into the sink, without a flush, and changes nothing else;
the size of a description by its recursion and by its counts. -/
def Obligations.TreeEncWritesDescription : Prop :=
  encode .treeEnc = .word 0x00000001 ∧
  (∀ (s : State) (t : Tree), s.treeAtRoot t = true → s.fits t →
    ∃ u : State, exec .treeEnc s = .next u ∧
      u = { s with obuf := u.obuf, ocnt := u.ocnt, outBits := s.outBits + BitVec.ofNat 32 t.size, out := u.out,
                   done := true, seq := .idle } ∧
      u.sinkBits = s.sinkBits ++ t.desc ∧ (s.SinkClear → u.SinkClear)) ∧
  (∀ t : Tree, t.desc.length = t.size ∧
    t.size = (t.nodeCount - (t.leaves []).length) + 10 * (t.leaves []).countP (fun e => e.1 < 256) +
      2 * (t.leaves []).countP (fun e => e.1 = 256)) ∧
  (∀ l r : Tree, (Tree.branch l r).size = 1 + l.size + r.size) ∧ (∀ s : Byte, (Tree.leaf s).size = 10) ∧
  Tree.endMessage.size = 2

/-- R141, R51: either a tree that fits stands at ROOT and TREE_ENC succeeds, or none does and TREE_ENC ends in E_BAD_NODE, E_DEPTH or
E_SHARED and changes nothing else. -/
def Obligations.TreeEncSucceedsOrLeavesNothing : Prop :=
  ∀ s : State,
    (∃ t : Tree, s.treeAtRoot t = true ∧ s.fits t ∧ (∀ t', s.treeAtRoot t' = true → t' = t) ∧
      ∃ u : State, exec .treeEnc s = .next u ∧ u.seq = .idle ∧ u.done = true ∧ u.err = s.err) ∨
    ((¬ ∃ t : Tree, s.treeAtRoot t = true ∧ s.fits t) ∧ ∃ e, (e = .badNode ∨ e = .depth ∨ e = .shared) ∧
      exec .treeEnc s = .next { s with err := some e, done := true, seq := .idle })

/-- R180, R181, R182: TABLE_BUILD of a tree that fits and has no repeated key records for each leaf its key's depth and path, every
other entry absent, and sets TABLE_VALID; it changes nothing else. -/
def Obligations.TableBuildRecordsPaths : Prop :=
  encode .tableBuild = .word 0x00000003 ∧
  ∀ (s : State) (t : Tree), s.treeAtRoot t = true → s.fits t → t.keys.Nodup →
    ∃ u : State, exec .tableBuild s = .next u ∧
      u = { s with codes := u.codes, tableValid := true, done := true, seq := .idle } ∧
      (∀ k p, (k, p) ∈ t.leaves [] → tableGet u.codes k = some { len := BitVec.ofNat 9 p.length, path := p }) ∧
      (∀ k, k ∉ t.keys → tableGet u.codes k = none)

/-- R180, R183: with no such tree at ROOT, TABLE_BUILD ends in one of the walk's four errors, every entry absent and TABLE_VALID 0;
a tree that fits and repeats a key gives E_DUP_LEAF. -/
def Obligations.TableBuildErrors : Prop :=
  ∀ s : State, (¬ ∃ t : Tree, s.treeAtRoot t = true ∧ s.fits t ∧ t.keys.Nodup) →
    ∃ e, (e = .badNode ∨ e = .depth ∨ e = .shared ∨ e = .dupLeaf) ∧
      exec .tableBuild s = .next { s with codes := [], tableValid := false, err := some e, done := true, seq := .idle } ∧
      ∀ t, s.treeAtRoot t = true → s.fits t → e = .dupLeaf

/-- R184: SYM_ENC: E_NO_TABLE, then E_MISMATCH, both before any bit; then the path of the key in SYMBOL goes into the sink. -/
def Obligations.SymEncWritesPath : Prop :=
  encode .symEnc = .word 0x00000004 ∧
  ∀ s : State,
    (s.tableValid = false → exec .symEnc s = .next { s with err := some .noTable, done := true, seq := .idle }) ∧
    (s.tableValid = true → 256 < s.symbol.toNat ∨ tableGet s.codes s.symbol.toNat = none →
      exec .symEnc s = .next { s with err := some .mismatch, done := true, seq := .idle }) ∧
    (∀ e, s.tableValid = true → s.symbol.toNat ≤ 256 → tableGet s.codes s.symbol.toNat = some e →
      ∃ u : State, exec .symEnc s = .next u ∧
        u = { s with obuf := u.obuf, ocnt := u.ocnt, outBits := s.outBits + BitVec.ofNat 32 e.path.length, out := u.out,
                     done := true, seq := .idle } ∧
        u.sinkBits = s.sinkBits ++ e.path ∧ (s.SinkClear → u.SinkClear))

/-- R185: after a successful TABLE_BUILD no present path is a prefix of another's, and SYM_DEC over the path of a present key reaches
the key after exactly LEN bits; with a symbol leaf at the root it raises E_ROOT_SYMBOL. -/
def Obligations.PathsArePrefixFreeAndDecode : Prop :=
  ∀ s u : State, s.cfg.wf = true → exec .tableBuild s = .next u → u.tableValid = true →
    (∀ k k' e e', tableGet u.codes k = some e → tableGet u.codes k' = some e' → e.path <+: e'.path → k = k') ∧
    (∀ k e (v : State) rest, tableGet u.codes k = some e → v.cfg = u.cfg → v.nodes = u.nodes → v.root = u.root →
      v.icnt.toNat ≤ 8 → v.limitAllows e.len.toNat → v.sourceBits = e.path ++ rest →
      (∀ root, usableNode v.cfg.nodeCap v.nodes v.root = some root →
        (root.kind ≠ .leaf → ∃ x : State, exec .symDec v = .next x ∧ x.result.toNat = k ∧ x.resEom = decide (k = 256) ∧
          x.inBits = v.inBits + e.len.setWidth 32 ∧ x.sourceBits = rest ∧ x.done = true ∧ x.seq = .idle ∧ x.err = v.err) ∧
        (root.kind = .leaf → exec .symDec v = .next { v with err := some .rootSymbol, done := true, seq := .idle })))

/-! ### SYM_DEC -/

/-- R200, R201: SYM_DEC follows the source's bits from ROOT, 0 to the left and 1 to the right, to a leaf within DEPTH_CAP, returns its
key in RESULT and RES_EOM, and consumes exactly the path's bits. The path of no bits, an end-of-message leaf at the root, needs no bit
of the source, wherever IN_LIMIT stands (R291). -/
def Obligations.SymDecReachesLeaf : Prop :=
  encode .symDec = .word 0x00000005 ∧
  ∀ (s : State) (p rest : Bits) (j : BitVec 16) (e : NodeEntry),
    follow s.cfg.nodeCap s.nodes s.root p = some j → usableNode s.cfg.nodeCap s.nodes j = some e → e.kind ≠ .branch →
    (p = [] → e.kind ≠ .leaf) → p.length ≤ s.cfg.depthCap →
    s.icnt.toNat ≤ 8 → s.limitAllows p.length → s.sourceBits = p ++ rest →
    ∃ u : State, exec .symDec s = .next u ∧
      u = { s with result := e.key, resEom := decide (e.key = 256), done := true, seq := .idle,
                   inBits := s.inBits + BitVec.ofNat 32 p.length, ibuf := (s.afterBits p.length).ibuf,
                   icnt := (s.afterBits p.length).icnt, inq := (s.afterBits p.length).inq } ∧
      u.sourceBits = rest

/-- R200, R201, R202, R83: the ends of SYM_DEC that are no success: E_BAD_NODE and E_ROOT_SYMBOL at the root with no bit read;
E_BAD_NODE at a node met later; E_DEPTH past DEPTH_CAP; E_TRUNCATED_PAYLOAD when the source ends before a leaf is reached, at an EOS, at
IN_LIMIT, or at once with IN_LIMIT at or below IN_BITS (R291); and the hold when IN has no item yet. RESULT and RES_EOM stay, and the bits read stay consumed. -/
def Obligations.SymDecErrorsAndHold : Prop :=
  ∀ s : State,
    (usableNode s.cfg.nodeCap s.nodes s.root = none →
      exec .symDec s = .next { s with err := some .badNode, done := true, seq := .idle }) ∧
    (∀ e, usableNode s.cfg.nodeCap s.nodes s.root = some e → e.kind = .leaf →
      exec .symDec s = .next { s with err := some .rootSymbol, done := true, seq := .idle }) ∧
    (∀ (p rest : Bits) (j : BitVec 16), p ≠ [] → follow s.cfg.nodeCap s.nodes s.root p = some j →
      p.length ≤ s.cfg.depthCap + 1 → s.icnt.toNat ≤ 8 → s.limitAllows p.length → s.sourceBits = p ++ rest →
      (usableNode s.cfg.nodeCap s.nodes j = none →
        exec .symDec s = .next { s.afterBits p.length with err := some .badNode, done := true, seq := .idle }) ∧
      (∀ e, usableNode s.cfg.nodeCap s.nodes j = some e → p.length = s.cfg.depthCap + 1 →
        exec .symDec s = .next { s.afterBits p.length with err := some .depth, done := true, seq := .idle })) ∧
    (∀ (q : Bits) (j : BitVec 16) (e : NodeEntry),
      follow s.cfg.nodeCap s.nodes s.root q = some j → usableNode s.cfg.nodeCap s.nodes j = some e → e.kind = .branch →
      q.length ≤ s.cfg.depthCap → s.icnt.toNat ≤ 8 →
      (s.endsAfter q → ∃ v : State, (s.afterBits q.length).bitRead = .exhausted v ∧
        exec .symDec s = .next { v with err := some .truncatedPayload, done := true, seq := .idle }) ∧
      (s.driesAfter q →
        exec .symDec s = .next { s.afterBits q.length with seq := .held (.traverse false j q.length) }))

/-! ### TREE_DEC and the node codes -/

/-- R160, R161, R163: TREE_DEC of a description of a tree that fits writes the tree in pre-order from entry 0, ROOT 0 and NODE_COUNT,
clears TABLE_VALID, and stands right after the description's last bit. -/
def Obligations.TreeDecRebuildsTree : Prop :=
  encode .treeDec = .word 0x00000002 ∧
  ∀ (s : State) (t : Tree) (rest : Bits), s.cfg.wf = true → s.fits t → s.icnt.toNat ≤ 8 → s.limitAllows t.size →
    s.sourceBits = t.desc ++ rest →
    ∃ u : State, exec .treeDec s = .next u ∧
      u = { s with nodes := u.nodes, tableValid := false, nodeCount := BitVec.ofNat 17 t.nodeCount, root := 0,
                   inBits := s.inBits + BitVec.ofNat 32 t.size, ibuf := (s.afterBits t.size).ibuf,
                   icnt := (s.afterBits t.size).icnt, inq := (s.afterBits t.size).inq, done := true, seq := .idle } ∧
      numbered u.nodes t 0 ∧ (∀ i, (tableGet u.nodes i).isSome = decide (i < t.nodeCount)) ∧ u.treeAtRoot t = true ∧
      u.sourceBits = rest

/-- R160, R165, R83, R254: the ends of TREE_DEC that are no success. A description cut off by the end of the source, at an EOS, at
IN_LIMIT, or at once with IN_LIMIT at or below IN_BITS (R291), gives E_MALFORMED_TREE; one inside which IN has no item yet holds, with
the bits so far consumed. A tree with more than NODE_CAP nodes or a node deeper than DEPTH_CAP gives E_NODE_CAP or E_DEPTH; the error is
that of the first node in pre-order with no entry or too deep, E_NODE_CAP before E_DEPTH, and exactly the bits up to and with that
node's first bit are consumed. An error leaves no entry. -/
def Obligations.TreeDecErrors : Prop :=
  (∀ (s : State) (t : Tree) (q : Bits), s.fits t → s.icnt.toNat ≤ 8 → q <+: t.desc → q ≠ t.desc →
    (s.endsAfter q → ∃ v : State, (s.afterBits q.length).bitRead = .exhausted v ∧
      exec .treeDec s = .next { v with nodes := [], nodeCount := 0, root := 0, tableValid := false,
                                       err := some .malformedTree, done := true, seq := .idle }) ∧
    (s.driesAfter q → ∃ (m : Memory) (c : TreeCursor),
      exec .treeDec s = .next { s.afterBits q.length with nodes := m, nodeCount := 0, root := 0, tableValid := false,
                                                          seq := .held (.treeDec false c) })) ∧
  (∀ (s : State) (t : Tree) (rest : Bits), ¬ s.fits t → s.icnt.toNat ≤ 8 → s.limitAllows t.size →
    s.sourceBits = t.desc ++ rest →
    ∃ (e : ErrorCode) (u : State), exec .treeDec s = .next u ∧ u.err = some e ∧ u.seq = .idle ∧ u.done = true ∧
      u.nodes = [] ∧ u.nodeCount = 0 ∧ u.root = 0 ∧ u.tableValid = false ∧
      ((e = .nodeCap ∧ s.cfg.nodeCap < t.nodeCount) ∨ (e = .depth ∧ s.cfg.depthCap < t.height))) ∧
  (∀ (s : State) (t : Tree) (i d b : Nat) (rest : Bits),
    (t.preorder 0 0)[i]? = some (d, b) →
    (∀ j p, j < i → (t.preorder 0 0)[j]? = some p → j < s.cfg.nodeCap ∧ p.1 ≤ s.cfg.depthCap) →
    s.icnt.toNat ≤ 8 → s.limitAllows (b + 1) → s.sourceBits = t.desc.take (b + 1) ++ rest →
    (s.cfg.nodeCap ≤ i →
      exec .treeDec s = .next { s.afterBits (b + 1) with nodes := [], nodeCount := 0, root := 0, tableValid := false,
                                                         err := some .nodeCap, done := true, seq := .idle }) ∧
    (i < s.cfg.nodeCap → s.cfg.depthCap < d →
      exec .treeDec s = .next { s.afterBits (b + 1) with nodes := [], nodeCount := 0, root := 0, tableValid := false,
                                                         err := some .depth, done := true, seq := .idle }))

/-- R162: after a failed TREE_DEC every V is 0, NODE_COUNT and ROOT are 0, a following walk or traversal raises E_BAD_NODE, and what
was consumed stays consumed. -/
def Obligations.FailedTreeDecLeavesNoTree : Prop :=
  ∀ (s u : State) (e : ErrorCode), s.err = none → exec .treeDec s = .next u → u.err = some e →
    (e = .malformedTree ∨ e = .nodeCap ∨ e = .depth) ∧
    (∀ i, tableGet u.nodes i = none) ∧ u.nodeCount = 0 ∧ u.root = 0 ∧ u.tableValid = false ∧
    (∀ dup, u.walk dup = .error .badNode) ∧
    (∀ v : State, v.nodes = u.nodes → exec .symDec v = .next { v with err := some .badNode, done := true, seq := .idle }) ∧
    ∃ xs, s.inq = xs ++ u.inq

/-- R160, with the node codes as instructions (notes/assumptions/10.md): each places its entry at the next free index, links it to its
parent when it is a right child, opens the two holes of a branch, and changes nothing else. (A right child's parent has a smaller
index in every run.) With no tree description being read, or no hole open, it stops with the fault that the cursor is undefined
(I12, R56). -/
def Obligations.NodeCodesPlaceEntries : Prop :=
  (NodeCode.branch.toInstr = .dBranch ∧ NodeCode.eom.toInstr = .dEom ∧ ∀ sym, (NodeCode.leaf sym).toInstr = .dLeaf sym) ∧
  (∀ (s : State) (composite : Bool) (n : Nat) (h : Hole) (holes : List Hole) (code : Bits) (k : NodeCode),
    s.seq = .running (.treeDec composite { n := n, holes := h :: holes, code := code }) → h.slot ≠ .rightOf n →
    ∃ u : State, exec k.toInstr s = .next u ∧
      u = { s with
        nodes := u.nodes
        seq := .running (.treeDec composite
          { n := n + 1
            holes := match k with
              | .branch => { slot := .leftOf n, depth := h.depth + 1 } :: { slot := .rightOf n, depth := h.depth + 1 } :: holes
              | .eom => holes
              | .leaf _ => holes
            code := [] }) } ∧
      tableGet u.nodes n = some (match k with
        | .branch => { kind := .branch, sym := 0, left := BitVec.ofNat 16 (n + 1), right := 0 }
        | .eom => { kind := .eom, sym := 0, left := 0, right := 0 }
        | .leaf sym => { kind := .leaf, sym := sym, left := 0, right := 0 }) ∧
      (∀ j e, h.slot = .rightOf j → tableGet s.nodes j = some e →
        tableGet u.nodes j = some { e with right := BitVec.ofNat 16 n }) ∧
      (∀ i, i ≠ n → h.slot ≠ .rightOf i → tableGet u.nodes i = tableGet s.nodes i)) ∧
  (∀ (s : State) (k : NodeCode), (∀ composite c, s.seq = .running (.treeDec composite c) → c.holes = []) →
    exec k.toInstr s = .fault .cursorUndefined)

/-! ### COMPRESS and DECOMPRESS -/

/-- R224, R94, R119, R229: COMPRESS of a tree that fits, with an end-of-message leaf and no repeated key, over bytes that are all keys
and an EOS, writes the description, the paths and the end path, pads with zeros, consumes the EOS, and builds the table. -/
def Obligations.CompressCompletes : Prop :=
  encode .compress = .word 0x00000007 ∧
  ∀ (s : State) (t : Tree) (input : List Byte) (rest : List InItem),
    s.treeAtRoot t = true → s.fits t → t.keys.Nodup → 256 ∈ t.keys → (∀ b ∈ input, b.toNat ∈ t.keys) →
    s.inq = input.map .byte ++ .eos :: rest → s.SinkClear →
    ∃ u : State, exec .compress s = .next u ∧
      u = { s with codes := u.codes, tableValid := true, obuf := 0, ocnt := 0,
                   outBits := s.outBits + BitVec.ofNat 32 (t.stream input).length, out := u.out, inq := rest,
                   done := true, seq := .idle } ∧
      (∃ pad, pad < 8 ∧ streamBits u.out = s.sinkBits ++ t.stream input ++ List.replicate pad false) ∧
      (∀ k p, (k, p) ∈ t.leaves [] → tableGet u.codes k = some { len := BitVec.ofNat 9 p.length, path := p }) ∧
      (∀ k, k ∉ t.keys → tableGet u.codes k = none) ∧
      (s.ocnt = 0 → u.out.length = s.out.length + ((t.stream input).length + 7) / 8)

/-- R224, R253: the ends of COMPRESS that are no success: the errors of TABLE_BUILD, with TABLE_BUILD's end state; E_NO_EOM with the
new table and no bit written; E_MISMATCH at the first byte without a leaf, after the bits before it; and the hold, after the bits of
what IN held. In the last two the table is that of the tree and OUT_BITS has counted the bits written. -/
def Obligations.CompressErrorsAndHold : Prop :=
  (∀ s u : State, exec .tableBuild s = .next u → u.tableValid = false → exec .compress s = .next u) ∧
  (∀ (s u : State) (t : Tree), s.treeAtRoot t = true → s.fits t → t.keys.Nodup → 256 ∉ t.keys → exec .tableBuild s = .next u →
    exec .compress s = .next { u with err := some .noEom }) ∧
  (∀ (s : State) (t : Tree) (input : List Byte) (tail : List InItem),
    s.treeAtRoot t = true → s.fits t → t.keys.Nodup → 256 ∈ t.keys → (∀ b ∈ input, b.toNat ∈ t.keys) →
    s.inq = input.map .byte ++ tail →
    (∀ b rest, tail = .byte b :: rest → b.toNat ∉ t.keys →
      ∃ u : State, exec .compress s = .next u ∧
        u = { s with codes := u.codes, tableValid := true, obuf := u.obuf, ocnt := u.ocnt,
                     outBits := s.outBits + BitVec.ofNat 32 (t.desc ++ input.flatMap (fun b => (t.pathOf b.toNat).getD [])).length,
                     out := u.out, inq := rest, err := some .mismatch, done := true, seq := .idle } ∧
        u.sinkBits = s.sinkBits ++ t.desc ++ input.flatMap (fun b => (t.pathOf b.toNat).getD []) ∧
        (∀ k p, (k, p) ∈ t.leaves [] → tableGet u.codes k = some { len := BitVec.ofNat 9 p.length, path := p }) ∧
        (∀ k, k ∉ t.keys → tableGet u.codes k = none)) ∧
    (tail = [] →
      ∃ u : State, exec .compress s = .next u ∧
        u = { s with codes := u.codes, tableValid := true, obuf := u.obuf, ocnt := u.ocnt,
                     outBits := s.outBits + BitVec.ofNat 32 (t.desc ++ input.flatMap (fun b => (t.pathOf b.toNat).getD [])).length,
                     out := u.out, inq := [], seq := .held .payload } ∧
        u.sinkBits = s.sinkBits ++ t.desc ++ input.flatMap (fun b => (t.pathOf b.toNat).getD []) ∧
        (∀ k p, (k, p) ∈ t.leaves [] → tableGet u.codes k = some { len := BitVec.ofNat 9 p.length, path := p }) ∧
        (∀ k, k ∉ t.keys → tableGet u.codes k = none)))

/-- R225, R119: DECOMPRESS of a stream of a tree that fits, whose root is no symbol leaf, writes exactly the input to OUT, keeps the
decoded tree and no other entry, leaves 256 in RESULT and 1 in RES_EOM, and reads no bit past the end path. -/
def Obligations.DecompressCompletes : Prop :=
  encode .decompress = .word 0x00000008 ∧
  ∀ (s : State) (t : Tree) (input : List Byte) (rest : Bits),
    s.cfg.wf = true → s.fits t → t.isLeaf = false → 256 ∈ t.keys → (∀ b ∈ input, b.toNat ∈ t.keys) →
    s.icnt.toNat ≤ 8 → s.limitAllows (t.stream input).length → s.sourceBits = t.stream input ++ rest →
    ∃ u : State, exec .decompress s = .next u ∧
      u = { s with nodes := u.nodes, tableValid := false, nodeCount := BitVec.ofNat 17 t.nodeCount, root := 0,
                   inBits := s.inBits + BitVec.ofNat 32 (t.stream input).length,
                   ibuf := (s.afterBits (t.stream input).length).ibuf, icnt := (s.afterBits (t.stream input).length).icnt,
                   inq := (s.afterBits (t.stream input).length).inq,
                   out := s.out ++ input, result := 256, resEom := true, done := true, seq := .idle } ∧
      numbered u.nodes t 0 ∧ (∀ i, (tableGet u.nodes i).isSome = decide (i < t.nodeCount)) ∧ u.treeAtRoot t = true ∧
      u.sourceBits = rest

/-- R225, R253, R83: the ends of DECOMPRESS that are no success. In the tree phase: the errors of TREE_DEC, with TREE_DEC's end state,
and the hold where IN has no item yet. E_ROOT_SYMBOL with the decoded tree and no payload bit read. In the payload: E_TRUNCATED_PAYLOAD
where the source ends before the end path is complete, and the hold where IN has no item yet, with the decoded tree, the bytes decoded
so far in OUT and every bit so far consumed; the traversal holds at the entry the bits of the unfinished path lead to. -/
def Obligations.DecompressErrors : Prop :=
  (∀ (s u : State) (e : ErrorCode), s.err = none → exec .treeDec s = .next u → u.err = some e →
    exec .decompress s = .next u) ∧
  (∀ (s : State) (t : Tree) (q : Bits), s.fits t → s.icnt.toNat ≤ 8 → q <+: t.desc → q ≠ t.desc → s.driesAfter q →
    ∃ (m : Memory) (c : TreeCursor),
      exec .decompress s = .next { s.afterBits q.length with nodes := m, nodeCount := 0, root := 0, tableValid := false,
                                                             seq := .held (.treeDec true c) }) ∧
  (∀ (s : State) (sym : Byte) (rest : Bits), s.cfg.wf = true → s.icnt.toNat ≤ 8 → s.limitAllows 10 →
    s.sourceBits = (Tree.leaf sym).desc ++ rest →
    ∃ u : State, exec .treeDec s = .next u ∧ exec .decompress s = .next { u with err := some .rootSymbol } ∧
      u.inBits = s.inBits + 10) ∧
  (∀ (s : State) (t : Tree) (input : List Byte) (q read : Bits), s.cfg.wf = true → s.fits t → t.isLeaf = false →
    (∀ b ∈ input, b.toNat ∈ t.keys) → (∀ e ∈ t.leaves [], ¬ e.2 <+: q) → s.icnt.toNat ≤ 8 →
    read = t.desc ++ input.flatMap (fun b => (t.pathOf b.toNat).getD []) ++ q →
    (s.endsAfter read →
      ∃ u v : State, (s.afterBits read.length).bitRead = .exhausted v ∧ exec .decompress s = .next u ∧
        u = { v with nodes := u.nodes, tableValid := false, nodeCount := BitVec.ofNat 17 t.nodeCount, root := 0,
                     out := s.out ++ input, err := some .truncatedPayload, done := true, seq := .idle } ∧
        numbered u.nodes t 0 ∧ (∀ i, (tableGet u.nodes i).isSome = decide (i < t.nodeCount)) ∧ u.treeAtRoot t = true) ∧
    (s.driesAfter read →
      ∃ (u : State) (j : BitVec 16), exec .decompress s = .next u ∧
        u = { s.afterBits read.length with
          nodes := u.nodes, tableValid := false, nodeCount := BitVec.ofNat 17 t.nodeCount, root := 0,
          out := s.out ++ input, seq := .held (.traverse true j q.length) } ∧
        numbered u.nodes t 0 ∧ (∀ i, (tableGet u.nodes i).isSome = decide (i < t.nodeCount)) ∧ u.treeAtRoot t = true ∧
        follow u.cfg.nodeCap u.nodes u.root q = some j))

/-! ### Round trips -/

/-- R144: TREE_ENC of a tree that fits, then FLUSH, then TREE_DEC of the bytes written, with IN_LIMIT at least the description's
size, succeeds and rebuilds the same tree, its entries numbered in pre-order from 0. -/
def Obligations.TreeRoundTrip : Prop :=
  ∀ (s : State) (t : Tree), s.cfg.wf = true → s.treeAtRoot t = true → s.fits t → s.ocnt = 0 → s.SinkClear →
    ∃ (u v : State) (bytes : List Byte), exec .treeEnc s = .next u ∧ exec .flush u = .next v ∧ v.out = s.out ++ bytes ∧
      v.err = s.err ∧
      ∀ (w : State) (more : List InItem), w.cfg = s.cfg → w.icnt = 0 → w.inq = bytes.map .byte ++ more → w.limitAllows t.size →
        ∃ x : State, exec .treeDec w = .next x ∧ x.seq = .idle ∧ x.done = true ∧ x.err = w.err ∧
          x.root = 0 ∧ x.treeAtRoot t = true ∧ numbered x.nodes t 0

/-- R228: COMPRESS of an input, then SOURCE_RESET and DECOMPRESS of the bytes written, followed by an EOS, with the default IN_LIMIT,
appends exactly the input to OUT. The stream stays below 2^32 bits (I20). -/
def Obligations.CompressDecompressRoundTrip : Prop :=
  ∀ (s : State) (t : Tree) (input : List Byte) (rest : List InItem),
    s.cfg.wf = true → s.treeAtRoot t = true → s.fits t → t.keys.Nodup → 256 ∈ t.keys → t.isLeaf = false →
    (∀ b ∈ input, b.toNat ∈ t.keys) → s.ocnt = 0 → s.SinkClear → s.inq = input.map .byte ++ .eos :: rest →
    (t.stream input).length < 2 ^ 32 →
    ∃ (u : State) (bytes : List Byte), exec .compress s = .next u ∧ u.err = s.err ∧ u.out = s.out ++ bytes ∧
      ∀ w : State, w.cfg = s.cfg → w.inLimit = 0xFFFFFFFF → w.inq = bytes.map .byte ++ [.eos] →
        ∃ x y : State, exec .sourceReset w = .next x ∧ exec .decompress x = .next y ∧
          y.out = w.out ++ input ∧ y.seq = .idle ∧ y.done = true ∧ y.err = w.err ∧ y.result = 256 ∧ y.resEom = true ∧
          y.inq = [.eos]

/-! ### The whole machine -/

/-- R17: a turn of the core that has a command to run, accepted or under way, with ERR = 0, ends in exactly one of three ways: success,
error, or held in an InRead with IN empty. -/
def Obligations.CommandsEndOneOfThreeWays : Prop :=
  ∀ (s : State) (c : Cursor) (rest : List Event), s.seq = .running c → s.err = none →
    ∃ t : State, step { s with events := .core :: rest } = .next t ∧
      ((t.Succeeded ∧ (∀ e, ¬ t.Failed e) ∧ ¬ t.Waiting) ∨
       (¬ t.Succeeded ∧ (∃ e, t.Failed e ∧ ∀ e', t.Failed e' → e' = e) ∧ ¬ t.Waiting) ∨
       (¬ t.Succeeded ∧ (∀ e, ¬ t.Failed e) ∧ t.Waiting ∧ t.busy = true ∧ t.holdIn = true))

/-- R20, R58, R89: no command changes what only the host does: the parameters, CMD_OVR, IE, NODE_ADDR, NODE_LINK, SYMBOL, IN_LIMIT,
CODE_SEL and the host's records; OUT only grows at its end, and IN only loses items from its front. -/
def Obligations.CommandsLeaveHostState : Prop :=
  ∀ (w : Word) (i : Instr) (s t : State), decodeWord w = .ok i → exec i s = .next t →
    s.HostFrame t ∧ (∃ ys, t.out = s.out ++ ys) ∧ (∃ xs, s.inq = xs ++ t.inq)

/-- R141, R180, R184, R224: what the encoding commands leave, however they end: TREE_ENC and SYM_ENC the tree, the table, the result,
the source and IN; TABLE_BUILD the tree, the result, both bit buffers and both channels; COMPRESS the tree, the result and the
source. -/
def Obligations.EncoderFrames : Prop :=
  ∀ s t : State,
    (exec .treeEnc s = .next t → s.SameTree t ∧ s.SameTable t ∧ s.SameResult t ∧ s.SameSource t ∧ t.inq = s.inq) ∧
    (exec .symEnc s = .next t → s.SameTree t ∧ s.SameTable t ∧ s.SameResult t ∧ s.SameSource t ∧ t.inq = s.inq) ∧
    (exec .tableBuild s = .next t →
      s.SameTree t ∧ s.SameResult t ∧ s.SameSink t ∧ s.SameSource t ∧ t.inq = s.inq ∧ t.out = s.out) ∧
    (exec .compress s = .next t → s.SameTree t ∧ s.SameResult t ∧ s.SameSource t)

/-- R160, R200, R225: what the decoding commands leave, however they end: SYM_DEC the tree, the table, the sink and OUT; TREE_DEC the
result, the sink, the table's entries and OUT; DECOMPRESS the sink and the table's entries. SYM_DEC and DECOMPRESS leave the result too,
unless they succeed. -/
def Obligations.DecoderFrames : Prop :=
  ∀ s t : State, s.err = none →
    (exec .symDec s = .next t → s.SameTree t ∧ s.SameTable t ∧ s.SameSink t ∧ t.out = s.out ∧ (¬ t.Succeeded → s.SameResult t)) ∧
    (exec .treeDec s = .next t →
      s.SameResult t ∧ s.SameSink t ∧ t.codes = s.codes ∧ t.out = s.out ∧ t.tableValid = false ∧ t.root = 0) ∧
    (exec .decompress s = .next t →
      s.SameSink t ∧ t.codes = s.codes ∧ t.tableValid = false ∧ t.root = 0 ∧ (¬ t.Succeeded → s.SameResult t))

/-- R54, R55, R71, R72, R96, R257: the storage invariant holds after every step from any state in which it holds: canonical node
memory and code table within their bounds, LEN at most DEPTH_CAP and the length of PATH, zero unfilled sink bits, ICNT at most 8,
NODE_COUNT at most NODE_CAP, no command running while ERR = 1, and the cursor's counts and depths within the capacities. -/
def Obligations.StorageInvariantKept : Prop :=
  ∀ s t : State, s.StorageInv → step s = .next t → t.StorageInv

/-- R28, R53, R92: that a valid table is the table of the tree at ROOT holds after every step from any state in which it holds. -/
def Obligations.TableInvariantKept : Prop :=
  ∀ s t : State, s.TableInv → step s = .next t → t.TableInv

/-- R281: both invariants hold after reset. -/
def Obligations.InvariantsHoldAtReset : Prop := State.reset.StorageInv ∧ State.reset.TableInv

/-- R53: with the table invariant, TABLE_VALID = 1 says that a tree stands at ROOT whose leaves are exactly the present entries, each
with its path. -/
def Obligations.ValidTableMatchesTree : Prop :=
  ∀ s : State, s.TableInv → s.tableValid = true →
    ∃ t : Tree, s.treeAtRoot t = true ∧ s.fits t ∧
      (∀ k, (tableGet s.codes k).isSome = true ↔ k ∈ t.keys) ∧
      (∀ k e, tableGet s.codes k = some e → (k, e.path) ∈ t.leaves [])

/-- R15: no observable effect depends on finer timing: after any one iteration of the core its turn answers as before, and enough
iterations are the turn. -/
def Obligations.IterationsAreTheTurn : Prop :=
  ∀ s : State, (∃ t : State, s.coreTick = .next t ∧ t.coreTurn = s.coreTurn) ∧ ∃ n, s.coreTicks n = s.coreTurn

/-- R15, R83: a command is a function of the state and of the IN items it consumes: held for an item that the host then appends, it goes
on to the state it would have reached with the item in IN from the start. -/
def Obligations.HoldsSplitACommand : Prop :=
  ∀ (s t : State) (c : Cursor) (x : InItem), (∀ d, s.seq ≠ .held d) → s.coreTurn = .next t → t.seq = .held c →
    { t with inq := t.inq ++ [x], seq := .running c }.coreTurn = { s with inq := s.inq ++ [x] }.coreTurn

/-! ### The host's program lines -/

/-- R123, R124: the pseudo-instructions as bus actions and what they do while BUSY = 0: `CMD` writes the word of the opcode map to CMD,
`RUN` is `CMD` then `WAIT`, `ACK` clears DONE, ERR with ERRCODE, and CMD_OVR, and a `NODE` line stores the whole entry. -/
def Obligations.HostLinesExpand : Prop :=
  (∀ (i : Instr) (w : Word), encode i = .word w → hostCmd i = [.write 0x08 w]) ∧
  (∀ (i : Instr) (polls : Nat), hostRun i polls = hostCmd i ++ hostWait polls) ∧
  ∀ (s : State) (rest : List Event), s.busy = false →
    Sys2Proof.core.run 1 { s with events := hostAck ++ rest } =
      .next { s with events := rest, done := false, err := none, cmdOvr := false } ∧
    ∀ i : BitVec 16, i.toNat < s.cfg.nodeCap →
      (∀ l r : BitVec 16, ∃ t : State, Sys2Proof.core.run 3 { s with events := hostNodeBranch i l r ++ rest } = .next t ∧
        t = { s with events := rest, nodes := t.nodes, tableValid := false, nodeAddr := i, nodeLink := r ++ l } ∧
        ∀ j, tableGet t.nodes j =
          if j = i.toNat then some { kind := .branch, sym := 0, left := l, right := r } else tableGet s.nodes j) ∧
      (∀ sym : Byte, ∃ t : State, Sys2Proof.core.run 3 { s with events := hostNodeLeaf i sym ++ rest } = .next t ∧
        t = { s with events := rest, nodes := t.nodes, tableValid := false, nodeAddr := i, nodeLink := 0 } ∧
        ∀ j, tableGet t.nodes j =
          if j = i.toNat then some { kind := .leaf, sym := sym, left := 0, right := 0 } else tableGet s.nodes j) ∧
      ∃ t : State, Sys2Proof.core.run 3 { s with events := hostNodeEom i ++ rest } = .next t ∧
        t = { s with events := rest, nodes := t.nodes, tableValid := false, nodeAddr := i, nodeLink := 0 } ∧
        ∀ j, tableGet t.nodes j =
          if j = i.toNat then some { kind := .eom, sym := 0, left := 0, right := 0 } else tableGet s.nodes j

/-- R124, R288: `WAIT` reads STATUS, is over with the first read that shows BUSY = 0, and reads again after any other. So a `RUN` whose
command ends is over with the read that shows it, after any number of reads (I17), and a `WAIT` for a held command reads on
without end. Which turns come between two reads is the model's choice (notes/assumptions/5.md): the schedule's next turn
if it is no line of the host's program, and otherwise the core's. -/
def Obligations.WaitReadsUntilIdle : Prop :=
  let others : List Event := [.take, .reset, .core, .tick, .pause]
  (∀ (s : State) (rest : List Event),
    (s.busy = false →
      step { s with events := .wait :: rest } = .next { s with events := rest, reads := s.reads ++ [s.statusWord] }) ∧
    (∀ x more, s.busy = true → rest = x :: more → x ∈ others →
      step { s with events := .wait :: rest } =
        .next { s with events := x :: .wait :: more, reads := s.reads ++ [s.statusWord] }) ∧
    (s.busy = true → (∀ x, rest.head? = some x → x ∉ others) →
      step { s with events := .wait :: rest } =
        .next { s with events := .core :: .wait :: rest, reads := s.reads ++ [s.statusWord] })) ∧
  (∀ (s u : State) (i : Instr) (w : Word) (polls : Nat) (rest : List Event),
    s.busy = false → s.err = none → encode i = .word w → (∀ x, rest.head? = some x → x ∉ others) →
    exec i { s with
      done := false
      seq := .running (.issued w)
      events := .wait :: rest
      reads := s.reads ++ List.replicate polls { s with done := false, seq := .running (.issued w) }.statusWord } = .next u →
    u.seq = .idle →
    ∃ n, Sys2Proof.core.run n { s with events := hostRun i polls ++ rest } =
      .next { u with events := rest, reads := u.reads ++ [u.statusWord] }) ∧
  (∀ (s : State) (c : Cursor) (rest : List Event) (n : Nat), s.seq = .held c → (∀ x, rest.head? = some x → x ∉ others) →
    ∃ u : State, Sys2Proof.core.run n { s with events := .wait :: rest } = .next u ∧
      u = { s with events := u.events, reads := s.reads ++ List.replicate ((n + 1) / 2) s.statusWord } ∧
      (u.events = .wait :: rest ∨ u.events = .core :: .wait :: rest))
end

