-- ==== Sys2Proof/Laws/Tables.lean ====
section
/-!
SUPPORT. The sparse tables: reading after writing, and the canonical form.
-/

namespace Sys2Proof.Machine

variable {α : Type}

theorem tableGet_put_self (t : List (Nat × α)) (i : Nat) (x : α) : tableGet (tablePut t i x) i = some x := by
  induction t with
  | nil => simp [tablePut, tableGet]
  | cons e rest ih =>
    obtain ⟨k, v⟩ := e
    simp only [tablePut]
    split
    · simp [tableGet]
    · split
      · simp [tableGet]
      · rename_i h1 h2
        simp [tableGet, h2, ih]

theorem tableGet_put_ne (t : List (Nat × α)) {i j : Nat} (x : α) (h : j ≠ i) :
    tableGet (tablePut t i x) j = tableGet t j := by
  induction t with
  | nil => simp [tablePut, tableGet, h]
  | cons e rest ih =>
    obtain ⟨k, v⟩ := e
    simp only [tablePut]
    split
    · simp [tableGet, h]
    · split
      · rename_i h1 h2
        subst h2
        simp [tableGet, h]
      · simp only [tableGet, ih]

theorem tableGet_put (t : List (Nat × α)) (i j : Nat) (x : α) :
    tableGet (tablePut t i x) j = if j = i then some x else tableGet t j := by
  split
  · next h => rw [h, tableGet_put_self]
  · next h => exact tableGet_put_ne t x h

theorem tableWf_mono {lo lo' hi : Nat} {t : List (Nat × α)} (h : lo' ≤ lo) (w : tableWf lo hi t = true) :
    tableWf lo' hi t = true := by
  cases t with
  | nil => rfl
  | cons e rest =>
    obtain ⟨k, v⟩ := e
    simp only [tableWf, Bool.and_eq_true, decide_eq_true_eq] at w ⊢
    exact ⟨⟨by omega, w.1.2⟩, w.2⟩

/-- Nothing is listed below the bound the form starts from. -/
theorem tableGet_lt {lo hi : Nat} {t : List (Nat × α)} (w : tableWf lo hi t = true) {i : Nat} (h : i < lo) :
    tableGet t i = none := by
  induction t generalizing lo with
  | nil => rfl
  | cons e rest ih =>
    obtain ⟨k, v⟩ := e
    simp only [tableWf, Bool.and_eq_true, decide_eq_true_eq] at w
    have hne : i ≠ k := by omega
    simp only [tableGet, hne, if_false]
    exact ih w.2 (by omega)

/-- Nothing is listed from the upper bound on. -/
theorem tableGet_ge {lo hi : Nat} {t : List (Nat × α)} (w : tableWf lo hi t = true) {i : Nat} (h : hi ≤ i) :
    tableGet t i = none := by
  induction t generalizing lo with
  | nil => rfl
  | cons e rest ih =>
    obtain ⟨k, v⟩ := e
    simp only [tableWf, Bool.and_eq_true, decide_eq_true_eq] at w
    have hne : i ≠ k := by omega
    simp only [tableGet, hne, if_false]
    exact ih w.2

/-- A write at an index in range keeps the canonical form. -/
theorem tablePut_wf {lo hi : Nat} {t : List (Nat × α)} (w : tableWf lo hi t = true) {i : Nat} (x : α)
    (h1 : lo ≤ i) (h2 : i < hi) : tableWf lo hi (tablePut t i x) = true := by
  induction t generalizing lo with
  | nil => simp [tablePut, tableWf, h1, h2]
  | cons e rest ih =>
    obtain ⟨k, v⟩ := e
    simp only [tableWf, Bool.and_eq_true, decide_eq_true_eq] at w
    simp only [tablePut]
    split
    · simp only [tableWf, Bool.and_eq_true, decide_eq_true_eq]
      exact ⟨⟨h1, h2⟩, ⟨by omega, w.1.2⟩, w.2⟩
    · split
      · next h => subst h; simp only [tableWf, Bool.and_eq_true, decide_eq_true_eq]; exact ⟨⟨h1, h2⟩, w.2⟩
      · simp only [tableWf, Bool.and_eq_true, decide_eq_true_eq]
        exact ⟨w.1, ih w.2 (by omega)⟩

/-- Equal tables are equal data: two canonical tables that read the same everywhere are the same list. -/
theorem tableWf_ext {lo hi : Nat} {t u : List (Nat × α)} (ht : tableWf lo hi t = true) (hu : tableWf lo hi u = true)
    (h : ∀ i, tableGet t i = tableGet u i) : t = u := by
  induction t generalizing lo u with
  | nil =>
    cases u with
    | nil => rfl
    | cons e rest => have := h e.1; simp [tableGet] at this
  | cons e rest ih =>
    obtain ⟨k, v⟩ := e
    cases u with
    | nil => have := h k; simp [tableGet] at this
    | cons e' rest' =>
      obtain ⟨k', v'⟩ := e'
      simp only [tableWf, Bool.and_eq_true, decide_eq_true_eq] at ht hu
      have hk : k = k' := by
        by_contra hne
        rcases Nat.lt_or_gt_of_ne hne with hlt | hgt
        · have := h k
          rw [tableGet, if_pos rfl, tableGet, if_neg hne, tableGet_lt hu.2 (by omega)] at this
          simp at this
        · have := h k'
          rw [tableGet, if_neg (Ne.symm hne), tableGet_lt ht.2 (by omega), tableGet, if_pos rfl] at this
          simp at this
      subst hk
      have hv : v = v' := by have := h k; simpa [tableGet] using this
      subst hv
      congr 1
      refine ih ht.2 hu.2 fun i => ?_
      by_cases hik : i = k
      · subst hik; rw [tableGet_lt ht.2 (by omega), tableGet_lt hu.2 (by omega)]
      · have := h i; simpa [tableGet, hik] using this

/-- What is listed was written or was listed before. -/
theorem mem_tablePut {t : List (Nat × α)} {i : Nat} {x : α} {e : Nat × α} (h : e ∈ tablePut t i x) :
    e = (i, x) ∨ e ∈ t := by
  induction t with
  | nil => simpa [tablePut] using h
  | cons e' rest ih =>
    obtain ⟨k, v⟩ := e'
    simp only [tablePut] at h
    split at h
    · simpa using h
    · split at h
      · rcases List.mem_cons.1 h with h | h
        · exact .inl h
        · exact .inr (List.mem_cons_of_mem _ h)
      · rcases List.mem_cons.1 h with h | h
        · exact .inr (h ▸ List.mem_cons_self)
        · rcases ih h with h | h
          · exact .inl h
          · exact .inr (List.mem_cons_of_mem _ h)

theorem mem_of_tableGet {t : List (Nat × α)} {i : Nat} {x : α} (h : tableGet t i = some x) : (i, x) ∈ t := by
  induction t with
  | nil => simp [tableGet] at h
  | cons e rest ih =>
    obtain ⟨k, v⟩ := e
    simp only [tableGet] at h
    split at h
    · next hk => cases h; subst hk; exact List.mem_cons_self
    · exact List.mem_cons_of_mem _ (ih h)

end Sys2Proof.Machine
end

