-- ==== Sys2Proof/Laws/State.lean ====
section
/-!
SUPPORT. What each update of the state does to each field: one rule per field, gathered in one theorem per update.
-/

namespace Sys2Proof.Machine

namespace State

variable (s : State)

/-- The command goes on from a cursor. -/
@[simp] theorem setCursor_fields (c : Cursor) :
    (s.setCursor c).cfg = s.cfg ∧ (s.setCursor c).done = s.done ∧ (s.setCursor c).err = s.err ∧
    (s.setCursor c).tableValid = s.tableValid ∧ (s.setCursor c).resEom = s.resEom ∧ (s.setCursor c).cmdOvr = s.cmdOvr ∧
    (s.setCursor c).ie = s.ie ∧ (s.setCursor c).root = s.root ∧ (s.setCursor c).nodeCount = s.nodeCount ∧
    (s.setCursor c).nodeAddr = s.nodeAddr ∧ (s.setCursor c).nodeLink = s.nodeLink ∧ (s.setCursor c).symbol = s.symbol ∧
    (s.setCursor c).result = s.result ∧ (s.setCursor c).outBits = s.outBits ∧ (s.setCursor c).inBits = s.inBits ∧
    (s.setCursor c).inLimit = s.inLimit ∧ (s.setCursor c).codeKey = s.codeKey ∧ (s.setCursor c).codeWord = s.codeWord ∧
    (s.setCursor c).nodes = s.nodes ∧ (s.setCursor c).codes = s.codes ∧ (s.setCursor c).obuf = s.obuf ∧
    (s.setCursor c).ocnt = s.ocnt ∧ (s.setCursor c).ibuf = s.ibuf ∧ (s.setCursor c).icnt = s.icnt ∧
    (s.setCursor c).seq = .running c ∧ (s.setCursor c).inq = s.inq ∧ (s.setCursor c).out = s.out ∧
    (s.setCursor c).events = s.events ∧ (s.setCursor c).reads = s.reads ∧ (s.setCursor c).taken = s.taken ∧
    (s.setCursor c).freeCount = s.freeCount := by
  and_intros <;> rfl

/-- The command waits at a cursor. -/
@[simp] theorem holdAt_fields (c : Cursor) :
    (s.holdAt c).cfg = s.cfg ∧ (s.holdAt c).done = s.done ∧ (s.holdAt c).err = s.err ∧
    (s.holdAt c).tableValid = s.tableValid ∧ (s.holdAt c).resEom = s.resEom ∧ (s.holdAt c).cmdOvr = s.cmdOvr ∧
    (s.holdAt c).ie = s.ie ∧ (s.holdAt c).root = s.root ∧ (s.holdAt c).nodeCount = s.nodeCount ∧
    (s.holdAt c).nodeAddr = s.nodeAddr ∧ (s.holdAt c).nodeLink = s.nodeLink ∧ (s.holdAt c).symbol = s.symbol ∧
    (s.holdAt c).result = s.result ∧ (s.holdAt c).outBits = s.outBits ∧ (s.holdAt c).inBits = s.inBits ∧
    (s.holdAt c).inLimit = s.inLimit ∧ (s.holdAt c).codeKey = s.codeKey ∧ (s.holdAt c).codeWord = s.codeWord ∧
    (s.holdAt c).nodes = s.nodes ∧ (s.holdAt c).codes = s.codes ∧ (s.holdAt c).obuf = s.obuf ∧ (s.holdAt c).ocnt = s.ocnt ∧
    (s.holdAt c).ibuf = s.ibuf ∧ (s.holdAt c).icnt = s.icnt ∧ (s.holdAt c).seq = .held c ∧ (s.holdAt c).inq = s.inq ∧
    (s.holdAt c).out = s.out ∧ (s.holdAt c).events = s.events ∧ (s.holdAt c).reads = s.reads ∧ (s.holdAt c).taken = s.taken ∧
    (s.holdAt c).freeCount = s.freeCount := by
  and_intros <;> rfl

/-- A command is accepted (R24). -/
@[simp] theorem accept_fields (w : Word) :
    (s.accept w).cfg = s.cfg ∧ (s.accept w).done = false ∧ (s.accept w).err = s.err ∧
    (s.accept w).tableValid = s.tableValid ∧ (s.accept w).resEom = s.resEom ∧ (s.accept w).cmdOvr = s.cmdOvr ∧
    (s.accept w).ie = s.ie ∧ (s.accept w).root = s.root ∧ (s.accept w).nodeCount = s.nodeCount ∧
    (s.accept w).nodeAddr = s.nodeAddr ∧ (s.accept w).nodeLink = s.nodeLink ∧ (s.accept w).symbol = s.symbol ∧
    (s.accept w).result = s.result ∧ (s.accept w).outBits = s.outBits ∧ (s.accept w).inBits = s.inBits ∧
    (s.accept w).inLimit = s.inLimit ∧ (s.accept w).codeKey = s.codeKey ∧ (s.accept w).codeWord = s.codeWord ∧
    (s.accept w).nodes = s.nodes ∧ (s.accept w).codes = s.codes ∧ (s.accept w).obuf = s.obuf ∧ (s.accept w).ocnt = s.ocnt ∧
    (s.accept w).ibuf = s.ibuf ∧ (s.accept w).icnt = s.icnt ∧ (s.accept w).seq = .running (.issued w) ∧
    (s.accept w).inq = s.inq ∧ (s.accept w).out = s.out ∧ (s.accept w).events = s.events ∧ (s.accept w).reads = s.reads ∧
    (s.accept w).taken = s.taken ∧ (s.accept w).freeCount = s.freeCount := by
  and_intros <;> rfl

/-- A command ends in success (R26). -/
@[simp] theorem succeed_fields :
    s.succeed.cfg = s.cfg ∧ s.succeed.done = true ∧ s.succeed.err = s.err ∧ s.succeed.tableValid = s.tableValid ∧
    s.succeed.resEom = s.resEom ∧ s.succeed.cmdOvr = s.cmdOvr ∧ s.succeed.ie = s.ie ∧ s.succeed.root = s.root ∧
    s.succeed.nodeCount = s.nodeCount ∧ s.succeed.nodeAddr = s.nodeAddr ∧ s.succeed.nodeLink = s.nodeLink ∧
    s.succeed.symbol = s.symbol ∧ s.succeed.result = s.result ∧ s.succeed.outBits = s.outBits ∧ s.succeed.inBits = s.inBits ∧
    s.succeed.inLimit = s.inLimit ∧ s.succeed.codeKey = s.codeKey ∧ s.succeed.codeWord = s.codeWord ∧
    s.succeed.nodes = s.nodes ∧ s.succeed.codes = s.codes ∧ s.succeed.obuf = s.obuf ∧ s.succeed.ocnt = s.ocnt ∧
    s.succeed.ibuf = s.ibuf ∧ s.succeed.icnt = s.icnt ∧ s.succeed.seq = .idle ∧ s.succeed.inq = s.inq ∧
    s.succeed.out = s.out ∧ s.succeed.events = s.events ∧ s.succeed.reads = s.reads ∧ s.succeed.taken = s.taken ∧
    s.succeed.freeCount = s.freeCount := by
  and_intros <;> rfl

/-- A command ends in an error (R250). -/
@[simp] theorem raise_fields (e : ErrorCode) :
    (s.raise e).cfg = s.cfg ∧ (s.raise e).done = true ∧ (s.raise e).err = some e ∧ (s.raise e).tableValid = s.tableValid ∧
    (s.raise e).resEom = s.resEom ∧ (s.raise e).cmdOvr = s.cmdOvr ∧ (s.raise e).ie = s.ie ∧ (s.raise e).root = s.root ∧
    (s.raise e).nodeCount = s.nodeCount ∧ (s.raise e).nodeAddr = s.nodeAddr ∧ (s.raise e).nodeLink = s.nodeLink ∧
    (s.raise e).symbol = s.symbol ∧ (s.raise e).result = s.result ∧ (s.raise e).outBits = s.outBits ∧
    (s.raise e).inBits = s.inBits ∧ (s.raise e).inLimit = s.inLimit ∧ (s.raise e).codeKey = s.codeKey ∧
    (s.raise e).codeWord = s.codeWord ∧ (s.raise e).nodes = s.nodes ∧ (s.raise e).codes = s.codes ∧
    (s.raise e).obuf = s.obuf ∧ (s.raise e).ocnt = s.ocnt ∧ (s.raise e).ibuf = s.ibuf ∧ (s.raise e).icnt = s.icnt ∧
    (s.raise e).seq = .idle ∧ (s.raise e).inq = s.inq ∧ (s.raise e).out = s.out ∧ (s.raise e).events = s.events ∧
    (s.raise e).reads = s.reads ∧ (s.raise e).taken = s.taken ∧ (s.raise e).freeCount = s.freeCount := by
  and_intros <;> rfl

/-- The error is acknowledged (R257). -/
@[simp] theorem ackError_fields :
    s.ackError.cfg = s.cfg ∧ s.ackError.done = s.done ∧ s.ackError.err = none ∧ s.ackError.tableValid = s.tableValid ∧
    s.ackError.resEom = s.resEom ∧ s.ackError.cmdOvr = s.cmdOvr ∧ s.ackError.ie = s.ie ∧ s.ackError.root = s.root ∧
    s.ackError.nodeCount = s.nodeCount ∧ s.ackError.nodeAddr = s.nodeAddr ∧ s.ackError.nodeLink = s.nodeLink ∧
    s.ackError.symbol = s.symbol ∧ s.ackError.result = s.result ∧ s.ackError.outBits = s.outBits ∧
    s.ackError.inBits = s.inBits ∧ s.ackError.inLimit = s.inLimit ∧ s.ackError.codeKey = s.codeKey ∧
    s.ackError.codeWord = s.codeWord ∧ s.ackError.nodes = s.nodes ∧ s.ackError.codes = s.codes ∧ s.ackError.obuf = s.obuf ∧
    s.ackError.ocnt = s.ocnt ∧ s.ackError.ibuf = s.ibuf ∧ s.ackError.icnt = s.icnt ∧ s.ackError.seq = s.seq ∧
    s.ackError.inq = s.inq ∧ s.ackError.out = s.out ∧ s.ackError.events = s.events ∧ s.ackError.reads = s.reads ∧
    s.ackError.taken = s.taken ∧ s.ackError.freeCount = s.freeCount := by
  and_intros <;> rfl

/-- `OutWrite` (R84). -/
@[simp] theorem outWrite_fields (b : Byte) :
    (s.outWrite b).cfg = s.cfg ∧ (s.outWrite b).done = s.done ∧ (s.outWrite b).err = s.err ∧
    (s.outWrite b).tableValid = s.tableValid ∧ (s.outWrite b).resEom = s.resEom ∧ (s.outWrite b).cmdOvr = s.cmdOvr ∧
    (s.outWrite b).ie = s.ie ∧ (s.outWrite b).root = s.root ∧ (s.outWrite b).nodeCount = s.nodeCount ∧
    (s.outWrite b).nodeAddr = s.nodeAddr ∧ (s.outWrite b).nodeLink = s.nodeLink ∧ (s.outWrite b).symbol = s.symbol ∧
    (s.outWrite b).result = s.result ∧ (s.outWrite b).outBits = s.outBits ∧ (s.outWrite b).inBits = s.inBits ∧
    (s.outWrite b).inLimit = s.inLimit ∧ (s.outWrite b).codeKey = s.codeKey ∧ (s.outWrite b).codeWord = s.codeWord ∧
    (s.outWrite b).nodes = s.nodes ∧ (s.outWrite b).codes = s.codes ∧ (s.outWrite b).obuf = s.obuf ∧
    (s.outWrite b).ocnt = s.ocnt ∧ (s.outWrite b).ibuf = s.ibuf ∧ (s.outWrite b).icnt = s.icnt ∧ (s.outWrite b).seq = s.seq ∧
    (s.outWrite b).inq = s.inq ∧ (s.outWrite b).out = s.out ++ [b] ∧ (s.outWrite b).events = s.events ∧
    (s.outWrite b).reads = s.reads ∧ (s.outWrite b).taken = s.taken ∧ (s.outWrite b).freeCount = s.freeCount := by
  and_intros <;> rfl

/-- TABLE_BUILD's start (R180). -/
@[simp] theorem clearTable_fields :
    s.clearTable.cfg = s.cfg ∧ s.clearTable.done = s.done ∧ s.clearTable.err = s.err ∧ s.clearTable.tableValid = false ∧
    s.clearTable.resEom = s.resEom ∧ s.clearTable.cmdOvr = s.cmdOvr ∧ s.clearTable.ie = s.ie ∧ s.clearTable.root = s.root ∧
    s.clearTable.nodeCount = s.nodeCount ∧ s.clearTable.nodeAddr = s.nodeAddr ∧ s.clearTable.nodeLink = s.nodeLink ∧
    s.clearTable.symbol = s.symbol ∧ s.clearTable.result = s.result ∧ s.clearTable.outBits = s.outBits ∧
    s.clearTable.inBits = s.inBits ∧ s.clearTable.inLimit = s.inLimit ∧ s.clearTable.codeKey = s.codeKey ∧
    s.clearTable.codeWord = s.codeWord ∧ s.clearTable.nodes = s.nodes ∧ s.clearTable.codes = [] ∧
    s.clearTable.obuf = s.obuf ∧ s.clearTable.ocnt = s.ocnt ∧ s.clearTable.ibuf = s.ibuf ∧ s.clearTable.icnt = s.icnt ∧
    s.clearTable.seq = s.seq ∧ s.clearTable.inq = s.inq ∧ s.clearTable.out = s.out ∧ s.clearTable.events = s.events ∧
    s.clearTable.reads = s.reads ∧ s.clearTable.taken = s.taken ∧ s.clearTable.freeCount = s.freeCount := by
  and_intros <;> rfl

/-- TABLE_BUILD's end (R180). -/
@[simp] theorem fillTable_fields (order : List Visit) :
    (s.fillTable order).cfg = s.cfg ∧ (s.fillTable order).done = s.done ∧ (s.fillTable order).err = s.err ∧
    (s.fillTable order).tableValid = true ∧ (s.fillTable order).resEom = s.resEom ∧ (s.fillTable order).cmdOvr = s.cmdOvr ∧
    (s.fillTable order).ie = s.ie ∧ (s.fillTable order).root = s.root ∧ (s.fillTable order).nodeCount = s.nodeCount ∧
    (s.fillTable order).nodeAddr = s.nodeAddr ∧ (s.fillTable order).nodeLink = s.nodeLink ∧
    (s.fillTable order).symbol = s.symbol ∧ (s.fillTable order).result = s.result ∧ (s.fillTable order).outBits = s.outBits ∧
    (s.fillTable order).inBits = s.inBits ∧ (s.fillTable order).inLimit = s.inLimit ∧
    (s.fillTable order).codeKey = s.codeKey ∧ (s.fillTable order).codeWord = s.codeWord ∧
    (s.fillTable order).nodes = s.nodes ∧ (s.fillTable order).codes = codesOf s.nodes order ∧
    (s.fillTable order).obuf = s.obuf ∧ (s.fillTable order).ocnt = s.ocnt ∧ (s.fillTable order).ibuf = s.ibuf ∧
    (s.fillTable order).icnt = s.icnt ∧ (s.fillTable order).seq = s.seq ∧ (s.fillTable order).inq = s.inq ∧
    (s.fillTable order).out = s.out ∧ (s.fillTable order).events = s.events ∧ (s.fillTable order).reads = s.reads ∧
    (s.fillTable order).taken = s.taken ∧ (s.fillTable order).freeCount = s.freeCount := by
  and_intros <;> rfl

/-- A decoded key ends the command (R200). -/
@[simp] theorem endWithKey_fields (k : BitVec 9) :
    (s.endWithKey k).cfg = s.cfg ∧ (s.endWithKey k).done = true ∧ (s.endWithKey k).err = s.err ∧
    (s.endWithKey k).tableValid = s.tableValid ∧ (s.endWithKey k).resEom = decide (k = 256) ∧
    (s.endWithKey k).cmdOvr = s.cmdOvr ∧ (s.endWithKey k).ie = s.ie ∧ (s.endWithKey k).root = s.root ∧
    (s.endWithKey k).nodeCount = s.nodeCount ∧ (s.endWithKey k).nodeAddr = s.nodeAddr ∧
    (s.endWithKey k).nodeLink = s.nodeLink ∧ (s.endWithKey k).symbol = s.symbol ∧ (s.endWithKey k).result = k ∧
    (s.endWithKey k).outBits = s.outBits ∧ (s.endWithKey k).inBits = s.inBits ∧ (s.endWithKey k).inLimit = s.inLimit ∧
    (s.endWithKey k).codeKey = s.codeKey ∧ (s.endWithKey k).codeWord = s.codeWord ∧ (s.endWithKey k).nodes = s.nodes ∧
    (s.endWithKey k).codes = s.codes ∧ (s.endWithKey k).obuf = s.obuf ∧ (s.endWithKey k).ocnt = s.ocnt ∧
    (s.endWithKey k).ibuf = s.ibuf ∧ (s.endWithKey k).icnt = s.icnt ∧ (s.endWithKey k).seq = .idle ∧
    (s.endWithKey k).inq = s.inq ∧ (s.endWithKey k).out = s.out ∧ (s.endWithKey k).events = s.events ∧
    (s.endWithKey k).reads = s.reads ∧ (s.endWithKey k).taken = s.taken ∧ (s.endWithKey k).freeCount = s.freeCount := by
  and_intros <;> rfl

/-- A tree description fails (R160). -/
@[simp] theorem failTree_fields (e : ErrorCode) :
    (s.failTree e).cfg = s.cfg ∧ (s.failTree e).done = true ∧ (s.failTree e).err = some e ∧
    (s.failTree e).tableValid = s.tableValid ∧ (s.failTree e).resEom = s.resEom ∧ (s.failTree e).cmdOvr = s.cmdOvr ∧
    (s.failTree e).ie = s.ie ∧ (s.failTree e).root = s.root ∧ (s.failTree e).nodeCount = 0 ∧
    (s.failTree e).nodeAddr = s.nodeAddr ∧ (s.failTree e).nodeLink = s.nodeLink ∧ (s.failTree e).symbol = s.symbol ∧
    (s.failTree e).result = s.result ∧ (s.failTree e).outBits = s.outBits ∧ (s.failTree e).inBits = s.inBits ∧
    (s.failTree e).inLimit = s.inLimit ∧ (s.failTree e).codeKey = s.codeKey ∧ (s.failTree e).codeWord = s.codeWord ∧
    (s.failTree e).nodes = [] ∧ (s.failTree e).codes = s.codes ∧ (s.failTree e).obuf = s.obuf ∧
    (s.failTree e).ocnt = s.ocnt ∧ (s.failTree e).ibuf = s.ibuf ∧ (s.failTree e).icnt = s.icnt ∧ (s.failTree e).seq = .idle ∧
    (s.failTree e).inq = s.inq ∧ (s.failTree e).out = s.out ∧ (s.failTree e).events = s.events ∧
    (s.failTree e).reads = s.reads ∧ (s.failTree e).taken = s.taken ∧ (s.failTree e).freeCount = s.freeCount := by
  and_intros <;> rfl

/-- TREE_DEC's start (R160). -/
@[simp] theorem beginTreeDec_fields (comp : Bool) :
    (s.beginTreeDec comp).cfg = s.cfg ∧ (s.beginTreeDec comp).done = s.done ∧ (s.beginTreeDec comp).err = s.err ∧
    (s.beginTreeDec comp).tableValid = false ∧ (s.beginTreeDec comp).resEom = s.resEom ∧
    (s.beginTreeDec comp).cmdOvr = s.cmdOvr ∧ (s.beginTreeDec comp).ie = s.ie ∧ (s.beginTreeDec comp).root = 0 ∧
    (s.beginTreeDec comp).nodeCount = 0 ∧ (s.beginTreeDec comp).nodeAddr = s.nodeAddr ∧
    (s.beginTreeDec comp).nodeLink = s.nodeLink ∧ (s.beginTreeDec comp).symbol = s.symbol ∧
    (s.beginTreeDec comp).result = s.result ∧ (s.beginTreeDec comp).outBits = s.outBits ∧
    (s.beginTreeDec comp).inBits = s.inBits ∧ (s.beginTreeDec comp).inLimit = s.inLimit ∧
    (s.beginTreeDec comp).codeKey = s.codeKey ∧ (s.beginTreeDec comp).codeWord = s.codeWord ∧
    (s.beginTreeDec comp).nodes = [] ∧ (s.beginTreeDec comp).codes = s.codes ∧ (s.beginTreeDec comp).obuf = s.obuf ∧
    (s.beginTreeDec comp).ocnt = s.ocnt ∧ (s.beginTreeDec comp).ibuf = s.ibuf ∧ (s.beginTreeDec comp).icnt = s.icnt ∧
    (s.beginTreeDec comp).seq = .running (.treeDec comp { n := 0, holes := [{ slot := .root, depth := 0 }], code := [] }) ∧
    (s.beginTreeDec comp).inq = s.inq ∧ (s.beginTreeDec comp).out = s.out ∧ (s.beginTreeDec comp).events = s.events ∧
    (s.beginTreeDec comp).reads = s.reads ∧ (s.beginTreeDec comp).taken = s.taken ∧
    (s.beginTreeDec comp).freeCount = s.freeCount := by
  and_intros <;> rfl

/-- An illegal command (R226). -/
@[simp] theorem illegalCommand_fields :
    s.illegalCommand.cfg = s.cfg ∧ s.illegalCommand.done = true ∧ s.illegalCommand.err = some .illegalCmd ∧
    s.illegalCommand.tableValid = s.tableValid ∧ s.illegalCommand.resEom = s.resEom ∧ s.illegalCommand.cmdOvr = s.cmdOvr ∧
    s.illegalCommand.ie = s.ie ∧ s.illegalCommand.root = s.root ∧ s.illegalCommand.nodeCount = s.nodeCount ∧
    s.illegalCommand.nodeAddr = s.nodeAddr ∧ s.illegalCommand.nodeLink = s.nodeLink ∧ s.illegalCommand.symbol = s.symbol ∧
    s.illegalCommand.result = s.result ∧ s.illegalCommand.outBits = s.outBits ∧ s.illegalCommand.inBits = s.inBits ∧
    s.illegalCommand.inLimit = s.inLimit ∧ s.illegalCommand.codeKey = s.codeKey ∧ s.illegalCommand.codeWord = s.codeWord ∧
    s.illegalCommand.nodes = s.nodes ∧ s.illegalCommand.codes = s.codes ∧ s.illegalCommand.obuf = s.obuf ∧
    s.illegalCommand.ocnt = s.ocnt ∧ s.illegalCommand.ibuf = s.ibuf ∧ s.illegalCommand.icnt = s.icnt ∧
    s.illegalCommand.seq = .idle ∧ s.illegalCommand.inq = s.inq ∧ s.illegalCommand.out = s.out ∧
    s.illegalCommand.events = s.events ∧ s.illegalCommand.reads = s.reads ∧ s.illegalCommand.taken = s.taken ∧
    s.illegalCommand.freeCount = s.freeCount := by
  and_intros <;> rfl

end State

end Sys2Proof.Machine
end

