-- ==== Sys2Proof/Laws/Trees.lean ====
section
/-!
SUPPORT. Trees: their keys, sizes and paths, the decoding of a description (R116), and when an entry denotes a tree (R51).
-/

namespace Sys2Proof.Machine

/-! ### Node codes -/

@[simp] theorem length_msbBits {n : Nat} (v : BitVec n) : (msbBits v).length = n := by simp [msbBits]

theorem byteOfBits_msbBits : ∀ s : Byte, byteOfBits (msbBits s) = s := by decide

theorem msbBits_eight (s : Byte) : msbBits s =
    [s.getMsbD 0, s.getMsbD 1, s.getMsbD 2, s.getMsbD 3, s.getMsbD 4, s.getMsbD 5, s.getMsbD 6, s.getMsbD 7] := rfl

theorem msbBits_byteOfBits : ∀ b7 b6 b5 b4 b3 b2 b1 b0 : Bool,
    msbBits (byteOfBits [b7, b6, b5, b4, b3, b2, b1, b0]) = [b7, b6, b5, b4, b3, b2, b1, b0] := by decide

/-- A node code at the head of a bit sequence is read back, and nothing after it is touched (R116). -/
theorem decodeNode_bits (k : NodeCode) (rest : Bits) : decodeNode (k.bits ++ rest) = .ok (k, rest) := by
  cases k with
  | branch => rfl
  | eom => rfl
  | leaf s =>
    simp only [NodeCode.bits, msbBits_eight, List.cons_append, List.nil_append, decodeNode]
    rw [← msbBits_eight, byteOfBits_msbBits]

/-- What the decoder reads is a node code's bits (R116). -/
theorem decodeNode_ok {bs rest : Bits} {k : NodeCode} (h : decodeNode bs = .ok (k, rest)) : bs = k.bits ++ rest := by
  unfold decodeNode at h
  split at h <;> cases h
  · rfl
  · rfl
  · simp only [NodeCode.bits, msbBits_byteOfBits, List.cons_append, List.nil_append]

/-- No shorter bit sequence is a node code: the codes are prefix-free (R116). -/
theorem decodeNode_short (k : NodeCode) {n : Nat} (h : n < k.bits.length) :
    decodeNode (k.bits.take n) = .error .truncatedCode := by
  cases k with
  | branch =>
    have : n = 0 := by simpa [NodeCode.bits] using h
    subst this; rfl
  | eom =>
    have : n = 0 ∨ n = 1 := by simp [NodeCode.bits] at h; omega
    rcases this with rfl | rfl <;> rfl
  | leaf s =>
    have : n = 0 ∨ n = 1 ∨ n = 2 ∨ n = 3 ∨ n = 4 ∨ n = 5 ∨ n = 6 ∨ n = 7 ∨ n = 8 ∨ n = 9 := by
      simp [NodeCode.bits] at h; omega
    rcases this with rfl | rfl | rfl | rfl | rfl | rfl | rfl | rfl | rfl | rfl <;> rfl

theorem length_bits_le (k : NodeCode) : k.bits.length ≤ 10 := by cases k <;> simp [NodeCode.bits]

theorem bits_ne_nil (k : NodeCode) : k.bits ≠ [] := by cases k <;> simp [NodeCode.bits]

namespace Tree

/-! ### Keys and leaves -/

theorem leaves_path (t : Tree) (p : Bits) : t.leaves p = (t.leaves []).map fun e => (e.1, p ++ e.2) := by
  induction t generalizing p with
  | branch l r ihl ihr =>
    simp only [leaves, List.nil_append, List.map_append]
    rw [ihl (p ++ [false]), ihr (p ++ [true]), ihl [false], ihr [true]]
    simp [List.map_map, Function.comp_def]
  | leaf s => simp [leaves]
  | endMessage => simp [leaves]

theorem keys_leaves (t : Tree) (p : Bits) : (t.leaves p).map Prod.fst = t.keys := by
  rw [leaves_path]; simp [keys, List.map_map, Function.comp_def]

theorem keys_branch (l r : Tree) : (branch l r).keys = l.keys ++ r.keys := by
  rw [keys, leaves, List.map_append, keys_leaves, keys_leaves]

theorem keys_leaf (s : Byte) : (leaf s).keys = [s.toNat] := rfl

theorem keys_endMessage : endMessage.keys = [256] := rfl

theorem keys_le (t : Tree) : ∀ k ∈ t.keys, k ≤ 256 := by
  induction t with
  | branch l r ihl ihr =>
    intro k hk
    rw [keys_branch, List.mem_append] at hk
    exact hk.elim (ihl k) (ihr k)
  | leaf s => intro k hk; simp [keys_leaf] at hk; have := s.isLt; omega
  | endMessage => intro k hk; simp [keys_endMessage] at hk; omega

theorem nodeCount_pos (t : Tree) : 0 < t.nodeCount := by cases t <;> simp only [nodeCount] <;> omega

/-- A leaf's path is no longer than the tree is high (R181). -/
theorem leaves_length (t : Tree) : ∀ p, ∀ e ∈ t.leaves p, e.2.length ≤ p.length + t.height := by
  induction t with
  | branch l r ihl ihr =>
    intro p e he
    simp only [leaves, List.mem_append] at he
    rcases he with he | he
    · have := ihl _ e he; simp at this; simp [height]; omega
    · have := ihr _ e he; simp at this; simp [height]; omega
  | leaf s => intro p e he; simp [leaves] at he; subst he; simp [height]
  | endMessage => intro p e he; simp [leaves] at he; subst he; simp [height]

/-- The length of the description is its size (R142). -/
theorem length_desc (t : Tree) : t.desc.length = t.size := by
  induction t with
  | branch l r ihl ihr => simp [desc, size, NodeCode.bits, ihl, ihr]; omega
  | leaf s => simp [desc, size, NodeCode.bits]
  | endMessage => rfl

end Tree

/-! ### Denotation -/

theorem usableNode_get {cap : Nat} {m : Memory} {i : BitVec 16} {e : NodeEntry} (h : usableNode cap m i = some e) :
    i.toNat < cap ∧ tableGet m i.toNat = some e ∧ e.kind ≠ .reserved := by
  unfold usableNode at h
  split at h
  · cases h
  · next hc =>
    split at h
    · cases h
    · next e' he =>
      split at h
      · cases h
      · next hk => cases h; exact ⟨by omega, he, hk⟩

theorem usableNode_of {cap : Nat} {m : Memory} {i : BitVec 16} {e : NodeEntry} (h1 : i.toNat < cap)
    (h2 : tableGet m i.toNat = some e) (h3 : e.kind ≠ .reserved) : usableNode cap m i = some e := by
  unfold usableNode
  rw [if_neg (by omega), h2]
  simp [h3]

theorem denotes_branch {cap : Nat} {m : Memory} {l r : Tree} {i : BitVec 16} (h : denotes cap m (.branch l r) i = true) :
    ∃ e, usableNode cap m i = some e ∧ e.kind = .branch ∧ denotes cap m l e.left = true ∧ denotes cap m r e.right = true := by
  unfold denotes at h
  split at h
  · next e he =>
    simp only [Bool.and_eq_true, decide_eq_true_eq] at h
    exact ⟨e, he, h.1.1, h.1.2, h.2⟩
  · cases h

theorem denotes_leaf {cap : Nat} {m : Memory} {s : Byte} {i : BitVec 16} (h : denotes cap m (.leaf s) i = true) :
    ∃ e, usableNode cap m i = some e ∧ e.kind = .leaf ∧ e.sym = s := by
  unfold denotes at h
  split at h
  · next e he =>
    simp only [Bool.and_eq_true, decide_eq_true_eq] at h
    exact ⟨e, he, h.1, h.2⟩
  · cases h

theorem denotes_endMessage {cap : Nat} {m : Memory} {i : BitVec 16} (h : denotes cap m .endMessage i = true) :
    ∃ e, usableNode cap m i = some e ∧ e.kind = .eom := by
  unfold denotes at h
  split at h
  · next e he => exact ⟨e, he, by simpa using h⟩
  · cases h

theorem key_leaf {e : NodeEntry} (h : e.kind = .leaf) : e.key.toNat = e.sym.toNat := by
  simp [NodeEntry.key, h]; have := e.sym.isLt; omega

theorem key_eom {e : NodeEntry} (h : e.kind = .eom) : e.key = 256 := by simp [NodeEntry.key, h]

/-- An index denotes at most one tree (R51). -/
theorem denotes_unique {cap : Nat} {m : Memory} {t u : Tree} {i : BitVec 16} (ht : denotes cap m t i = true)
    (hu : denotes cap m u i = true) : t = u := by
  induction t generalizing u i with
  | branch l r ihl ihr =>
    obtain ⟨e, he, hk, h1, h2⟩ := denotes_branch ht
    cases u with
    | branch l' r' =>
      obtain ⟨e', he', _, h1', h2'⟩ := denotes_branch hu
      rw [he] at he'; cases he'
      rw [ihl h1 h1', ihr h2 h2']
    | leaf s => obtain ⟨e', he', hk', _⟩ := denotes_leaf hu; rw [he] at he'; cases he'; simp [hk] at hk'
    | endMessage => obtain ⟨e', he', hk'⟩ := denotes_endMessage hu; rw [he] at he'; cases he'; simp [hk] at hk'
  | leaf s =>
    obtain ⟨e, he, hk, hs⟩ := denotes_leaf ht
    cases u with
    | branch l' r' => obtain ⟨e', he', hk', _⟩ := denotes_branch hu; rw [he] at he'; cases he'; simp [hk] at hk'
    | leaf s' => obtain ⟨e', he', _, hs'⟩ := denotes_leaf hu; rw [he] at he'; cases he'; rw [← hs, ← hs']
    | endMessage => obtain ⟨e', he', hk'⟩ := denotes_endMessage hu; rw [he] at he'; cases he'; simp [hk] at hk'
  | endMessage =>
    obtain ⟨e, he, hk⟩ := denotes_endMessage ht
    cases u with
    | branch l' r' => obtain ⟨e', he', hk', _⟩ := denotes_branch hu; rw [he] at he'; cases he'; simp [hk] at hk'
    | leaf s' => obtain ⟨e', he', hk', _⟩ := denotes_leaf hu; rw [he] at he'; cases he'; simp [hk] at hk'
    | endMessage => rfl

end Sys2Proof.Machine
end

