-- ==== Sys2Proof/Laws/Streams.lean ====
section
/-!
SUPPORT. The bit sink and the bit source: what one BitWrite, Flush and BitRead do to the bit streams and to the rest of the state.
-/

namespace Sys2Proof.Machine

/-! ### Bits of a byte -/

theorem one_add_ofNat {w : Nat} (k : Nat) : (1 : BitVec w) + BitVec.ofNat w k = BitVec.ofNat w (k + 1) := by
  apply BitVec.eq_of_toNat_eq
  simp [BitVec.toNat_add, Nat.add_comm]

theorem getElem_msbBits {n : Nat} (v : BitVec n) (j : Nat) (h : j < (msbBits v).length) :
    (msbBits v)[j] = v.getMsbD j := by simp [msbBits]

theorem getLsbD_setBit (v : Byte) {i : Nat} (hi : i < 8) (b : Bool) (j : Nat) (hj : j < 8) :
    (setBit v i b).getLsbD j = if j = i then b else v.getLsbD j := by
  have hi' : i = 0 ∨ i = 1 ∨ i = 2 ∨ i = 3 ∨ i = 4 ∨ i = 5 ∨ i = 6 ∨ i = 7 := by omega
  have hj' : j = 0 ∨ j = 1 ∨ j = 2 ∨ j = 3 ∨ j = 4 ∨ j = 5 ∨ j = 6 ∨ j = 7 := by omega
  rcases hi' with rfl | rfl | rfl | rfl | rfl | rfl | rfl | rfl <;>
    rcases hj' with rfl | rfl | rfl | rfl | rfl | rfl | rfl | rfl <;> simp [setBit]

theorem getMsbD_setBit (v : Byte) {i : Nat} (hi : i < 8) (b : Bool) (j : Nat) (hj : j < 8) :
    (setBit v (7 - i) b).getMsbD j = if j = i then b else v.getMsbD j := by
  simp only [BitVec.getMsbD, hj, decide_true, Bool.true_and]
  rw [getLsbD_setBit v (by omega) b _ (by omega)]
  have : 8 - 1 - j = 7 - i ↔ j = i := by omega
  simp [this]

/-- The first bits of a byte after its next bit is set. -/
theorem take_msbBits_setBit (v : Byte) {i : Nat} (hi : i < 8) (b : Bool) :
    (msbBits (setBit v (7 - i) b)).take (i + 1) = (msbBits v).take i ++ [b] := by
  apply List.ext_getElem
  · simp; omega
  · intro j h1 h2
    simp only [List.length_take, length_msbBits] at h1
    rw [List.getElem_take, getElem_msbBits, getMsbD_setBit v hi b j (by omega)]
    by_cases hj : j = i
    · subst hj; rw [List.getElem_append_right (by simp)]; simp
    · rw [if_neg hj, List.getElem_append_left (by simp; omega), List.getElem_take, getElem_msbBits]

theorem streamBits_append (xs ys : List Byte) : streamBits (xs ++ ys) = streamBits xs ++ streamBits ys := by
  simp [streamBits]

@[simp] theorem streamBits_nil : streamBits [] = [] := rfl

theorem streamBits_cons (b : Byte) (bs : List Byte) : streamBits (b :: bs) = msbBits b ++ streamBits bs := by
  simp [streamBits]

theorem length_streamBits (bs : List Byte) : (streamBits bs).length = 8 * bs.length := by
  induction bs with
  | nil => rfl
  | cons b bs ih => rw [streamBits_cons]; simp [ih]; omega

namespace State

/-! ### The bit sink -/

/-- BitWrite appends its bit to the sink's stream (R76, R78). -/
theorem sinkBits_bitWrite (s : State) (b : Bool) : (s.bitWrite b).sinkBits = s.sinkBits ++ [b] := by
  have hlt : s.ocnt.toNat < 8 := s.ocnt.isLt
  unfold bitWrite
  split
  · next h =>
    have h7 : s.ocnt.toNat = 7 := by omega
    have hb := take_msbBits_setBit s.obuf hlt b
    rw [h7] at hb
    rw [List.take_of_length_le (by simp)] at hb
    simp [sinkBits, streamBits_append, streamBits_cons, h7] at hb ⊢
    exact hb
  · next h =>
    have hn : (s.ocnt + 1).toNat = s.ocnt.toNat + 1 := by
      rw [BitVec.toNat_add]; simp; omega
    simp only [sinkBits, hn, take_msbBits_setBit s.obuf hlt b, List.append_assoc]

theorem sinkBits_bitWrites (s : State) (bs : Bits) : (s.bitWrites bs).sinkBits = s.sinkBits ++ bs := by
  induction bs generalizing s with
  | nil => simp [bitWrites]
  | cons b bs ih =>
    have := ih (s.bitWrite b)
    simp only [bitWrites, List.foldl_cons] at this ⊢
    rw [this, sinkBits_bitWrite]; simp

theorem bitWrites_nil (s : State) : s.bitWrites [] = s := rfl

theorem bitWrites_cons (s : State) (b : Bool) (bs : Bits) : s.bitWrites (b :: bs) = (s.bitWrite b).bitWrites bs := rfl

theorem bitWrites_append (s : State) (xs ys : Bits) : s.bitWrites (xs ++ ys) = (s.bitWrites xs).bitWrites ys := by
  simp [bitWrites, List.foldl_append]

/-- BitWrite changes the sink and OUT only (R78). -/
theorem bitWrite_frame (s : State) (b : Bool) :
    s.bitWrite b = { s with obuf := (s.bitWrite b).obuf, ocnt := (s.bitWrite b).ocnt,
                            outBits := s.outBits + 1, out := (s.bitWrite b).out } := by
  unfold bitWrite; split <;> rfl

/-- Written bits change the sink and OUT only (R79). -/
theorem bitWrites_frame (s : State) (bs : Bits) :
    s.bitWrites bs = { s with obuf := (s.bitWrites bs).obuf, ocnt := (s.bitWrites bs).ocnt,
                              outBits := s.outBits + BitVec.ofNat 32 bs.length, out := (s.bitWrites bs).out } := by
  induction bs generalizing s with
  | nil => simp [bitWrites]
  | cons b bs ih =>
    rw [bitWrites_cons, ih (s.bitWrite b)]
    have h := bitWrite_frame s b
    generalize s.bitWrite b = t at h
    rw [h]
    simp only [List.length_cons]
    congr 1
    rw [BitVec.add_assoc, one_add_ofNat]

@[simp] theorem bitWrites_fields (s : State) (bs : Bits) :
    (s.bitWrites bs).cfg = s.cfg ∧ (s.bitWrites bs).done = s.done ∧ (s.bitWrites bs).err = s.err ∧
    (s.bitWrites bs).tableValid = s.tableValid ∧ (s.bitWrites bs).resEom = s.resEom ∧
    (s.bitWrites bs).cmdOvr = s.cmdOvr ∧ (s.bitWrites bs).ie = s.ie ∧ (s.bitWrites bs).root = s.root ∧
    (s.bitWrites bs).nodeCount = s.nodeCount ∧ (s.bitWrites bs).nodeAddr = s.nodeAddr ∧
    (s.bitWrites bs).nodeLink = s.nodeLink ∧ (s.bitWrites bs).symbol = s.symbol ∧
    (s.bitWrites bs).result = s.result ∧ (s.bitWrites bs).outBits = s.outBits + BitVec.ofNat 32 bs.length ∧
    (s.bitWrites bs).inBits = s.inBits ∧ (s.bitWrites bs).inLimit = s.inLimit ∧
    (s.bitWrites bs).codeKey = s.codeKey ∧ (s.bitWrites bs).codeWord = s.codeWord ∧
    (s.bitWrites bs).nodes = s.nodes ∧ (s.bitWrites bs).codes = s.codes ∧ (s.bitWrites bs).ibuf = s.ibuf ∧
    (s.bitWrites bs).icnt = s.icnt ∧ (s.bitWrites bs).seq = s.seq ∧ (s.bitWrites bs).inq = s.inq ∧
    (s.bitWrites bs).events = s.events ∧ (s.bitWrites bs).reads = s.reads ∧ (s.bitWrites bs).taken = s.taken ∧
    (s.bitWrites bs).freeCount = s.freeCount := by
  rw [bitWrites_frame]; and_intros <;> rfl

@[simp] theorem bitWrite_fields (s : State) (b : Bool) :
    (s.bitWrite b).cfg = s.cfg ∧ (s.bitWrite b).done = s.done ∧ (s.bitWrite b).err = s.err ∧
    (s.bitWrite b).tableValid = s.tableValid ∧ (s.bitWrite b).resEom = s.resEom ∧
    (s.bitWrite b).cmdOvr = s.cmdOvr ∧ (s.bitWrite b).ie = s.ie ∧ (s.bitWrite b).root = s.root ∧
    (s.bitWrite b).nodeCount = s.nodeCount ∧ (s.bitWrite b).nodeAddr = s.nodeAddr ∧
    (s.bitWrite b).nodeLink = s.nodeLink ∧ (s.bitWrite b).symbol = s.symbol ∧
    (s.bitWrite b).result = s.result ∧ (s.bitWrite b).outBits = s.outBits + 1 ∧
    (s.bitWrite b).inBits = s.inBits ∧ (s.bitWrite b).inLimit = s.inLimit ∧
    (s.bitWrite b).codeKey = s.codeKey ∧ (s.bitWrite b).codeWord = s.codeWord ∧
    (s.bitWrite b).nodes = s.nodes ∧ (s.bitWrite b).codes = s.codes ∧ (s.bitWrite b).ibuf = s.ibuf ∧
    (s.bitWrite b).icnt = s.icnt ∧ (s.bitWrite b).seq = s.seq ∧ (s.bitWrite b).inq = s.inq ∧
    (s.bitWrite b).events = s.events ∧ (s.bitWrite b).reads = s.reads ∧ (s.bitWrite b).taken = s.taken ∧
    (s.bitWrite b).freeCount = s.freeCount := by
  rw [bitWrite_frame]; and_intros <;> rfl

theorem bitWrite_sinkClear {s : State} (h : s.SinkClear) (b : Bool) : (s.bitWrite b).SinkClear := by
  have hlt : s.ocnt.toNat < 8 := s.ocnt.isLt
  intro i hi
  unfold bitWrite at hi ⊢
  split
  · simp
  · next h7 =>
    simp only [h7, if_false] at hi ⊢
    have hn : (s.ocnt + 1).toNat = s.ocnt.toNat + 1 := by
      rw [BitVec.toNat_add]; simp; omega
    rw [hn] at hi
    show (setBit s.obuf (7 - s.ocnt.toNat) b).getLsbD i = false
    rw [getLsbD_setBit _ (by omega) b i (by omega), if_neg (by omega)]
    exact h i (by omega)

theorem bitWrites_sinkClear {s : State} (h : s.SinkClear) (bs : Bits) : (s.bitWrites bs).SinkClear := by
  induction bs generalizing s with
  | nil => exact h
  | cons b bs ih => exact ih (bitWrite_sinkClear h b)

/-- The number of bits in the sink's byte after written bits (R78). -/
theorem ocnt_bitWrite (s : State) (b : Bool) : (s.bitWrite b).ocnt = s.ocnt + 1 := by
  have hlt : s.ocnt.toNat < 8 := s.ocnt.isLt
  unfold bitWrite
  split
  · next h =>
    apply BitVec.eq_of_toNat_eq
    simp [BitVec.toNat_add, h]
  · rfl

theorem ocnt_bitWrites (s : State) (bs : Bits) : (s.bitWrites bs).ocnt = s.ocnt + BitVec.ofNat 3 bs.length := by
  induction bs generalizing s with
  | nil => simp [bitWrites]
  | cons b bs ih =>
    rw [bitWrites_cons, ih, ocnt_bitWrite, List.length_cons, BitVec.add_assoc, one_add_ofNat]

/-- OUT only grows, by whole bytes (R74). -/
theorem out_bitWrite (s : State) (b : Bool) : ∃ bs, (s.bitWrite b).out = s.out ++ bs := by
  unfold bitWrite; split
  · exact ⟨_, rfl⟩
  · exact ⟨[], by simp⟩

theorem out_bitWrites (s : State) (bs : Bits) : ∃ ys, (s.bitWrites bs).out = s.out ++ ys := by
  induction bs generalizing s with
  | nil => exact ⟨[], by simp [bitWrites]⟩
  | cons b bs ih =>
    obtain ⟨y1, h1⟩ := out_bitWrite s b
    obtain ⟨y2, h2⟩ := ih (s.bitWrite b)
    exact ⟨y1 ++ y2, by rw [bitWrites_cons, h2, h1, List.append_assoc]⟩

/-- Flush changes the sink's byte and OUT only (R80). -/
theorem sinkFlush_frame (s : State) :
    s.sinkFlush = { s with obuf := s.sinkFlush.obuf, ocnt := 0, out := s.sinkFlush.out } := by
  unfold sinkFlush; split
  · next h => rw [← h]
  · rfl

@[simp] theorem sinkFlush_fields (s : State) :
    s.sinkFlush.cfg = s.cfg ∧ s.sinkFlush.done = s.done ∧ s.sinkFlush.err = s.err ∧
    s.sinkFlush.tableValid = s.tableValid ∧ s.sinkFlush.resEom = s.resEom ∧
    s.sinkFlush.cmdOvr = s.cmdOvr ∧ s.sinkFlush.ie = s.ie ∧ s.sinkFlush.root = s.root ∧
    s.sinkFlush.nodeCount = s.nodeCount ∧ s.sinkFlush.nodeAddr = s.nodeAddr ∧
    s.sinkFlush.nodeLink = s.nodeLink ∧ s.sinkFlush.symbol = s.symbol ∧
    s.sinkFlush.result = s.result ∧ s.sinkFlush.outBits = s.outBits ∧ s.sinkFlush.ocnt = 0 ∧
    s.sinkFlush.inBits = s.inBits ∧ s.sinkFlush.inLimit = s.inLimit ∧
    s.sinkFlush.codeKey = s.codeKey ∧ s.sinkFlush.codeWord = s.codeWord ∧
    s.sinkFlush.nodes = s.nodes ∧ s.sinkFlush.codes = s.codes ∧ s.sinkFlush.ibuf = s.ibuf ∧
    s.sinkFlush.icnt = s.icnt ∧ s.sinkFlush.seq = s.seq ∧ s.sinkFlush.inq = s.inq ∧
    s.sinkFlush.events = s.events ∧ s.sinkFlush.reads = s.reads ∧ s.sinkFlush.taken = s.taken ∧
    s.sinkFlush.freeCount = s.freeCount := by
  rw [sinkFlush_frame]; and_intros <;> rfl

/-- What Flush appends to OUT (R80). -/
theorem out_sinkFlush (s : State) : s.sinkFlush.out = if s.ocnt = 0 then s.out else s.out ++ [s.obuf] := by
  unfold sinkFlush; split <;> rfl

theorem obuf_sinkFlush {s : State} (h : s.SinkClear) : s.sinkFlush.obuf = 0 := by
  unfold sinkFlush; split
  · next h0 =>
    apply BitVec.eq_of_getLsbD_eq
    intro i hi
    rw [h i (by rw [h0]; simpa using hi)]; simp
  · rfl

/-- Flush pads the partial byte with zero bits (R76, R80). -/
theorem streamBits_sinkFlush {s : State} (h : s.SinkClear) :
    streamBits s.sinkFlush.out = s.sinkBits ++ List.replicate ((8 - s.ocnt.toNat) % 8) false := by
  have hlt : s.ocnt.toNat < 8 := s.ocnt.isLt
  rw [out_sinkFlush]
  split
  · next h0 => simp [sinkBits, h0]
  · next h0 =>
    have hpos : 0 < s.ocnt.toNat := by
      rcases Nat.eq_zero_or_pos s.ocnt.toNat with hz | hp
      · exact absurd (BitVec.eq_of_toNat_eq (by simpa using hz)) h0
      · exact hp
    rw [streamBits_append, streamBits_cons, streamBits_nil, List.append_nil, sinkBits, List.append_assoc]
    congr 1
    conv_lhs => rw [← List.take_append_drop s.ocnt.toNat (msbBits s.obuf)]
    congr 1
    apply List.ext_getElem
    · simp; omega
    · intro j h1 h2
      simp only [List.length_drop, length_msbBits] at h1
      rw [List.getElem_drop, getElem_msbBits, List.getElem_replicate, BitVec.getMsbD]
      rw [h _ (by omega)]; simp

/-! ### The bit source -/

/-- The bits of IBUF not yet returned. -/
def bufferBits (s : State) : Bits := (msbBits s.ibuf).drop (8 - s.icnt.toNat)

theorem sourceBits_eq (s : State) : s.sourceBits = s.bufferBits ++ itemBits s.inq := rfl

theorem bufferBits_pos {s : State} (h8 : s.icnt.toNat ≤ 8) (h0 : s.icnt ≠ 0) :
    s.bufferBits = s.ibuf.getLsbD (s.icnt.toNat - 1) ::
      { s with icnt := s.icnt - 1, inBits := s.inBits + 1 }.bufferBits := by
  have hpos : 0 < s.icnt.toNat := by
    rcases Nat.eq_zero_or_pos s.icnt.toNat with hz | hp
    · exact absurd (BitVec.eq_of_toNat_eq (by simpa using hz)) h0
    · exact hp
  have hn : (s.icnt - 1).toNat = s.icnt.toNat - 1 := by
    rw [BitVec.toNat_sub]; simp; omega
  simp only [bufferBits, hn]
  rw [List.drop_eq_getElem_cons (by simp; omega), getElem_msbBits, BitVec.getMsbD]
  congr 1
  · rw [show 8 - 1 - (8 - s.icnt.toNat) = s.icnt.toNat - 1 by omega]
    simp; omega
  · congr 1; omega

/-- What BitRead changes: IBUF, ICNT, IN_BITS and the items of IN (R81). -/
theorem bitRead_frame {s t : State} {b : Bool} (h : s.bitRead = .bit b t) :
    t = { s with ibuf := t.ibuf, icnt := t.icnt, inBits := s.inBits + 1, inq := t.inq } := by
  unfold bitRead at h
  split at h
  · cases h
  · split at h
    · split at h
      · cases h
      · cases h
      · cases h; rfl
    · cases h; rfl

/-- An EXHAUSTED BitRead changes nothing but the EOS item it may consume (R81). -/
theorem bitRead_exhausted {s t : State} (h : s.bitRead = .exhausted t) :
    t = { s with inq := t.inq } ∧
      ((s.inLimit ≤ s.inBits ∧ t = s) ∨ (s.icnt = 0 ∧ ∃ rest, s.inq = .eos :: rest ∧ t.inq = rest)) := by
  unfold bitRead at h
  split at h
  · next hl => cases h; exact ⟨rfl, .inl ⟨hl, rfl⟩⟩
  · split at h
    · next h0 =>
      split at h
      · cases h
      · next rest hq => cases h; exact ⟨rfl, .inr ⟨h0, rest, hq, rfl⟩⟩
      · cases h
    · cases h

/-- BitRead holds exactly when it needs an item and IN has none (R81, R83). -/
theorem bitRead_hold {s : State} (h : s.bitRead = .hold) : s.inBits < s.inLimit ∧ s.icnt = 0 ∧ s.inq = [] := by
  unfold bitRead at h
  split at h
  · cases h
  · next hl =>
    split at h
    · next h0 =>
      split at h
      · next hq => exact ⟨by simpa [BitVec.not_le] using hl, h0, hq⟩
      · cases h
      · cases h
    · cases h

/-- Every BitRead that returns a bit uses up one of those the source can still return. -/
theorem bitsAvail_bitRead {s t : State} {b : Bool} (h : s.bitRead = .bit b t) : t.bitsAvail + 1 = s.bitsAvail := by
  unfold bitRead at h
  split at h
  · cases h
  · split at h
    · next h0 =>
      split at h
      · cases h
      · cases h
      · next rest hq =>
        cases h
        simp [bitsAvail, hq, h0]; omega
    · next h0 =>
      cases h
      have hpos : 0 < s.icnt.toNat := by
        rcases Nat.eq_zero_or_pos s.icnt.toNat with hz | hp
        · exact absurd (BitVec.eq_of_toNat_eq (by simpa using hz)) h0
        · exact hp
      have hn : (s.icnt - 1).toNat = s.icnt.toNat - 1 := by
        rw [BitVec.toNat_sub]; simp; omega
      simp only [bitsAvail, hn]; omega

/-- ICNT stays at most 8 (R55). -/
theorem icnt_bitRead {s t : State} {b : Bool} (h8 : s.icnt.toNat ≤ 8) (h : s.bitRead = .bit b t) : t.icnt.toNat ≤ 8 := by
  unfold bitRead at h
  split at h
  · cases h
  · split at h
    · split at h
      · cases h
      · cases h
      · cases h; simp
    · next h0 =>
      cases h
      have hpos : 0 < s.icnt.toNat := by
        rcases Nat.eq_zero_or_pos s.icnt.toNat with hz | hp
        · exact absurd (BitVec.eq_of_toNat_eq (by simpa using hz)) h0
        · exact hp
      have hn : (s.icnt - 1).toNat = s.icnt.toNat - 1 := by
        rw [BitVec.toNat_sub]; simp; omega
      show (s.icnt - 1).toNat ≤ 8
      omega

/-- BitRead returns the next bit of the source's stream (R77, R81). -/
theorem bitRead_bit {s : State} {b : Bool} {bs : Bits} (h8 : s.icnt.toNat ≤ 8) (hl : s.inBits < s.inLimit)
    (hb : s.sourceBits = b :: bs) : ∃ t, s.bitRead = .bit b t ∧ t.sourceBits = bs := by
  have hl' : ¬ s.inLimit ≤ s.inBits := by simpa [BitVec.not_le] using hl
  rw [sourceBits_eq] at hb
  unfold bitRead
  rw [if_neg hl']
  by_cases h0 : s.icnt = 0
  · have hbuf : s.bufferBits = [] := by simp [bufferBits, h0]
    rw [hbuf, List.nil_append] at hb
    rw [if_pos h0]
    cases hq : s.inq with
    | nil => simp [hq, itemBits] at hb
    | cons x rest =>
      cases x with
      | eos => simp [hq, itemBits] at hb
      | byte c =>
        have h1 := bufferBits_pos (s := { s with inq := rest, ibuf := c, icnt := 8 }) (by simp) (by simp)
        have h2 : { s with inq := rest, ibuf := c, icnt := 8 }.bufferBits = msbBits c := by simp [bufferBits]
        rw [h2] at h1
        simp only [hq, itemBits, h1, List.cons_append, List.cons.injEq] at hb
        refine ⟨{ s with inq := rest, ibuf := c, icnt := 8 - 1, inBits := s.inBits + 1 }, ?_, ?_⟩
        · simp only [bitFromBuffer, BitResult.bit.injEq]
          exact ⟨hb.1, trivial⟩
        · rw [sourceBits_eq]; exact hb.2
  · rw [if_neg h0]
    have h1 := bufferBits_pos h8 h0
    rw [h1, List.cons_append, List.cons.injEq] at hb
    refine ⟨{ s with icnt := s.icnt - 1, inBits := s.inBits + 1 }, ?_, ?_⟩
    · simp only [bitFromBuffer, BitResult.bit.injEq]
      exact ⟨hb.1, trivial⟩
    · rw [sourceBits_eq]; exact hb.2

/-- With no bit left before the end of IN and the limit not reached, BitRead holds, or finds the EOS (R81, R83). -/
theorem bitRead_empty {s : State} (h8 : s.icnt.toNat ≤ 8) (hl : s.inBits < s.inLimit) (hb : s.sourceBits = []) :
    (s.inq = [] ∧ s.bitRead = .hold) ∨
      ∃ rest, s.inq = .eos :: rest ∧ s.bitRead = .exhausted { s with inq := rest } := by
  have hl' : ¬ s.inLimit ≤ s.inBits := by simpa [BitVec.not_le] using hl
  rw [sourceBits_eq] at hb
  have h0 : s.icnt = 0 := by
    by_contra h0
    rw [bufferBits_pos h8 h0] at hb
    simp at hb
  unfold bitRead
  rw [if_neg hl', if_pos h0]
  cases hq : s.inq with
  | nil => exact .inl ⟨rfl, rfl⟩
  | cons x rest =>
    cases x with
    | eos => exact .inr ⟨rest, rfl, rfl⟩
    | byte c =>
      have := congrArg List.length hb
      simp [hq, itemBits] at this

/-- BitRead looks at the source only, and changes nothing else (R81). -/
theorem bitRead_with (s : State) (m : Memory) (q : Seq) (o : List Byte) :
    { s with nodes := m, seq := q, out := o }.bitRead =
      match s.bitRead with
      | .bit b t => .bit b { t with nodes := m, seq := q, out := o }
      | .exhausted t => .exhausted { t with nodes := m, seq := q, out := o }
      | .hold => .hold := by
  by_cases hl : s.inLimit ≤ s.inBits
  · simp [bitRead, hl]
  · by_cases h0 : s.icnt = 0
    · cases hq : s.inq with
      | nil => simp [bitRead, hl, h0, hq]
      | cons x rest => cases x <;> simp [bitRead, hl, h0, hq, bitFromBuffer]
    · simp only [bitRead, hl, h0, if_false, bitFromBuffer]

/-! ### Several bits -/

theorem afterBits_zero (s : State) : s.afterBits 0 = s := rfl

theorem afterBits_succ {s t : State} {b : Bool} (h : s.bitRead = .bit b t) (n : Nat) :
    s.afterBits (n + 1) = t.afterBits n := by simp [afterBits, h]

theorem afterBits_one {s t : State} {b : Bool} (h : s.bitRead = .bit b t) : s.afterBits 1 = t := by
  simp [afterBits, h]

/-- The bits returned are those of the source's stream, in order (R77, R81). -/
theorem afterBits_spec (p : Bits) : ∀ {s : State} {rest : Bits}, s.icnt.toNat ≤ 8 → s.limitAllows p.length →
    s.sourceBits = p ++ rest →
    (s.afterBits p.length).sourceBits = rest ∧ (s.afterBits p.length).icnt.toNat ≤ 8 ∧
      s.afterBits p.length = { s with ibuf := (s.afterBits p.length).ibuf, icnt := (s.afterBits p.length).icnt,
                                      inq := (s.afterBits p.length).inq,
                                      inBits := s.inBits + BitVec.ofNat 32 p.length } := by
  induction p with
  | nil => intro s rest h8 _ hb; exact ⟨hb, h8, by simp [afterBits]⟩
  | cons b p ih =>
    intro s rest h8 hl hb
    simp only [limitAllows, List.length_cons] at hl
    obtain ⟨t, ht, htb⟩ := bitRead_bit (bs := p ++ rest) h8 (by rw [BitVec.lt_def]; omega) hb
    have hf := bitRead_frame ht
    have h8t := icnt_bitRead h8 ht
    have hin : t.inBits = s.inBits + 1 := by rw [hf]
    have hlm : t.inLimit = s.inLimit := by rw [hf]
    have hlt : t.limitAllows p.length := by
      have := s.inLimit.isLt
      simp only [limitAllows, hin, hlm, BitVec.toNat_add]
      have : (1 : BitVec 32).toNat = 1 := rfl
      omega
    obtain ⟨h1, h2, h3⟩ := ih h8t hlt htb
    rw [List.length_cons, afterBits_succ ht]
    refine ⟨h1, h2, ?_⟩
    rw [h3, hin, BitVec.add_assoc, one_add_ofNat]
    generalize t.afterBits p.length = u
    rw [hf]

theorem afterBits_with (n : Nat) : ∀ (s : State) (m : Memory) (q : Seq) (o : List Byte),
    { s with nodes := m, seq := q, out := o }.afterBits n = { s.afterBits n with nodes := m, seq := q, out := o } := by
  induction n with
  | zero => intros; rfl
  | succ n ih =>
    intro s m q o
    simp only [afterBits, bitRead_with]
    cases s.bitRead with
    | bit b t => exact ih t m q o
    | exhausted t => rfl
    | hold => rfl

theorem afterBits_add {p r : Bits} {s : State} {rest : Bits} (h8 : s.icnt.toNat ≤ 8)
    (hl : s.limitAllows (p ++ r).length) (hb : s.sourceBits = (p ++ r) ++ rest) :
    (s.afterBits p.length).afterBits r.length = s.afterBits (p ++ r).length := by
  induction p generalizing s with
  | nil => rfl
  | cons b p ih =>
    simp only [limitAllows, List.cons_append, List.length_cons] at hl
    obtain ⟨t, ht, htb⟩ := bitRead_bit (bs := (p ++ r) ++ rest) h8 (by rw [BitVec.lt_def]; omega) hb
    have hf := bitRead_frame ht
    have hin : t.inBits = s.inBits + 1 := by rw [hf]
    have hlm : t.inLimit = s.inLimit := by rw [hf]
    have hlt : t.limitAllows (p ++ r).length := by
      have := s.inLimit.isLt
      simp only [limitAllows, hin, hlm, BitVec.toNat_add]
      have : (1 : BitVec 32).toNat = 1 := rfl
      omega
    rw [List.cons_append, List.length_cons, List.length_cons, afterBits_succ ht, afterBits_succ ht]
    exact ih (icnt_bitRead h8 ht) hlt htb

/-- The limit left after bits were returned. -/
theorem limitAllows_afterBits {p : Bits} {s : State} {rest : Bits} {n : Nat} (h8 : s.icnt.toNat ≤ 8)
    (hl : s.limitAllows (p.length + n)) (hb : s.sourceBits = p ++ rest) : (s.afterBits p.length).limitAllows n := by
  have hl' : s.limitAllows p.length := by simp only [limitAllows] at hl ⊢; omega
  obtain ⟨_, _, h3⟩ := afterBits_spec p h8 hl' hb
  rw [h3]
  have := s.inLimit.isLt
  simp only [limitAllows, BitVec.toNat_add, BitVec.toNat_ofNat] at hl ⊢
  rw [Nat.mod_eq_of_lt (a := p.length) (by omega)]
  omega

/-! ### The source is a part of its own -/

/-- `u` with the bit source and the IN items of `s`. -/
def graft (s u : State) : State := { u with ibuf := s.ibuf, icnt := s.icnt, inBits := s.inBits, inq := s.inq }

theorem graft_self (s : State) : graft s s = s := rfl

/-- BitRead looks at the bit source, IN and IN_LIMIT only, and changes nothing but the first two (R81). -/
theorem bitRead_graft (s u : State) (h : u.inLimit = s.inLimit) :
    (graft s u).bitRead =
      match s.bitRead with
      | .bit b t => .bit b (graft t u)
      | .exhausted t => .exhausted (graft t u)
      | .hold => .hold := by
  by_cases hl : s.inLimit ≤ s.inBits
  · simp [bitRead, graft, h, hl]
  · by_cases h0 : s.icnt = 0
    · cases hq : s.inq with
      | nil => simp [bitRead, graft, h, hl, h0, hq]
      | cons x rest => cases x <;> simp [bitRead, graft, h, hl, h0, hq, bitFromBuffer]
    · simp only [bitRead, graft, h, hl, h0, if_false, bitFromBuffer]

theorem inLimit_bitRead {s t : State} {b : Bool} (h : s.bitRead = .bit b t) : t.inLimit = s.inLimit := by
  rw [bitRead_frame h]

/-- Reading bits changes the bit source and IN only. -/
theorem afterBits_frame (n : Nat) : ∀ s : State, s.afterBits n = graft (s.afterBits n) s := by
  induction n with
  | zero => intro s; rfl
  | succ n ih =>
    intro s
    cases h : s.bitRead with
    | bit b t =>
      rw [afterBits_succ h, ih t]
      have hf := bitRead_frame h
      generalize t.afterBits n = u
      simp only [graft]
      rw [hf]
    | exhausted t => simp [afterBits, h, graft]
    | hold => simp [afterBits, h, graft]

/-- Reading bits sees the bit source, IN and IN_LIMIT only. -/
theorem afterBits_graft (n : Nat) : ∀ s u : State, u.inLimit = s.inLimit →
    (graft s u).afterBits n = graft (s.afterBits n) u := by
  induction n with
  | zero => intros; rfl
  | succ n ih =>
    intro s u h
    cases hb : s.bitRead with
    | bit b t =>
      have hg := bitRead_graft s u h
      rw [hb] at hg
      rw [afterBits_succ hg, afterBits_succ hb]
      exact ih t u (h.trans (inLimit_bitRead hb).symm)
    | exhausted t => simp [afterBits, bitRead_graft s u h, hb]
    | hold => simp [afterBits, bitRead_graft s u h, hb]

/-! ### The sink is a part of its own -/

/-- `u` with the bit sink and OUT of `s`. -/
def graftSink (s u : State) : State := { u with obuf := s.obuf, ocnt := s.ocnt, outBits := s.outBits, out := s.out }

theorem graftSink_self (s : State) : graftSink s s = s := rfl

/-- BitWrite looks at the sink and OUT only, and changes nothing else (R78). -/
theorem bitWrite_graft (s u : State) (b : Bool) : (graftSink s u).bitWrite b = graftSink (s.bitWrite b) u := by
  unfold bitWrite
  by_cases h : s.ocnt.toNat + 1 = 8
  · rw [if_pos h, if_pos (show (graftSink s u).ocnt.toNat + 1 = 8 from h)]; rfl
  · rw [if_neg h, if_neg (show ¬ (graftSink s u).ocnt.toNat + 1 = 8 from h)]; rfl

theorem bitWrites_graft (bs : Bits) : ∀ s u : State, (graftSink s u).bitWrites bs = graftSink (s.bitWrites bs) u := by
  induction bs with
  | nil => intros; rfl
  | cons b bs ih => intro s u; rw [bitWrites_cons, bitWrites_cons, bitWrite_graft]; exact ih _ u

theorem bitWrites_graft_self (s : State) (bs : Bits) : s.bitWrites bs = graftSink (s.bitWrites bs) s := by
  conv => lhs; rw [← graftSink_self s, bitWrites_graft]

/-- Flush looks at the sink and OUT only, and changes nothing else (R80). -/
theorem sinkFlush_graft (s u : State) : (graftSink s u).sinkFlush = graftSink s.sinkFlush u := by
  unfold sinkFlush
  by_cases h : s.ocnt = 0
  · rw [if_pos h, if_pos (show (graftSink s u).ocnt = 0 from h)]
  · rw [if_neg h, if_neg (show ¬ (graftSink s u).ocnt = 0 from h)]; rfl

theorem sinkFlush_graft_self (s : State) : s.sinkFlush = graftSink s.sinkFlush s := by
  conv => lhs; rw [← graftSink_self s, sinkFlush_graft]

end State

end Sys2Proof.Machine
end

