-- ==== Sys2Proof/Laws/Traverse.lean ====
section
/-!
SUPPORT. The traversal (R201): its loop ends, its result does not depend on how much fuel is left over, and it follows the path
of a leaf to the leaf.
-/

namespace Sys2Proof.Machine

namespace State

/-- No traversal is under way. -/
def NoTraverse (s : State) : Prop := ∀ c i d, s.seq ≠ .running (.traverse c i d)

theorem traverseLoop_zero (s : State) : traverseLoop 0 s = s := rfl

theorem traverseLoop_succ {s : State} {c : Bool} {i : BitVec 16} {d : Nat} (h : s.seq = .running (.traverse c i d))
    (f : Nat) : traverseLoop (f + 1) s = traverseLoop f (s.traverseTick c i d) := by
  simp [traverseLoop, h]

theorem traverseLoop_stop {s : State} (h : s.NoTraverse) (f : Nat) : traverseLoop f s = s := by
  cases f with
  | zero => rfl
  | succ f =>
    rw [traverseLoop]
    split
    · next c i d hs => exact absurd hs (h c i d)
    · rfl

/-- How far a traversal is from the next bit it needs: from a leaf two more iterations may pass, from an EOM leaf one. -/
def traverseRank (s : State) (i : BitVec 16) : Nat :=
  match usableNode s.cfg.nodeCap s.nodes i with
  | none => 0
  | some e =>
    match e.kind with
    | .leaf => 2
    | .eom => 1
    | .branch => 0
    | .reserved => 0

/-- A bound on the iterations left. -/
def traverseBound (s : State) : Nat :=
  match s.seq with
  | .running (.traverse _ i _) => 3 * s.bitsAvail + s.traverseRank i + 1
  | _ => 0

theorem traverseRank_le (s : State) (i : BitVec 16) : s.traverseRank i ≤ 2 := by
  unfold traverseRank
  split
  · omega
  · split <;> omega

theorem noTraverse_of_idle {s : State} (h : s.seq = .idle) : s.NoTraverse := by intro c i d; simp [h]

theorem noTraverse_of_held {s : State} {c : Cursor} (h : s.seq = .held c) : s.NoTraverse := by intro c i d; simp [h]

/-- Starting a traversal ends the command or sets the cursor at a root that is no symbol leaf (R201, R202). -/
theorem enterTraverse_cases (c : Bool) (s : State) :
    s.enterTraverse c = s.raise .badNode ∨ s.enterTraverse c = s.raise .rootSymbol ∨
      ∃ e, usableNode s.cfg.nodeCap s.nodes s.root = some e ∧ e.kind ≠ .leaf ∧
        s.enterTraverse c = s.setCursor (.traverse c s.root 0) := by
  unfold enterTraverse
  split
  · exact .inl rfl
  · next e he =>
    split
    · exact .inr (.inl rfl)
    · next hk => exact .inr (.inr ⟨e, he, hk, rfl⟩)

/-- Every iteration of the traversal's loop ends the command, holds, or lowers the bound. -/
theorem traverseTick_bound {s : State} {c : Bool} {i : BitVec 16} {d : Nat} (h : s.seq = .running (.traverse c i d)) :
    (s.traverseTick c i d).traverseBound < s.traverseBound := by
  have hb : s.traverseBound = 3 * s.bitsAvail + s.traverseRank i + 1 := by simp [traverseBound, h]
  have zero_of : ∀ t : State, t.NoTraverse → t.traverseBound < s.traverseBound := by
    intro t ht
    rw [hb]
    have : t.traverseBound = 0 := by
      unfold traverseBound
      split
      · next c i d hs => exact absurd hs (ht c i d)
      · rfl
    omega
  unfold traverseTick
  split
  · exact zero_of _ (noTraverse_of_idle rfl)
  · next e he =>
    split
    · next hk =>
      split
      · exact zero_of _ (noTraverse_of_held rfl)
      · exact zero_of _ (noTraverse_of_idle rfl)
      · next b t ht =>
        have ha := bitsAvail_bitRead ht
        unfold moveTo
        simp only
        split
        · exact zero_of _ (noTraverse_of_idle rfl)
        · split
          · exact zero_of _ (noTraverse_of_idle rfl)
          · have hr := traverseRank_le (t.setCursor (.traverse c (if b = true then e.right else e.left) (d + 1)))
              (if b = true then e.right else e.left)
            simp only [traverseBound, setCursor_fields, h]
            have : (t.setCursor (.traverse c (if b = true then e.right else e.left) (d + 1))).bitsAvail = t.bitsAvail := rfl
            omega
    · next hk =>
      unfold leafReached
      split
      · split
        · exact zero_of _ (noTraverse_of_idle rfl)
        · next hkey =>
          have hleaf : e.kind = .leaf := by
            by_contra hl
            exact hkey (by simp [NodeEntry.key, hl])
          have hri : s.traverseRank i = 2 := by simp [traverseRank, he, hleaf]
          rcases enterTraverse_cases true (s.outWrite (e.key.setWidth 8)) with hx | hx | ⟨e', he', hk', hx⟩
          · rw [hx]; exact zero_of _ (noTraverse_of_idle rfl)
          · rw [hx]; exact zero_of _ (noTraverse_of_idle rfl)
          · rw [hx, hb, hri]
            have hrank : ((s.outWrite (e.key.setWidth 8)).setCursor
                (.traverse true (s.outWrite (e.key.setWidth 8)).root 0)).traverseRank s.root ≤ 1 := by
              simp only [outWrite_fields] at he'
              simp only [traverseRank, setCursor_fields, outWrite_fields, he']
              cases hkk : e'.kind with
              | leaf => exact absurd hkk hk'
              | eom => simp
              | branch => simp
              | reserved => simp
            simp only [traverseBound, setCursor_fields, outWrite_fields] at hrank ⊢
            have : ((s.outWrite (e.key.setWidth 8)).setCursor (.traverse true s.root 0)).bitsAvail = s.bitsAvail := rfl
            omega
      · exact zero_of _ (noTraverse_of_idle rfl)

/-- With enough fuel the loop ends with no traversal under way. -/
theorem traverseLoop_ends : ∀ (f : Nat) (s : State), s.traverseBound ≤ f → (traverseLoop f s).NoTraverse := by
  intro f
  induction f with
  | zero =>
    intro s h c i d hs
    rw [traverseLoop_zero] at hs
    simp [traverseBound, hs] at h
  | succ f ih =>
    intro s h
    by_cases hn : s.NoTraverse
    · rw [traverseLoop_stop hn]; exact hn
    · simp only [NoTraverse, not_forall, ne_eq, not_not] at hn
      obtain ⟨c, i, d, hs⟩ := hn
      rw [traverseLoop_succ hs]
      have := traverseTick_bound hs
      exact ih _ (by omega)

/-- Fuel beyond the bound changes nothing. -/
theorem traverseLoop_fuel : ∀ (f : Nat) (s : State), s.traverseBound ≤ f → ∀ g, s.traverseBound ≤ g →
    traverseLoop f s = traverseLoop g s := by
  intro f
  induction f with
  | zero =>
    intro s h g _
    have hn : s.NoTraverse := by intro c i d hs; simp [traverseBound, hs] at h
    rw [traverseLoop_stop hn, traverseLoop_stop hn]
  | succ f ih =>
    intro s h g hg
    by_cases hn : s.NoTraverse
    · rw [traverseLoop_stop hn, traverseLoop_stop hn]
    · simp only [NoTraverse, not_forall, ne_eq, not_not] at hn
      obtain ⟨c, i, d, hs⟩ := hn
      have hb := traverseTick_bound hs
      cases g with
      | zero => omega
      | succ g =>
        rw [traverseLoop_succ hs, traverseLoop_succ hs]
        exact ih _ (by omega) g (by omega)

theorem traverseBound_le (s : State) : s.traverseBound ≤ 3 * s.bitsAvail + 3 := by
  unfold traverseBound
  split
  · next i _ _ => have := s.traverseRank_le i; omega
  · omega

/-- The traversals run as any sufficient fuel runs them. -/
theorem traverseRun_eq {s : State} {f : Nat} (h : s.traverseBound ≤ f) : s.traverseRun = traverseLoop f s :=
  traverseLoop_fuel _ _ s.traverseBound_le _ h

theorem traverseRun_noTraverse (s : State) : s.traverseRun.NoTraverse := traverseLoop_ends _ _ s.traverseBound_le

theorem traverseRun_stop {s : State} (h : s.NoTraverse) : s.traverseRun = s := traverseLoop_stop h _

/-- The traversals run one iteration at a time (R201). -/
theorem traverseRun_step {s : State} {c : Bool} {i : BitVec 16} {d : Nat} (h : s.seq = .running (.traverse c i d)) :
    s.traverseRun = (s.traverseTick c i d).traverseRun := by
  have hb := traverseTick_bound h
  have hle := s.traverseBound_le
  rw [traverseRun_eq (f := 3 * s.bitsAvail + 2 + 1) hle, traverseLoop_succ h,
    traverseRun_eq (f := 3 * s.bitsAvail + 2) (by omega)]

/-- An induction over the iterations of the traversals. -/
theorem traverse_induction {P : State → Prop} (stop : ∀ s, s.NoTraverse → P s)
    (iter : ∀ s c i d, s.seq = .running (.traverse c i d) → P (s.traverseTick c i d) → P s) (s : State) : P s := by
  have : ∀ n, ∀ s : State, s.traverseBound ≤ n → P s := by
    intro n
    induction n with
    | zero => intro s h; exact stop s (by intro c i d hs; simp [traverseBound, hs] at h)
    | succ n ih =>
      intro s h
      by_cases hn : s.NoTraverse
      · exact stop s hn
      · simp only [NoTraverse, not_forall, ne_eq, not_not] at hn
        obtain ⟨c, i, d, hs⟩ := hn
        have := traverseTick_bound hs
        exact iter s c i d hs (ih _ (by omega))
  exact this _ s (Nat.le_refl _)

/-! ### Following a path -/

theorem traverseTick_branch {s t : State} {c b : Bool} {i : BitVec 16} {d : Nat} {e e' : NodeEntry}
    (he : usableNode s.cfg.nodeCap s.nodes i = some e) (hk : e.kind = .branch) (hr : s.bitRead = .bit b t)
    (hj : usableNode s.cfg.nodeCap s.nodes (if b then e.right else e.left) = some e') (hd : d + 1 ≤ s.cfg.depthCap) :
    s.traverseTick c i d = t.setCursor (.traverse c (if b then e.right else e.left) (d + 1)) := by
  have hf := bitRead_frame hr
  have h1 : t.cfg = s.cfg := by rw [hf]
  have h2 : t.nodes = s.nodes := by rw [hf]
  simp only [traverseTick, he, hk, if_true, hr, moveTo, h1, h2, hj]
  rw [if_neg (by omega)]

/-- From a cursor at a tree, the path of a leaf leads to an entry of that leaf's key (R125, R201). -/
theorem traverseRun_path (t : Tree) : ∀ (s : State) (c : Bool) (i : BitVec 16) (d : Nat) (k : Nat) (p rest : Bits),
    s.seq = .running (.traverse c i d) → denotes s.cfg.nodeCap s.nodes t i = true → d + t.height ≤ s.cfg.depthCap →
    (k, p) ∈ t.leaves [] → s.icnt.toNat ≤ 8 → s.limitAllows p.length → s.sourceBits = p ++ rest →
    ∃ e : NodeEntry, e.kind ≠ .branch ∧ e.kind ≠ .reserved ∧ e.key.toNat = k ∧
      s.traverseRun = ((s.afterBits p.length).leafReached c e.key).traverseRun := by
  induction t with
  | branch l r ihl ihr =>
    intro s c i d k p rest hs hd hh hmem h8 hl hb
    obtain ⟨e, he, hk, hdl, hdr⟩ := denotes_branch hd
    simp only [Tree.leaves, List.nil_append, List.mem_append] at hmem
    simp only [Tree.height] at hh
    have key : ∀ (b : Bool) (u : Tree), (k, p) ∈ u.leaves [b] → u.height + 1 + d ≤ s.cfg.depthCap →
        denotes s.cfg.nodeCap s.nodes u (if b then e.right else e.left) = true →
        (∀ (s : State) (c : Bool) (i : BitVec 16) (d : Nat) (k : Nat) (p rest : Bits),
          s.seq = .running (.traverse c i d) → denotes s.cfg.nodeCap s.nodes u i = true →
          d + u.height ≤ s.cfg.depthCap → (k, p) ∈ u.leaves [] → s.icnt.toNat ≤ 8 → s.limitAllows p.length →
          s.sourceBits = p ++ rest →
          ∃ e : NodeEntry, e.kind ≠ .branch ∧ e.kind ≠ .reserved ∧ e.key.toNat = k ∧
            s.traverseRun = ((s.afterBits p.length).leafReached c e.key).traverseRun) →
        ∃ e : NodeEntry, e.kind ≠ .branch ∧ e.kind ≠ .reserved ∧ e.key.toNat = k ∧
          s.traverseRun = ((s.afterBits p.length).leafReached c e.key).traverseRun := by
      intro b u hm hu hdu ih
      rw [Tree.leaves_path, List.mem_map] at hm
      obtain ⟨⟨k', p'⟩, hm', heq⟩ := hm
      simp only [Prod.mk.injEq, List.cons_append, List.nil_append] at heq
      obtain ⟨rfl, rfl⟩ := heq
      simp only [limitAllows, List.length_cons] at hl
      obtain ⟨t, ht, htb⟩ := bitRead_bit (bs := p' ++ rest) h8 (by rw [BitVec.lt_def]; omega) hb
      have hf := bitRead_frame ht
      have h8t := icnt_bitRead h8 ht
      obtain ⟨e', he'⟩ : ∃ e', usableNode s.cfg.nodeCap s.nodes (if b then e.right else e.left) = some e' := by
        cases u with
        | branch _ _ => obtain ⟨e', h, _⟩ := denotes_branch hdu; exact ⟨e', h⟩
        | leaf _ => obtain ⟨e', h, _⟩ := denotes_leaf hdu; exact ⟨e', h⟩
        | endMessage => obtain ⟨e', h, _⟩ := denotes_endMessage hdu; exact ⟨e', h⟩
      have hcfg : t.cfg = s.cfg := by rw [hf]
      have hnodes : t.nodes = s.nodes := by rw [hf]
      have hlim : t.limitAllows p'.length := by
        have h1 : t.inBits = s.inBits + 1 := by rw [hf]
        have h2 : t.inLimit = s.inLimit := by rw [hf]
        have := s.inLimit.isLt
        simp only [limitAllows, h1, h2, BitVec.toNat_add]
        have : (1 : BitVec 32).toNat = 1 := rfl
        omega
      have htick := traverseTick_branch (c := c) he hk ht he' (by omega : d + 1 ≤ s.cfg.depthCap)
      obtain ⟨e2, h1, h2, h3, h4⟩ := ih (t.setCursor (.traverse c (if b then e.right else e.left) (d + 1))) c
        (if b then e.right else e.left) (d + 1) k' p' rest rfl
        (by simpa [hcfg, hnodes] using hdu) (by simp [hcfg]; omega) hm' h8t hlim htb
      refine ⟨e2, h1, h2, h3, ?_⟩
      rw [traverseRun_step hs, htick, h4, List.length_cons, afterBits_succ ht]
      congr 1
      have hw := afterBits_with p'.length t t.nodes
        (.running (.traverse c (if b then e.right else e.left) (d + 1))) t.out
      have hw' : (t.setCursor (.traverse c (if b then e.right else e.left) (d + 1))).afterBits p'.length =
          { t.afterBits p'.length with seq := .running (.traverse c (if b then e.right else e.left) (d + 1)) } := by
        obtain ⟨_, _, h3⟩ := afterBits_spec p' h8t hlim htb
        have e1 : (t.afterBits p'.length).nodes = t.nodes := by rw [h3]
        have e2 : (t.afterBits p'.length).out = t.out := by rw [h3]
        rw [show t.setCursor (.traverse c (if b then e.right else e.left) (d + 1)) =
          { t with nodes := t.nodes, seq := .running (.traverse c (if b then e.right else e.left) (d + 1)), out := t.out }
          from rfl, hw, ← e1, ← e2]
      rw [hw']
      unfold leafReached endWithKey succeed enterTraverse outWrite raise setCursor
      rfl
    rcases hmem with hm | hm
    · exact key false l hm (by omega) (by simpa using hdl) ihl
    · exact key true r hm (by omega) (by simpa using hdr) ihr
  | leaf sym =>
    intro s c i d k p rest hs hd hh hmem h8 hl hb
    obtain ⟨e, he, hk, hsym⟩ := denotes_leaf hd
    simp only [Tree.leaves, List.mem_singleton, Prod.mk.injEq] at hmem
    obtain ⟨rfl, rfl⟩ := hmem
    refine ⟨e, by simp [hk], by simp [hk], by rw [key_leaf hk, hsym], ?_⟩
    rw [traverseRun_step hs]
    simp [traverseTick, he, hk, afterBits]
  | endMessage =>
    intro s c i d k p rest hs hd hh hmem h8 hl hb
    obtain ⟨e, he, hk⟩ := denotes_endMessage hd
    simp only [Tree.leaves, List.mem_singleton, Prod.mk.injEq] at hmem
    obtain ⟨rfl, rfl⟩ := hmem
    refine ⟨e, by simp [hk], by simp [hk], by rw [key_eom hk]; rfl, ?_⟩
    rw [traverseRun_step hs]
    simp [traverseTick, he, hk, afterBits]

end State

end Sys2Proof.Machine
end

