-- ==== Sys2Proof/Laws/TreeDec.lean ====
section
/-!
SUPPORT. The tree decoder (R160): reading one node code, the memory that placing a tree's nodes leaves, and the loop, which ends,
does not depend on how much fuel is left over, and reads a whole description.
-/

namespace Sys2Proof.Machine

/-! ### Placing -/

/-- The memory after one node code is placed (R160). -/
def place (m : Memory) (slot : Slot) (n : Nat) (k : NodeCode) : Memory :=
  linkSlot (tablePut m n (nodeOfCode n k)) slot n

/-- The memory after a whole tree is placed, in pre-order from `n`. -/
def placeTree : Tree → Memory → Slot → Nat → Memory
  | .branch l r, m, slot, n =>
    placeTree r (placeTree l (place m slot n .branch) (.leftOf n) (n + 1)) (.rightOf n) (n + 1 + l.nodeCount)
  | .leaf s, m, slot, n => place m slot n (.leaf s)
  | .endMessage, m, slot, n => place m slot n .eom

/-- The entry whose right link a slot fills, if it fills one. -/
def Slot.target : Slot → Option Nat
  | .root => none
  | .leftOf _ => none
  | .rightOf j => some j

theorem tableGet_setRight (m : Memory) (j n i : Nat) :
    tableGet (setRight m j n) i =
      if i = j then (tableGet m j).map (fun e => { e with right := BitVec.ofNat 16 n }) else tableGet m i := by
  unfold setRight
  split
  · next e he => rw [tableGet_put]; split <;> simp_all
  · next he => split <;> simp_all

theorem tableGet_linkSlot (m : Memory) (slot : Slot) (n i : Nat) :
    tableGet (linkSlot m slot n) i =
      if slot.target = some i then (tableGet m i).map (fun e => { e with right := BitVec.ofNat 16 n })
      else tableGet m i := by
  cases slot with
  | root => simp [linkSlot, Slot.target]
  | leftOf j => simp [linkSlot, Slot.target]
  | rightOf j =>
    simp only [linkSlot, Slot.target, tableGet_setRight, Option.some.injEq]
    by_cases h : i = j
    · subst h; simp
    · rw [if_neg h, if_neg (fun h' => h h'.symm)]

/-- What placing one node does to each entry, the slot's entry being an earlier one. -/
theorem tableGet_place (m : Memory) (slot : Slot) (n i : Nat) (k : NodeCode) (h : slot.target ≠ some n) :
    tableGet (place m slot n k) i =
      if i = n then some (nodeOfCode n k)
      else if slot.target = some i then (tableGet m i).map (fun e => { e with right := BitVec.ofNat 16 n })
      else tableGet m i := by
  unfold place
  rw [tableGet_linkSlot, tableGet_put]
  by_cases hi : i = n
  · subst hi; simp [h]
  · simp [hi]

/-- Placing a tree leaves every entry outside its range, but the one its slot links from. -/
theorem tableGet_placeTree (t : Tree) : ∀ (m : Memory) (slot : Slot) (n i : Nat), (∀ j, slot.target = some j → j < n) →
    i < n ∨ n + t.nodeCount ≤ i →
    tableGet (placeTree t m slot n) i =
      if slot.target = some i then (tableGet m i).map (fun e => { e with right := BitVec.ofNat 16 n })
      else tableGet m i := by
  induction t with
  | branch l r ihl ihr =>
    intro m slot n i hs hi
    simp only [Tree.nodeCount] at hi
    have hn : slot.target ≠ some n := fun h => by have := hs n h; omega
    rw [placeTree, ihr _ _ _ _ (by simp [Slot.target]; omega) (by omega), Slot.target, if_neg (by simp; omega),
      ihl _ _ _ _ (by simp [Slot.target]) (by omega), Slot.target, if_neg (by simp), tableGet_place _ _ _ _ _ hn,
      if_neg (by omega)]
  | leaf s =>
    intro m slot n i hs hi
    simp only [Tree.nodeCount] at hi
    have hn : slot.target ≠ some n := fun h => by have := hs n h; omega
    rw [placeTree, tableGet_place _ _ _ _ _ hn, if_neg (by omega)]
  | endMessage =>
    intro m slot n i hs hi
    simp only [Tree.nodeCount] at hi
    have hn : slot.target ≠ some n := fun h => by have := hs n h; omega
    rw [placeTree, tableGet_place _ _ _ _ _ hn, if_neg (by omega)]

/-- The numbering of a tree looks at its own range only. -/
theorem numbered_congr {m m' : Memory} (t : Tree) : ∀ n, (∀ i, n ≤ i → i < n + t.nodeCount → tableGet m' i = tableGet m i) →
    numbered m t n → numbered m' t n := by
  induction t with
  | branch l r ihl ihr =>
    intro n h hn
    simp only [Tree.nodeCount] at h
    obtain ⟨h1, h2, h3⟩ := hn
    exact ⟨by rw [h n (by omega) (by omega), h1], ihl _ (fun i _ _ => h i (by omega) (by omega)) h2,
      ihr _ (fun i _ _ => h i (by omega) (by omega)) h3⟩
  | leaf s => intro n h hn; simp only [numbered] at *; rw [h n (by omega) (by simp [Tree.nodeCount]), hn]
  | endMessage => intro n h hn; simp only [numbered] at *; rw [h n (by omega) (by simp [Tree.nodeCount]), hn]

/-- The placed tree is numbered in pre-order from the index it was placed at (R161). -/
theorem numbered_placeTree (t : Tree) : ∀ (m : Memory) (slot : Slot) (n : Nat), (∀ j, slot.target = some j → j < n) →
    numbered (placeTree t m slot n) t n := by
  induction t with
  | branch l r ihl ihr =>
    intro m slot n hs
    have hn : slot.target ≠ some n := fun h => by have := hs n h; omega
    have hpos := l.nodeCount_pos
    have hr : ∀ j, (Slot.rightOf n).target = some j → j < n + 1 + l.nodeCount := by simp [Slot.target]; omega
    refine ⟨?_, ?_, ihr _ _ _ hr⟩
    · rw [placeTree, tableGet_placeTree _ _ _ _ _ hr (by omega), Slot.target, if_pos rfl,
        tableGet_placeTree _ _ _ _ _ (by simp [Slot.target]) (by omega), Slot.target, if_neg (by simp),
        tableGet_place _ _ _ _ _ hn, if_pos rfl]
      rfl
    · refine numbered_congr l _ ?_ (ihl (place m slot n .branch) (.leftOf n) (n + 1) (by simp [Slot.target]))
      intro i h1 h2
      rw [placeTree, tableGet_placeTree _ _ _ _ _ hr (by omega), Slot.target, if_neg (by simp; omega)]
  | leaf s =>
    intro m slot n hs
    have hn : slot.target ≠ some n := fun h => by have := hs n h; omega
    simp [numbered, placeTree, tableGet_place _ _ _ _ _ hn, nodeOfCode]
  | endMessage =>
    intro m slot n hs
    have hn : slot.target ≠ some n := fun h => by have := hs n h; omega
    simp [numbered, placeTree, tableGet_place _ _ _ _ _ hn, nodeOfCode]

/-- A numbered tree within the capacity is denoted by its first entry (R51, R161). -/
theorem denotes_numbered {cap : Nat} (hcap : cap ≤ 65535) {m : Memory} (t : Tree) : ∀ n, n + t.nodeCount ≤ cap →
    numbered m t n → denotes cap m t (BitVec.ofNat 16 n) = true := by
  have small : ∀ n, n < cap → (BitVec.ofNat 16 n).toNat = n := fun n h => by
    rw [BitVec.toNat_ofNat]; exact Nat.mod_eq_of_lt (by omega)
  induction t with
  | branch l r ihl ihr =>
    intro n hn h
    simp only [Tree.nodeCount] at hn
    obtain ⟨h1, h2, h3⟩ := h
    have hu := usableNode_of (cap := cap) (i := BitVec.ofNat 16 n) (by rw [small n (by omega)]; omega)
      (by rw [small n (by omega)]; exact h1) (by simp)
    simp only [denotes, hu, ihl _ (by omega) h2, ihr _ (by omega) h3]
    rfl
  | leaf s =>
    intro n hn h
    simp only [Tree.nodeCount] at hn
    have hu := usableNode_of (cap := cap) (i := BitVec.ofNat 16 n) (by rw [small n (by omega)]; omega)
      (by rw [small n (by omega)]; exact h) (by simp)
    simp [denotes, hu]
  | endMessage =>
    intro n hn h
    simp only [Tree.nodeCount] at hn
    have hu := usableNode_of (cap := cap) (i := BitVec.ofNat 16 n) (by rw [small n (by omega)]; omega)
      (by rw [small n (by omega)]; exact h) (by simp)
    simp [denotes, hu]

/-- Every entry of a numbered tree's range is written (R161). -/
theorem numbered_present {m : Memory} (t : Tree) : ∀ n i, numbered m t n → n ≤ i → i < n + t.nodeCount →
    (tableGet m i).isSome = true := by
  induction t with
  | branch l r ihl ihr =>
    intro n i h h1 h2
    simp only [Tree.nodeCount] at h2
    obtain ⟨ha, hb, hc⟩ := h
    by_cases hi : i = n
    · subst hi; simp [ha]
    · by_cases hl : i < n + 1 + l.nodeCount
      · exact ihl _ _ hb (by omega) hl
      · exact ihr _ _ hc (by omega) (by omega)
  | leaf s => intro n i h h1 h2; simp only [Tree.nodeCount] at h2; have : i = n := by omega
              subst this; simp only [numbered] at h; simp [h]
  | endMessage => intro n i h h1 h2; simp only [Tree.nodeCount] at h2; have : i = n := by omega
                  subst this; simp only [numbered] at h; simp [h]

theorem setRight_wf {cap : Nat} {m : Memory} (h : Memory.wf cap m = true) (j n : Nat) :
    Memory.wf cap (setRight m j n) = true := by
  unfold setRight
  split
  · next e he =>
    refine tablePut_wf h _ (Nat.zero_le _) ?_
    by_contra hlt
    rw [tableGet_ge h (by omega)] at he
    cases he
  · exact h

/-- Placing a node keeps the canonical form. -/
theorem place_wf {cap : Nat} {m : Memory} (h : Memory.wf cap m = true) (slot : Slot) {n : Nat} (hn : n < cap)
    (k : NodeCode) : Memory.wf cap (place m slot n k) = true := by
  have := tablePut_wf h (nodeOfCode n k) (Nat.zero_le n) hn
  unfold place
  cases slot with
  | root => exact this
  | leftOf _ => exact this
  | rightOf j => exact setRight_wf this j n

/-! ### Reading one node code -/

namespace State

/-- Nothing but the source is touched by a bit read; the check of a node's first bit does not see the source. -/
theorem bitRead_cfg {s t : State} {b : Bool} (h : s.bitRead = .bit b t) : t.cfg = s.cfg := by rw [bitRead_frame h]

/-- A whole node code is read from the source, wherever the reading had stopped (R116, R160). -/
theorem readNode_code {n d : Nat} (k : NodeCode) (rest : Bits) : ∀ (bs code : Bits) (s : State) (fuel : Nat),
    code ++ bs = k.bits → bs ≠ [] → bs.length ≤ fuel → (code = [] → firstBitCheck s.cfg n d = none) →
    s.icnt.toNat ≤ 8 → s.limitAllows bs.length → s.sourceBits = bs ++ rest →
    readNode n d fuel code s = .code k (s.afterBits bs.length) := by
  intro bs
  induction bs with
  | nil => intro _ _ _ _ h; exact absurd rfl h
  | cons b bs ih =>
    intro code s fuel hk _ hf hc h8 hl hb
    cases fuel with
    | zero => simp at hf
    | succ fuel =>
      simp only [limitAllows, List.length_cons] at hl hf
      obtain ⟨t, ht, htb⟩ := bitRead_bit (bs := bs ++ rest) h8 (by rw [BitVec.lt_def]; omega) hb
      have hfr := bitRead_frame ht
      have hcfg := bitRead_cfg ht
      have hchk : (if code = [] then firstBitCheck t.cfg n d else none) = none := by
        split
        · next h => rw [hcfg]; exact hc h
        · rfl
      simp only [readNode, ht, hchk]
      rw [List.length_cons, afterBits_succ ht]
      by_cases hbs : bs = []
      · subst hbs
        have : code ++ [b] = k.bits ++ [] := by simp [hk]
        rw [this, decodeNode_bits]
        rfl
      · have hsplit : code ++ [b] ++ bs = k.bits := by simp [← hk]
        have hshort : decodeNode (code ++ [b]) = .error .truncatedCode := by
          have h1 := decodeNode_short k (n := (code ++ [b]).length) (by
            have := List.length_pos_iff.2 hbs
            rw [← hsplit]
            simp only [List.length_append]
            omega)
          rwa [← hsplit, List.take_left'] at h1
          rfl
        rw [hshort]
        refine ih _ t fuel hsplit hbs (by omega) (by simp) (icnt_bitRead h8 ht) ?_ htb
        have h1 : t.inBits = s.inBits + 1 := by rw [hfr]
        have h2 : t.inLimit = s.inLimit := by rw [hfr]
        have := s.inLimit.isLt
        simp only [limitAllows, h1, h2, BitVec.toNat_add]
        have : (1 : BitVec 32).toNat = 1 := rfl
        omega

/-- What reading a node code may have done: it has used the source only; a code it answers completes the bits read, a hold
keeps them, and an error is one of R160's three. -/
theorem readNode_spec {n d : Nat} : ∀ (fuel : Nat) (code : Bits) (s : State),
    match readNode n d fuel code s with
    | .code k t => (∃ bs b r, decodeNode (code ++ bs ++ [b]) = .ok (k, r)) ∧ (code = [] → firstBitCheck s.cfg n d = none) ∧
        t = { s with ibuf := t.ibuf, icnt := t.icnt, inq := t.inq, inBits := t.inBits }
    | .hold code' t => (∃ bs, code' = code ++ bs) ∧ (code = [] → code' ≠ [] → firstBitCheck s.cfg n d = none) ∧
        t.bitRead = .hold ∧
        t = { s with ibuf := t.ibuf, icnt := t.icnt, inq := t.inq, inBits := t.inBits }
    | .fail e t => (e = .malformedTree ∨ e = .nodeCap ∨ e = .depth) ∧
        t = { s with ibuf := t.ibuf, icnt := t.icnt, inq := t.inq, inBits := t.inBits } := by
  intro fuel
  induction fuel with
  | zero => intro code s; exact ⟨.inl rfl, rfl⟩
  | succ fuel ih =>
    intro code s
    simp only [readNode]
    cases hb : s.bitRead with
    | hold => exact ⟨⟨[], by simp⟩, fun h h' => absurd h h', hb, rfl⟩
    | exhausted t =>
      have := (bitRead_exhausted hb).1
      refine ⟨.inl rfl, ?_⟩
      generalize t.inq = q at this
      subst this
      rfl
    | bit b t =>
      have hfr := bitRead_frame hb
      have hfr' : t = { s with ibuf := t.ibuf, icnt := t.icnt, inq := t.inq, inBits := t.inBits } := by
        rw [hfr]
      have hcfg := bitRead_cfg hb
      simp only
      cases hc : (if code = [] then firstBitCheck t.cfg n d else none) with
      | some e =>
        refine ⟨?_, hfr'⟩
        split at hc
        · unfold firstBitCheck at hc
          split at hc
          · cases hc; exact .inr (.inl rfl)
          · split at hc
            · cases hc; exact .inr (.inr rfl)
            · cases hc
        · cases hc
      | none =>
        have hc' : code = [] → firstBitCheck s.cfg n d = none := by
          intro h; rw [if_pos h, hcfg] at hc; exact hc
        simp only
        cases hd : decodeNode (code ++ [b]) with
        | ok p =>
          obtain ⟨k, r⟩ := p
          exact ⟨⟨[], b, r, by simpa using hd⟩, hc', hfr'⟩
        | error e =>
          have hrec := ih (code ++ [b]) t
          simp only
          cases hr : readNode n d fuel (code ++ [b]) t with
          | code k u =>
            rw [hr] at hrec
            obtain ⟨⟨bs, b', r, h1⟩, _, h3⟩ := hrec
            exact ⟨⟨b :: bs, b', r, by simpa using h1⟩, hc', by rw [h3, hfr']⟩
          | hold c' u =>
            rw [hr] at hrec
            obtain ⟨⟨bs, h1⟩, _, h3, h4⟩ := hrec
            exact ⟨⟨b :: bs, by simpa using h1⟩, fun h _ => hc' h, h3, by rw [h4, hfr']⟩
          | fail e' u =>
            rw [hr] at hrec
            exact ⟨hrec.1, by rw [hrec.2, hfr']⟩

/-! ### The loop -/

/-- No tree description is being read. -/
def NoTreeDec (s : State) : Prop := ∀ c k, s.seq ≠ .running (.treeDec c k)

theorem treeDecLoop_zero (s : State) : treeDecLoop 0 s = s := rfl

theorem treeDecLoop_succ {s : State} {c : Bool} {k : TreeCursor} (h : s.seq = .running (.treeDec c k)) (f : Nat) :
    treeDecLoop (f + 1) s = treeDecLoop f (s.treeDecTick c k) := by simp [treeDecLoop, h]

theorem treeDecLoop_stop {s : State} (h : s.NoTreeDec) (f : Nat) : treeDecLoop f s = s := by
  cases f with
  | zero => rfl
  | succ f =>
    rw [treeDecLoop]
    split
    · next c k hs => exact absurd hs (h c k)
    · rfl

theorem noTreeDec_of_idle {s : State} (h : s.seq = .idle) : s.NoTreeDec := by intro c k; simp [h]

theorem noTreeDec_of_held {s : State} {c : Cursor} (h : s.seq = .held c) : s.NoTreeDec := by intro c k; simp [h]

/-- The placing of a node code is an iteration's rest, when a hole is open. -/
theorem placeNode_some {s : State} {c : Bool} {k : TreeCursor} {h : Hole} {rest : List Hole} (x : NodeCode)
    (hs : s.seq = .running (.treeDec c k)) (hh : k.holes = h :: rest) :
    s.placeNode x = some { s with
      nodes := place s.nodes h.slot k.n x
      seq := .running (.treeDec c { n := k.n + 1, holes := openHoles k.n h.depth rest x, code := [] }) } := by
  simp [placeNode, hs, hh, place]

/-- Starting the traversals, or ending, leaves no tree description to read. -/
theorem finishTree_noTreeDec (c : Bool) (n : Nat) (s : State) : (s.finishTree c n).NoTreeDec := by
  unfold finishTree
  split
  · rcases enterTraverse_cases true { s with nodeCount := BitVec.ofNat 17 n } with h | h | ⟨e, _, _, h⟩
    · rw [h]; exact noTreeDec_of_idle rfl
    · rw [h]; exact noTreeDec_of_idle rfl
    · rw [h]; intro c k; simp
  · exact noTreeDec_of_idle rfl

/-- What one iteration of the tree decoder's loop may do (R160). -/
theorem treeDecTick_cases {s : State} {c : Bool} {k : TreeCursor} (h : s.seq = .running (.treeDec c k)) :
    (k.holes = [] ∧ s.treeDecTick c k = s.finishTree c k.n) ∨
    ∃ hole rest, k.holes = hole :: rest ∧
      ((∃ x t, readNode k.n hole.depth 10 k.code s = .code x t ∧
          (k.code = [] → firstBitCheck s.cfg k.n hole.depth = none) ∧
          t = { s with ibuf := t.ibuf, icnt := t.icnt, inq := t.inq, inBits := t.inBits } ∧
          s.treeDecTick c k = { t with
            nodes := place s.nodes hole.slot k.n x
            seq := .running (.treeDec c { n := k.n + 1, holes := openHoles k.n hole.depth rest x, code := [] }) }) ∨
        (∃ code t, readNode k.n hole.depth 10 k.code s = .hold code t ∧ t.bitRead = .hold ∧
          (k.code = [] → code ≠ [] → firstBitCheck s.cfg k.n hole.depth = none) ∧
          t = { s with ibuf := t.ibuf, icnt := t.icnt, inq := t.inq, inBits := t.inBits } ∧
          s.treeDecTick c k = t.holdAt (.treeDec c { k with code := code })) ∨
        (∃ e t, readNode k.n hole.depth 10 k.code s = .fail e t ∧ (e = .malformedTree ∨ e = .nodeCap ∨ e = .depth) ∧
          t = { s with ibuf := t.ibuf, icnt := t.icnt, inq := t.inq, inBits := t.inBits } ∧
          s.treeDecTick c k = t.failTree e)) := by
  cases hh : k.holes with
  | nil => left; simp [treeDecTick, fetchNode, hh, treeDecStop]
  | cons hole rest =>
    right
    refine ⟨hole, rest, rfl, ?_⟩
    have hf : s.fetchNode k = some (readNode k.n hole.depth 10 k.code s) := by simp [fetchNode, hh]
    have hspec := readNode_spec (n := k.n) (d := hole.depth) 10 k.code s
    cases hr : readNode k.n hole.depth 10 k.code s with
    | code x t =>
      rw [hr] at hspec
      obtain ⟨_, h2, h3⟩ := hspec
      left
      refine ⟨x, t, rfl, h2, h3, ?_⟩
      have hts : t.seq = .running (.treeDec c k) := by rw [h3]; exact h
      have htn : t.nodes = s.nodes := by rw [h3]
      simp [treeDecTick, hf, hr, placeNode_some x hts hh, htn]
    | hold code t =>
      rw [hr] at hspec
      right; left
      exact ⟨code, t, rfl, hspec.2.2.1, hspec.2.1, hspec.2.2.2, by simp [treeDecTick, hf, hr, treeDecStop, hh]⟩
    | fail e t =>
      rw [hr] at hspec
      right; right
      exact ⟨e, t, rfl, hspec.1, hspec.2, by simp [treeDecTick, hf, hr, treeDecStop]⟩

/-- A bound on the iterations left: the free entries, one for a node code half read, and one. -/
def treeDecBound (s : State) : Nat :=
  match s.seq with
  | .running (.treeDec _ k) => (s.cfg.nodeCap - k.n) + (if k.code = [] then 0 else 1) + 1
  | _ => 0

theorem treeDecBound_zero {s : State} (h : s.NoTreeDec) : s.treeDecBound = 0 := by
  unfold treeDecBound
  split
  · next c k hs => exact absurd hs (h c k)
  · rfl

theorem treeDecBound_le (s : State) : s.treeDecBound ≤ s.cfg.nodeCap + 2 := by
  unfold treeDecBound
  split
  · split <;> omega
  · omega

theorem firstBitCheck_none {cfg : Config} {n d : Nat} : firstBitCheck cfg n d = none ↔ n < cfg.nodeCap ∧ d ≤ cfg.depthCap := by
  unfold firstBitCheck
  split
  · simp; omega
  · split <;> simp <;> omega

/-- Every iteration ends the loop, holds, or lowers the bound. -/
theorem treeDecTick_bound {s : State} {c : Bool} {k : TreeCursor} (h : s.seq = .running (.treeDec c k)) :
    (s.treeDecTick c k).treeDecBound < s.treeDecBound := by
  have hb : s.treeDecBound = (s.cfg.nodeCap - k.n) + (if k.code = [] then 0 else 1) + 1 := by simp [treeDecBound, h]
  rcases treeDecTick_cases h with ⟨_, ht⟩ | ⟨hole, rest, _, ⟨x, t, _, hc, hf, ht⟩ | ⟨code, t, _, _, _, _, ht⟩ | ⟨e, t, _, _, _, ht⟩⟩
  · rw [ht, treeDecBound_zero (finishTree_noTreeDec c k.n s), hb]; omega
  · have hcfg : t.cfg = s.cfg := by rw [hf]
    rw [ht, hb]
    simp only [treeDecBound, hcfg]
    by_cases hk : k.code = []
    · have := (firstBitCheck_none.1 (hc hk)).1
      simp [hk]; omega
    · simp [hk]; omega
  · rw [ht, treeDecBound_zero (noTreeDec_of_held rfl), hb]; omega
  · rw [ht, treeDecBound_zero (noTreeDec_of_idle rfl), hb]; omega

/-- With enough fuel the loop ends with no description being read. -/
theorem treeDecLoop_ends : ∀ (f : Nat) (s : State), s.treeDecBound ≤ f → (treeDecLoop f s).NoTreeDec := by
  intro f
  induction f with
  | zero =>
    intro s h c k hs
    rw [treeDecLoop_zero] at hs
    simp [treeDecBound, hs] at h
  | succ f ih =>
    intro s h
    by_cases hn : s.NoTreeDec
    · rw [treeDecLoop_stop hn]; exact hn
    · simp only [NoTreeDec, not_forall, ne_eq, not_not] at hn
      obtain ⟨c, k, hs⟩ := hn
      rw [treeDecLoop_succ hs]
      have := treeDecTick_bound hs
      exact ih _ (by omega)

/-- Fuel beyond the bound changes nothing. -/
theorem treeDecLoop_fuel : ∀ (f : Nat) (s : State), s.treeDecBound ≤ f → ∀ g, s.treeDecBound ≤ g →
    treeDecLoop f s = treeDecLoop g s := by
  intro f
  induction f with
  | zero =>
    intro s h g _
    have hn : s.NoTreeDec := by intro c k hs; simp [treeDecBound, hs] at h
    rw [treeDecLoop_stop hn, treeDecLoop_stop hn]
  | succ f ih =>
    intro s h g hg
    by_cases hn : s.NoTreeDec
    · rw [treeDecLoop_stop hn, treeDecLoop_stop hn]
    · simp only [NoTreeDec, not_forall, ne_eq, not_not] at hn
      obtain ⟨c, k, hs⟩ := hn
      have hb := treeDecTick_bound hs
      cases g with
      | zero => omega
      | succ g =>
        rw [treeDecLoop_succ hs, treeDecLoop_succ hs]
        exact ih _ (by omega) g (by omega)

/-- The tree decoder runs as any sufficient fuel runs it. -/
theorem treeDecRun_eq {s : State} {f : Nat} (h : s.treeDecBound ≤ f) : s.treeDecRun = (treeDecLoop f s).traverseRun := by
  unfold treeDecRun
  rw [treeDecLoop_fuel _ _ s.treeDecBound_le _ h]

theorem treeDecRun_stop {s : State} (h : s.NoTreeDec) : s.treeDecRun = s.traverseRun := by
  unfold treeDecRun
  rw [treeDecLoop_stop h]

/-- The tree decoder runs one iteration at a time (R160). -/
theorem treeDecRun_step {s : State} {c : Bool} {k : TreeCursor} (h : s.seq = .running (.treeDec c k)) :
    s.treeDecRun = (s.treeDecTick c k).treeDecRun := by
  have hb := treeDecTick_bound h
  have hle := s.treeDecBound_le
  rw [treeDecRun_eq (f := s.cfg.nodeCap + 1 + 1) hle, treeDecLoop_succ h,
    treeDecRun_eq (f := s.cfg.nodeCap + 1) (by omega)]

/-- An induction over the iterations of the tree decoder. -/
theorem treeDec_induction {P : State → Prop} (stop : ∀ s, s.NoTreeDec → P s)
    (iter : ∀ s c k, s.seq = .running (.treeDec c k) → P (s.treeDecTick c k) → P s) (s : State) : P s := by
  have : ∀ n, ∀ s : State, s.treeDecBound ≤ n → P s := by
    intro n
    induction n with
    | zero => intro s h; exact stop s (by intro c k hs; simp [treeDecBound, hs] at h)
    | succ n ih =>
      intro s h
      by_cases hn : s.NoTreeDec
      · exact stop s hn
      · simp only [NoTreeDec, not_forall, ne_eq, not_not] at hn
        obtain ⟨c, k, hs⟩ := hn
        have := treeDecTick_bound hs
        exact iter s c k hs (ih _ (by omega))
  exact this _ s (Nat.le_refl _)

/-! ### A whole description -/

theorem treeDecTick_code {s : State} {c : Bool} {n : Nat} {hole : Hole} {rest : List Hole} (k : NodeCode) {r : Bits}
    (h : s.seq = .running (.treeDec c { n := n, holes := hole :: rest, code := [] }))
    (hchk : firstBitCheck s.cfg n hole.depth = none) (h8 : s.icnt.toNat ≤ 8) (hl : s.limitAllows k.bits.length)
    (hb : s.sourceBits = k.bits ++ r) :
    s.treeDecTick c { n := n, holes := hole :: rest, code := [] } =
      { s.afterBits k.bits.length with
        nodes := place s.nodes hole.slot n k
        seq := .running (.treeDec c { n := n + 1, holes := openHoles n hole.depth rest k, code := [] }) } := by
  have hr := readNode_code (n := n) (d := hole.depth) k r k.bits [] s 10 rfl (bits_ne_nil k) (length_bits_le k)
    (fun _ => hchk) h8 hl hb
  obtain ⟨_, _, h3⟩ := afterBits_spec k.bits h8 hl hb
  have hs' : (s.afterBits k.bits.length).seq = .running (.treeDec c { n := n, holes := hole :: rest, code := [] }) := by
    rw [h3]; exact h
  have hn' : (s.afterBits k.bits.length).nodes = s.nodes := by rw [h3]
  simp [treeDecTick, fetchNode, hr, placeNode_some k hs' rfl, hn']

/-- The tree decoder reads the description of a tree that fits into the free entries and the depths left, places it in
pre-order, and goes on with the holes below (R118, R160, R163). -/
theorem treeDecLoop_tree (t : Tree) : ∀ (s : State) (c : Bool) (n : Nat) (slot : Slot) (d : Nat) (rest : List Hole) (f : Nat) (r : Bits),
    s.seq = .running (.treeDec c { n := n, holes := { slot := slot, depth := d } :: rest, code := [] }) →
    n + t.nodeCount ≤ s.cfg.nodeCap → d + t.height ≤ s.cfg.depthCap → s.icnt.toNat ≤ 8 →
    s.limitAllows t.desc.length → s.sourceBits = t.desc ++ r →
    treeDecLoop (f + t.nodeCount) s = treeDecLoop f { s.afterBits t.desc.length with
      nodes := placeTree t s.nodes slot n
      seq := .running (.treeDec c { n := n + t.nodeCount, holes := rest, code := [] }) } := by
  induction t with
  | branch l r ihl ihr =>
    intro s c n slot d rest f tl hs hn hd h8 hlim hb
    simp only [Tree.nodeCount, Tree.height] at hn hd
    have hdesc : (Tree.branch l r).desc = NodeCode.branch.bits ++ (l.desc ++ r.desc) := by
      simp [Tree.desc, List.append_assoc]
    rw [hdesc] at hlim hb ⊢
    rw [List.append_assoc] at hb
    have hlim1 : s.limitAllows (NodeCode.branch.bits.length + (l.desc ++ r.desc).length) := by
      rwa [List.length_append] at hlim
    have hl0 : s.limitAllows NodeCode.branch.bits.length := by simp only [limitAllows] at hlim1 ⊢; omega
    obtain ⟨hsb1, h81, hf1⟩ := afterBits_spec NodeCode.branch.bits h8 hl0 hb
    have hlim2 := limitAllows_afterBits h8 hlim1 hb
    have hchk : firstBitCheck s.cfg n d = none := firstBitCheck_none.2 ⟨by omega, by omega⟩
    have hcount : f + (Tree.branch l r).nodeCount = (f + r.nodeCount + l.nodeCount) + 1 := by
      simp only [Tree.nodeCount]; omega
    rw [hcount, treeDecLoop_succ hs, treeDecTick_code .branch hs hchk h8 hl0 hb]
    -- the left subtree
    generalize hs1 : s.afterBits NodeCode.branch.bits.length = s1 at *
    have hcfg1 : s1.cfg = s.cfg := by rw [hf1]
    have hlim2' : s1.limitAllows (l.desc.length + r.desc.length) := by rwa [List.length_append] at hlim2
    have hlimL : s1.limitAllows l.desc.length := by simp only [limitAllows] at hlim2' ⊢; omega
    rw [ihl { s1 with
        nodes := place s.nodes slot n .branch
        seq := .running (.treeDec c { n := n + 1, holes := openHoles n d rest .branch, code := [] }) }
      c (n + 1) (.leftOf n) (d + 1) _ _ (r.desc ++ tl) rfl (by simp only [hcfg1]; omega)
      (by simp only [hcfg1]; omega) h81 hlimL (by rw [← List.append_assoc]; exact hsb1)]
    have hsbL : s1.sourceBits = l.desc ++ (r.desc ++ tl) := by rw [hsb1, List.append_assoc]
    obtain ⟨hsb2, h82, hf2⟩ := afterBits_spec l.desc h81 hlimL hsbL
    have hlimR := limitAllows_afterBits h81 hlim2' hsbL
    rw [show ({ s1 with
        nodes := place s.nodes slot n .branch
        seq := .running (.treeDec c { n := n + 1, holes := openHoles n d rest .branch, code := [] }) } : State) =
      { s1 with nodes := place s.nodes slot n .branch
                seq := .running (.treeDec c { n := n + 1, holes := openHoles n d rest .branch, code := [] })
                out := s1.out } from rfl, afterBits_with]
    generalize hs2 : s1.afterBits l.desc.length = s2 at *
    have hcfg2 : s2.cfg = s.cfg := by rw [hf2]; exact hcfg1
    -- the right subtree
    rw [ihr { s2 with
        nodes := placeTree l (place s.nodes slot n .branch) (.leftOf n) (n + 1)
        seq := .running (.treeDec c { n := n + 1 + l.nodeCount
                                      holes := { slot := .rightOf n, depth := d + 1 } :: rest, code := [] })
        out := s1.out }
      c (n + 1 + l.nodeCount) (.rightOf n) (d + 1) rest _ tl rfl (by simp only [hcfg2]; omega)
      (by simp only [hcfg2]; omega) h82 hlimR hsb2]
    have hadd1 := afterBits_add (p := l.desc) (r := r.desc) (s := s1) (rest := tl) h81
      (by rw [List.length_append]; exact hlim2') (by rw [hsb1])
    have hadd0 := afterBits_add (p := NodeCode.branch.bits) (r := l.desc ++ r.desc) (s := s) (rest := tl) h8
      (by rw [List.length_append]; exact hlim1) (by simp only [hb, List.append_assoc])
    rw [hs1] at hadd0
    rw [hs2] at hadd1
    rw [afterBits_with, hadd1, hadd0]
    have hnn : n + 1 + l.nodeCount + r.nodeCount = n + (1 + l.nodeCount + r.nodeCount) := by omega
    have hout : s1.out = (s.afterBits (NodeCode.branch.bits ++ (l.desc ++ r.desc)).length).out := by
      have h1 := (afterBits_spec (NodeCode.branch.bits ++ (l.desc ++ r.desc)) h8 hlim
        (show s.sourceBits = _ ++ tl by simp only [hb, List.append_assoc])).2.2
      rw [h1, hf1]
    simp only [placeTree, Tree.nodeCount, hnn, hout]
  | leaf sym =>
    intro s c n slot d rest f r hs hn hd h8 hl hb
    simp only [Tree.nodeCount] at hn
    have hchk : firstBitCheck s.cfg n d = none := firstBitCheck_none.2 ⟨by omega, by omega⟩
    simp only [Tree.nodeCount]
    rw [treeDecLoop_succ hs, treeDecTick_code (.leaf sym) hs hchk h8 hl hb]
    rfl
  | endMessage =>
    intro s c n slot d rest f r hs hn hd h8 hl hb
    simp only [Tree.nodeCount] at hn
    have hchk : firstBitCheck s.cfg n d = none := firstBitCheck_none.2 ⟨by omega, by omega⟩
    simp only [Tree.nodeCount]
    rw [treeDecLoop_succ hs, treeDecTick_code .eom hs hchk h8 hl hb]
    rfl

end State

end Sys2Proof.Machine
end

