-- ==== Sys2Proof/Laws/Walk.lean ====
section
/-!
SUPPORT. The walk (R140): what it answers on a tree, and what its answer says of the memory.
-/

namespace Sys2Proof.Machine

theorem walkLoop_nil (cfg : Config) (m : Memory) (dup : Bool) (f v : Nat) (seen : List Nat) (order : List Visit) :
    walkLoop cfg m dup f { stack := [], visits := v, seen := seen, order := order } = .ok order := by
  cases f <;> rfl

theorem walkLoop_zero (cfg : Config) (m : Memory) (dup : Bool) (a : Visit) (rest : List Visit) (v : Nat)
    (seen : List Nat) (order : List Visit) :
    walkLoop cfg m dup 0 { stack := a :: rest, visits := v, seen := seen, order := order } = .error .shared := rfl

theorem walkLoop_cons (cfg : Config) (m : Memory) (dup : Bool) (f : Nat) (a : Visit) (rest : List Visit) (v : Nat)
    (seen : List Nat) (order : List Visit) :
    walkLoop cfg m dup (f + 1) { stack := a :: rest, visits := v, seen := seen, order := order } =
      match walkVisit cfg m dup a rest { stack := a :: rest, visits := v, seen := seen, order := order } with
      | .error e => .error e
      | .ok w' => walkLoop cfg m dup f w' := rfl

/-- The visits a walk makes of a tree, in pre-order (R140). -/
def treeVisits (m : Memory) : Tree → BitVec 16 → Nat → Bits → List Visit
  | .branch l r, i, d, p =>
    { index := i, depth := d, path := p } ::
      match tableGet m i.toNat with
      | some e => treeVisits m l e.left (d + 1) (p ++ [false]) ++ treeVisits m r e.right (d + 1) (p ++ [true])
      | none => []
  | .leaf _, i, d, p => [{ index := i, depth := d, path := p }]
  | .endMessage, i, d, p => [{ index := i, depth := d, path := p }]

/-- A tree's visits are as many as its nodes (R140). -/
theorem length_treeVisits {cap : Nat} {m : Memory} (t : Tree) : ∀ (i : BitVec 16) (d : Nat) (p : Bits),
    denotes cap m t i = true → (treeVisits m t i d p).length = t.nodeCount := by
  induction t with
  | branch l r ihl ihr =>
    intro i d p hd
    obtain ⟨e, he, _, hl, hr⟩ := denotes_branch hd
    simp [treeVisits, (usableNode_get he).2.1, ihl _ _ _ hl, ihr _ _ _ hr, Tree.nodeCount]; omega
  | leaf s => intros; rfl
  | endMessage => intros; rfl

/-- The walk of a tree within the capacities and, where keys are checked, with no key met twice: it visits the tree's nodes
and goes on with the rest of the stack (R140). -/
theorem walkLoop_tree (cfg : Config) (m : Memory) (dup : Bool) (t : Tree) :
    ∀ (i : BitVec 16) (d : Nat) (p : Bits) (rest : List Visit) (v : Nat) (seen : List Nat) (order : List Visit) (f : Nat),
      denotes cfg.nodeCap m t i = true → d + t.height ≤ cfg.depthCap → v + t.nodeCount ≤ cfg.nodeCap →
      (dup = true → t.keys.Nodup ∧ ∀ k ∈ t.keys, k ∉ seen) →
      walkLoop cfg m dup (f + t.nodeCount)
          { stack := { index := i, depth := d, path := p } :: rest, visits := v, seen := seen, order := order } =
        walkLoop cfg m dup f
          { stack := rest, visits := v + t.nodeCount, seen := if dup then t.keys.reverse ++ seen else seen,
            order := order ++ treeVisits m t i d p } := by
  induction t with
  | branch l r ihl ihr =>
    intro i d p rest v seen order f hd hh hv hk
    obtain ⟨e, he, hkind, hl, hr⟩ := denotes_branch hd
    have hg := usableNode_get he
    simp only [Tree.height, Tree.nodeCount] at hh hv
    have hkl : dup = true → l.keys.Nodup ∧ ∀ k ∈ l.keys, k ∉ seen := by
      intro hdup
      have := hk hdup
      rw [Tree.keys_branch] at this
      exact ⟨(List.nodup_append.1 this.1).1, fun k hk' => this.2 k (List.mem_append_left _ hk')⟩
    have hkr : dup = true → r.keys.Nodup ∧ ∀ k ∈ r.keys, k ∉ (if dup then l.keys.reverse ++ seen else seen) := by
      intro hdup
      have := hk hdup
      rw [Tree.keys_branch, List.nodup_append] at this
      refine ⟨this.1.2.1, fun k hk' => ?_⟩
      rw [if_pos hdup, List.mem_append, List.mem_reverse, not_or]
      exact ⟨fun hkl => this.1.2.2 k hkl k hk' rfl, this.2 k (List.mem_append_right _ hk')⟩
    rw [show f + (Tree.branch l r).nodeCount = (f + r.nodeCount + l.nodeCount) + 1 by simp [Tree.nodeCount]; omega,
      walkLoop_cons]
    simp only [walkVisit, he, hkind, if_true]
    rw [if_neg (by omega), if_neg (by omega)]
    simp only
    rw [ihl _ _ _ _ _ _ _ _ hl (by omega) (by omega) hkl, ihr _ _ _ _ _ _ _ _ hr (by omega) (by omega) hkr]
    congr 1
    simp only [WalkState.mk.injEq, true_and, Tree.nodeCount, treeVisits, hg.2.1]
    refine ⟨by omega, ?_, by simp⟩
    cases dup <;> simp [Tree.keys_branch]
  | leaf s =>
    intro i d p rest v seen order f hd hh hv hk
    obtain ⟨e, he, hkind, hs⟩ := denotes_leaf hd
    simp only [Tree.height, Tree.nodeCount] at hh hv
    have hkey : e.key.toNat = s.toNat := by rw [key_leaf hkind, hs]
    have hd' : (dup && seen.contains e.key.toNat) = false := by
      cases dup with
      | false => rfl
      | true => simpa [hkey, Tree.keys_leaf] using (hk rfl).2
    simp only [Tree.nodeCount]
    rw [walkLoop_cons]
    simp only [walkVisit, he, hkind, hd']
    rw [if_neg (by omega), if_neg (by omega)]
    simp [treeVisits, Tree.keys_leaf, hkey]
  | endMessage =>
    intro i d p rest v seen order f hd hh hv hk
    obtain ⟨e, he, hkind⟩ := denotes_endMessage hd
    simp only [Tree.height, Tree.nodeCount] at hh hv
    have hkey : e.key.toNat = 256 := by rw [key_eom hkind]; rfl
    have hd' : (dup && seen.contains e.key.toNat) = false := by
      cases dup with
      | false => rfl
      | true => simpa [hkey, Tree.keys_endMessage] using (hk rfl).2
    simp only [Tree.nodeCount]
    rw [walkLoop_cons]
    simp only [walkVisit, he, hkind, hd']
    rw [if_neg (by omega), if_neg (by omega)]
    simp [treeVisits, Tree.keys_endMessage, hkey]

/-- The walk from ROOT of a tree that fits (R140). -/
theorem walk_tree {s : State} {t : Tree} (dup : Bool) (ht : s.treeAtRoot t = true) (hf : s.fits t)
    (hk : dup = true → t.keys.Nodup) : s.walk dup = .ok (treeVisits s.nodes t s.root 0 []) := by
  obtain ⟨h1, h2⟩ := hf
  unfold State.walk State.walkFrom WalkState.start
  rw [show s.cfg.nodeCap + 1 = (s.cfg.nodeCap + 1 - t.nodeCount) + t.nodeCount by omega,
    walkLoop_tree s.cfg s.nodes dup t s.root 0 [] [] 0 [] [] _ ht (by omega) (by omega)
      (fun h => ⟨hk h, by simp⟩), walkLoop_nil]
  simp

theorem descBits_append (m : Memory) (xs ys : List Visit) : descBits m (xs ++ ys) = descBits m xs ++ descBits m ys := by
  simp [descBits]

theorem descBits_cons {m : Memory} {v : Visit} {e : NodeEntry} (h : tableGet m v.index.toNat = some e) (vs : List Visit) :
    descBits m (v :: vs) = e.codeBits ++ descBits m vs := by simp [descBits, h]

/-- What an accepted walk says of the memory: the entry on top of the stack denotes a tree within the capacities, and, where
keys are checked, with no key met twice (R51, R140). -/
theorem walkLoop_ok_tree (cfg : Config) (m : Memory) (dup : Bool) :
    ∀ (f : Nat) (i : BitVec 16) (d : Nat) (p : Bits) (rest : List Visit) (v : Nat) (seen : List Nat)
      (order out : List Visit),
      walkLoop cfg m dup f
          { stack := { index := i, depth := d, path := p } :: rest, visits := v, seen := seen, order := order } = .ok out →
      ∃ t : Tree, denotes cfg.nodeCap m t i = true ∧ d + t.height ≤ cfg.depthCap ∧ v + t.nodeCount ≤ cfg.nodeCap ∧
        t.nodeCount ≤ f ∧ (dup = true → t.keys.Nodup ∧ ∀ k ∈ t.keys, k ∉ seen) := by
  intro f
  induction f using Nat.strong_induction_on with
  | _ f ih =>
    intro i d p rest v seen order out h
    cases f with
    | zero => simp [walkLoop_zero] at h
    | succ f =>
      rw [walkLoop_cons, walkVisit] at h
      cases hu : usableNode cfg.nodeCap m i with
      | none => simp [hu] at h
      | some e =>
        have hg := usableNode_get hu
        simp only [hu] at h
        by_cases hd : cfg.depthCap < d
        · simp [hd] at h
        by_cases hv : cfg.nodeCap < v + 1
        · simp [hd, hv] at h
        rw [if_neg hd, if_neg hv] at h
        by_cases hkind : e.kind = .branch
        · rw [if_pos hkind] at h
          simp only at h
          obtain ⟨l, hl, hl1, hl2, hl3, hl4⟩ := ih f (Nat.lt_succ_self f) _ _ _ _ _ _ _ _ h
          rw [show f = (f - l.nodeCount) + l.nodeCount by omega,
            walkLoop_tree cfg m dup l _ _ _ _ _ _ _ _ hl hl1 hl2 hl4] at h
          obtain ⟨r, hr, hr1, hr2, hr3, hr4⟩ := ih (f - l.nodeCount) (by omega) _ _ _ _ _ _ _ _ h
          refine ⟨.branch l r, ?_, ?_, ?_, ?_, ?_⟩
          · simp [denotes, hu, hkind, hl, hr]
          · simp only [Tree.height]; omega
          · simp only [Tree.nodeCount]; omega
          · simp only [Tree.nodeCount]; omega
          · intro hdup
            have h4 := hr4 hdup
            rw [if_pos hdup] at h4
            rw [Tree.keys_branch]
            refine ⟨List.nodup_append.2 ⟨(hl4 hdup).1, h4.1, ?_⟩, ?_⟩
            · intro a ha b hb hab
              subst hab
              exact h4.2 a hb (List.mem_append_left _ (List.mem_reverse.2 ha))
            · intro k hk
              rcases List.mem_append.1 hk with hk | hk
              · exact (hl4 hdup).2 k hk
              · exact fun hs => h4.2 k hk (List.mem_append_right _ hs)
        · rw [if_neg hkind] at h
          by_cases hdup : (dup && seen.contains e.key.toNat) = true
          · rw [if_pos hdup] at h; simp at h
          · have hkk : e.kind = .leaf ∨ e.kind = .eom := by
              cases hk : e.kind with
              | leaf => exact .inl rfl
              | eom => exact .inr rfl
              | branch => exact absurd hk hkind
              | reserved => exact absurd hk hg.2.2
            rcases hkk with hk | hk
            · refine ⟨.leaf e.sym, by simp [denotes, hu, hk], by simp only [Tree.height]; omega,
                by simp only [Tree.nodeCount]; omega, by simp [Tree.nodeCount], fun hd' => ?_⟩
              simpa [hd', Tree.keys_leaf, ← key_leaf hk] using hdup
            · refine ⟨.endMessage, by simp [denotes, hu, hk], by simp only [Tree.height]; omega,
                by simp only [Tree.nodeCount]; omega, by simp [Tree.nodeCount], fun hd' => ?_⟩
              simpa [hd', Tree.keys_endMessage, key_eom hk] using hdup

/-- An accepted walk from ROOT walked a tree that fits (R51). -/
theorem walk_ok_tree {s : State} {dup : Bool} {order : List Visit} (h : s.walk dup = .ok order) :
    ∃ t : Tree, s.treeAtRoot t = true ∧ s.fits t ∧ (dup = true → t.keys.Nodup) := by
  obtain ⟨t, h1, h2, h3, _, h5⟩ := walkLoop_ok_tree s.cfg s.nodes dup _ _ _ _ _ _ _ _ _ h
  exact ⟨t, h1, ⟨by omega, by omega⟩, fun hd => (h5 hd).1⟩

/-- The bits the visits of a tree describe are its description (R118, R141). -/
theorem descBits_treeVisits {cap : Nat} {m : Memory} (t : Tree) :
    ∀ (i : BitVec 16) (d : Nat) (p : Bits), denotes cap m t i = true → descBits m (treeVisits m t i d p) = t.desc := by
  induction t with
  | branch l r ihl ihr =>
    intro i d p hd
    obtain ⟨e, he, hkind, hl, hr⟩ := denotes_branch hd
    have hg := usableNode_get he
    have h1 := ihl e.left (d + 1) (p ++ [false]) hl
    have h2 := ihr e.right (d + 1) (p ++ [true]) hr
    simp only [treeVisits, hg.2.1]
    rw [descBits_cons hg.2.1, descBits_append, h1, h2, NodeEntry.codeBits, hkind]
    simp [Tree.desc]
  | leaf s =>
    intro i d p hd
    obtain ⟨e, he, hkind, hs⟩ := denotes_leaf hd
    have hg := usableNode_get he
    simp [descBits, treeVisits, hg.2.1, NodeEntry.codeBits, hkind, Tree.desc, hs]
  | endMessage =>
    intro i d p hd
    obtain ⟨e, he, hkind⟩ := denotes_endMessage hd
    have hg := usableNode_get he
    simp [descBits, treeVisits, hg.2.1, NodeEntry.codeBits, hkind, Tree.desc]

/-! ### The code table of a tree -/

/-- The table entry of a leaf's path (R180). -/
def codeEntry (p : Bits) : CodeEntry := { len := BitVec.ofNat 9 p.length, path := p }

/-- The table after the entries of a list of leaves. -/
def putLeaves (t : CodeTable) (ls : List (Nat × Bits)) : CodeTable :=
  ls.foldl (fun t e => tablePut t e.1 (codeEntry e.2)) t

theorem putLeaves_append (t : CodeTable) (xs ys : List (Nat × Bits)) :
    putLeaves t (xs ++ ys) = putLeaves (putLeaves t xs) ys := by simp [putLeaves]

/-- The visits of a tree enter its leaves into the table (R180). -/
theorem codes_treeVisits {cap : Nat} {m : Memory} (t : Tree) :
    ∀ (i : BitVec 16) (p : Bits) (c : CodeTable), denotes cap m t i = true →
      (treeVisits m t i p.length p).foldl (codeOfVisit m) c = putLeaves c (t.leaves p) := by
  induction t with
  | branch l r ihl ihr =>
    intro i p c hd
    obtain ⟨e, he, hkind, hl, hr⟩ := denotes_branch hd
    have hg := usableNode_get he
    have h1 := ihl e.left (p ++ [false]) c hl
    have h2 := ihr e.right (p ++ [true]) (putLeaves c (l.leaves (p ++ [false]))) hr
    rw [show (p ++ [false]).length = p.length + 1 by simp] at h1
    rw [show (p ++ [true]).length = p.length + 1 by simp] at h2
    simp only [treeVisits, hg.2.1, List.foldl_cons, List.foldl_append, codeOfVisit, hkind, h1, h2, Tree.leaves,
      putLeaves_append]
  | leaf s =>
    intro i p c hd
    obtain ⟨e, he, hkind, hs⟩ := denotes_leaf hd
    have hg := usableNode_get he
    simp only [treeVisits, List.foldl_cons, List.foldl_nil, codeOfVisit, hg.2.1, hkind, Tree.leaves, putLeaves,
      codeEntry, key_leaf hkind, hs]
  | endMessage =>
    intro i p c hd
    obtain ⟨e, he, hkind⟩ := denotes_endMessage hd
    have hg := usableNode_get he
    simp only [treeVisits, List.foldl_cons, List.foldl_nil, codeOfVisit, hg.2.1, hkind, Tree.leaves, putLeaves,
      codeEntry, key_eom hkind]
    rfl

/-- With distinct keys, the table reads the path of the leaf of each key, and nothing under another key (R53). -/
theorem tableGet_putLeaves (ls : List (Nat × Bits)) (h : (ls.map Prod.fst).Nodup) (c : CodeTable) (k : Nat) :
    tableGet (putLeaves c ls) k =
      match (ls.find? fun e => e.1 == k) with
      | some e => some (codeEntry e.2)
      | none => tableGet c k := by
  induction ls generalizing c with
  | nil => rfl
  | cons e rest ih =>
    obtain ⟨k', p⟩ := e
    simp only [List.map_cons, List.nodup_cons] at h
    rw [show putLeaves c ((k', p) :: rest) = putLeaves (tablePut c k' (codeEntry p)) rest from rfl, ih h.2]
    by_cases hk : k' = k
    · subst hk
      have hn : rest.find? (fun e => e.1 == k') = none := by
        rw [List.find?_eq_none]
        intro x hx hxe
        exact h.1 (List.mem_map.2 ⟨x, hx, by simpa using hxe⟩)
      simp [hn, tableGet_put_self]
    · rw [List.find?_cons_of_neg (by simpa using hk)]
      split
      · rfl
      · exact tableGet_put_ne c _ (Ne.symm hk)

/-- The code table of the walk of a tree with distinct keys: the path of each key (R53, R180). -/
theorem tableGet_codesOf_tree {cap : Nat} {m : Memory} {t : Tree} {i : BitVec 16} (hd : denotes cap m t i = true)
    (hk : t.keys.Nodup) (k : Nat) :
    tableGet (codesOf m (treeVisits m t i 0 [])) k = (t.pathOf k).map codeEntry := by
  unfold codesOf
  rw [show (0 : Nat) = ([] : Bits).length from rfl, codes_treeVisits t i [] [] hd, tableGet_putLeaves _ hk, Tree.pathOf]
  cases (t.leaves []).find? fun e => e.1 == k <;> simp [tableGet]

end Sys2Proof.Machine
end

