-- ==== Sys2Proof/Laws/Codec.lean ====
section
/-!
SUPPORT. The codec over whole inputs: paths of keys (R181), the tree phase of TREE_DEC and DECOMPRESS, the payload loops of
COMPRESS and DECOMPRESS (R224, R225), and DRAIN_IN's loop (R227).
-/

namespace Sys2Proof.Machine

/-! ### Paths -/

namespace Tree

/-- The path of a key is the path of one of its leaves (R181). -/
theorem mem_leaves_of_pathOf {t : Tree} {k : Nat} {p : Bits} (h : t.pathOf k = some p) : (k, p) ∈ t.leaves [] := by
  simp only [pathOf, Option.map_eq_some_iff] at h
  obtain ⟨e, he, hp⟩ := h
  have h1 := List.mem_of_find?_eq_some he
  have h2 := List.find?_some he
  simp only [beq_iff_eq] at h2
  obtain ⟨k', p'⟩ := e
  simp only at h2 hp
  subst h2; subst hp
  exact h1

/-- Exactly the keys of leaves have a path. -/
theorem pathOf_isSome {t : Tree} {k : Nat} : (t.pathOf k).isSome = true ↔ k ∈ t.keys := by
  simp [pathOf, keys, List.find?_isSome]

theorem pathOf_of_mem {t : Tree} {k : Nat} (h : k ∈ t.keys) : ∃ p, t.pathOf k = some p :=
  Option.isSome_iff_exists.1 (pathOf_isSome.2 h)

/-- With no repeated key, a leaf's path is the path of its key (R53). -/
theorem pathOf_leaf {t : Tree} (hk : t.keys.Nodup) {k : Nat} {p : Bits} (h : (k, p) ∈ t.leaves []) : t.pathOf k = some p := by
  have find : ∀ ls : List (Nat × Bits), (ls.map Prod.fst).Nodup → (k, p) ∈ ls → ls.find? (fun e => e.1 == k) = some (k, p) := by
    intro ls
    induction ls with
    | nil => intro _ h; cases h
    | cons e rest ih =>
      intro hn hm
      simp only [List.map_cons, List.nodup_cons] at hn
      by_cases he : e.1 = k
      · rcases List.mem_cons.1 hm with rfl | hm
        · simp
        · exact absurd (List.mem_map.2 ⟨_, hm, he.symm⟩) hn.1
      · rcases List.mem_cons.1 hm with rfl | hm
        · exact absurd rfl he
        · rw [List.find?_cons_of_neg (by simpa using he)]; exact ih hn.2 hm
  simp [pathOf, find _ hk h]

/-- A key that no leaf has has no path. -/
theorem pathOf_none {t : Tree} {k : Nat} (h : k ∉ t.keys) : t.pathOf k = none := by
  rw [← Option.not_isSome_iff_eq_none, pathOf_isSome]; exact h

/-- No leaf's path is a prefix of another leaf's (R185). -/
theorem leaves_prefix (t : Tree) : ∀ e ∈ t.leaves [], ∀ e' ∈ t.leaves [], e.2 <+: e'.2 → e = e' := by
  have sub : ∀ (u : Tree) (b : Bool) (e : Nat × Bits), e ∈ u.leaves [b] → ∃ x ∈ u.leaves [], e = (x.1, b :: x.2) := by
    intro u b e he
    rw [leaves_path, List.mem_map] at he
    obtain ⟨x, hx, rfl⟩ := he
    exact ⟨x, hx, rfl⟩
  induction t with
  | branch l r ihl ihr =>
    intro e he e' he' hp
    simp only [leaves, List.nil_append, List.mem_append] at he he'
    rcases he with he | he <;> obtain ⟨x, hx, rfl⟩ := sub _ _ _ he <;>
      rcases he' with he' | he' <;> obtain ⟨x', hx', rfl⟩ := sub _ _ _ he' <;>
      obtain ⟨hb, hq⟩ := List.cons_prefix_cons.1 hp
    · rw [ihl x hx x' hx' hq]
    · cases hb
    · cases hb
    · rw [ihr x hx x' hx' hq]
  | leaf s => intro e he e' he' _; simp only [leaves, List.mem_singleton] at he he'; rw [he, he']
  | endMessage => intro e he e' he' _; simp only [leaves, List.mem_singleton] at he he'; rw [he, he']

/-- A path is at most as long as the tree is high. -/
theorem length_pathOf {t : Tree} {k : Nat} {p : Bits} (h : t.pathOf k = some p) : p.length ≤ t.height := by
  have := t.leaves_length [] _ (mem_leaves_of_pathOf h)
  simpa using this

theorem payload_cons (t : Tree) (b : Byte) (bs : List Byte) :
    t.payload (b :: bs) = (t.pathOf b.toNat).getD [] ++ t.payload bs := by simp [payload]

end Tree

namespace State

theorem denotes_kind {cap : Nat} {m : Memory} {t : Tree} {i : BitVec 16} (h : denotes cap m t i = true) :
    ∃ e, usableNode cap m i = some e ∧ (e.kind = .leaf ↔ t.isLeaf = true) := by
  cases t with
  | branch l r => obtain ⟨e, he, hk, _⟩ := denotes_branch h; exact ⟨e, he, by simp [hk, Tree.isLeaf]⟩
  | leaf s => obtain ⟨e, he, hk, _⟩ := denotes_leaf h; exact ⟨e, he, by simp [hk, Tree.isLeaf]⟩
  | endMessage => obtain ⟨e, he, hk⟩ := denotes_endMessage h; exact ⟨e, he, by simp [hk, Tree.isLeaf]⟩

/-- A traversal starts at the root of a tree that is no symbol leaf (R201, R202). -/
theorem enterTraverse_tree {s : State} {t : Tree} (ht : s.treeAtRoot t = true) (c : Bool) :
    s.enterTraverse c = if t.isLeaf then s.raise .rootSymbol else s.setCursor (.traverse c s.root 0) := by
  obtain ⟨e, he, hk⟩ := denotes_kind ht
  simp only [enterTraverse, he, hk]

/-- The bits of an input's paths (R119). -/
def pathBits (t : Tree) (input : List Byte) : Bits := input.flatMap fun b => (t.pathOf b.toNat).getD []

/-- The traversals of DECOMPRESS over the paths of bytes that are all keys (R225, R119). -/
theorem traverseRun_input {t : Tree} (hleaf : t.isLeaf = false) : ∀ (input : List Byte) (s : State) (rest : Bits),
    s.seq = .running (.traverse true s.root 0) → s.treeAtRoot t = true → t.height ≤ s.cfg.depthCap →
    (∀ b ∈ input, b.toNat ∈ t.keys) → s.icnt.toNat ≤ 8 → s.limitAllows (pathBits t input).length →
    s.sourceBits = pathBits t input ++ rest →
    s.traverseRun = { s.afterBits (pathBits t input).length with out := s.out ++ input }.traverseRun := by
  intro input
  induction input with
  | nil =>
    intro s rest hs ht hh _ h8 hl hb
    have : ({ s.afterBits (pathBits t []).length with out := s.out ++ [] } : State) = s := by
      simp [pathBits, afterBits_zero]
    rw [this]
  | cons b input ih =>
    intro s rest hs ht hh hmem h8 hl hb
    obtain ⟨p, hp⟩ := Tree.pathOf_of_mem (hmem b List.mem_cons_self)
    have hpay : pathBits t (b :: input) = p ++ pathBits t input := by simp [pathBits, hp]
    rw [hpay] at hl hb ⊢
    have hl1 : s.limitAllows (p.length + (pathBits t input).length) := by rwa [List.length_append] at hl
    have hl0 : s.limitAllows p.length := by simp only [limitAllows] at hl1 ⊢; omega
    have hb' : s.sourceBits = p ++ (pathBits t input ++ rest) := by rw [hb, List.append_assoc]
    obtain ⟨e, _, _, hkey, hrun⟩ := traverseRun_path t s true s.root 0 b.toNat p _ hs ht (by omega)
      (Tree.mem_leaves_of_pathOf hp) h8 hl0 hb'
    obtain ⟨hsb, h8', _⟩ := afterBits_spec p h8 hl0 hb'
    have hlim := limitAllows_afterBits h8 hl1 hb'
    have hfr := afterBits_frame p.length s
    have hadd := afterBits_add (p := p) (r := pathBits t input) (s := s) (rest := rest) h8 hl hb
    generalize hu : s.afterBits p.length = u at *
    have hk : e.key = b.setWidth 9 := by
      apply BitVec.eq_of_toNat_eq; rw [hkey]; simp; have := b.isLt; omega
    have hne : e.key ≠ 256 := by
      intro h; rw [h] at hkey; have := b.isLt; simp at hkey; omega
    have hsym : e.key.setWidth 8 = b := by
      rw [hk]; apply BitVec.eq_of_toNat_eq; simp
    have htree : (u.outWrite b).treeAtRoot t = true := by
      have : (u.outWrite b).treeAtRoot t = s.treeAtRoot t := by rw [hfr]; rfl
      rw [this]; exact ht
    have hroot : u.root = s.root := by rw [hfr]; rfl
    have hcfg : u.cfg = s.cfg := by rw [hfr]; rfl
    have hout : u.out = s.out := by rw [hfr]; rfl
    have hseq : u.seq = .running (.traverse true s.root 0) := by rw [hfr]; exact hs
    have hsame : (u.outWrite b).setCursor (.traverse true (u.outWrite b).root 0) = { u with out := s.out ++ [b] } := by
      simp only [setCursor, outWrite, hroot, hout, ← hseq]
    rw [hrun, leafReached, if_pos rfl, if_neg hne, hsym, enterTraverse_tree htree, hleaf]
    simp only [Bool.false_eq_true, if_false]
    rw [hsame] at *
    have hrec := ih { u with out := s.out ++ [b] } rest (by simp only [hseq, hroot]) htree
      (by simpa [hcfg] using hh) (fun x hx => hmem x (List.mem_cons_of_mem _ hx)) h8' hlim hsb
    rw [hrec]
    have hg : ({ u with out := s.out ++ [b] } : State) = graft u { u with out := s.out ++ [b] } := rfl
    rw [hg, afterBits_graft _ u { u with out := s.out ++ [b] } rfl, ← hadd]
    have hfu := afterBits_frame (pathBits t input).length u
    generalize u.afterBits (pathBits t input).length = v at *
    simp only [graft, List.append_assoc, List.singleton_append]
    rw [hfu]
    rfl

/-- The traversals of DECOMPRESS over a whole payload (R225, R119). -/
theorem traverseRun_payload {t : Tree} (hleaf : t.isLeaf = false) (heom : 256 ∈ t.keys) (input : List Byte) (s : State) (rest : Bits)
    (hs : s.seq = .running (.traverse true s.root 0)) (ht : s.treeAtRoot t = true) (hh : t.height ≤ s.cfg.depthCap)
    (hmem : ∀ b ∈ input, b.toNat ∈ t.keys) (h8 : s.icnt.toNat ≤ 8) (hl : s.limitAllows (t.payload input).length)
    (hb : s.sourceBits = t.payload input ++ rest) :
    s.traverseRun = { s.afterBits (t.payload input).length with out := s.out ++ input }.endWithKey 256 := by
  obtain ⟨p, hp⟩ := Tree.pathOf_of_mem heom
  have hpay : t.payload input = pathBits t input ++ p := by simp [Tree.payload, pathBits, hp]
  rw [hpay] at hl hb ⊢
  have hadd := afterBits_add h8 hl hb
  rw [List.length_append] at hl
  have hl0 : s.limitAllows (pathBits t input).length := by simp only [limitAllows] at hl ⊢; omega
  rw [List.append_assoc] at hb
  rw [traverseRun_input hleaf input s (p ++ rest) hs ht hh hmem h8 hl0 hb]
  obtain ⟨hsb, h8', _⟩ := afterBits_spec _ h8 hl0 hb
  have hlim := limitAllows_afterBits h8 hl hb
  have hfr := afterBits_frame (pathBits t input).length s
  rw [← hadd]
  generalize s.afterBits (pathBits t input).length = u at *
  have hroot : u.root = s.root := by rw [hfr]; rfl
  have hcfg : u.cfg = s.cfg := by rw [hfr]; rfl
  have hnodes : u.nodes = s.nodes := by rw [hfr]; rfl
  have hseq : u.seq = .running (.traverse true s.root 0) := by rw [hfr]; exact hs
  obtain ⟨e, _, _, hkey, hrun⟩ := traverseRun_path t { u with out := s.out ++ input } true s.root 0 256 p rest hseq
    (by simp only [hcfg, hnodes]; exact ht) (by simp only [hcfg]; omega) (Tree.mem_leaves_of_pathOf hp) h8' hlim hsb
  have hk : e.key = 256 := BitVec.eq_of_toNat_eq hkey
  rw [hrun, leafReached, if_pos rfl, if_pos hk, traverseRun_stop (noTraverse_of_idle rfl)]
  congr 1
  have hg : ({ u with out := s.out ++ input } : State) = graft u { u with out := s.out ++ input } := rfl
  rw [hg, afterBits_graft _ u { u with out := s.out ++ input } rfl]
  have hfu := afterBits_frame p.length u
  generalize u.afterBits p.length = v at *
  rw [hfu]
  rfl

/-- The tree phase of TREE_DEC and of DECOMPRESS over a whole description (R160, R163). -/
theorem treeDecRun_tree (t : Tree) (c : Bool) {s : State} {r : Bits} (hf : s.fits t) (h8 : s.icnt.toNat ≤ 8)
    (hl : s.limitAllows t.desc.length) (hb : s.sourceBits = t.desc ++ r) :
    (s.beginTreeDec c).treeDecRun = (finishTree c t.nodeCount { s.afterBits t.desc.length with
      nodes := placeTree t [] .root 0
      tableValid := false
      nodeCount := 0
      root := 0
      seq := .running (.treeDec c { n := t.nodeCount, holes := [], code := [] }) }).traverseRun := by
  obtain ⟨hh, hn⟩ := hf
  have hbound : (s.beginTreeDec c).treeDecBound ≤ (s.cfg.nodeCap + 1 - t.nodeCount) + 1 + t.nodeCount := by
    have := (s.beginTreeDec c).treeDecBound_le
    have hc : (s.beginTreeDec c).cfg = s.cfg := rfl
    rw [hc] at this
    omega
  rw [treeDecRun_eq hbound, treeDecLoop_tree t (s.beginTreeDec c) c 0 .root 0 [] _ r rfl
    (by rw [Nat.zero_add]; exact hn) (by rw [Nat.zero_add]; exact hh) h8 hl hb,
    treeDecLoop_succ (c := c) (k := { n := 0 + t.nodeCount, holes := [], code := [] }) rfl]
  have hstop : ∀ u : State, treeDecLoop (s.cfg.nodeCap + 1 - t.nodeCount)
      (u.treeDecTick c { n := 0 + t.nodeCount, holes := [], code := [] }) = u.finishTree c t.nodeCount := by
    intro u
    have : u.treeDecTick c { n := 0 + t.nodeCount, holes := [], code := [] } = u.finishTree c t.nodeCount := by
      simp [treeDecTick, fetchNode, treeDecStop]
    rw [this, treeDecLoop_stop (finishTree_noTreeDec c _ u)]
  rw [hstop]
  have hg : s.beginTreeDec c = graft s (s.beginTreeDec c) := rfl
  have hfr := afterBits_frame t.desc.length s
  rw [hg, afterBits_graft _ s (s.beginTreeDec c) rfl]
  congr 2
  generalize s.afterBits t.desc.length = u at *
  rw [hfr]
  simp [graft, beginTreeDec, setCursor]

/-- The memory of a tree read from its description denotes it (R161). -/
theorem denotes_placeTree {cap : Nat} (hcap : cap ≤ 65535) (t : Tree) (hn : t.nodeCount ≤ cap) :
    denotes cap (placeTree t [] .root 0) t 0 = true :=
  denotes_numbered hcap t 0 (by omega) (numbered_placeTree t [] .root 0 (by simp [Slot.target]))

/-- Exactly the entries below the node count are written (R161). -/
theorem placeTree_present (t : Tree) (i : Nat) :
    (tableGet (placeTree t [] .root 0) i).isSome = decide (i < t.nodeCount) := by
  by_cases h : i < t.nodeCount
  · simpa [h] using numbered_present t 0 i (numbered_placeTree t [] .root 0 (by simp [Slot.target])) (by omega) (by omega)
  · rw [tableGet_placeTree t [] .root 0 i (by simp [Slot.target]) (by omega)]
    simp [Slot.target, tableGet, h]

end State

/-! ### The loops over IN -/

/-- DRAIN_IN's loop over an input that ends (R227). -/
theorem drainLoop_eos (xs : List Byte) (rest : List InItem) (s : State) :
    drainLoop (xs.map InItem.byte ++ .eos :: rest) s = { s with inq := rest }.succeed := by
  induction xs with
  | nil => rfl
  | cons x xs ih => simpa [drainLoop] using ih

/-- DRAIN_IN's loop over an input that does not end yet (R227). -/
theorem drainLoop_bytes (xs : List Byte) (s : State) :
    drainLoop (xs.map InItem.byte) s = { s with inq := [] }.holdAt .drain := by
  induction xs with
  | nil => rfl
  | cons x xs ih => simpa [drainLoop] using ih

namespace State

/-- The input loop looks neither at what IN is recorded to hold nor at the cursor. -/
theorem payloadLoop_graft (q : List InItem) : ∀ (s : State) (x : List InItem) (c : Seq),
    payloadLoop q { s with inq := x, seq := c } = payloadLoop q s := by
  induction q with
  | nil => intros; rfl
  | cons item rest ih =>
    intro s x c
    cases item with
    | eos =>
      have h1 := bitWrites_graft (s.codePath 256) s { s with inq := rest, seq := c }
      have h2 := bitWrites_graft (s.codePath 256) s { s with inq := rest }
      have e1 : graftSink s { s with inq := rest, seq := c } = { s with inq := rest, seq := c } := rfl
      have e2 : graftSink s { s with inq := rest } = { s with inq := rest } := rfl
      rw [e1] at h1
      rw [e2] at h2
      simp only [payloadLoop]
      have hc : ({ s with inq := x, seq := c } : State).codePath 256 = s.codePath 256 := rfl
      rw [hc, h1, h2, sinkFlush_graft, sinkFlush_graft]
      rfl
    | byte b =>
      simp only [payloadLoop]
      cases he : tableGet s.codes b.toNat with
      | none => rfl
      | some e =>
        simp only
        have h1 := bitWrites_graft e.path s { s with inq := rest, seq := c }
        have h2 := bitWrites_graft e.path s { s with inq := rest }
        have e1 : graftSink s { s with inq := rest, seq := c } = { s with inq := rest, seq := c } := rfl
        have e2 : graftSink s { s with inq := rest } = { s with inq := rest } := rfl
        rw [e1] at h1
        rw [e2] at h2
        rw [h1, h2]
        exact ih (graftSink (s.bitWrites e.path) { s with inq := rest }) rest c

/-- COMPRESS's input loop over bytes that all have an entry (R224, phase 3). -/
theorem payloadLoop_bytes (rest : List InItem) : ∀ (input : List Byte) (s : State),
    (∀ b ∈ input, (tableGet s.codes b.toNat).isSome = true) →
    payloadLoop (input.map InItem.byte ++ rest) s =
      payloadLoop rest (s.bitWrites (input.flatMap fun b : Byte => s.codePath b.toNat)) := by
  intro input
  induction input with
  | nil => intro s _; rfl
  | cons b input ih =>
    intro s h
    obtain ⟨e, he⟩ := Option.isSome_iff_exists.1 (h b List.mem_cons_self)
    simp only [List.map_cons, List.cons_append, payloadLoop, he]
    have hp : s.codePath b.toNat = e.path := by simp [codePath, he]
    have h1 := bitWrites_graft e.path s { s with inq := input.map InItem.byte ++ rest }
    have e1 : graftSink s { s with inq := input.map InItem.byte ++ rest } =
      { s with inq := input.map InItem.byte ++ rest } := rfl
    rw [e1] at h1
    have hseq : (s.bitWrites e.path).seq = s.seq := by simp
    have h2 : graftSink (s.bitWrites e.path) { s with inq := input.map InItem.byte ++ rest } =
        { s.bitWrites e.path with inq := input.map InItem.byte ++ rest, seq := (s.bitWrites e.path).seq } := by
      rw [bitWrites_graft_self s e.path]; rfl
    rw [h1, h2, payloadLoop_graft, ih _ (fun x hx => by simpa using h x (List.mem_cons_of_mem _ hx))]
    have hcp : ∀ k, (s.bitWrites e.path).codePath k = s.codePath k := by intro k; simp [codePath]
    simp only [hcp, List.flatMap_cons, hp, bitWrites_append]

/-- COMPRESS's input loop over an input that ends and whose bytes all have an entry (R224, phase 3). -/
theorem payloadLoop_input (input : List Byte) (rest : List InItem) (s : State)
    (h : ∀ b ∈ input, (tableGet s.codes b.toNat).isSome = true) :
    payloadLoop (input.map InItem.byte ++ .eos :: rest) s =
      { (s.bitWrites ((input.flatMap fun b : Byte => s.codePath b.toNat) ++ s.codePath 256)).sinkFlush with inq := rest }.succeed := by
  rw [payloadLoop_bytes _ _ _ h, bitWrites_append]
  generalize hu : s.bitWrites (input.flatMap fun b : Byte => s.codePath b.toNat) = u
  have hcp : u.codePath 256 = s.codePath 256 := by rw [← hu]; simp [codePath]
  simp only [payloadLoop, hcp]
  have h1 := bitWrites_graft (s.codePath 256) u { u with inq := rest }
  have e1 : graftSink u { u with inq := rest } = { u with inq := rest } := rfl
  rw [e1] at h1
  rw [h1, sinkFlush_graft]
  congr 1
  have h2 := sinkFlush_graft_self (u.bitWrites (s.codePath 256))
  have h3 := bitWrites_graft_self u (s.codePath 256)
  generalize (u.bitWrites (s.codePath 256)).sinkFlush = v at *
  rw [h2, h3]
  rfl

end State

end Sys2Proof.Machine
end

