-- ==== Sys2Proof/Laws/Sequencer.lean ====
section
/-!
SUPPORT. The two grains of the core's turns (R15): one iteration of a command's pseudocode and then its run to the end or hold is
that run; and the turn's answer is always a state in which the command has ended or is held.
-/

namespace Sys2Proof.Machine

/-! ### The walk's fuel -/

theorem walkVisit_visits {cfg : Config} {m : Memory} {dup : Bool} {v : Visit} {rest : List Visit} {w w' : WalkState}
    (h : walkVisit cfg m dup v rest w = .ok w') : w'.visits = w.visits + 1 ∧ w.visits + 1 ≤ cfg.nodeCap := by
  unfold walkVisit at h
  split at h
  · cases h
  · split at h
    · cases h
    · split at h
      · cases h
      · split at h
        · cases h; exact ⟨rfl, by omega⟩
        · split at h
          · cases h
          · cases h; exact ⟨rfl, by omega⟩

/-- Fuel beyond the visits left changes nothing. -/
theorem walkLoop_fuel (cfg : Config) (m : Memory) (dup : Bool) : ∀ (f g : Nat) (w : WalkState),
    cfg.nodeCap + 1 - w.visits ≤ f → 1 ≤ f → cfg.nodeCap + 1 - w.visits ≤ g → 1 ≤ g →
    walkLoop cfg m dup f w = walkLoop cfg m dup g w := by
  intro f
  induction f with
  | zero => intro g w _ h; omega
  | succ f ih =>
    intro g w hf _ hg hg1
    obtain ⟨stack, visits, seen, order⟩ := w
    cases stack with
    | nil => rw [walkLoop_nil, walkLoop_nil]
    | cons v rest =>
      cases g with
      | zero => omega
      | succ g =>
        rw [walkLoop_cons, walkLoop_cons]
        cases hv : walkVisit cfg m dup v rest { stack := v :: rest, visits := visits, seen := seen, order := order } with
        | error e => rfl
        | ok w' =>
          obtain ⟨h1, h2⟩ := walkVisit_visits hv
          simp only at h1 h2 hf hg
          exact ih g w' (by omega) (by omega) (by omega) (by omega)

namespace State

/-- The walk goes one visit at a time (R140). -/
theorem walkFrom_step (s : State) (dup : Bool) {w : WalkState} {v : Visit} {rest : List Visit} (h : w.stack = v :: rest) :
    s.walkFrom dup w =
      match walkVisit s.cfg s.nodes dup v rest w with
      | .error e => .error e
      | .ok w' => s.walkFrom dup w' := by
  obtain ⟨stack, visits, seen, order⟩ := w
  subst h
  rw [walkFrom, walkLoop_cons]
  cases hv : walkVisit s.cfg s.nodes dup v rest { stack := v :: rest, visits := visits, seen := seen, order := order } with
  | error e => rfl
  | ok w' =>
    obtain ⟨h1, h2⟩ := walkVisit_visits hv
    simp only at h1 h2
    exact walkLoop_fuel _ _ _ _ _ _ (by omega) (by omega) (by omega) (by omega)

theorem walkFrom_nil (s : State) (dup : Bool) {w : WalkState} (h : w.stack = []) : s.walkFrom dup w = .ok w.order := by
  obtain ⟨stack, visits, seen, order⟩ := w
  subst h
  exact walkLoop_nil _ _ _ _ _ _ _

/-! ### What follows does not look at the cursor -/

theorem bitWrites_seq (s : State) (bs : Bits) (q : Seq) :
    { s with seq := q }.bitWrites bs = { s.bitWrites bs with seq := q } := by
  have h := bitWrites_graft bs s { s with seq := q }
  rw [show graftSink s { s with seq := q } = { s with seq := q } from rfl] at h
  rw [h]
  conv => rhs; rw [bitWrites_graft_self s bs]
  rfl

theorem sinkFlush_seq (s : State) (q : Seq) : { s with seq := q }.sinkFlush = { s.sinkFlush with seq := q } := by
  have h := sinkFlush_graft s { s with seq := q }
  rw [show graftSink s { s with seq := q } = { s with seq := q } from rfl] at h
  rw [h]
  conv => rhs; rw [sinkFlush_graft_self s]
  rfl

theorem payloadRun_seq (s : State) (q : Seq) : { s with seq := q }.payloadRun = s.payloadRun :=
  payloadLoop_graft s.inq s s.inq q

theorem drainLoop_seq (xs : List InItem) (s : State) (x : List InItem) (q : Seq) :
    drainLoop xs { s with inq := x, seq := q } = drainLoop xs s := by
  induction xs with
  | nil => rfl
  | cons i xs ih => cases i with
    | eos => rfl
    | byte b => exact ih

theorem treeEncAfter_seq (s : State) (r : Except ErrorCode (List Visit)) (q : Seq) :
    { s with seq := q }.treeEncAfter r = s.treeEncAfter r := by
  cases r with
  | error e => rfl
  | ok order => simp only [treeEncAfter, bitWrites_seq]; rfl

theorem tableBuildAfter_seq (s : State) (r : Except ErrorCode (List Visit)) (q : Seq) :
    { s with seq := q }.tableBuildAfter r = s.tableBuildAfter r := by cases r <;> rfl

theorem compressAfter_seq (s : State) (r : Except ErrorCode (List Visit)) (q : Seq) :
    { s with seq := q }.compressAfter r = s.compressAfter r := by
  cases r with
  | error e => rfl
  | ok order =>
    simp only [compressAfter]
    rw [show ({ s with seq := q } : State).fillTable order = { s.fillTable order with seq := q } from rfl]
    simp only
    split
    · rfl
    · rw [bitWrites_seq, payloadRun_seq]

theorem afterWalk_seq (s : State) (u : WalkUse) (r : Except ErrorCode (List Visit)) (q : Seq) :
    ({ s with seq := q } : State).afterWalk u r = s.afterWalk u r := by
  cases u
  · exact treeEncAfter_seq s r q
  · exact tableBuildAfter_seq s r q
  · exact compressAfter_seq s r q

theorem afterWrite_seq (s : State) (n : AfterWrite) (q : Seq) :
    ({ s with seq := q } : State).afterWrite n = s.afterWrite n := by
  cases n with
  | treeEnc => rfl
  | symEnc => rfl
  | payload => exact payloadRun_seq s q
  | flush => simp only [afterWrite, sinkFlush_seq]; rfl

/-! ### One iteration, then the rest -/

/-- The node code the tree decoder fetches is the one it reads next (R160). -/
theorem fetchCode_code {s t : State} {c : Bool} {n : Nat} {h : Hole} {holes : List Hole} {code : Bits} {k : NodeCode}
    (hs : s.seq = .running (.treeDec c { n := n, holes := h :: holes, code := code }))
    (hr : readNode n h.depth 10 code s = .code k t) : s.fetchCode = some (k, t) := by
  simp [fetchCode, hs, fetchNode, hr]

/-- No command waits to be begun while none runs. -/
theorem fetchCommand_idle {s : State} (h : s.seq = .idle) : s.fetchCommand = none := by simp [fetchCommand, h]

/-- A resumed traversal or tree decoder that has already ended or held is left as it is. -/
theorem resume_stop {s : State} (h : s.seq = .idle ∨ ∃ c, s.seq = .held c) : s.resume = s := by
  rcases h with h | ⟨c, h⟩ <;> simp [resume, h]

theorem resume_traverseRun {s : State} (h : s.seq = .idle ∨ (∃ c, s.seq = .held c) ∨ ∃ c i d, s.seq = .running (.traverse c i d)) :
    s.resume = s.traverseRun := by
  rcases h with h | ⟨c, h⟩ | ⟨c, i, d, h⟩
  · rw [resume_stop (.inl h), traverseRun_stop (noTraverse_of_idle h)]
  · rw [resume_stop (.inr ⟨c, h⟩), traverseRun_stop (noTraverse_of_held h)]
  · simp [resume, h]

theorem enterTraverse_seq (c : Bool) (s : State) :
    (s.enterTraverse c).seq = .idle ∨ (∃ k, (s.enterTraverse c).seq = .held k) ∨
      ∃ c' i d, (s.enterTraverse c).seq = .running (.traverse c' i d) := by
  rcases enterTraverse_cases c s with h | h | ⟨e, _, _, h⟩
  · rw [h]; exact .inl rfl
  · rw [h]; exact .inl rfl
  · rw [h]; exact .inr (.inr ⟨c, s.root, 0, rfl⟩)

theorem traverseTick_seq (c : Bool) (i : BitVec 16) (d : Nat) (s : State) :
    (s.traverseTick c i d).seq = .idle ∨ (∃ k, (s.traverseTick c i d).seq = .held k) ∨
      ∃ c' i' d', (s.traverseTick c i d).seq = .running (.traverse c' i' d') := by
  unfold traverseTick
  split
  · exact .inl rfl
  · split
    · split
      · exact .inr (.inl ⟨_, rfl⟩)
      · exact .inl rfl
      · unfold moveTo
        simp only
        split
        · exact .inl rfl
        · split
          · exact .inl rfl
          · exact .inr (.inr ⟨_, _, _, rfl⟩)
    · unfold leafReached
      split
      · split
        · exact .inl rfl
        · exact enterTraverse_seq true _
      · exact .inl rfl

theorem treeDecTick_seq {s : State} {c : Bool} {k : TreeCursor} (h : s.seq = .running (.treeDec c k)) :
    (∃ k', (s.treeDecTick c k).seq = .running (.treeDec c k')) ∨
      ((s.treeDecTick c k).seq = .idle ∨ (∃ x, (s.treeDecTick c k).seq = .held x) ∨
        ∃ c' i d, (s.treeDecTick c k).seq = .running (.traverse c' i d)) := by
  rcases treeDecTick_cases h with ⟨_, ht⟩ | ⟨hole, rest, _, ⟨x, t, _, _, _, ht⟩ | ⟨code, t, _, _, _, _, ht⟩ | ⟨e, t, _, _, _, ht⟩⟩
  · right
    rw [ht]
    unfold finishTree
    split
    · exact enterTraverse_seq true _
    · exact .inl rfl
  · left; rw [ht]; exact ⟨_, rfl⟩
  · right; right; left; rw [ht]; exact ⟨_, rfl⟩
  · right; left; rw [ht]; rfl

/-- Of two grains: one iteration, then the rest of the run, is the run (R15). -/
theorem resume_tick (s : State) : s.tick.resume = s.resume := by
  cases hs : s.seq with
  | idle => simp [tick, hs]
  | held c => simp [tick, hs]
  | running c =>
    cases c with
    | issued w => simp [tick, hs]
    | walk u w =>
      have hr : s.resume = s.afterWalk u (s.walkFrom (walkDup u) w) := by simp [resume, hs]
      have ht : s.tick = s.walkTick u w := by simp [tick, hs]
      rw [hr, ht]
      cases hw : w.stack with
      | nil =>
        rw [walkFrom_nil s _ hw]
        simp only [walkTick, hw, afterWalkTick]
        cases u with
        | treeEnc =>
          simp only [resume, setCursor_fields, afterWalk, treeEncAfter, afterWrite]
          rw [show s.setCursor (.write (descBits s.nodes w.order) .treeEnc) =
            { s with seq := .running (.write (descBits s.nodes w.order) .treeEnc) } from rfl, bitWrites_seq]
          rfl
        | tableBuild => exact resume_stop (.inl rfl)
        | compress =>
          simp only [afterWalk, compressAfter]
          cases hg : tableGet (s.fillTable w.order).codes 256 with
          | none => exact resume_stop (.inl rfl)
          | some e =>
            simp only [resume, setCursor_fields, afterWrite]
            rw [show (s.fillTable w.order).setCursor (.write (descBits s.nodes w.order) .payload) =
              { s.fillTable w.order with seq := .running (.write (descBits s.nodes w.order) .payload) } from rfl,
              bitWrites_seq, payloadRun_seq]
      | cons v rest =>
        rw [walkFrom_step s _ hw]
        simp only [walkTick, hw]
        cases hv : walkVisit s.cfg s.nodes (walkDup u) v rest w with
        | error e =>
          simp only [afterWalkTick]
          rw [resume_stop (.inl rfl)]
          cases u <;> rfl
        | ok w' =>
          simp only [resume, setCursor_fields]
          exact afterWalk_seq s u _ _
    | write bs next =>
      have hr : s.resume = (s.bitWrites bs).afterWrite next := by simp [resume, hs]
      have ht : s.tick = s.writeTick bs next := by simp [tick, hs]
      rw [hr, ht]
      cases bs with
      | nil =>
        simp only [writeTick, bitWrites_nil]
        cases next with
        | treeEnc => exact resume_stop (.inl rfl)
        | symEnc => exact resume_stop (.inl rfl)
        | payload =>
          simp only [afterWriteTick, resume, setCursor_fields, afterWrite]
          exact payloadRun_seq s _
        | flush => exact resume_stop (.inl rfl)
      | cons b bs =>
        simp only [writeTick, resume, setCursor_fields, bitWrites_cons]
        rw [show (s.bitWrite b).setCursor (.write bs next) = { s.bitWrite b with seq := .running (.write bs next) } from rfl,
          bitWrites_seq, afterWrite_seq]
    | treeDec c k =>
      have hr : s.resume = s.treeDecRun := by simp [resume, hs]
      have ht : s.tick = s.treeDecTick c k := by simp [tick, hs]
      rw [hr, ht, treeDecRun_step hs]
      rcases treeDecTick_seq hs with ⟨k', h⟩ | h
      · simp [resume, h]
      · rw [resume_traverseRun h, treeDecRun_stop]
        intro c' k'
        rcases h with h | ⟨_, h⟩ | ⟨_, _, _, h⟩ <;> simp [h]
    | traverse c i d =>
      have hr : s.resume = s.traverseRun := by simp [resume, hs]
      have ht : s.tick = s.traverseTick c i d := by simp [tick, hs]
      rw [hr, ht, traverseRun_step hs, resume_traverseRun (traverseTick_seq c i d s)]
    | drain =>
      have hr : s.resume = s.drainRun := by simp [resume, hs]
      have ht : s.tick = s.drainTick := by simp [tick, hs]
      rw [hr, ht]
      unfold drainTick drainRun
      cases hq : s.inq with
      | nil => rw [resume_stop (.inr ⟨_, rfl⟩)]; simp only [drainLoop, ← hq]
      | cons x rest =>
        cases x with
        | eos => exact resume_stop (.inl rfl)
        | byte b =>
          simp only [resume, hs, drainLoop, drainRun]
          exact drainLoop_seq rest s rest _
    | payload =>
      have hr : s.resume = s.payloadRun := by simp [resume, hs]
      have ht : s.tick = s.payloadTick := by simp [tick, hs]
      rw [hr, ht]
      unfold payloadTick payloadRun
      cases hq : s.inq with
      | nil => rw [resume_stop (.inr ⟨_, rfl⟩)]; simp only [payloadLoop, ← hq]
      | cons x rest =>
        cases x with
        | eos =>
          simp only [resume, setCursor_fields, payloadLoop, afterWrite]
          rw [show ({ s with inq := rest } : State).setCursor (.write (s.codePath 256) .flush) =
            { ({ s with inq := rest } : State) with seq := .running (.write (s.codePath 256) .flush) } from rfl,
            bitWrites_seq, sinkFlush_seq]
          rfl
        | byte b =>
          simp only [payloadLoop]
          cases he : tableGet s.codes b.toNat with
          | none => exact resume_stop (.inl rfl)
          | some e =>
            simp only [resume, setCursor_fields, afterWrite]
            rw [show ({ s with inq := rest } : State).setCursor (.write e.path .payload) =
              { ({ s with inq := rest } : State) with seq := .running (.write e.path .payload) } from rfl,
              bitWrites_seq, payloadRun_seq]
            simp [payloadRun]

/-! ### The end of a turn -/

/-- The command has ended, or is held. -/
def Settled (s : State) : Prop := s.seq = .idle ∨ ∃ c, s.seq = .held c

theorem settled_succeed (s : State) : s.succeed.Settled := .inl rfl

theorem settled_raise (s : State) (e : ErrorCode) : (s.raise e).Settled := .inl rfl

theorem settled_holdAt (s : State) (c : Cursor) : (s.holdAt c).Settled := .inr ⟨c, rfl⟩

theorem settled_payloadLoop (xs : List InItem) : ∀ s : State, (payloadLoop xs s).Settled := by
  induction xs with
  | nil => intro s; exact settled_holdAt _ _
  | cons x xs ih =>
    intro s
    cases x with
    | eos => exact settled_succeed _
    | byte b =>
      simp only [payloadLoop]
      split
      · exact settled_raise _ _
      · exact ih _

theorem settled_drainLoop (xs : List InItem) (s : State) : (drainLoop xs s).Settled := by
  induction xs with
  | nil => exact settled_holdAt _ _
  | cons x xs ih => cases x with
    | eos => exact settled_succeed _
    | byte b => exact ih

theorem settled_treeEncAfter (s : State) (r : Except ErrorCode (List Visit)) : (s.treeEncAfter r).Settled := by
  cases r
  · exact settled_raise _ _
  · exact settled_succeed _

theorem settled_tableBuildAfter (s : State) (r : Except ErrorCode (List Visit)) : (s.tableBuildAfter r).Settled := by
  cases r
  · exact settled_raise _ _
  · exact settled_succeed _

theorem settled_compressAfter (s : State) (r : Except ErrorCode (List Visit)) : (s.compressAfter r).Settled := by
  cases r with
  | error e => exact settled_raise _ _
  | ok order =>
    simp only [compressAfter]
    split
    · exact settled_raise _ _
    · exact settled_payloadLoop _ _

/-- The traversals end or hold, from a state in which one is under way or the command has already settled. -/
theorem settled_traverseRun {s : State} : s.seq = .idle ∨ (∃ c, s.seq = .held c) ∨ (∃ c i d, s.seq = .running (.traverse c i d)) →
    s.traverseRun.Settled := by
  refine traverse_induction (P := fun s => (s.seq = .idle ∨ (∃ c, s.seq = .held c) ∨ (∃ c i d, s.seq = .running (.traverse c i d))) →
    s.traverseRun.Settled) ?_ ?_ s
  · intro s hn h
    rw [traverseRun_stop hn]
    rcases h with h | ⟨c, h⟩ | ⟨c, i, d, h⟩
    · exact .inl h
    · exact .inr ⟨c, h⟩
    · exact absurd h (hn c i d)
  · intro s c i d hs ih _
    rw [traverseRun_step hs]
    exact ih (traverseTick_seq c i d s)

/-- The tree decoder ends or holds. -/
theorem settled_treeDecRun {s : State} : (∃ c k, s.seq = .running (.treeDec c k)) ∨ s.seq = .idle ∨ (∃ c, s.seq = .held c) ∨
    (∃ c i d, s.seq = .running (.traverse c i d)) → s.treeDecRun.Settled := by
  refine treeDec_induction (P := fun s => ((∃ c k, s.seq = .running (.treeDec c k)) ∨
    s.seq = .idle ∨ (∃ c, s.seq = .held c) ∨ (∃ c i d, s.seq = .running (.traverse c i d))) → s.treeDecRun.Settled) ?_ ?_ s
  · intro s hn h
    rw [treeDecRun_stop hn]
    rcases h with ⟨c, k, h⟩ | h
    · exact absurd h (hn c k)
    · exact settled_traverseRun h
  · intro s c k hs ih _
    rw [treeDecRun_step hs]
    refine ih ?_
    rcases treeDecTick_seq hs with ⟨k', h⟩ | h
    · exact .inl ⟨c, k', h⟩
    · exact .inr h

/-- A command under way runs to its end or its next hold (R15, R17). -/
theorem settled_resume {s : State} (h : s.fetchCommand = none) : s.resume.Settled := by
  cases hs : s.seq with
  | idle => rw [resume_stop (.inl hs)]; exact .inl hs
  | held c => rw [resume_stop (.inr ⟨c, hs⟩)]; exact .inr ⟨c, hs⟩
  | running c =>
    cases c with
    | issued w => simp [fetchCommand, hs] at h
    | walk u w =>
      simp only [resume, hs]
      cases u
      · exact settled_treeEncAfter _ _
      · exact settled_tableBuildAfter _ _
      · exact settled_compressAfter _ _
    | write bs next =>
      simp only [resume, hs]
      cases next
      · exact settled_succeed _
      · exact settled_succeed _
      · exact settled_payloadLoop _ _
      · exact settled_succeed _
    | treeDec c k => simp only [resume, hs]; exact settled_treeDecRun (.inl ⟨c, k, hs⟩)
    | traverse c i d => simp only [resume, hs]; exact settled_traverseRun (.inr (.inr ⟨c, i, d, hs⟩))
    | drain => simp only [resume, hs]; exact settled_drainLoop _ _
    | payload => simp only [resume, hs]; exact settled_payloadLoop _ _

/-! ### The first move of a command -/

/-- The decoder of command words answers commands only (R111). -/
theorem decodeWord_isCommand {w : Word} {i : Instr} (h : decodeWord w = .ok i) :
    i ≠ .dBranch ∧ i ≠ .dEom ∧ ∀ s, i ≠ .dLeaf s := by
  unfold decodeWord at h
  split at h <;> first
    | (cases h; exact ⟨by simp, by simp, by simp⟩)
    | (split at h <;> cases h)

/-- The first move of a command, and what it has to do with the command's whole meaning. -/
theorem start_exec {i : Instr} (h1 : i ≠ .dBranch) (h2 : i ≠ .dEom) (h3 : ∀ s, i ≠ .dLeaf s) (s : State) :
    ∃ t, start i s = .next t ∧ t.fetchCommand = none ∧ exec i s = .next t.resume := by
  have ended : ∀ t : State, t.seq = .idle → t.fetchCommand = none ∧ t.resume = t := fun t h =>
    ⟨fetchCommand_idle h, resume_stop (.inl h)⟩
  cases i with
  | nop => exact ⟨_, rfl, (ended s.succeed rfl).1, congrArg Host.Outcome.next (ended s.succeed rfl).2.symm⟩
  | flush => exact ⟨_, rfl, (ended s.sinkFlush.succeed rfl).1, congrArg Host.Outcome.next (ended s.sinkFlush.succeed rfl).2.symm⟩
  | sinkReset =>
    exact ⟨_, rfl, (ended { s with obuf := 0, ocnt := 0, outBits := 0 }.succeed rfl).1,
      congrArg Host.Outcome.next (ended { s with obuf := 0, ocnt := 0, outBits := 0 }.succeed rfl).2.symm⟩
  | sourceReset =>
    exact ⟨_, rfl, (ended { s with ibuf := 0, icnt := 0, inBits := 0 }.succeed rfl).1,
      congrArg Host.Outcome.next (ended { s with ibuf := 0, icnt := 0, inBits := 0 }.succeed rfl).2.symm⟩
  | treeEnc =>
    refine ⟨s.beginTreeEnc, rfl, rfl, ?_⟩
    exact congrArg Host.Outcome.next (treeEncAfter_seq s (s.walk false) (.running (.walk .treeEnc (WalkState.start s.root)))).symm
  | tableBuild =>
    refine ⟨s.beginTableBuild, rfl, rfl, ?_⟩
    exact congrArg Host.Outcome.next (tableBuildAfter_seq s.clearTable (s.clearTable.walk true)
      (.running (.walk .tableBuild (WalkState.start s.root)))).symm
  | compress =>
    refine ⟨s.beginCompress, rfl, rfl, ?_⟩
    exact congrArg Host.Outcome.next (compressAfter_seq s.clearTable (s.clearTable.walk true)
      (.running (.walk .compress (WalkState.start s.root)))).symm
  | treeDec => exact ⟨s.beginTreeDec false, rfl, rfl, rfl⟩
  | decompress => exact ⟨s.beginTreeDec true, rfl, rfl, rfl⟩
  | symEnc =>
    cases hp : s.symEncPath with
    | error e =>
      refine ⟨s.raise e, by simp [start, beginSymEnc, hp], fetchCommand_idle rfl, ?_⟩
      simp only [exec, execSymEnc, hp]
      exact congrArg Host.Outcome.next (ended (s.raise e) rfl).2.symm
    | ok p =>
      refine ⟨s.setCursor (.write p .symEnc), by simp [start, beginSymEnc, hp], rfl, ?_⟩
      simp only [exec, execSymEnc, hp]
      refine congrArg Host.Outcome.next ?_
      simp only [resume, setCursor_fields, afterWrite]
      rw [show s.setCursor (.write p .symEnc) = { s with seq := .running (.write p .symEnc) } from rfl,
        bitWrites_seq s p (.running (.write p .symEnc))]
      rfl
  | symDec =>
    refine ⟨s.enterTraverse false, rfl, ?_, ?_⟩
    · rcases enterTraverse_seq false s with h | ⟨c, h⟩ | ⟨c, i, d, h⟩ <;> simp [fetchCommand, h]
    · exact congrArg Host.Outcome.next (resume_traverseRun (enterTraverse_seq false s)).symm
  | drainIn =>
    refine ⟨s.setCursor .drain, rfl, rfl, ?_⟩
    exact congrArg Host.Outcome.next (drainLoop_seq s.inq s s.inq (.running .drain)).symm
  | dBranch => exact absurd rfl h1
  | dEom => exact absurd rfl h2
  | dLeaf b => exact absurd rfl (h3 b)

/-- One iteration is one iteration of the cursor's loop, whether or not it carries out a node code. -/
theorem coreTick_running {s : State} (h : s.fetchCommand = none) : s.coreTick = .next s.tick := by
  unfold coreTick
  simp only [h]
  cases hc : s.fetchCode with
  | none => rfl
  | some p =>
    obtain ⟨k, s'⟩ := p
    unfold fetchCode at hc
    split at hc
    · next c cur hs =>
      split at hc
      · next k' t hf =>
        cases hc
        have htick : s.tick = (s'.placeNode k).getD s' := by
          simp only [tick, hs, treeDecTick, hf]
        have hseq : s'.seq = s.seq := by
          cases hh : cur.holes with
          | nil => simp [fetchNode, hh] at hf
          | cons hole rest =>
            simp only [fetchNode, hh, Option.some.injEq] at hf
            have hspec := readNode_spec (n := cur.n) (d := hole.depth) 10 cur.code s
            rw [hf] at hspec
            rw [hspec.2.2]
        obtain ⟨u, hu⟩ : ∃ u, s'.placeNode k = some u := by
          cases hh : cur.holes with
          | nil => simp [fetchNode, hh] at hf
          | cons hole rest => exact ⟨_, placeNode_some k (hseq.trans hs) hh⟩
        rw [htick, hu]
        cases k with
        | branch => simp [NodeCode.toInstr, exec, execDBranch, hu]
        | eom => simp [NodeCode.toInstr, exec, execDEom, hu]
        | leaf sym => simp [NodeCode.toInstr, exec, execDLeaf, hu]
      · cases hc
    · cases hc

/-- No iteration leaves a command to begin. -/
theorem fetchCommand_tick {s : State} (h : s.fetchCommand = none) : s.tick.fetchCommand = none := by
  have idle : ∀ t : State, t.seq = .idle → t.fetchCommand = none := fun t ht => fetchCommand_idle ht
  cases hs : s.seq with
  | idle => simp [tick, hs, h]
  | held c => simp [tick, hs, h]
  | running c =>
    cases c with
    | issued w => simp [fetchCommand, hs] at h
    | walk u w =>
      have ht : s.tick = s.walkTick u w := by simp [tick, hs]
      rw [ht]
      unfold walkTick
      split
      · cases u with
        | treeEnc => rfl
        | tableBuild => rfl
        | compress => simp only [afterWalkTick]; split <;> rfl
      · split
        · rfl
        · rfl
    | write bs next =>
      have ht : s.tick = s.writeTick bs next := by simp [tick, hs]
      rw [ht]
      cases bs with
      | nil => cases next <;> rfl
      | cons b bs => rfl
    | treeDec c k =>
      have ht : s.tick = s.treeDecTick c k := by simp [tick, hs]
      rw [ht]
      rcases treeDecTick_seq hs with ⟨k', h⟩ | h | ⟨_, h⟩ | ⟨_, _, _, h⟩ <;> simp [fetchCommand, h]
    | traverse c i d =>
      have ht : s.tick = s.traverseTick c i d := by simp [tick, hs]
      rw [ht]
      rcases traverseTick_seq c i d s with h | ⟨_, h⟩ | ⟨_, _, _, h⟩ <;> simp [fetchCommand, h]
    | drain =>
      simp only [tick, hs, drainTick]
      split
      · rfl
      · rfl
      · simp [fetchCommand]
    | payload =>
      simp only [tick, hs, payloadTick]
      split
      · rfl
      · rfl
      · split <;> rfl

/-- A turn of the core, spelled out (R15). -/
theorem coreTurn_cases (s : State) :
    (s.fetchCommand = none ∧ s.coreTurn = .next s.resume) ∨
      ∃ w, s.fetchCommand = some w ∧
        ((∃ i, decodeWord w = .ok i ∧ s.coreTurn = exec i s) ∨
          ((∃ e, decodeWord w = .error e) ∧ s.coreTurn = .next s.illegalCommand)) := by
  cases h : s.fetchCommand with
  | none => left; exact ⟨rfl, by simp [coreTurn, h]⟩
  | some w =>
    right
    refine ⟨w, rfl, ?_⟩
    cases hd : decodeWord w with
    | ok i => left; exact ⟨i, rfl, by simp [coreTurn, h, hd]⟩
    | error e => right; exact ⟨⟨e, rfl⟩, by simp [coreTurn, h, hd]⟩

/-- Every turn of the core answers a state in which the command has ended or is held. -/
theorem coreTurn_settled (s : State) : ∃ t, s.coreTurn = .next t ∧ t.Settled := by
  rcases coreTurn_cases s with ⟨h, ht⟩ | ⟨w, _, ⟨i, hd, ht⟩ | ⟨_, ht⟩⟩
  · exact ⟨_, ht, settled_resume h⟩
  · obtain ⟨h1, h2, h3⟩ := decodeWord_isCommand hd
    obtain ⟨t, _, hf, he⟩ := start_exec h1 h2 h3 s
    exact ⟨_, ht.trans he, settled_resume hf⟩
  · exact ⟨_, ht, settled_raise _ _⟩

/-- One iteration of the core, then its turn, is its turn (R15). -/
theorem coreTick_coreTurn (s : State) : ∃ t, s.coreTick = .next t ∧ t.coreTurn = s.coreTurn ∧ t.fetchCommand = none := by
  cases h : s.fetchCommand with
  | none =>
    refine ⟨s.tick, coreTick_running h, ?_, fetchCommand_tick h⟩
    simp [coreTurn, h, fetchCommand_tick h, resume_tick]
  | some w =>
    cases hd : decodeWord w with
    | ok i =>
      obtain ⟨h1, h2, h3⟩ := decodeWord_isCommand hd
      obtain ⟨t, hst, hf, he⟩ := start_exec h1 h2 h3 s
      exact ⟨t, by simp [coreTick, h, hd, hst], by simp [coreTurn, h, hd, hf, he], hf⟩
    | error e =>
      exact ⟨s.illegalCommand, by simp [coreTick, h, hd], by
        simp [coreTurn, h, hd, fetchCommand_idle (show s.illegalCommand.seq = .idle from rfl),
          resume_stop (s := s.illegalCommand) (.inl rfl)], fetchCommand_idle rfl⟩

/-! ### Iterations reach the end -/

/-- The iterations lead to where the run leads. -/
def Reaches (s : State) : Prop := ∃ n, tick^[n] s = s.resume

theorem reaches_settled {s : State} (h : s.Settled) : s.Reaches := ⟨0, (resume_stop h).symm⟩

theorem reaches_of_tick {s : State} (h : s.tick.Reaches) : s.Reaches := by
  obtain ⟨n, hn⟩ := h
  exact ⟨n + 1, by rw [Function.iterate_succ_apply, hn, resume_tick]⟩

theorem reaches_write : ∀ (bs : Bits) (s : State) (next : AfterWrite), s.seq = .running (.write bs next) →
    (∀ u : State, u.inq = s.inq → (u.afterWriteTick next).Reaches) → s.Reaches := by
  intro bs
  induction bs with
  | nil =>
    intro s next hs h
    refine reaches_of_tick ?_
    have : s.tick = s.afterWriteTick next := by simp [tick, hs, writeTick]
    rw [this]; exact h s rfl
  | cons b bs ih =>
    intro s next hs h
    refine reaches_of_tick ?_
    have : s.tick = (s.bitWrite b).setCursor (.write bs next) := by simp [tick, hs, writeTick]
    rw [this]
    exact ih _ next rfl (fun u hu => h u (by simpa using hu))

theorem reaches_payload : ∀ (xs : List InItem) (s : State), s.inq = xs → s.seq = .running .payload → s.Reaches := by
  intro xs
  induction xs with
  | nil =>
    intro s hq hs
    refine reaches_of_tick (reaches_settled ?_)
    simp only [tick, hs, payloadTick, hq]
    exact settled_holdAt _ _
  | cons x xs ih =>
    intro s hq hs
    refine reaches_of_tick ?_
    cases x with
    | eos =>
      simp only [tick, hs, payloadTick, hq]
      exact reaches_write _ _ .flush rfl (fun u _ => reaches_settled (settled_succeed _))
    | byte b =>
      simp only [tick, hs, payloadTick, hq]
      split
      · exact reaches_settled (settled_raise _ _)
      · exact reaches_write _ _ .payload rfl (fun u hu => ih _ hu rfl)

theorem reaches_afterWrite (u : State) (next : AfterWrite) : (u.afterWriteTick next).Reaches := by
  cases next with
  | treeEnc => exact reaches_settled (settled_succeed _)
  | symEnc => exact reaches_settled (settled_succeed _)
  | payload => exact reaches_payload _ _ rfl rfl
  | flush => exact reaches_settled (settled_succeed _)

theorem reaches_afterWalk (s : State) (u : WalkUse) (r : Except ErrorCode (List Visit)) : (s.afterWalkTick u r).Reaches := by
  cases r with
  | error e => exact reaches_settled (settled_raise _ _)
  | ok order =>
    cases u with
    | treeEnc => exact reaches_write _ _ _ rfl (fun u _ => reaches_afterWrite u _)
    | tableBuild => exact reaches_settled (settled_succeed _)
    | compress =>
      simp only [afterWalkTick]
      split
      · exact reaches_settled (settled_raise _ _)
      · exact reaches_write _ _ _ rfl (fun u _ => reaches_afterWrite u _)

theorem reaches_walk (u : WalkUse) : ∀ (n : Nat) (s : State) (w : WalkState), s.cfg.nodeCap + 1 - w.visits ≤ n →
    s.seq = .running (.walk u w) → s.Reaches := by
  intro n
  induction n with
  | zero =>
    intro s w hn hs
    refine reaches_of_tick ?_
    have : s.tick = s.walkTick u w := by simp [tick, hs]
    rw [this]
    unfold walkTick
    split
    · exact reaches_afterWalk _ _ _
    · split
      · exact reaches_afterWalk _ _ _
      · next w' hv => have := walkVisit_visits hv; omega
  | succ n ih =>
    intro s w hn hs
    refine reaches_of_tick ?_
    have : s.tick = s.walkTick u w := by simp [tick, hs]
    rw [this]
    unfold walkTick
    split
    · exact reaches_afterWalk _ _ _
    · split
      · exact reaches_afterWalk _ _ _
      · next w' hv =>
        have := walkVisit_visits hv
        exact ih (s.setCursor (.walk u w')) w' (by simp; omega) rfl

theorem reaches_traverse (s : State) : (s.seq = .idle ∨ (∃ c, s.seq = .held c) ∨ (∃ c i d, s.seq = .running (.traverse c i d))) →
    s.Reaches := by
  refine traverse_induction (P := fun s => (s.seq = .idle ∨ (∃ c, s.seq = .held c) ∨ (∃ c i d, s.seq = .running (.traverse c i d))) →
    s.Reaches) ?_ ?_ s
  · intro s hn h
    rcases h with h | ⟨c, h⟩ | ⟨c, i, d, h⟩
    · exact reaches_settled (.inl h)
    · exact reaches_settled (.inr ⟨c, h⟩)
    · exact absurd h (hn c i d)
  · intro s c i d hs ih _
    refine reaches_of_tick ?_
    have : s.tick = s.traverseTick c i d := by simp [tick, hs]
    rw [this]
    exact ih (traverseTick_seq c i d s)

theorem reaches_treeDec (s : State) : (∃ c k, s.seq = .running (.treeDec c k)) → s.Reaches := by
  refine treeDec_induction (P := fun s => (∃ c k, s.seq = .running (.treeDec c k)) → s.Reaches) ?_ ?_ s
  · rintro s hn ⟨c, k, h⟩
    exact absurd h (hn c k)
  · intro s c k hs ih _
    refine reaches_of_tick ?_
    have : s.tick = s.treeDecTick c k := by simp [tick, hs]
    rw [this]
    rcases treeDecTick_seq hs with ⟨k', h⟩ | h
    · exact ih ⟨c, k', h⟩
    · exact reaches_traverse _ h

theorem reaches_drain : ∀ (xs : List InItem) (s : State), s.inq = xs → s.seq = .running .drain → s.Reaches := by
  intro xs
  induction xs with
  | nil =>
    intro s hq hs
    refine reaches_of_tick (reaches_settled ?_)
    simp only [tick, hs, drainTick, hq]
    exact settled_holdAt _ _
  | cons x xs ih =>
    intro s hq hs
    refine reaches_of_tick ?_
    cases x with
    | eos =>
      simp only [tick, hs, drainTick, hq]
      exact reaches_settled (settled_succeed _)
    | byte b =>
      simp only [tick, hs, drainTick, hq]
      exact ih _ rfl rfl

/-- From every cursor the iterations reach the end or the next hold (R15, R17). -/
theorem reaches_all {s : State} (h : s.fetchCommand = none) : s.Reaches := by
  cases hs : s.seq with
  | idle => exact reaches_settled (.inl hs)
  | held c => exact reaches_settled (.inr ⟨c, hs⟩)
  | running c =>
    cases c with
    | issued w => simp [fetchCommand, hs] at h
    | walk u w => exact reaches_walk u _ s w (Nat.le_refl _) hs
    | write bs next => exact reaches_write bs s next hs (fun u _ => reaches_afterWrite u next)
    | treeDec c k => exact reaches_treeDec s ⟨c, k, hs⟩
    | traverse c i d => exact reaches_traverse s (.inr (.inr ⟨c, i, d, hs⟩))
    | drain => exact reaches_drain _ s rfl hs
    | payload => exact reaches_payload _ s rfl hs

end State

end Sys2Proof.Machine
end

