-- ==== Sys2Proof/Laws/Append.lean ====
section
/-!
SUPPORT. A hold loses nothing (R15, R83): a command that waits for an item and goes on once the host has appended it does what it
does when the item was there from the start.
-/

namespace Sys2Proof.Machine

namespace State

/-- The state with one more item at the end of IN. -/
def more (x : InItem) (s : State) : State := { s with inq := s.inq ++ [x] }

/-- The command does not wait. -/
def NotHeld (s : State) : Prop := ∀ c, s.seq ≠ .held c

theorem appendIn_notHeld {s : State} (h : s.NotHeld) (x : InItem) : s.appendIn x = s.more x := by
  unfold appendIn more
  split
  · next c hs => exact absurd hs (h c)
  · rfl

theorem bitRead_more (x : InItem) {s : State} (h : s.bitRead ≠ .hold) :
    (s.more x).bitRead =
      match s.bitRead with
      | .bit b t => .bit b (t.more x)
      | .exhausted t => .exhausted (t.more x)
      | .hold => .hold := by
  by_cases hl : s.inLimit ≤ s.inBits
  · simp [bitRead, more, hl]
  · by_cases h0 : s.icnt = 0
    · cases hq : s.inq with
      | nil => simp [bitRead, hl, h0, hq] at h
      | cons y rest => cases y <;> simp [bitRead, more, hl, h0, hq, bitFromBuffer]
    · simp only [bitRead, more, hl, h0, if_false, bitFromBuffer]

/-! ### A node code over a hold -/

theorem readNode_one {n d : Nat} {s : State} {code : Bits} (h : decodeNode (code ++ [true]) ≠ .error .truncatedCode)
    (h' : decodeNode (code ++ [false]) ≠ .error .truncatedCode) (f g : Nat) :
    readNode n d (f + 1) code s = readNode n d (g + 1) code s := by
  simp only [readNode]
  cases s.bitRead with
  | hold => rfl
  | exhausted t => rfl
  | bit b t =>
    simp only
    split
    · rfl
    · cases hd : decodeNode (code ++ [b]) with
      | ok p => rfl
      | error e =>
        exfalso
        have he : e = .truncatedCode := by
          unfold decodeNode at hd
          split at hd <;> first | (cases hd; done) | (cases hd; rfl)
        subst he
        cases b
        · exact h' hd
        · exact h hd

/-- Nine bits or more are complete with the next one (R116). -/
theorem decodeNode_long {bs : Bits} (h : 10 ≤ bs.length) : ∃ p, decodeNode bs = .ok p := by
  match bs, h with
  | true :: _, _ => exact ⟨_, rfl⟩
  | false :: false :: _, _ => exact ⟨_, rfl⟩
  | false :: true :: s7 :: s6 :: s5 :: s4 :: s3 :: s2 :: s1 :: s0 :: _, _ => exact ⟨_, rfl⟩
  | [false, true], h => simp at h
  | [false, true, _], h => simp at h
  | [false, true, _, _], h => simp at h
  | [false, true, _, _, _], h => simp at h
  | [false, true, _, _, _, _], h => simp at h
  | [false, true, _, _, _, _, _], h => simp at h
  | [false, true, _, _, _, _, _, _], h => simp at h
  | [false, true, _, _, _, _, _, _, _], h => simp at h

/-- Fuel beyond the bits a code can still take changes nothing. -/
theorem readNode_fuel {n d : Nat} : ∀ (f g : Nat) (code : Bits) (s : State), 10 ≤ f + code.length → 1 ≤ f →
    10 ≤ g + code.length → 1 ≤ g → readNode n d f code s = readNode n d g code s := by
  intro f
  induction f with
  | zero => intro g code s _ h; omega
  | succ f ih =>
    intro g code s hf _ hg hg1
    cases g with
    | zero => omega
    | succ g =>
      by_cases hlong : 9 ≤ code.length
      · obtain ⟨p, hp⟩ := decodeNode_long (bs := code ++ [true]) (by simp; omega)
        obtain ⟨q, hq⟩ := decodeNode_long (bs := code ++ [false]) (by simp; omega)
        exact readNode_one (by simp [hp]) (by simp [hq]) f g
      · simp only [readNode]
        cases s.bitRead with
        | hold => rfl
        | exhausted t => rfl
        | bit b t =>
          simp only
          split
          · rfl
          · split
            · rfl
            · exact ih g _ t (by simp; omega) (by omega) (by simp; omega) (by omega)

/-- Reading a node code with one more item to come. -/
theorem readNode_more {n d : Nat} (x : InItem) {g : Nat} (hg : 10 ≤ g) : ∀ (f : Nat) (code : Bits) (s : State),
    10 ≤ f + code.length → 1 ≤ f →
    (∀ k t, readNode n d f code s = .code k t → readNode n d f code (s.more x) = .code k (t.more x)) ∧
    (∀ e t, readNode n d f code s = .fail e t → readNode n d f code (s.more x) = .fail e (t.more x)) ∧
    (∀ c t, readNode n d f code s = .hold c t →
      readNode n d f code (s.more x) = readNode n d g c (t.more x)) := by
  intro f
  induction f with
  | zero => intro code s _ h; omega
  | succ f ih =>
    intro code s hf _
    by_cases hh : s.bitRead = .hold
    · refine ⟨?_, ?_, ?_⟩
      · intro k t h; simp [readNode, hh] at h
      · intro e t h; simp [readNode, hh] at h
      · intro c t h
        simp only [readNode, hh, NodeFetch.hold.injEq] at h
        obtain ⟨rfl, rfl⟩ := h
        exact readNode_fuel _ _ _ _ hf (by omega) (by omega) (by omega)
    · have hm := bitRead_more x hh
      cases hb : s.bitRead with
      | hold => exact absurd hb hh
      | exhausted t =>
        rw [hb] at hm
        refine ⟨?_, ?_, ?_⟩
        · intro k u h; simp [readNode, hb] at h
        · intro e u h
          simp only [readNode, hb, NodeFetch.fail.injEq] at h
          obtain ⟨rfl, rfl⟩ := h
          simp [readNode, hm]
        · intro c u h; simp [readNode, hb] at h
      | bit b t =>
        rw [hb] at hm
        have hcfg : (t.more x).cfg = t.cfg := rfl
        cases hc : (if code = [] then firstBitCheck t.cfg n d else none) with
        | some e =>
          have l1 : readNode n d (f + 1) code s = .fail e t := by simp only [readNode, hb, hc]
          have l2 : readNode n d (f + 1) code (s.more x) = .fail e (t.more x) := by simp only [readNode, hm, hcfg, hc]
          rw [l1, l2]
          exact ⟨fun _ _ h => (by cases h), fun _ _ h => (by cases h; rfl), fun _ _ h => (by cases h)⟩
        | none =>
          cases hd : decodeNode (code ++ [b]) with
          | ok p =>
            have l1 : readNode n d (f + 1) code s = .code p.1 t := by simp only [readNode, hb, hc, hd]
            have l2 : readNode n d (f + 1) code (s.more x) = .code p.1 (t.more x) := by
              simp only [readNode, hm, hcfg, hc, hd]
            rw [l1, l2]
            exact ⟨fun _ _ h => (by cases h; rfl), fun _ _ h => (by cases h), fun _ _ h => (by cases h)⟩
          | error e =>
            have l1 : readNode n d (f + 1) code s = readNode n d f (code ++ [b]) t := by simp only [readNode, hb, hc, hd]
            have l2 : readNode n d (f + 1) code (s.more x) = readNode n d f (code ++ [b]) (t.more x) := by
              simp only [readNode, hm, hcfg, hc, hd]
            have hlen : code.length < 9 := by
              by_contra hl
              obtain ⟨p, hp⟩ := decodeNode_long (bs := code ++ [b]) (by simp; omega)
              rw [hp] at hd; cases hd
            rw [l1, l2]
            exact ih (code ++ [b]) t (by simp; omega) (by omega)

/-! ### One iteration -/

theorem more_seq (x : InItem) (s : State) : (s.more x).seq = s.seq := rfl

theorem bitWrite_more (x : InItem) (s : State) (b : Bool) : (s.more x).bitWrite b = (s.bitWrite b).more x := by
  have h := bitWrite_graft s (s.more x) b
  have e : graftSink s (s.more x) = s.more x := rfl
  rw [e] at h
  rw [h, bitWrite_frame s b]
  rfl

theorem sinkFlush_more (x : InItem) (s : State) : (s.more x).sinkFlush = s.sinkFlush.more x := by
  have h := sinkFlush_graft s (s.more x)
  have e : graftSink s (s.more x) = s.more x := rfl
  rw [e] at h
  rw [h, sinkFlush_graft_self s]
  rfl

theorem enterTraverse_more (x : InItem) (c : Bool) (s : State) : (s.more x).enterTraverse c = (s.enterTraverse c).more x := by
  have h1 : (s.more x).cfg = s.cfg := rfl
  have h2 : (s.more x).nodes = s.nodes := rfl
  have h3 : (s.more x).root = s.root := rfl
  unfold enterTraverse
  rw [h1, h2, h3]
  split
  · rfl
  · split <;> rfl

theorem traverseTick_more (x : InItem) (c : Bool) (i : BitVec 16) (d : Nat) (s : State)
    (h : (s.traverseTick c i d).NotHeld) : (s.more x).traverseTick c i d = (s.traverseTick c i d).more x := by
  have h1 : (s.more x).cfg = s.cfg := rfl
  have h2 : (s.more x).nodes = s.nodes := rfl
  unfold traverseTick at h ⊢
  rw [h1, h2]
  cases hu : usableNode s.cfg.nodeCap s.nodes i with
  | none => rfl
  | some e =>
    rw [hu] at h
    simp only at h ⊢
    split
    · next hk =>
      rw [if_pos hk] at h
      have hnh : s.bitRead ≠ .hold := by
        intro hb
        rw [hb] at h
        exact h _ rfl
      rw [bitRead_more x hnh]
      cases hb : s.bitRead with
      | hold => exact absurd hb hnh
      | exhausted t => rfl
      | bit b t =>
        simp only
        have h3 : (t.more x).cfg = t.cfg := rfl
        have h4 : (t.more x).nodes = t.nodes := rfl
        unfold moveTo
        simp only [h3, h4]
        split
        · rfl
        · split <;> rfl
    · unfold leafReached
      split
      · split
        · rfl
        · exact enterTraverse_more x true (s.outWrite (e.key.setWidth 8))
      · rfl

/-- One iteration of a command, with one more item to come: the same iteration, and where it would hold, what the hold leads
to once the item is appended. -/
theorem tick_more (x : InItem) (s : State) (hs : s.NotHeld) :
    (s.tick.NotHeld → (s.more x).tick = s.tick.more x) ∧
      (¬ s.tick.NotHeld → (s.more x).resume = (s.tick.appendIn x).resume) := by
  cases hq : s.seq with
  | idle =>
    have ht : s.tick = s := by simp [tick, hq]
    have ht' : (s.more x).tick = s.more x := by simp [tick, more_seq, hq]
    rw [ht, ht']
    exact ⟨fun _ => rfl, fun h => absurd hs h⟩
  | held c => exact absurd hq (hs c)
  | running c =>
    cases c with
    | issued w =>
      have ht : s.tick = s := by simp [tick, hq]
      have ht' : (s.more x).tick = s.more x := by simp [tick, more_seq, hq]
      rw [ht, ht']
      exact ⟨fun _ => rfl, fun h => absurd hs h⟩
    | walk u w =>
      have ht : s.tick = s.walkTick u w := by simp [tick, hq]
      have ht' : (s.more x).tick = (s.more x).walkTick u w := by simp [tick, more_seq, hq]
      rw [ht, ht']
      have key : (s.more x).walkTick u w = (s.walkTick u w).more x ∧ (s.walkTick u w).NotHeld := by
        have h1 : (s.more x).cfg = s.cfg := rfl
        have h2 : (s.more x).nodes = s.nodes := rfl
        unfold walkTick
        rw [h1, h2]
        split
        · cases u with
          | treeEnc => exact ⟨rfl, by intro c; simp [afterWalkTick]⟩
          | tableBuild => exact ⟨rfl, by intro c; simp [afterWalkTick]⟩
          | compress =>
            simp only [afterWalkTick]
            have h3 : ((s.more x).fillTable w.order).codes = (s.fillTable w.order).codes := rfl
            rw [h3]
            split
            · exact ⟨rfl, by intro c; simp⟩
            · exact ⟨rfl, by intro c; simp⟩
        · split
          · exact ⟨rfl, by intro c; simp [afterWalkTick]⟩
          · exact ⟨rfl, by intro c; simp⟩
      exact ⟨fun _ => key.1, fun h => absurd key.2 h⟩
    | write bs next =>
      have ht : s.tick = s.writeTick bs next := by simp [tick, hq]
      have ht' : (s.more x).tick = (s.more x).writeTick bs next := by simp [tick, more_seq, hq]
      rw [ht, ht']
      have key : (s.more x).writeTick bs next = (s.writeTick bs next).more x ∧ (s.writeTick bs next).NotHeld := by
        cases bs with
        | nil =>
          cases next with
          | treeEnc => exact ⟨rfl, by intro c; simp [writeTick, afterWriteTick]⟩
          | symEnc => exact ⟨rfl, by intro c; simp [writeTick, afterWriteTick]⟩
          | payload => exact ⟨rfl, by intro c; simp [writeTick, afterWriteTick]⟩
          | flush =>
            refine ⟨?_, by intro c; simp [writeTick, afterWriteTick]⟩
            simp only [writeTick, afterWriteTick, sinkFlush_more]
            rfl
        | cons b bs =>
          refine ⟨?_, by intro c; simp [writeTick]⟩
          simp only [writeTick, bitWrite_more]
          rfl
      exact ⟨fun _ => key.1, fun h => absurd key.2 h⟩
    | treeDec c k =>
      have ht : s.tick = s.treeDecTick c k := by simp [tick, hq]
      have ht' : (s.more x).tick = (s.more x).treeDecTick c k := by simp [tick, more_seq, hq]
      have hq' : (s.more x).seq = .running (.treeDec c k) := hq
      rw [ht, ht']
      rcases treeDecTick_cases hq with ⟨hh, h⟩ | ⟨hole, rest, hh, ⟨y, t, hr, _, hf, h⟩ | ⟨code, t, hr, _, _, hf, h⟩ | ⟨e, t, hr, _, hf, h⟩⟩
      · have h' : (s.more x).treeDecTick c k = (s.treeDecTick c k).more x := by
          rw [h]
          have : (s.more x).treeDecTick c k = (s.more x).finishTree c k.n := by
            simp [treeDecTick, fetchNode, hh, treeDecStop]
          rw [this]
          unfold finishTree
          split
          · exact enterTraverse_more x true { s with nodeCount := BitVec.ofNat 17 k.n }
          · rfl
        refine ⟨fun _ => h', fun hn => ?_⟩
        exfalso
        apply hn
        rw [h]
        unfold finishTree
        split
        · intro c'
          rcases enterTraverse_cases true { s with nodeCount := BitVec.ofNat 17 k.n } with h | h | ⟨_, _, _, h⟩ <;>
            rw [h] <;> simp
        · intro c'; simp
      · have h1 := (readNode_more x (Nat.le_refl 10) 10 k.code s (by omega) (by omega)).1 y t hr
        have hts : t.seq = .running (.treeDec c k) := by rw [hf]; exact hq
        have htn : t.nodes = s.nodes := by rw [hf]
        refine ⟨fun _ => ?_, fun hn => ?_⟩
        · rw [h]
          have : (s.more x).treeDecTick c k = ((t.more x).placeNode y).getD (t.more x) := by
            simp [treeDecTick, fetchNode, hh, h1]
          rw [this, placeNode_some y (show (t.more x).seq = _ from hts) hh]
          rw [show (t.more x).nodes = s.nodes from htn]
          rfl
        · exfalso; apply hn; rw [h]; intro c'; simp
      · have h1 := (readNode_more x (Nat.le_refl 10) 10 k.code s (by omega) (by omega)).2.2 code t hr
        have hts : t.seq = .running (.treeDec c k) := by rw [hf]; exact hq
        refine ⟨fun hn => absurd rfl (by rw [h] at hn; exact hn _), fun _ => ?_⟩
        rw [h]
        have e1 : (t.holdAt (.treeDec c { k with code := code })).appendIn x =
            (t.more x).setCursor (.treeDec c { k with code := code }) := rfl
        rw [e1, ← resume_tick (s.more x), ht', ← resume_tick ((t.more x).setCursor _)]
        have e2 : ((t.more x).setCursor (.treeDec c { k with code := code })).tick =
            ((t.more x).setCursor (.treeDec c { k with code := code })).treeDecTick c { k with code := code } := by
          simp [tick]
        rw [e2]
        congr 1
        -- both read the rest of the same node code
        have hg : readNode k.n hole.depth 10 code ((t.more x).setCursor (.treeDec c { k with code := code })) =
            match readNode k.n hole.depth 10 code (t.more x) with
            | .code y u => .code y (u.setCursor (.treeDec c { k with code := code }))
            | .hold b u => .hold b (u.setCursor (.treeDec c { k with code := code }))
            | .fail e u => .fail e (u.setCursor (.treeDec c { k with code := code })) := by
          generalize t.more x = v
          clear h1 e1 e2 hr h ht ht' hq'
          generalize 10 = f
          generalize { k with code := code } = kk
          generalize k.n = n
          generalize code = cd
          induction f generalizing cd v with
          | zero => rfl
          | succ f ih =>
            have hbr := bitRead_graft v (v.setCursor (.treeDec c kk)) rfl
            have eg : graft v (v.setCursor (.treeDec c kk)) = v.setCursor (.treeDec c kk) := rfl
            rw [eg] at hbr
            simp only [readNode, hbr]
            cases hb : v.bitRead with
            | hold => rfl
            | exhausted u =>
              have := (bitRead_exhausted hb).1
              simp only [NodeFetch.fail.injEq, true_and]
              rw [this]; rfl
            | bit b u =>
              have hfr := bitRead_frame hb
              have hcfg : (graft u (v.setCursor (.treeDec c kk))).cfg = u.cfg := by rw [hfr]; rfl
              have hgu : graft u (v.setCursor (.treeDec c kk)) = u.setCursor (.treeDec c kk) := by
                rw [hfr]; rfl
              simp only [hcfg]
              split
              · simp only [hgu]
              · cases decodeNode (cd ++ [b]) with
                | ok p => simp only [hgu]
                | error e => simp only [hgu]; exact ih u _
        have l1 : (s.more x).fetchNode k = some (readNode k.n hole.depth 10 code (t.more x)) := by
          simp [fetchNode, hh, h1]
        have l2 : ((t.more x).setCursor (.treeDec c { k with code := code })).fetchNode { k with code := code } =
            some (readNode k.n hole.depth 10 code ((t.more x).setCursor (.treeDec c { k with code := code }))) := by
          simp [fetchNode, hh]
        have hspec := readNode_spec (n := k.n) (d := hole.depth) 10 code (t.more x)
        unfold treeDecTick
        rw [l1, l2, hg]
        cases hrr : readNode k.n hole.depth 10 code (t.more x) with
        | code y u =>
          rw [hrr] at hspec
          have hus : u.seq = .running (.treeDec c k) := by rw [hspec.2.2]; exact hts
          simp only
          rw [placeNode_some y hus hh,
            placeNode_some (s := u.setCursor (.treeDec c { k with code := code })) (k := { k with code := code }) y rfl hh]
          rfl
        | hold b u => rfl
        | fail e u => rfl
      · have h1 := (readNode_more x (Nat.le_refl 10) 10 k.code s (by omega) (by omega)).2.1 e t hr
        refine ⟨fun _ => ?_, fun hn => ?_⟩
        · rw [h]
          have : (s.more x).treeDecTick c k = (t.more x).failTree e := by
            simp [treeDecTick, fetchNode, hh, h1, treeDecStop]
          rw [this]; rfl
        · exfalso; apply hn; rw [h]; intro c'; simp [failTree]
    | traverse c i d =>
      have ht : s.tick = s.traverseTick c i d := by simp [tick, hq]
      have ht' : (s.more x).tick = (s.more x).traverseTick c i d := by simp [tick, more_seq, hq]
      rw [ht, ht']
      refine ⟨fun h => traverseTick_more x c i d s h, fun h => ?_⟩
      have hheld : s.traverseTick c i d = s.holdAt (.traverse c i d) := by
        by_contra hne
        apply h
        intro k hk
        apply hne
        unfold traverseTick at hk ⊢
        split at hk
        · simp at hk
        · split at hk
          · next hkb =>
            rw [if_pos hkb]
            split at hk
            · rfl
            · simp at hk
            · unfold moveTo at hk
              simp only at hk
              split at hk
              · simp at hk
              · split at hk <;> simp at hk
          · unfold leafReached at hk
            split at hk
            · split at hk
              · simp [endWithKey] at hk
              · rename_i e _ _ _ _
                rcases enterTraverse_cases true (s.outWrite (e.key.setWidth 8)) with h | h | ⟨_, _, _, h⟩ <;>
                  rw [h] at hk <;> simp at hk
            · simp [endWithKey] at hk
      rw [hheld]
      have : (s.holdAt (.traverse c i d)).appendIn x = s.more x := by
        unfold appendIn holdAt more; simp only [← hq]
      rw [this]
    | drain =>
      have ht : s.tick = s.drainTick := by simp [tick, hq]
      have ht' : (s.more x).tick = (s.more x).drainTick := by simp [tick, more_seq, hq]
      rw [ht, ht']
      cases hi : s.inq with
      | nil =>
        have h1 : s.drainTick = s.holdAt .drain := by simp [drainTick, hi]
        rw [h1]
        refine ⟨fun h => absurd rfl (h _), fun _ => ?_⟩
        have : (s.holdAt .drain).appendIn x = s.more x := by unfold appendIn holdAt more; simp only [← hq]
        rw [this]
      | cons y rest =>
        have hi' : (s.more x).inq = y :: (rest ++ [x]) := by simp [more, hi]
        have key : (s.more x).drainTick = s.drainTick.more x ∧ s.drainTick.NotHeld := by
          unfold drainTick
          rw [hi, hi']
          cases y with
          | eos => exact ⟨rfl, by intro c; simp⟩
          | byte b => exact ⟨rfl, by intro c; simp [hq]⟩
        exact ⟨fun _ => key.1, fun h => absurd key.2 h⟩
    | payload =>
      have ht : s.tick = s.payloadTick := by simp [tick, hq]
      have ht' : (s.more x).tick = (s.more x).payloadTick := by simp [tick, more_seq, hq]
      rw [ht, ht']
      cases hi : s.inq with
      | nil =>
        have h1 : s.payloadTick = s.holdAt .payload := by simp [payloadTick, hi]
        rw [h1]
        refine ⟨fun h => absurd rfl (h _), fun _ => ?_⟩
        have : (s.holdAt .payload).appendIn x = s.more x := by unfold appendIn holdAt more; simp only [← hq]
        rw [this]
      | cons y rest =>
        have hi' : (s.more x).inq = y :: (rest ++ [x]) := by simp [more, hi]
        have hc : (s.more x).codes = s.codes := rfl
        have key : (s.more x).payloadTick = s.payloadTick.more x ∧ s.payloadTick.NotHeld := by
          unfold payloadTick
          rw [hi, hi', hc]
          cases y with
          | eos => exact ⟨rfl, by intro c; simp⟩
          | byte b =>
            simp only
            split
            · exact ⟨rfl, by intro c; simp⟩
            · exact ⟨rfl, by intro c; simp⟩
        exact ⟨fun _ => key.1, fun h => absurd key.2 h⟩

/-- No hold is at a command that has not begun. -/
theorem held_tick_ne {s : State} (hs : s.NotHeld) (w : Word) : s.tick.seq ≠ .held (.issued w) := by
  have enter : ∀ (c : Bool) (u : State), (u.enterTraverse c).seq ≠ .held (.issued w) := by
    intro c u
    rcases enterTraverse_cases c u with h | h | ⟨_, _, _, h⟩ <;> rw [h] <;> simp
  cases hq : s.seq with
  | idle => simp [tick, hq]
  | held c => exact absurd hq (hs c)
  | running c =>
    cases c with
    | issued w' => simp [tick, hq]
    | walk u k =>
      simp only [tick, hq, walkTick]
      split
      · cases u with
        | treeEnc => simp [afterWalkTick]
        | tableBuild => simp [afterWalkTick]
        | compress => simp only [afterWalkTick]; split <;> simp
      · split <;> simp [afterWalkTick]
    | write bs next =>
      simp only [tick, hq]
      cases bs with
      | nil => cases next <;> simp [writeTick, afterWriteTick]
      | cons b bs => simp [writeTick]
    | treeDec c k =>
      have ht : s.tick = s.treeDecTick c k := by simp [tick, hq]
      rw [ht]
      rcases treeDecTick_cases hq with ⟨_, h⟩ | ⟨_, _, _, ⟨_, _, _, _, _, h⟩ | ⟨_, _, _, _, _, _, h⟩ | ⟨_, _, _, _, _, h⟩⟩
      · rw [h]
        unfold finishTree
        split
        · exact enter _ _
        · simp
      · rw [h]; simp
      · rw [h]; simp
      · rw [h]; simp [failTree]
    | traverse c i d =>
      have ht : s.tick = s.traverseTick c i d := by simp [tick, hq]
      rw [ht]
      unfold traverseTick
      split
      · simp
      · split
        · split
          · simp
          · simp
          · unfold moveTo
            simp only
            split
            · simp
            · split <;> simp
        · unfold leafReached
          split
          · split
            · simp [endWithKey]
            · exact enter _ _
          · simp [endWithKey]
    | drain =>
      simp only [tick, hq, drainTick]
      split <;> simp
    | payload =>
      simp only [tick, hq, payloadTick]
      split
      · simp
      · simp
      · split <;> simp

/-- A run with one more item to come is the run, continued after the item is appended (R15, R83). -/
theorem resume_more (x : InItem) : ∀ (n : Nat) (s : State), tick^[n] s = s.resume → s.fetchCommand = none → s.NotHeld →
    (s.more x).resume = (s.resume.appendIn x).resume := by
  intro n
  induction n with
  | zero =>
    intro s hn hf hs
    have hse := settled_resume hf
    rw [Function.iterate_zero, id] at hn
    rw [← hn] at hse
    rcases hse with h | ⟨c, h⟩
    · rw [← hn, appendIn_notHeld hs]
    · exact absurd h (hs c)
  | succ n ih =>
    intro s hn hf hs
    rw [Function.iterate_succ_apply, ← resume_tick s] at hn
    obtain ⟨h1, h2⟩ := tick_more x s hs
    by_cases ht : s.tick.NotHeld
    · rw [← resume_tick (s.more x), h1 ht, ih s.tick hn (fetchCommand_tick hf) ht, resume_tick]
    · rw [h2 ht]
      have : ∃ c, s.tick.seq = .held c := by
        simp only [NotHeld, not_forall, ne_eq, not_not] at ht; exact ht
      rw [← resume_tick s, resume_stop (.inr this)]

theorem start_more (x : InItem) {i : Instr} {s t : State} (h1 : i ≠ .dBranch) (h2 : i ≠ .dEom) (h3 : ∀ b, i ≠ .dLeaf b)
    (h : start i s = .next t) : start i (s.more x) = .next (t.more x) := by
  cases i with
  | nop => cases h; rfl
  | treeEnc => cases h; rfl
  | treeDec => cases h; rfl
  | tableBuild => cases h; rfl
  | symEnc =>
    cases h
    have hp : (s.more x).symEncPath = s.symEncPath := rfl
    simp only [start, beginSymEnc, hp]
    cases s.symEncPath <;> rfl
  | symDec => cases h; exact congrArg Host.Outcome.next (enterTraverse_more x false s)
  | flush =>
    cases h
    simp only [start, execFlush, sinkFlush_more]
    rfl
  | compress => cases h; rfl
  | decompress => cases h; rfl
  | sinkReset => cases h; rfl
  | sourceReset => cases h; rfl
  | drainIn => cases h; rfl
  | dBranch => exact absurd rfl h1
  | dEom => exact absurd rfl h2
  | dLeaf b => exact absurd rfl (h3 b)

/-- The first move of a command does not hold. -/
theorem start_notHeld {i : Instr} {s t : State} (h1 : i ≠ .dBranch) (h2 : i ≠ .dEom) (h3 : ∀ b, i ≠ .dLeaf b)
    (h : start i s = .next t) : t.NotHeld := by
  cases i with
  | nop => cases h; intro c; simp
  | treeEnc => cases h; intro c; simp [beginTreeEnc]
  | treeDec => cases h; intro c; simp [beginTreeDec]
  | tableBuild => cases h; intro c; simp [beginTableBuild]
  | symEnc =>
    cases h
    intro c
    unfold beginSymEnc
    split <;> simp
  | symDec =>
    cases h
    intro c
    rcases enterTraverse_cases false s with h | h | ⟨_, _, _, h⟩ <;> rw [h] <;> simp
  | flush => cases h; intro c; simp
  | compress => cases h; intro c; simp [beginCompress]
  | decompress => cases h; intro c; simp [beginTreeDec]
  | sinkReset => cases h; intro c; simp
  | sourceReset => cases h; intro c; simp
  | drainIn => cases h; intro c; simp
  | dBranch => exact absurd rfl h1
  | dEom => exact absurd rfl h2
  | dLeaf b => exact absurd rfl (h3 b)

/-- A turn of the core with one more item to come is the turn, continued after the item is appended (R15, R83). -/
theorem coreTurn_more (x : InItem) {s t : State} (hs : s.NotHeld) (h : s.coreTurn = .next t) :
    (s.more x).coreTurn = (t.appendIn x).coreTurn := by
  have cont : ∀ u v : State, u.fetchCommand = none → u.NotHeld → v = u.resume →
      (Host.Outcome.next (u.more x).resume : Outcome) = (v.appendIn x).coreTurn := by
    intro u v hf hn hv
    obtain ⟨n, hr⟩ := reaches_all hf
    rw [resume_more x n u hr hf hn, ← hv]
    have hfv : (v.appendIn x).fetchCommand = none := by
      rcases settled_resume hf with h | ⟨c, h⟩
      · rw [hv]; simp [fetchCommand, appendIn, h]
      · rw [hv]
        cases c with
        | issued w =>
          -- no hold is at a command that has not begun
          exfalso
          have hu : ∀ m (a : State), a.fetchCommand = none → a.NotHeld → tick^[m] a = a.resume → a.resume.seq ≠ .held (.issued w) := by
            intro m
            induction m with
            | zero =>
              intro a _ hna hm
              rw [Function.iterate_zero, id] at hm
              rw [← hm]; exact hna _
            | succ m ih =>
              intro a hfa hna hm
              rw [Function.iterate_succ_apply, ← resume_tick a] at hm
              by_cases hta : a.tick.NotHeld
              · rw [← resume_tick a]; exact ih a.tick (fetchCommand_tick hfa) hta hm
              · have : ∃ c, a.tick.seq = .held c := by
                  simp only [NotHeld, not_forall, ne_eq, not_not] at hta; exact hta
                rw [← resume_tick a, resume_stop (.inr this)]
                exact held_tick_ne hna w
          exact hu n u hf hn hr h
        | walk _ _ => simp [fetchCommand, appendIn, h]
        | write _ _ => simp [fetchCommand, appendIn, h]
        | treeDec _ _ => simp [fetchCommand, appendIn, h]
        | traverse _ _ _ => simp [fetchCommand, appendIn, h]
        | drain => simp [fetchCommand, appendIn, h]
        | payload => simp [fetchCommand, appendIn, h]
    simp [coreTurn, hfv]
  rcases coreTurn_cases s with ⟨hf, ht⟩ | ⟨w, hf, ⟨i, hd, ht⟩ | ⟨⟨e, hd⟩, ht⟩⟩
  · rw [h] at ht; cases ht
    have hfm : (s.more x).fetchCommand = none := hf
    have : (s.more x).coreTurn = .next (s.more x).resume := by simp [coreTurn, hfm]
    rw [this]
    exact cont s _ hf hs rfl
  · obtain ⟨h1, h2, h3⟩ := decodeWord_isCommand hd
    obtain ⟨u, hst, hfu, he⟩ := start_exec h1 h2 h3 s
    obtain ⟨u', hst', hfu', he'⟩ := start_exec h1 h2 h3 (s.more x)
    rw [start_more x h1 h2 h3 hst] at hst'
    cases hst'
    have hfm : (s.more x).fetchCommand = some w := hf
    have : (s.more x).coreTurn = exec i (s.more x) := by simp [coreTurn, hfm, hd]
    rw [this, he']
    rw [h, he] at ht; cases ht
    exact cont u _ hfu (start_notHeld h1 h2 h3 hst) rfl
  · rw [h] at ht; cases ht
    have hfm : (s.more x).fetchCommand = some w := hf
    have : (s.more x).coreTurn = .next (s.more x).illegalCommand := by simp [coreTurn, hfm, hd]
    rw [this]
    have hi : (s.illegalCommand.appendIn x) = (s.more x).illegalCommand := rfl
    rw [hi]
    simp [coreTurn, fetchCommand, resume, illegalCommand]

end State

end Sys2Proof.Machine
end

