-- ==== Sys2Proof/Laws/Registers.lean ====
section
/-!
SUPPORT. Host register accesses: what a read returns and what a write leads to, in and out of a command.
-/

namespace Sys2Proof.Machine

/-- A word built bit by bit from its most significant end. -/
theorem getLsbD_foldl_bits (f : Nat → Bool) : ∀ (n : Nat), n ≤ 32 → ∀ j, j < 32 →
    ((List.range n).foldl (fun (v : Word) t => (v <<< 1) ||| (BitVec.ofBool (f t)).setWidth 32) 0).getLsbD j =
      (decide (j < n) && f (n - 1 - j)) := by
  intro n
  induction n with
  | zero => intro _ j _; simp
  | succ n ih =>
    intro hn j hj
    rw [List.range_succ, List.foldl_append]
    simp only [List.foldl_cons, List.foldl_nil, BitVec.getLsbD_or, BitVec.getLsbD_shiftLeft, BitVec.getLsbD_setWidth,
      BitVec.getLsbD_ofBool]
    cases j with
    | zero => simp
    | succ j =>
      have h1 := ih (by omega) j (by omega)
      simp only [Nat.add_sub_cancel]
      rw [h1, show n - (j + 1) = n - 1 - j by omega]
      simp [hj]

/-- CODE_DATA shows the path in stream order, the first bit of the word at bit 31 (R48, R122). -/
theorem getLsbD_pathWord (e : CodeEntry) (w : Nat) {t : Nat} (ht : t < 32) : (pathWord e w).getLsbD (31 - t) =
    (decide (32 * w + t < e.len.toNat) && e.path.getD (32 * w + t) false) := by
  unfold pathWord
  rw [getLsbD_foldl_bits (fun t => decide (32 * w + t < e.len.toNat) && e.path.getD (32 * w + t) false) 32 (by omega) _ (by omega)]
  simp [show 31 - (31 - t) = t by omega, show 31 - t < 32 by omega]

namespace State

theorem busy_events (s : State) (e : List Event) : ({ s with events := e } : State).busy = s.busy := rfl

theorem regValue_events (s : State) (e : List Event) (r : Reg) : ({ s with events := e } : State).regValue r = s.regValue r := by
  cases r <;> rfl

/-- While BUSY = 0 a read returns the register's value (R64). -/
theorem readsAs_idle {s : State} (h : s.busy = false) (r : Reg) : s.ReadsAs r (s.regValue r) := by
  intro o rest ho
  simp only [step, hostRead, ho, busy_events, h, Bool.false_and, Bool.false_eq_true, if_false, regValue_events]

/-- STATUS, ID and CFG are exact at any time (R66). -/
theorem readsAs_exact (s : State) {r : Reg} (h : exactWhileBusy r = true) : s.ReadsAs r (s.regValue r) := by
  intro o rest ho
  simp only [step, hostRead, ho, h, Bool.not_true, Bool.and_false, Bool.false_eq_true, if_false, regValue_events]

/-- Any other register read while BUSY = 1 is a free draw (R66). -/
theorem read_busy {s : State} (h : s.busy = true) {r : Reg} (hr : exactWhileBusy r = false) {o : BitVec 8} {rest : List Event}
    (ho : Reg.ofOffset o = some r) :
    step { s with events := .read o :: rest } = .next { s with
      events := rest
      reads := s.reads ++ [Config.freeRead s.freeCount]
      freeCount := s.freeCount + 1 } := by
  simp only [step, hostRead, ho, busy_events, h, hr, Bool.not_false, Bool.and_self, if_true]

theorem writeReg_events (s : State) (e : List Event) (r : Reg) (v : Word) :
    ({ s with events := e } : State).writeReg r v = { s.writeReg r v with events := e } := by
  cases r with
  | cmd =>
    show State.writeCmd _ _ = { s.writeCmd v with events := e }
    unfold writeCmd
    cases s.err.isSome <;> simp [accept]
  | status =>
    show State.statusWrite _ _ = { s.statusWrite v with events := e }
    unfold statusWrite ackError
    cases v.getLsbD 1 <;> cases v.getLsbD 2 <;> cases v.getLsbD 5 <;> rfl
  | nodeData =>
    show State.writeNodeData _ _ = { s.writeNodeData v with events := e }
    unfold writeNodeData
    split <;> rfl
  | _ => rfl

/-- While BUSY = 0 a write does what the register's rule says (R64). -/
theorem writesTo_idle {s : State} (h : s.busy = false) (r : Reg) (v : Word) : s.WritesTo r v (s.writeReg r v) := by
  intro o rest ho
  simp only [step, hostWrite, ho, busy_events, h, Bool.false_eq_true, if_false, writeReg_events]

/-- While BUSY = 1 a write only sets CMD_OVR (R60). -/
theorem writesTo_busy {s : State} (h : s.busy = true) (r : Reg) (v : Word) : s.WritesTo r v { s with cmdOvr := true } := by
  intro o rest _
  simp only [step, hostWrite, busy_events, h, if_true]

/-- A write leads to one state, but for the turns still to come. -/
theorem writesTo_unique {s t u : State} {r : Reg} {v : Word} (ht : s.WritesTo r v t) (hu : s.WritesTo r v u) :
    { t with events := s.events } = { u with events := s.events } := by
  have ho : Reg.ofOffset r.offset = some r := by cases r <;> rfl
  have h1 := ht r.offset s.events ho
  rw [hu r.offset s.events ho] at h1
  injection h1 with h1
  exact h1.symm

theorem ofOffset_offset (r : Reg) : Reg.ofOffset r.offset = some r := by cases r <;> rfl

/-- One read of `WAIT` changes the host's record and the turns still to come, and nothing else (R124). -/
theorem waitTurn_eq (s : State) : s.waitTurn = { s with
    reads := s.reads ++ [s.statusWord], events := if s.busy then waitAgain s.events else s.events } := by
  have h : s.hostRead Reg.status.offset = { s with reads := s.reads ++ [s.statusWord] } := by
    simp only [hostRead, ofOffset_offset, exactWhileBusy, Bool.not_true, Bool.and_false, Bool.false_eq_true, if_false]
    rfl
  unfold waitTurn
  rw [h]
  cases s.busy <;> rfl

end State

end Sys2Proof.Machine
end

