-- ==== Sys2Proof/Laws/Invariants.lean ====
section
/-!
SUPPORT. What each move of the core and of the host does to the two invariants of Safety.lean: the storage invariant (R52, R54,
R55, R96, R257) and the table invariant (R53).
-/

namespace Sys2Proof.Machine

/-! ### Parts -/

theorem tableWf_putAll_entry {cfg : Config} {t : CodeTable} (h : ∀ e ∈ t, e.2.ok cfg) {k : Nat} {x : CodeEntry}
    (hx : x.ok cfg) : ∀ e ∈ tablePut t k x, e.2.ok cfg := by
  intro e he
  rcases mem_tablePut he with rfl | he
  · exact hx
  · exact h e he

theorem key_le (e : NodeEntry) : e.key.toNat ≤ 256 := by
  unfold NodeEntry.key
  split
  · have := e.sym.isLt; simp; omega
  · decide

/-- The table a walk's visits fill is in canonical form, and each of its entries has the length of its path (R52, R180). -/
theorem codesOf_ok {cfg : Config} (hc : cfg.wf = true) (m : Memory) : ∀ (order : List Visit) (t : CodeTable),
    (∀ v ∈ order, v.ok ∧ v.depth ≤ cfg.depthCap) → CodeTable.wf t = true → (∀ e ∈ t, e.2.ok cfg) →
    CodeTable.wf (order.foldl (codeOfVisit m) t) = true ∧ ∀ e ∈ order.foldl (codeOfVisit m) t, e.2.ok cfg := by
  have hd : cfg.depthCap ≤ 256 := by
    simp only [Config.wf, Bool.and_eq_true, decide_eq_true_eq] at hc; exact hc.2
  intro order
  induction order with
  | nil => intro t _ h1 h2; exact ⟨h1, h2⟩
  | cons v order ih =>
    intro t hv h1 h2
    have hv0 := hv v List.mem_cons_self
    have hentry : CodeEntry.ok cfg { len := BitVec.ofNat 9 v.depth, path := v.path } := by
      refine ⟨?_, ?_⟩
      · simp only [BitVec.toNat_ofNat]
        rw [Nat.mod_eq_of_lt (by omega), ← hv0.1]
      · rw [hv0.1]; exact hv0.2
    rw [List.foldl_cons]
    refine ih _ (fun x hx => hv x (List.mem_cons_of_mem _ hx)) ?_ ?_
    · unfold codeOfVisit
      split
      · exact h1
      · next e he =>
        have hk := key_le e
        split
        · exact tablePut_wf h1 _ (Nat.zero_le _) (by omega)
        · exact tablePut_wf h1 _ (Nat.zero_le _) (by omega)
        · exact h1
        · exact h1
    · unfold codeOfVisit
      split
      · exact h2
      · split
        · exact tableWf_putAll_entry h2 hentry
        · exact tableWf_putAll_entry h2 hentry
        · exact h2
        · exact h2

/-- One visit keeps the bounds of a walk's cursor (R96, R140). -/
theorem walkVisit_ok {cfg : Config} {m : Memory} {dup : Bool} {u : WalkUse} {v : Visit} {rest : List Visit} {w w' : WalkState}
    (hs : w.stack = v :: rest) (h : Cursor.ok cfg (.walk u w)) (hv : walkVisit cfg m dup v rest w = .ok w') :
    Cursor.ok cfg (.walk u w') := by
  obtain ⟨_, h2, h3⟩ := h
  rw [hs] at h2
  have hvok : v.ok := h2 v List.mem_cons_self
  have hrest : ∀ x ∈ rest, x.ok := fun x hx => h2 x (List.mem_cons_of_mem _ hx)
  unfold walkVisit at hv
  split at hv
  · cases hv
  · split at hv
    · cases hv
    · next hd =>
      split at hv
      · cases hv
      · next hn =>
        have horder : ∀ x ∈ w.order ++ [v], x.ok ∧ x.depth ≤ cfg.depthCap := by
          intro x hx
          rcases List.mem_append.1 hx with hx | hx
          · exact h3 x hx
          · simp only [List.mem_singleton] at hx; subst hx; exact ⟨hvok, by omega⟩
        split at hv
        · cases hv
          refine ⟨by simp only; omega, ?_, horder⟩
          intro x hx
          simp only [List.mem_cons] at hx
          rcases hx with rfl | rfl | hx
          · simp only [Visit.ok, List.length_append, List.length_singleton] at hvok ⊢; omega
          · simp only [Visit.ok, List.length_append, List.length_singleton] at hvok ⊢; omega
          · exact hrest x hx
        · split at hv
          · cases hv
          · cases hv
            exact ⟨by simp only; omega, hrest, horder⟩

namespace State

theorem readNode_icnt {n d : Nat} : ∀ (f : Nat) (code : Bits) (s : State), s.icnt.toNat ≤ 8 →
    (∀ k t, readNode n d f code s = .code k t → t.icnt.toNat ≤ 8) ∧
    (∀ c t, readNode n d f code s = .hold c t → t.icnt.toNat ≤ 8) ∧
    (∀ e t, readNode n d f code s = .fail e t → t.icnt.toNat ≤ 8) := by
  intro f
  induction f with
  | zero =>
    intro code s h
    refine ⟨?_, ?_, ?_⟩
    · intro k t hr; cases hr
    · intro k t hr; cases hr
    · intro k t hr; cases hr; exact h
  | succ f ih =>
    intro code s h
    cases hb : s.bitRead with
    | hold =>
      have l : readNode n d (f + 1) code s = .hold code s := by simp only [readNode, hb]
      rw [l]
      refine ⟨?_, ?_, ?_⟩
      · intro k t hr; cases hr
      · intro k t hr; cases hr; exact h
      · intro k t hr; cases hr
    | exhausted t =>
      have l : readNode n d (f + 1) code s = .fail .malformedTree t := by simp only [readNode, hb]
      have ht : t.icnt = s.icnt := by rw [(bitRead_exhausted hb).1]
      rw [l]
      refine ⟨?_, ?_, ?_⟩
      · intro k t hr; cases hr
      · intro k t hr; cases hr
      · intro k t hr; cases hr; rw [ht]; exact h
    | bit b t =>
      have h8 := icnt_bitRead h hb
      cases hc : (if code = [] then firstBitCheck t.cfg n d else none) with
      | some e =>
        have l : readNode n d (f + 1) code s = .fail e t := by simp only [readNode, hb, hc]
        rw [l]
        refine ⟨?_, ?_, ?_⟩
        · intro k t hr; cases hr
        · intro k t hr; cases hr
        · intro k t hr; cases hr; exact h8
      | none =>
        cases hd : decodeNode (code ++ [b]) with
        | ok p =>
          have l : readNode n d (f + 1) code s = .code p.1 t := by simp only [readNode, hb, hc, hd]
          rw [l]
          refine ⟨?_, ?_, ?_⟩
          · intro k t hr; cases hr; exact h8
          · intro k t hr; cases hr
          · intro k t hr; cases hr
        | error e =>
          have l : readNode n d (f + 1) code s = readNode n d f (code ++ [b]) t := by simp only [readNode, hb, hc, hd]
          rw [l]
          exact ih _ t h8

theorem icnt_exhausted {s t : State} (h : s.bitRead = .exhausted t) : t.icnt = s.icnt := by
  rw [(bitRead_exhausted h).1]

end State

/-! ### The storage invariant -/

namespace State

/-- A state that keeps the storage keeps the invariant, its sequencer being as it should. -/
theorem StorageInv.same {s t : State} (h : s.StorageInv) (h1 : t.cfg = s.cfg) (h2 : t.nodes = s.nodes) (h3 : t.codes = s.codes)
    (h4 : t.obuf = s.obuf) (h5 : t.ocnt = s.ocnt) (h6 : t.icnt.toNat ≤ 8) (h7 : t.nodeCount = s.nodeCount)
    (h8 : t.err ≠ none → t.seq = .idle) (h9 : ∀ c, t.seq = .running c ∨ t.seq = .held c → c.ok s.cfg) : t.StorageInv where
  cfg := by rw [h1]; exact h.cfg
  nodes := by rw [h1, h2]; exact h.nodes
  codes := by rw [h3]; exact h.codes
  entries := by rw [h1, h3]; exact h.entries
  sink := by rw [h4, h5]; exact h.sink
  source := h6
  count := by rw [h1, h7]; exact h.count
  error := h8
  cursor := by rw [h1]; exact h9

theorem noCursor {t : State} (h : t.seq = .idle) {P : Cursor → Prop} : ∀ c, t.seq = .running c ∨ t.seq = .held c → P c := by
  intro c hc
  rw [h] at hc
  rcases hc with hc | hc <;> cases hc

theorem oneCursor {t : State} {c : Cursor} (h : t.seq = .running c ∨ t.seq = .held c) {P : Cursor → Prop} (hp : P c) :
    ∀ c', t.seq = .running c' ∨ t.seq = .held c' → P c' := by
  intro c' hc
  rcases h with h | h <;> rw [h] at hc <;> rcases hc with hc | hc <;> cases hc <;> exact hp

/-- While a command runs no error is recorded (R257). -/
theorem StorageInv.noError {s : State} (h : s.StorageInv) {q : Seq} (hs : s.seq = q) (hq : q ≠ .idle) : s.err = none := by
  by_contra he
  exact hq (hs ▸ h.error he)

theorem StorageInv.succeed {s : State} (h : s.StorageInv) : s.succeed.StorageInv :=
  h.same rfl rfl rfl rfl rfl h.source rfl (fun _ => rfl) (noCursor rfl)

theorem StorageInv.raise {s : State} (h : s.StorageInv) (e : ErrorCode) : (s.raise e).StorageInv :=
  h.same rfl rfl rfl rfl rfl h.source rfl (fun _ => rfl) (noCursor rfl)

theorem StorageInv.setCursor {s : State} (h : s.StorageInv) {c : Cursor} (he : s.err = none) (hc : c.ok s.cfg) :
    (s.setCursor c).StorageInv :=
  h.same rfl rfl rfl rfl rfl h.source rfl (fun h' => absurd he h') (oneCursor (.inl rfl) hc)

theorem StorageInv.holdAt {s : State} (h : s.StorageInv) {c : Cursor} (he : s.err = none) (hc : c.ok s.cfg) :
    (s.holdAt c).StorageInv :=
  h.same rfl rfl rfl rfl rfl h.source rfl (fun h' => absurd he h') (oneCursor (.inr rfl) hc)

theorem StorageInv.outWrite {s : State} (h : s.StorageInv) (b : Byte) : (s.outWrite b).StorageInv :=
  h.same rfl rfl rfl rfl rfl h.source rfl h.error h.cursor

theorem StorageInv.bitWrite {s : State} (h : s.StorageInv) (b : Bool) : (s.bitWrite b).StorageInv where
  cfg := by simpa using h.cfg
  nodes := by simpa using h.nodes
  codes := by simpa using h.codes
  entries := by simpa using h.entries
  sink := bitWrite_sinkClear h.sink b
  source := by simpa using h.source
  count := by simpa using h.count
  error := by simpa using h.error
  cursor := by simpa using h.cursor

theorem StorageInv.sinkFlush {s : State} (h : s.StorageInv) : s.sinkFlush.StorageInv where
  cfg := by simpa using h.cfg
  nodes := by simpa using h.nodes
  codes := by simpa using h.codes
  entries := by simpa using h.entries
  sink := by rw [obuf_sinkFlush h.sink]; intro i _; simp
  source := by simpa using h.source
  count := by simpa using h.count
  error := by simpa using h.error
  cursor := by simpa using h.cursor

theorem StorageInv.fillTable {s : State} (h : s.StorageInv) {order : List Visit}
    (ho : ∀ v ∈ order, v.ok ∧ v.depth ≤ s.cfg.depthCap) : (s.fillTable order).StorageInv := by
  obtain ⟨h1, h2⟩ := codesOf_ok h.cfg s.nodes order [] ho rfl (by simp)
  exact { cfg := h.cfg, nodes := h.nodes, codes := h1, entries := h2, sink := h.sink, source := h.source, count := h.count,
          error := h.error, cursor := h.cursor }

theorem StorageInv.clearTable {s : State} (h : s.StorageInv) : s.clearTable.StorageInv where
  cfg := h.cfg
  nodes := h.nodes
  codes := rfl
  entries := by intro e he; simp [State.clearTable] at he
  sink := h.sink
  source := h.source
  count := h.count
  error := h.error
  cursor := h.cursor

theorem depthCap_nonneg (cfg : Config) (c : Bool) (i : BitVec 16) : Cursor.ok cfg (.traverse c i 0) := Nat.zero_le _

theorem StorageInv.enterTraverse {s : State} (h : s.StorageInv) (he : s.err = none) (c : Bool) :
    (s.enterTraverse c).StorageInv := by
  rcases enterTraverse_cases c s with hx | hx | ⟨e, _, _, hx⟩
  · rw [hx]; exact h.raise _
  · rw [hx]; exact h.raise _
  · rw [hx]; exact h.setCursor he (Nat.zero_le _)

theorem StorageInv.endWithKey {s : State} (h : s.StorageInv) (k : BitVec 9) : (s.endWithKey k).StorageInv :=
  h.same rfl rfl rfl rfl rfl h.source rfl (fun _ => rfl) (noCursor rfl)

/-- A read bit keeps the storage. -/
theorem StorageInv.bit {s t : State} {b : Bool} (h : s.StorageInv) (hb : s.bitRead = .bit b t) : t.StorageInv := by
  have hf := bitRead_frame hb
  have h8 := icnt_bitRead h.source hb
  refine h.same ?_ ?_ ?_ ?_ ?_ h8 ?_ ?_ ?_
  all_goals rw [hf]
  · exact h.error
  · exact h.cursor

theorem StorageInv.exhausted {s t : State} (h : s.StorageInv) (hb : s.bitRead = .exhausted t) : t.StorageInv := by
  have hf := (bitRead_exhausted hb).1
  have h8 : t.icnt.toNat ≤ 8 := by rw [icnt_exhausted hb]; exact h.source
  refine h.same ?_ ?_ ?_ ?_ ?_ h8 ?_ ?_ ?_
  all_goals rw [hf]
  · exact h.error
  · exact h.cursor

theorem StorageInv.traverseTick {s : State} (h : s.StorageInv) {c : Bool} {i : BitVec 16} {d : Nat}
    (hs : s.seq = .running (.traverse c i d)) : (s.traverseTick c i d).StorageInv := by
  have he := h.noError hs (by simp)
  have hd : d ≤ s.cfg.depthCap := h.cursor _ (.inl hs)
  unfold State.traverseTick
  split
  · exact h.raise _
  · split
    · split
      · exact h.holdAt he hd
      · next t ht => exact (h.exhausted ht).raise _
      · next b t ht =>
        have hti := h.bit ht
        have hte : t.err = none := by rw [bitRead_frame ht]; exact he
        unfold moveTo
        simp only
        split
        · exact hti.raise _
        · split
          · exact hti.raise _
          · exact hti.setCursor hte (by simp only [Cursor.ok]; omega)
    · unfold leafReached
      split
      · split
        · exact h.endWithKey _
        · exact (h.outWrite _).enterTraverse he true
      · exact h.endWithKey _

/-- The source after reading bits of a node code. -/
theorem StorageInv.sourceOnly {s t : State} (h : s.StorageInv) (h8 : t.icnt.toNat ≤ 8)
    (hf : t = { s with ibuf := t.ibuf, icnt := t.icnt, inq := t.inq, inBits := t.inBits }) : t.StorageInv := by
  refine h.same ?_ ?_ ?_ ?_ ?_ h8 ?_ ?_ ?_
  all_goals rw [hf]
  · exact h.error
  · exact h.cursor

theorem StorageInv.treeDecTick {s : State} (h : s.StorageInv) {c : Bool} {k : TreeCursor}
    (hs : s.seq = .running (.treeDec c k)) : (s.treeDecTick c k).StorageInv := by
  have he := h.noError hs (by simp)
  have hcur : k.n ≤ s.cfg.nodeCap ∧ (k.code ≠ [] → k.n < s.cfg.nodeCap) := h.cursor _ (.inl hs)
  have hcap : s.cfg.nodeCap ≤ 65535 := by
    have := h.cfg
    simp only [Config.wf, Bool.and_eq_true, decide_eq_true_eq] at this
    omega
  rcases treeDecTick_cases hs with ⟨_, ht⟩ | ⟨hole, rest, _, ⟨x, t, hr, hc, hf, ht⟩ | ⟨code, t, hr, _, hc, hf, ht⟩ | ⟨e, t, hr, _, hf, ht⟩⟩
  · rw [ht]
    have h1 : ({ s with nodeCount := BitVec.ofNat 17 k.n } : State).StorageInv :=
      { h with count := by simp only [BitVec.toNat_ofNat]; rw [Nat.mod_eq_of_lt (by omega)]; exact hcur.1 }
    unfold finishTree
    split
    · exact h1.enterTraverse he true
    · exact h1.succeed
  · have h8 := (readNode_icnt 10 k.code s h.source).1 x t hr
    have hti := h.sourceOnly h8 hf
    have hcfg : t.cfg = s.cfg := by rw [hf]
    have hn : k.n < s.cfg.nodeCap := by
      by_cases hk : k.code = []
      · exact (firstBitCheck_none.1 (hc hk)).1
      · exact hcur.2 hk
    rw [ht]
    exact { cfg := hti.cfg
            nodes := by rw [hcfg]; exact place_wf h.nodes hole.slot hn x
            codes := hti.codes, entries := hti.entries, sink := hti.sink, source := hti.source, count := hti.count
            error := by intro h'; exact absurd (show t.err = none by rw [hf]; exact he) h'
            cursor := by
              refine oneCursor (.inl rfl) ?_
              simp only [Cursor.ok, hcfg]
              exact ⟨by omega, by simp⟩ }
  · have h8 := (readNode_icnt 10 k.code s h.source).2.1 code t hr
    have hti := h.sourceOnly h8 hf
    have hcfg : t.cfg = s.cfg := by rw [hf]
    rw [ht]
    refine hti.holdAt (by rw [hf]; exact he) ?_
    rw [hcfg]
    refine ⟨hcur.1, ?_⟩
    simp only
    intro hne
    by_cases hk : k.code = []
    · exact (firstBitCheck_none.1 (hc hk hne)).1
    · exact hcur.2 hk
  · have h8 := (readNode_icnt 10 k.code s h.source).2.2 e t hr
    have hti := h.sourceOnly h8 hf
    rw [ht]
    have h1 : ({ t with nodes := [], nodeCount := 0 } : State).StorageInv :=
      { hti with nodes := rfl, count := Nat.zero_le _ }
    exact h1.raise e

theorem StorageInv.afterWalkTick {s : State} (h : s.StorageInv) (he : s.err = none) (u : WalkUse) {w : WalkState}
    (hw : Cursor.ok s.cfg (.walk u w)) : (s.afterWalkTick u (.ok w.order)).StorageInv := by
  have hf := h.fillTable hw.2.2
  cases u with
  | treeEnc => exact h.setCursor he trivial
  | tableBuild => exact hf.succeed
  | compress =>
    simp only [State.afterWalkTick]
    split
    · exact hf.raise _
    · exact hf.setCursor he trivial

/-- Every iteration keeps the storage invariant. -/
theorem StorageInv.tick {s : State} (h : s.StorageInv) : s.tick.StorageInv := by
  cases hs : s.seq with
  | idle => simpa [State.tick, hs] using h
  | held c => simpa [State.tick, hs] using h
  | running c =>
    have he := h.noError hs (by simp)
    cases c with
    | issued w => simpa [State.tick, hs] using h
    | walk u w =>
      have hc := h.cursor _ (.inl hs)
      have ht : s.tick = s.walkTick u w := by simp [State.tick, hs]
      rw [ht]
      unfold State.walkTick
      split
      · exact h.afterWalkTick he u hc
      · next v rest hst =>
        split
        · exact h.raise _
        · next w' hv => exact h.setCursor he (walkVisit_ok hst hc hv)
    | write bs next =>
      have ht : s.tick = s.writeTick bs next := by simp [State.tick, hs]
      rw [ht]
      cases bs with
      | nil =>
        cases next with
        | treeEnc => exact h.succeed
        | symEnc => exact h.succeed
        | payload => exact h.setCursor he trivial
        | flush => exact h.sinkFlush.succeed
      | cons b bs => exact (h.bitWrite b).setCursor (by simpa using he) trivial
    | treeDec c k =>
      have ht : s.tick = s.treeDecTick c k := by simp [State.tick, hs]
      rw [ht]; exact h.treeDecTick hs
    | traverse c i d =>
      have ht : s.tick = s.traverseTick c i d := by simp [State.tick, hs]
      rw [ht]; exact h.traverseTick hs
    | drain =>
      have ht : s.tick = s.drainTick := by simp [State.tick, hs]
      rw [ht]
      unfold State.drainTick
      split
      · exact h.holdAt he trivial
      · exact h.same rfl rfl rfl rfl rfl h.source rfl (fun _ => rfl) (noCursor rfl)
      · exact h.same rfl rfl rfl rfl rfl h.source rfl h.error h.cursor
    | payload =>
      have ht : s.tick = s.payloadTick := by simp [State.tick, hs]
      rw [ht]
      have hq : ∀ rest : List InItem, ({ s with inq := rest } : State).StorageInv := fun rest =>
        h.same rfl rfl rfl rfl rfl h.source rfl h.error h.cursor
      unfold State.payloadTick
      split
      · exact h.holdAt he trivial
      · exact (hq _).setCursor he trivial
      · split
        · exact (hq _).raise _
        · exact (hq _).setCursor he trivial

theorem StorageInv.iterate {s : State} (h : s.StorageInv) (n : Nat) : (State.tick^[n] s).StorageInv := by
  induction n generalizing s with
  | zero => exact h
  | succ n ih => rw [Function.iterate_succ_apply]; exact ih h.tick

theorem StorageInv.resume {s : State} (h : s.StorageInv) (hf : s.fetchCommand = none) : s.resume.StorageInv := by
  obtain ⟨n, hn⟩ := reaches_all hf
  rw [← hn]; exact h.iterate n

/-- The first move of a command keeps the storage invariant. -/
theorem StorageInv.start {s t : State} (h : s.StorageInv) (he : s.err = none) {i : Instr} (h1 : i ≠ .dBranch) (h2 : i ≠ .dEom)
    (h3 : ∀ b, i ≠ .dLeaf b) (ht : Machine.start i s = .next t) : t.StorageInv := by
  have walk0 : ∀ u, Cursor.ok s.cfg (.walk u (WalkState.start s.root)) := by
    intro u
    refine ⟨Nat.zero_le _, ?_, ?_⟩
    · intro v hv; simp only [WalkState.start, List.mem_singleton] at hv; subst hv; rfl
    · intro v hv; simp [WalkState.start] at hv
  have begin : ∀ c, (s.beginTreeDec c).StorageInv := by
    intro c
    exact { cfg := h.cfg, nodes := rfl, codes := h.codes, entries := h.entries, sink := h.sink, source := h.source
            count := Nat.zero_le _
            error := fun h' => absurd he h'
            cursor := by refine oneCursor (.inl rfl) ?_; exact ⟨Nat.zero_le _, by simp⟩ }
  cases i with
  | nop => cases ht; exact h.succeed
  | treeEnc => cases ht; exact h.setCursor he (walk0 _)
  | treeDec => cases ht; exact begin _
  | tableBuild => cases ht; exact h.clearTable.setCursor he (walk0 _)
  | symEnc =>
    cases ht
    unfold beginSymEnc
    split
    · exact h.raise _
    · exact h.setCursor he trivial
  | symDec => cases ht; exact h.enterTraverse he false
  | flush => cases ht; exact h.sinkFlush.succeed
  | compress => cases ht; exact h.clearTable.setCursor he (walk0 _)
  | decompress => cases ht; exact begin _
  | sinkReset =>
    cases ht
    exact { cfg := h.cfg, nodes := h.nodes, codes := h.codes, entries := h.entries, sink := by intro i _; simp
            source := h.source, count := h.count, error := fun _ => rfl, cursor := noCursor rfl }
  | sourceReset =>
    cases ht
    exact h.same rfl rfl rfl rfl rfl (Nat.zero_le _) rfl (fun _ => rfl) (noCursor rfl)
  | drainIn => cases ht; exact h.setCursor he trivial
  | dBranch => exact absurd rfl h1
  | dEom => exact absurd rfl h2
  | dLeaf b => exact absurd rfl (h3 b)

/-! ### The host's moves -/

theorem StorageInv.hostRead {s : State} (h : s.StorageInv) (o : BitVec 8) : (s.hostRead o).StorageInv := by
  unfold State.hostRead
  split
  · exact h.same rfl rfl rfl rfl rfl h.source rfl h.error h.cursor
  · split
    · exact h.same rfl rfl rfl rfl rfl h.source rfl h.error h.cursor
    · exact h.same rfl rfl rfl rfl rfl h.source rfl h.error h.cursor

theorem StorageInv.statusWrite {s : State} (h : s.StorageInv) (w : Word) : (s.statusWrite w).StorageInv := by
  have h1 : (if w.getLsbD 1 then { s with done := false } else s).StorageInv := by
    split
    · exact h.same rfl rfl rfl rfl rfl h.source rfl h.error h.cursor
    · exact h
  unfold State.statusWrite
  simp only
  generalize (if w.getLsbD 1 then { s with done := false } else s) = a at *
  have h2 : (if w.getLsbD 2 then a.ackError else a).StorageInv := by
    split
    · exact h1.same rfl rfl rfl rfl rfl h1.source rfl (fun h' => absurd rfl h') h1.cursor
    · exact h1
  generalize (if w.getLsbD 2 then a.ackError else a) = b at *
  split
  · exact h2.same rfl rfl rfl rfl rfl h2.source rfl h2.error h2.cursor
  · exact h2

theorem StorageInv.hostWrite {s : State} (h : s.StorageInv) (o : BitVec 8) (v : Word) : (s.hostWrite o v).StorageInv := by
  unfold State.hostWrite
  split
  · exact h.same rfl rfl rfl rfl rfl h.source rfl h.error h.cursor
  · next hb =>
    have hidle : s.seq = .idle := by simpa [State.busy] using hb
    split
    · exact h
    · next r _ =>
      have triv : ∀ t : State, t.cfg = s.cfg → t.nodes = s.nodes → t.codes = s.codes → t.obuf = s.obuf → t.ocnt = s.ocnt →
          t.icnt = s.icnt → t.nodeCount = s.nodeCount → t.err = s.err → t.seq = s.seq → t.StorageInv :=
        fun t a1 a2 a3 a4 a5 a6 a7 a8 a9 => h.same a1 a2 a3 a4 a5 (by rw [a6]; exact h.source) a7
          (by rw [a8, a9]; exact h.error) (by rw [a9]; exact h.cursor)
      cases r <;> simp only [State.writeReg]
      case cmd =>
        unfold State.writeCmd
        split
        · exact triv _ rfl rfl rfl rfl rfl rfl rfl rfl rfl
        · next he =>
          exact h.same rfl rfl rfl rfl rfl h.source rfl
            (fun h' => absurd (by simpa using he) h') (by refine oneCursor (.inl rfl) ?_; exact trivial)
      case status => exact h.statusWrite v
      case nodeData =>
        unfold State.writeNodeData
        split
        · next ha =>
          exact { cfg := h.cfg, nodes := tablePut_wf h.nodes _ (Nat.zero_le _) ha, codes := h.codes, entries := h.entries
                  sink := h.sink, source := h.source, count := h.count, error := h.error, cursor := h.cursor }
        · exact h
      all_goals exact triv _ rfl rfl rfl rfl rfl rfl rfl rfl rfl

theorem StorageInv.appendIn {s : State} (h : s.StorageInv) (x : InItem) : (s.appendIn x).StorageInv := by
  refine h.same rfl rfl rfl rfl rfl h.source rfl ?_ ?_
  · intro h'
    have := h.error h'
    simp [State.appendIn, this]
  · intro c hc
    simp only [State.appendIn] at hc
    refine h.cursor c ?_
    split at hc
    · next c' hs => rcases hc with hc | hc <;> cases hc; exact .inr hs
    · exact hc

theorem StorageInv.takeOut {s : State} (h : s.StorageInv) : s.takeOut.StorageInv := by
  unfold State.takeOut
  split
  · exact h
  · exact h.same rfl rfl rfl rfl rfl h.source rfl h.error h.cursor

theorem StorageInv.resetBlock {s : State} (h : s.StorageInv) : s.resetBlock.StorageInv where
  cfg := h.cfg
  nodes := rfl
  codes := rfl
  entries := by intro e he; simp [State.resetBlock, State.reset] at he
  sink := by intro i _; simp [State.resetBlock, State.reset]
  source := by simp [State.resetBlock, State.reset]
  count := by simp [State.resetBlock, State.reset]
  error := fun _ => rfl
  cursor := noCursor rfl

theorem StorageInv.withEvents {s : State} (h : s.StorageInv) (evs : List Event) :
    ({ s with events := evs } : State).StorageInv :=
  h.same rfl rfl rfl rfl rfl h.source rfl h.error h.cursor

theorem StorageInv.waitTurn {s : State} (h : s.StorageInv) : s.waitTurn.StorageInv := by
  rw [waitTurn_eq]
  exact h.same rfl rfl rfl rfl rfl h.source rfl h.error h.cursor

theorem StorageInv.coreTurn {s t : State} (h : s.StorageInv) (ht : s.coreTurn = .next t) : t.StorageInv := by
  rcases coreTurn_cases s with ⟨hf, hc⟩ | ⟨w, hf, ⟨i, hd, hc⟩ | ⟨_, hc⟩⟩
  · rw [hc] at ht; cases ht; exact h.resume hf
  · obtain ⟨h1, h2, h3⟩ := decodeWord_isCommand hd
    obtain ⟨u, hst, hfu, he⟩ := start_exec h1 h2 h3 s
    rw [hc, he] at ht; cases ht
    have herr : s.err = none := by
      unfold fetchCommand at hf
      split at hf
      · next hs => exact h.noError hs (by simp)
      · cases hf
    exact (h.start herr h1 h2 h3 hst).resume hfu
  · rw [hc] at ht; cases ht; exact h.raise _

theorem StorageInv.coreTick {s t : State} (h : s.StorageInv) (ht : s.coreTick = .next t) : t.StorageInv := by
  cases hf : s.fetchCommand with
  | none => rw [coreTick_running hf] at ht; cases ht; exact h.tick
  | some w =>
    have herr : s.err = none := by
      unfold fetchCommand at hf
      split at hf
      · next hs => exact h.noError hs (by simp)
      · cases hf
    cases hd : decodeWord w with
    | ok i =>
      obtain ⟨h1, h2, h3⟩ := decodeWord_isCommand hd
      have : s.coreTick = Machine.start i s := by simp [State.coreTick, hf, hd]
      rw [this] at ht
      exact h.start herr h1 h2 h3 ht
    | error e =>
      have : s.coreTick = .next s.illegalCommand := by simp [State.coreTick, hf, hd]
      rw [this] at ht; cases ht; exact h.raise _

end State

/-! ### The table invariant -/

namespace State

/-- A state that keeps the tree, its root and the table keeps the invariant, its cursor being as it should. -/
theorem TableInv.same {s t : State} (h : s.TableInv) (h1 : t.cfg = s.cfg) (h2 : t.nodes = s.nodes) (h3 : t.root = s.root)
    (h4 : t.codes = s.codes) (h5 : t.tableValid = s.tableValid)
    (h6 : ∀ c, t.seq = .running c ∨ t.seq = .held c → s.TableCursor c) : t.TableInv where
  current := by
    intro hv
    obtain ⟨order, hw, hc⟩ := h.current (by rw [← h5]; exact hv)
    refine ⟨order, ?_, by rw [h4, h2]; exact hc⟩
    simpa [walk, walkFrom, h1, h2, h3] using hw
  cursor := by
    intro c hc
    have := h6 c hc
    cases c with
    | walk u w =>
      intro hu
      have := this hu
      simpa [walk, walkFrom, h1, h2, h3] using this
    | treeDec c k => exact h5.trans this
    | issued _ => trivial
    | write _ _ => trivial
    | traverse _ _ _ => trivial
    | drain => trivial
    | payload => trivial

/-- Where the table is not valid, nothing is asked of it. -/
theorem TableInv.invalid {t : State} (h : t.tableValid = false)
    (hc : ∀ c, t.seq = .running c ∨ t.seq = .held c → t.TableCursor c) : t.TableInv where
  current := fun hv => by rw [h] at hv; cases hv
  cursor := hc

theorem TableInv.succeed {s : State} (h : s.TableInv) : s.succeed.TableInv := h.same rfl rfl rfl rfl rfl (noCursor rfl)

theorem TableInv.raise {s : State} (h : s.TableInv) (e : ErrorCode) : (s.raise e).TableInv :=
  h.same rfl rfl rfl rfl rfl (noCursor rfl)

theorem TableInv.setCursor {s : State} (h : s.TableInv) {c : Cursor} (hc : s.TableCursor c) : (s.setCursor c).TableInv :=
  h.same rfl rfl rfl rfl rfl (oneCursor (.inl rfl) hc)

theorem TableInv.holdAt {s : State} (h : s.TableInv) {c : Cursor} (hc : s.TableCursor c) : (s.holdAt c).TableInv :=
  h.same rfl rfl rfl rfl rfl (oneCursor (.inr rfl) hc)

theorem TableInv.enterTraverse {s : State} (h : s.TableInv) (c : Bool) : (s.enterTraverse c).TableInv := by
  rcases enterTraverse_cases c s with hx | hx | ⟨e, _, _, hx⟩
  · rw [hx]; exact h.raise _
  · rw [hx]; exact h.raise _
  · rw [hx]; exact h.setCursor trivial

theorem TableInv.bit {s t : State} {b : Bool} (h : s.TableInv) (hb : s.bitRead = .bit b t) : t.TableInv := by
  have hf := bitRead_frame hb
  refine h.same ?_ ?_ ?_ ?_ ?_ ?_
  all_goals rw [hf]
  exact h.cursor

theorem TableInv.exhausted {s t : State} (h : s.TableInv) (hb : s.bitRead = .exhausted t) : t.TableInv := by
  have hf := (bitRead_exhausted hb).1
  refine h.same ?_ ?_ ?_ ?_ ?_ ?_
  all_goals rw [hf]
  exact h.cursor

theorem TableInv.traverseTick {s : State} (h : s.TableInv) (c : Bool) (i : BitVec 16) (d : Nat) :
    (s.traverseTick c i d).TableInv := by
  unfold State.traverseTick
  split
  · exact h.raise _
  · split
    · split
      · exact h.holdAt trivial
      · next t ht => exact (h.exhausted ht).raise _
      · next b t ht =>
        have hti := h.bit ht
        unfold moveTo
        simp only
        split
        · exact hti.raise _
        · split
          · exact hti.raise _
          · exact hti.setCursor trivial
    · have hend : ∀ k, (s.endWithKey k).TableInv := fun k => h.same rfl rfl rfl rfl rfl (noCursor rfl)
      unfold leafReached
      split
      · split
        · exact hend _
        · have hw : ∀ b, (s.outWrite b).TableInv := fun b => h.same rfl rfl rfl rfl rfl h.cursor
          exact (hw _).enterTraverse true
      · exact hend _

theorem TableInv.treeDecTick {s : State} (h : s.TableInv) {c : Bool} {k : TreeCursor}
    (hs : s.seq = .running (.treeDec c k)) : (s.treeDecTick c k).TableInv := by
  have hv : s.tableValid = false := h.cursor _ (.inl hs)
  rcases treeDecTick_cases hs with ⟨_, ht⟩ | ⟨hole, rest, _, ⟨x, t, _, _, hf, ht⟩ | ⟨code, t, _, _, _, hf, ht⟩ | ⟨e, t, _, _, hf, ht⟩⟩
  · rw [ht]
    have h1 : ({ s with nodeCount := BitVec.ofNat 17 k.n } : State).TableInv := h.same rfl rfl rfl rfl rfl h.cursor
    unfold finishTree
    split
    · exact h1.enterTraverse true
    · exact h1.succeed
  · have hvt : t.tableValid = false := by rw [hf]; exact hv
    rw [ht]
    exact .invalid hvt (by refine oneCursor (.inl rfl) ?_; exact hvt)
  · have hvt : t.tableValid = false := by rw [hf]; exact hv
    rw [ht]
    exact .invalid hvt (by refine oneCursor (.inr rfl) ?_; exact hvt)
  · have hvt : t.tableValid = false := by rw [hf]; exact hv
    rw [ht]
    exact .invalid hvt (noCursor rfl)

/-- Every iteration keeps the table invariant. -/
theorem TableInv.tick {s : State} (h : s.TableInv) : s.tick.TableInv := by
  cases hs : s.seq with
  | idle => simpa [State.tick, hs] using h
  | held c => simpa [State.tick, hs] using h
  | running c =>
    cases c with
    | issued w => simpa [State.tick, hs] using h
    | walk u w =>
      have hc : u ≠ .treeEnc → s.walkFrom true w = s.walk true := h.cursor _ (.inl hs)
      have ht : s.tick = s.walkTick u w := by simp [State.tick, hs]
      rw [ht]
      unfold State.walkTick
      split
      · next hst =>
        have fill : u ≠ .treeEnc → (s.fillTable w.order).TableInv := by
          intro hu
          have h1 := hc hu
          rw [walkFrom_nil s true hst] at h1
          refine ⟨fun _ => ⟨w.order, h1.symm, rfl⟩, ?_⟩
          refine oneCursor (.inl hs) ?_
          exact fun _ => hc hu
        cases u with
        | treeEnc => exact h.setCursor trivial
        | tableBuild => exact (fill (by simp)).succeed
        | compress =>
          simp only [State.afterWalkTick]
          split
          · exact (fill (by simp)).raise _
          · exact (fill (by simp)).setCursor trivial
      · next v rest hst =>
        split
        · exact h.raise _
        · next w' hv =>
          refine h.setCursor ?_
          intro hu
          have hd : walkDup u = true := by cases u <;> first | rfl | exact absurd rfl hu
          rw [hd] at hv
          rw [← hc hu, walkFrom_step s true hst, hv]
    | write bs next =>
      have ht : s.tick = s.writeTick bs next := by simp [State.tick, hs]
      rw [ht]
      cases bs with
      | nil =>
        cases next with
        | treeEnc => exact h.succeed
        | symEnc => exact h.succeed
        | payload => exact h.setCursor trivial
        | flush =>
          refine h.same ?_ ?_ ?_ ?_ ?_ (noCursor rfl) <;> simp [State.writeTick, State.afterWriteTick]
      | cons b bs =>
        refine h.same ?_ ?_ ?_ ?_ ?_ (by refine oneCursor (.inl rfl) ?_; exact trivial) <;> simp [State.writeTick]
    | treeDec c k =>
      have ht : s.tick = s.treeDecTick c k := by simp [State.tick, hs]
      rw [ht]; exact h.treeDecTick hs
    | traverse c i d =>
      have ht : s.tick = s.traverseTick c i d := by simp [State.tick, hs]
      rw [ht]; exact h.traverseTick c i d
    | drain =>
      have ht : s.tick = s.drainTick := by simp [State.tick, hs]
      rw [ht]
      unfold State.drainTick
      split
      · exact h.holdAt trivial
      · exact h.same rfl rfl rfl rfl rfl (noCursor rfl)
      · exact h.same rfl rfl rfl rfl rfl h.cursor
    | payload =>
      have ht : s.tick = s.payloadTick := by simp [State.tick, hs]
      rw [ht]
      have hq : ∀ rest : List InItem, ({ s with inq := rest } : State).TableInv := fun rest =>
        h.same rfl rfl rfl rfl rfl h.cursor
      unfold State.payloadTick
      split
      · exact h.holdAt trivial
      · exact (hq _).setCursor trivial
      · split
        · exact (hq _).raise _
        · exact (hq _).setCursor trivial

theorem TableInv.resume {s : State} (h : s.TableInv) (hf : s.fetchCommand = none) : s.resume.TableInv := by
  obtain ⟨n, hn⟩ := reaches_all hf
  rw [← hn]
  clear hn hf
  induction n generalizing s with
  | zero => exact h
  | succ n ih => rw [Function.iterate_succ_apply]; exact ih h.tick

theorem TableInv.start {s t : State} (h : s.TableInv) {i : Instr} (h1 : i ≠ .dBranch) (h2 : i ≠ .dEom)
    (h3 : ∀ b, i ≠ .dLeaf b) (ht : Machine.start i s = .next t) : t.TableInv := by
  cases i with
  | nop => cases ht; exact h.succeed
  | treeEnc => cases ht; exact h.setCursor (fun hu => absurd rfl hu)
  | treeDec => cases ht; exact .invalid rfl (by refine oneCursor (.inl rfl) ?_; exact rfl)
  | tableBuild => cases ht; exact .invalid rfl (by refine oneCursor (.inl rfl) ?_; exact (fun _ => rfl))
  | symEnc =>
    cases ht
    unfold beginSymEnc
    split
    · exact h.raise _
    · exact h.setCursor trivial
  | symDec => cases ht; exact h.enterTraverse false
  | flush => cases ht; refine h.same ?_ ?_ ?_ ?_ ?_ (noCursor rfl) <;> simp
  | compress => cases ht; exact .invalid rfl (by refine oneCursor (.inl rfl) ?_; exact (fun _ => rfl))
  | decompress => cases ht; exact .invalid rfl (by refine oneCursor (.inl rfl) ?_; exact rfl)
  | sinkReset => cases ht; exact h.same rfl rfl rfl rfl rfl (noCursor rfl)
  | sourceReset => cases ht; exact h.same rfl rfl rfl rfl rfl (noCursor rfl)
  | drainIn => cases ht; exact h.setCursor trivial
  | dBranch => exact absurd rfl h1
  | dEom => exact absurd rfl h2
  | dLeaf b => exact absurd rfl (h3 b)

theorem TableInv.hostRead {s : State} (h : s.TableInv) (o : BitVec 8) : (s.hostRead o).TableInv := by
  unfold State.hostRead
  split
  · exact h.same rfl rfl rfl rfl rfl h.cursor
  · split
    · exact h.same rfl rfl rfl rfl rfl h.cursor
    · exact h.same rfl rfl rfl rfl rfl h.cursor

theorem TableInv.hostWrite {s : State} (h : s.TableInv) (o : BitVec 8) (v : Word) : (s.hostWrite o v).TableInv := by
  unfold State.hostWrite
  split
  · exact h.same rfl rfl rfl rfl rfl h.cursor
  · next hb =>
    have hidle : s.seq = .idle := by simpa [State.busy] using hb
    split
    · exact h
    · next r _ =>
      cases r <;> simp only [State.writeReg]
      case cmd =>
        unfold State.writeCmd
        split
        · exact h.same rfl rfl rfl rfl rfl h.cursor
        · exact h.same rfl rfl rfl rfl rfl (by refine oneCursor (.inl rfl) ?_; exact trivial)
      case status =>
        unfold State.statusWrite
        simp only
        split <;> split <;> split <;> exact h.same rfl rfl rfl rfl rfl h.cursor
      case nodeData =>
        unfold State.writeNodeData
        split
        · exact .invalid rfl (noCursor hidle)
        · exact h
      case root => exact .invalid rfl (noCursor hidle)
      all_goals exact h.same rfl rfl rfl rfl rfl h.cursor

theorem TableInv.appendIn {s : State} (h : s.TableInv) (x : InItem) : (s.appendIn x).TableInv := by
  refine h.same rfl rfl rfl rfl rfl ?_
  intro c hc
  simp only [State.appendIn] at hc
  refine h.cursor c ?_
  split at hc
  · next c' hs => rcases hc with hc | hc <;> cases hc; exact .inr hs
  · exact hc

theorem TableInv.takeOut {s : State} (h : s.TableInv) : s.takeOut.TableInv := by
  unfold State.takeOut
  split
  · exact h
  · exact h.same rfl rfl rfl rfl rfl h.cursor

theorem TableInv.resetBlock (s : State) : s.resetBlock.TableInv := .invalid rfl (noCursor rfl)

theorem TableInv.withEvents {s : State} (h : s.TableInv) (evs : List Event) : ({ s with events := evs } : State).TableInv :=
  h.same rfl rfl rfl rfl rfl h.cursor

theorem TableInv.waitTurn {s : State} (h : s.TableInv) : s.waitTurn.TableInv := by
  rw [waitTurn_eq]
  exact h.same rfl rfl rfl rfl rfl h.cursor

theorem TableInv.coreTurn {s t : State} (h : s.TableInv) (ht : s.coreTurn = .next t) : t.TableInv := by
  rcases coreTurn_cases s with ⟨hf, hc⟩ | ⟨w, hf, ⟨i, hd, hc⟩ | ⟨_, hc⟩⟩
  · rw [hc] at ht; cases ht; exact h.resume hf
  · obtain ⟨h1, h2, h3⟩ := decodeWord_isCommand hd
    obtain ⟨u, hst, hfu, he⟩ := start_exec h1 h2 h3 s
    rw [hc, he] at ht; cases ht
    exact (h.start h1 h2 h3 hst).resume hfu
  · rw [hc] at ht; cases ht; exact h.raise _

theorem TableInv.coreTick {s t : State} (h : s.TableInv) (ht : s.coreTick = .next t) : t.TableInv := by
  cases hf : s.fetchCommand with
  | none => rw [coreTick_running hf] at ht; cases ht; exact h.tick
  | some w =>
    cases hd : decodeWord w with
    | ok i =>
      obtain ⟨h1, h2, h3⟩ := decodeWord_isCommand hd
      have : s.coreTick = Machine.start i s := by simp [State.coreTick, hf, hd]
      rw [this] at ht
      exact h.start h1 h2 h3 ht
    | error e =>
      have : s.coreTick = .next s.illegalCommand := by simp [State.coreTick, hf, hd]
      rw [this] at ht; cases ht; exact h.raise _

end State

end Sys2Proof.Machine
end

