-- ==== Sys2Proof/Laws/Frames.lean ====
section
/-!
SUPPORT. What the core's moves leave unchanged: the host's registers and side, the bytes already written to OUT and the order of
the IN items (every move), and the parts that each kind of command does not touch. Also how a command ends (R17).
-/

namespace Sys2Proof.Machine

namespace State

/-! ### Every move of the core -/

/-- The host's registers and side are unchanged, OUT has only grown, and IN items were only taken from the front. -/
structure Quiet (s t : State) : Prop where
  host : s.HostFrame t
  out : ∃ bs, t.out = s.out ++ bs
  inq : ∃ xs, s.inq = xs ++ t.inq

theorem HostFrame.refl (s : State) : s.HostFrame s := by constructor <;> rfl

theorem HostFrame.trans {s t u : State} (h1 : s.HostFrame t) (h2 : t.HostFrame u) : s.HostFrame u := by
  constructor
  · exact h2.cfg.trans h1.cfg
  · exact h2.cmdOvr.trans h1.cmdOvr
  · exact h2.ie.trans h1.ie
  · exact h2.nodeAddr.trans h1.nodeAddr
  · exact h2.nodeLink.trans h1.nodeLink
  · exact h2.symbol.trans h1.symbol
  · exact h2.inLimit.trans h1.inLimit
  · exact h2.codeKey.trans h1.codeKey
  · exact h2.codeWord.trans h1.codeWord
  · exact h2.events.trans h1.events
  · exact h2.reads.trans h1.reads
  · exact h2.taken.trans h1.taken
  · exact h2.freeCount.trans h1.freeCount

theorem Quiet.refl (s : State) : s.Quiet s := ⟨.refl s, ⟨[], by simp⟩, ⟨[], rfl⟩⟩

theorem Quiet.trans {s t u : State} (h1 : s.Quiet t) (h2 : t.Quiet u) : s.Quiet u := by
  obtain ⟨b1, e1⟩ := h1.out
  obtain ⟨b2, e2⟩ := h2.out
  obtain ⟨x1, f1⟩ := h1.inq
  obtain ⟨x2, f2⟩ := h2.inq
  exact ⟨h1.host.trans h2.host, ⟨b1 ++ b2, by rw [e2, e1, List.append_assoc]⟩,
    ⟨x1 ++ x2, by rw [f1, f2, List.append_assoc]⟩⟩

/-- A move that touches neither channel nor the host's side. -/
theorem Quiet.still {s t : State} (h : s.HostFrame t) (h1 : t.out = s.out) (h2 : t.inq = s.inq) : s.Quiet t :=
  ⟨h, ⟨[], by simp [h1]⟩, ⟨[], by simp [h2]⟩⟩

theorem quiet_succeed (s : State) : s.Quiet s.succeed := .still (by constructor <;> rfl) rfl rfl

theorem quiet_raise (s : State) (e : ErrorCode) : s.Quiet (s.raise e) := .still (by constructor <;> rfl) rfl rfl

theorem quiet_setCursor (s : State) (c : Cursor) : s.Quiet (s.setCursor c) := .still (by constructor <;> rfl) rfl rfl

theorem quiet_holdAt (s : State) (c : Cursor) : s.Quiet (s.holdAt c) := .still (by constructor <;> rfl) rfl rfl

theorem quiet_endWithKey (s : State) (k : BitVec 9) : s.Quiet (s.endWithKey k) := .still (by constructor <;> rfl) rfl rfl

theorem quiet_fillTable (s : State) (o : List Visit) : s.Quiet (s.fillTable o) := .still (by constructor <;> rfl) rfl rfl

theorem quiet_outWrite (s : State) (b : Byte) : s.Quiet (s.outWrite b) :=
  ⟨by constructor <;> rfl, ⟨[b], rfl⟩, ⟨[], rfl⟩⟩

theorem quiet_bitWrite (s : State) (b : Bool) : s.Quiet (s.bitWrite b) :=
  ⟨by constructor <;> simp, out_bitWrite s b, ⟨[], by simp⟩⟩

theorem quiet_bitWrites (s : State) (bs : Bits) : s.Quiet (s.bitWrites bs) :=
  ⟨by constructor <;> simp, out_bitWrites s bs, ⟨[], by simp⟩⟩

theorem quiet_sinkFlush (s : State) : s.Quiet s.sinkFlush := by
  refine ⟨by constructor <;> simp, ?_, ⟨[], by simp⟩⟩
  rw [out_sinkFlush]
  split
  · exact ⟨[], by simp⟩
  · exact ⟨_, rfl⟩

theorem inq_bitRead {s t : State} {b : Bool} (h : s.bitRead = .bit b t) : ∃ xs, s.inq = xs ++ t.inq := by
  unfold bitRead at h
  split at h
  · cases h
  · split at h
    · split at h
      · cases h
      · cases h
      · next b' rest hq => cases h; exact ⟨[.byte b'], hq⟩
    · cases h; exact ⟨[], rfl⟩

/-- Reading bits takes items from the front of IN (R58). -/
theorem inq_afterBits (n : Nat) : ∀ s : State, ∃ xs, s.inq = xs ++ (s.afterBits n).inq := by
  induction n with
  | zero => intro s; exact ⟨[], rfl⟩
  | succ n ih =>
    intro s
    cases hb : s.bitRead with
    | bit b t =>
      obtain ⟨xs, hx⟩ := inq_bitRead hb
      obtain ⟨ys, hy⟩ := ih t
      rw [afterBits_succ hb]
      exact ⟨xs ++ ys, by rw [hx, List.append_assoc, ← hy]⟩
    | exhausted t => exact ⟨[], by simp [afterBits, hb]⟩
    | hold => exact ⟨[], by simp [afterBits, hb]⟩

theorem quiet_bit {s t : State} {b : Bool} (h : s.bitRead = .bit b t) : s.Quiet t := by
  have hf := bitRead_frame h
  refine ⟨?_, ⟨[], ?_⟩, inq_bitRead h⟩
  · constructor <;> rw [hf]
  · rw [hf, List.append_nil]

theorem quiet_exhausted {s t : State} (h : s.bitRead = .exhausted t) : s.Quiet t := by
  obtain ⟨hf, hq⟩ := bitRead_exhausted h
  refine ⟨?_, ⟨[], ?_⟩, ?_⟩
  · constructor <;> rw [hf]
  · rw [hf, List.append_nil]
  · rcases hq with ⟨_, rfl⟩ | ⟨_, rest, h1, h2⟩
    · exact ⟨[], rfl⟩
    · exact ⟨[.eos], by rw [h1, h2]; rfl⟩

theorem quiet_enterTraverse (s : State) (c : Bool) : s.Quiet (s.enterTraverse c) := by
  rcases enterTraverse_cases c s with hx | hx | ⟨e, _, _, hx⟩ <;> rw [hx]
  · exact quiet_raise _ _
  · exact quiet_raise _ _
  · exact quiet_setCursor _ _

theorem quiet_traverseTick (s : State) (c : Bool) (i : BitVec 16) (d : Nat) : s.Quiet (s.traverseTick c i d) := by
  unfold traverseTick
  split
  · exact quiet_raise _ _
  · split
    · split
      · exact quiet_holdAt _ _
      · next t ht => exact (quiet_exhausted ht).trans (quiet_raise _ _)
      · next b t ht =>
        refine (quiet_bit ht).trans ?_
        unfold moveTo
        simp only
        split
        · exact quiet_raise _ _
        · split
          · exact quiet_raise _ _
          · exact quiet_setCursor _ _
    · unfold leafReached
      split
      · split
        · exact quiet_endWithKey _ _
        · exact (quiet_outWrite _ _).trans (quiet_enterTraverse _ _)
      · exact quiet_endWithKey _ _

theorem readNode_inq {n d : Nat} : ∀ (f : Nat) (code : Bits) (s : State),
    (∀ k t, readNode n d f code s = .code k t → ∃ xs, s.inq = xs ++ t.inq) ∧
    (∀ c t, readNode n d f code s = .hold c t → ∃ xs, s.inq = xs ++ t.inq) ∧
    (∀ e t, readNode n d f code s = .fail e t → ∃ xs, s.inq = xs ++ t.inq) := by
  intro f
  induction f with
  | zero =>
    intro code s
    refine ⟨?_, ?_, ?_⟩
    · intro k t hr; cases hr
    · intro k t hr; cases hr
    · intro k t hr; cases hr; exact ⟨[], rfl⟩
  | succ f ih =>
    intro code s
    cases hb : s.bitRead with
    | hold =>
      have l : readNode n d (f + 1) code s = .hold code s := by simp only [readNode, hb]
      rw [l]
      refine ⟨?_, ?_, ?_⟩
      · intro k t hr; cases hr
      · intro k t hr; cases hr; exact ⟨[], rfl⟩
      · intro k t hr; cases hr
    | exhausted t =>
      have l : readNode n d (f + 1) code s = .fail .malformedTree t := by simp only [readNode, hb]
      rw [l]
      refine ⟨?_, ?_, ?_⟩
      · intro k t hr; cases hr
      · intro k t hr; cases hr
      · intro k t hr; cases hr; exact (quiet_exhausted hb).inq
    | bit b t =>
      have hq := inq_bitRead hb
      cases hc : (if code = [] then firstBitCheck t.cfg n d else none) with
      | some e =>
        have l : readNode n d (f + 1) code s = .fail e t := by simp only [readNode, hb, hc]
        rw [l]
        refine ⟨?_, ?_, ?_⟩
        · intro k t hr; cases hr
        · intro k t hr; cases hr
        · intro k t hr; cases hr; exact hq
      | none =>
        cases hd : decodeNode (code ++ [b]) with
        | ok p =>
          have l : readNode n d (f + 1) code s = .code p.1 t := by simp only [readNode, hb, hc, hd]
          rw [l]
          refine ⟨?_, ?_, ?_⟩
          · intro k t hr; cases hr; exact hq
          · intro k t hr; cases hr
          · intro k t hr; cases hr
        | error e =>
          have l : readNode n d (f + 1) code s = readNode n d f (code ++ [b]) t := by simp only [readNode, hb, hc, hd]
          rw [l]
          obtain ⟨xs, hx⟩ := hq
          obtain ⟨h1, h2, h3⟩ := ih (code ++ [b]) t
          refine ⟨?_, ?_, ?_⟩
          · intro k u hr; obtain ⟨ys, hy⟩ := h1 k u hr; exact ⟨xs ++ ys, by rw [hx, hy, List.append_assoc]⟩
          · intro k u hr; obtain ⟨ys, hy⟩ := h2 k u hr; exact ⟨xs ++ ys, by rw [hx, hy, List.append_assoc]⟩
          · intro k u hr; obtain ⟨ys, hy⟩ := h3 k u hr; exact ⟨xs ++ ys, by rw [hx, hy, List.append_assoc]⟩

theorem quiet_source {s t : State} (hf : t = { s with ibuf := t.ibuf, icnt := t.icnt, inq := t.inq, inBits := t.inBits })
    (hq : ∃ xs, s.inq = xs ++ t.inq) : s.Quiet t := by
  refine ⟨?_, ⟨[], ?_⟩, hq⟩
  · constructor <;> rw [hf]
  · rw [hf, List.append_nil]

theorem quiet_treeDecTick {s : State} {c : Bool} {k : TreeCursor} (hs : s.seq = .running (.treeDec c k)) :
    s.Quiet (s.treeDecTick c k) := by
  rcases treeDecTick_cases hs with ⟨_, ht⟩ | ⟨hole, rest, _, ⟨x, t, hr, _, hf, ht⟩ | ⟨code, t, hr, _, _, hf, ht⟩ | ⟨e, t, hr, _, hf, ht⟩⟩
  · rw [ht]
    have h0 : s.Quiet { s with nodeCount := BitVec.ofNat 17 k.n } := .still (by constructor <;> rfl) rfl rfl
    unfold finishTree
    split
    · exact h0.trans (quiet_enterTraverse _ _)
    · exact h0.trans (quiet_succeed _)
  · rw [ht]
    exact (quiet_source hf ((readNode_inq 10 k.code s).1 _ _ hr)).trans (.still (by constructor <;> rfl) rfl rfl)
  · rw [ht]
    exact (quiet_source hf ((readNode_inq 10 k.code s).2.1 _ _ hr)).trans (quiet_holdAt _ _)
  · rw [ht]
    exact (quiet_source hf ((readNode_inq 10 k.code s).2.2 _ _ hr)).trans (.still (by constructor <;> rfl) rfl rfl)

/-- Every iteration leaves the host's side, what OUT holds, and the order of IN. -/
theorem quiet_tick (s : State) : s.Quiet s.tick := by
  cases hs : s.seq with
  | idle => simpa [tick, hs] using Quiet.refl s
  | held c => simpa [tick, hs] using Quiet.refl s
  | running c =>
    cases c with
    | issued w => simpa [tick, hs] using Quiet.refl s
    | walk u w =>
      have ht : s.tick = s.walkTick u w := by simp [tick, hs]
      rw [ht]
      unfold walkTick
      split
      · cases u with
        | treeEnc => exact quiet_setCursor _ _
        | tableBuild => exact (quiet_fillTable _ _).trans (quiet_succeed _)
        | compress =>
          simp only [afterWalkTick]
          split
          · exact (quiet_fillTable _ _).trans (quiet_raise _ _)
          · exact (quiet_fillTable _ _).trans (quiet_setCursor _ _)
      · split
        · exact quiet_raise _ _
        · exact quiet_setCursor _ _
    | write bs next =>
      have ht : s.tick = s.writeTick bs next := by simp [tick, hs]
      rw [ht]
      cases bs with
      | nil =>
        cases next with
        | treeEnc => exact quiet_succeed _
        | symEnc => exact quiet_succeed _
        | payload => exact quiet_setCursor _ _
        | flush => exact (quiet_sinkFlush _).trans (quiet_succeed _)
      | cons b bs => exact (quiet_bitWrite _ _).trans (quiet_setCursor _ _)
    | treeDec c k =>
      have ht : s.tick = s.treeDecTick c k := by simp [tick, hs]
      rw [ht]; exact quiet_treeDecTick hs
    | traverse c i d =>
      have ht : s.tick = s.traverseTick c i d := by simp [tick, hs]
      rw [ht]; exact quiet_traverseTick _ _ _ _
    | drain =>
      have ht : s.tick = s.drainTick := by simp [tick, hs]
      rw [ht]
      unfold drainTick
      split
      · exact quiet_holdAt _ _
      · next rest hq => exact ⟨by constructor <;> rfl, ⟨[], by simp⟩, ⟨[.eos], hq⟩⟩
      · next b rest hq => exact ⟨by constructor <;> rfl, ⟨[], by simp⟩, ⟨[.byte b], hq⟩⟩
    | payload =>
      have ht : s.tick = s.payloadTick := by simp [tick, hs]
      rw [ht]
      have hq' : ∀ (x : InItem) (rest : List InItem), s.inq = x :: rest → s.Quiet { s with inq := rest } :=
        fun x rest hq => ⟨by constructor <;> rfl, ⟨[], by simp⟩, ⟨[x], hq⟩⟩
      unfold payloadTick
      split
      · exact quiet_holdAt _ _
      · next rest hq => exact (hq' _ _ hq).trans (quiet_setCursor _ _)
      · next b rest hq =>
        split
        · exact (hq' _ _ hq).trans (quiet_raise _ _)
        · exact (hq' _ _ hq).trans (quiet_setCursor _ _)

theorem quiet_resume {s : State} (hf : s.fetchCommand = none) : s.Quiet s.resume := by
  obtain ⟨n, hn⟩ := reaches_all hf
  rw [← hn]
  clear hn hf
  induction n generalizing s with
  | zero => exact Quiet.refl s
  | succ n ih => rw [Function.iterate_succ_apply]; exact (quiet_tick s).trans ih

theorem quiet_start {i : Instr} {s t : State} (h1 : i ≠ .dBranch) (h2 : i ≠ .dEom) (h3 : ∀ b, i ≠ .dLeaf b)
    (ht : start i s = .next t) : s.Quiet t := by
  cases i with
  | nop => cases ht; exact quiet_succeed _
  | treeEnc => cases ht; exact quiet_setCursor _ _
  | treeDec => cases ht; exact .still (by constructor <;> rfl) rfl rfl
  | tableBuild => cases ht; exact .still (by constructor <;> rfl) rfl rfl
  | symEnc =>
    cases ht
    unfold beginSymEnc
    split
    · exact quiet_raise _ _
    · exact quiet_setCursor _ _
  | symDec => cases ht; exact quiet_enterTraverse _ _
  | flush => cases ht; exact (quiet_sinkFlush _).trans (quiet_succeed _)
  | compress => cases ht; exact .still (by constructor <;> rfl) rfl rfl
  | decompress => cases ht; exact .still (by constructor <;> rfl) rfl rfl
  | sinkReset => cases ht; exact .still (by constructor <;> rfl) rfl rfl
  | sourceReset => cases ht; exact .still (by constructor <;> rfl) rfl rfl
  | drainIn => cases ht; exact quiet_setCursor _ _
  | dBranch => exact absurd rfl h1
  | dEom => exact absurd rfl h2
  | dLeaf b => exact absurd rfl (h3 b)

theorem quiet_exec {i : Instr} {s t : State} (h1 : i ≠ .dBranch) (h2 : i ≠ .dEom) (h3 : ∀ b, i ≠ .dLeaf b)
    (ht : exec i s = .next t) : s.Quiet t := by
  obtain ⟨u, hst, hf, he⟩ := start_exec h1 h2 h3 s
  rw [he] at ht; cases ht
  exact (quiet_start h1 h2 h3 hst).trans (quiet_resume hf)

/-! ### How a command ends -/

/-- Of a state the core's moves lead through: an ended command has DONE = 1, an error has ended it, and a hold waits for an
item (R17, R250, R83). -/
structure Moves (s : State) : Prop where
  done : s.seq = .idle → s.done = true
  error : s.err ≠ none → s.seq = .idle
  hold : ∀ c, s.seq = .held c → s.inq = []

theorem moves_succeed {s : State} : s.succeed.Moves := ⟨fun _ => rfl, fun _ => rfl, fun c h => by simp at h⟩

theorem moves_raise {s : State} {e : ErrorCode} : (s.raise e).Moves := ⟨fun _ => rfl, fun _ => rfl, fun c h => by simp at h⟩

theorem moves_setCursor {s : State} {c : Cursor} (h : s.err = none) : (s.setCursor c).Moves :=
  ⟨fun h' => by simp at h', fun h' => absurd h h', fun c h' => by simp at h'⟩

theorem moves_holdAt {s : State} {c : Cursor} (h : s.err = none) (hq : s.inq = []) : (s.holdAt c).Moves :=
  ⟨fun h' => by simp at h', fun h' => absurd h h', fun _ _ => hq⟩

theorem moves_enterTraverse {s : State} (h : s.err = none) (c : Bool) : (s.enterTraverse c).Moves := by
  rcases enterTraverse_cases c s with hx | hx | ⟨e, _, _, hx⟩ <;> rw [hx]
  · exact moves_raise
  · exact moves_raise
  · exact moves_setCursor h

theorem moves_tick {s : State} (h : s.Moves) : s.tick.Moves := by
  cases hs : s.seq with
  | idle => simpa [tick, hs] using h
  | held c => simpa [tick, hs] using h
  | running c =>
    have he : s.err = none := by
      by_contra h'
      have := h.error h'
      rw [hs] at this; cases this
    cases c with
    | issued w => simpa [tick, hs] using h
    | walk u w =>
      have ht : s.tick = s.walkTick u w := by simp [tick, hs]
      rw [ht]
      unfold walkTick
      split
      · cases u with
        | treeEnc => exact moves_setCursor he
        | tableBuild => exact moves_succeed
        | compress =>
          simp only [afterWalkTick]
          split
          · exact moves_raise
          · exact moves_setCursor he
      · split
        · exact moves_raise
        · exact moves_setCursor he
    | write bs next =>
      have ht : s.tick = s.writeTick bs next := by simp [tick, hs]
      rw [ht]
      cases bs with
      | nil =>
        cases next with
        | treeEnc => exact moves_succeed
        | symEnc => exact moves_succeed
        | payload => exact moves_setCursor he
        | flush => exact moves_succeed
      | cons b bs => exact moves_setCursor (by simpa using he)
    | treeDec c k =>
      have ht : s.tick = s.treeDecTick c k := by simp [tick, hs]
      rw [ht]
      rcases treeDecTick_cases hs with ⟨_, ht⟩ | ⟨hole, rest, _, ⟨x, t, hr, _, hf, ht⟩ | ⟨code, t, hr, hb, _, hf, ht⟩ | ⟨e, t, hr, _, hf, ht⟩⟩
      · rw [ht]
        unfold finishTree
        split
        · exact moves_enterTraverse (s := { s with nodeCount := BitVec.ofNat 17 k.n }) he true
        · exact moves_succeed
      · rw [ht]
        refine ⟨fun h' => by simp at h', fun h' => absurd (show t.err = none by rw [hf]; exact he) h', fun c h' => by simp at h'⟩
      · rw [ht]
        exact moves_holdAt (by rw [hf]; exact he) (bitRead_hold hb).2.2
      · rw [ht]; exact moves_raise
    | traverse c i d =>
      have ht : s.tick = s.traverseTick c i d := by simp [tick, hs]
      rw [ht]
      unfold traverseTick
      split
      · exact moves_raise
      · split
        · split
          · next hb => exact moves_holdAt he (bitRead_hold hb).2.2
          · exact moves_raise
          · next b t hb =>
            unfold moveTo
            simp only
            split
            · exact moves_raise
            · split
              · exact moves_raise
              · exact moves_setCursor (by rw [bitRead_frame hb]; exact he)
        · unfold leafReached
          split
          · split
            · exact moves_succeed
            · exact moves_enterTraverse (s := s.outWrite _) he true
          · exact moves_succeed
    | drain =>
      have ht : s.tick = s.drainTick := by simp [tick, hs]
      rw [ht]
      unfold drainTick
      split
      · next hq => exact moves_holdAt he hq
      · exact moves_succeed
      · exact ⟨fun h' => by simp [hs] at h', fun h' => absurd he h', fun c h' => by simp [hs] at h'⟩
    | payload =>
      have ht : s.tick = s.payloadTick := by simp [tick, hs]
      rw [ht]
      unfold payloadTick
      split
      · next hq => exact moves_holdAt he hq
      · exact moves_setCursor he
      · split
        · exact moves_raise
        · exact moves_setCursor he

theorem moves_resume {s : State} (h : s.Moves) (hf : s.fetchCommand = none) : s.resume.Moves := by
  obtain ⟨n, hn⟩ := reaches_all hf
  rw [← hn]
  clear hn hf
  induction n generalizing s with
  | zero => exact h
  | succ n ih => rw [Function.iterate_succ_apply]; exact ih (moves_tick h)

theorem moves_start {i : Instr} {s t : State} (he : s.err = none) (h1 : i ≠ .dBranch) (h2 : i ≠ .dEom)
    (h3 : ∀ b, i ≠ .dLeaf b) (ht : start i s = .next t) : t.Moves := by
  cases i with
  | nop => cases ht; exact moves_succeed
  | treeEnc => cases ht; exact moves_setCursor he
  | treeDec => cases ht; exact moves_setCursor he
  | tableBuild => cases ht; exact moves_setCursor he
  | symEnc =>
    cases ht
    unfold beginSymEnc
    split
    · exact moves_raise
    · exact moves_setCursor he
  | symDec => cases ht; exact moves_enterTraverse he false
  | flush => cases ht; exact moves_succeed
  | compress => cases ht; exact moves_setCursor he
  | decompress => cases ht; exact moves_setCursor he
  | sinkReset => cases ht; exact moves_succeed
  | sourceReset => cases ht; exact moves_succeed
  | drainIn => cases ht; exact moves_setCursor he
  | dBranch => exact absurd rfl h1
  | dEom => exact absurd rfl h2
  | dLeaf b => exact absurd rfl (h3 b)

theorem moves_exec {i : Instr} {s t : State} (he : s.err = none) (h1 : i ≠ .dBranch) (h2 : i ≠ .dEom)
    (h3 : ∀ b, i ≠ .dLeaf b) (ht : exec i s = .next t) : t.Moves ∧ t.Settled := by
  obtain ⟨u, hst, hf, hx⟩ := start_exec h1 h2 h3 s
  rw [hx] at ht; cases ht
  exact ⟨moves_resume (moves_start he h1 h2 h3 hst) hf, settled_resume hf⟩

/-! ### Which command touches what -/

theorem SameTree.refl (s : State) : s.SameTree s := ⟨rfl, rfl, rfl⟩
theorem SameTable.refl (s : State) : s.SameTable s := ⟨rfl, rfl⟩
theorem SameResult.refl (s : State) : s.SameResult s := ⟨rfl, rfl⟩
theorem SameSink.refl (s : State) : s.SameSink s := ⟨rfl, rfl, rfl⟩
theorem SameSource.refl (s : State) : s.SameSource s := ⟨rfl, rfl, rfl⟩

theorem SameTree.trans {s t u : State} (h1 : s.SameTree t) (h2 : t.SameTree u) : s.SameTree u :=
  ⟨h2.1.trans h1.1, h2.2.trans h1.2, h2.3.trans h1.3⟩
theorem SameTable.trans {s t u : State} (h1 : s.SameTable t) (h2 : t.SameTable u) : s.SameTable u :=
  ⟨h2.1.trans h1.1, h2.2.trans h1.2⟩
theorem SameResult.trans {s t u : State} (h1 : s.SameResult t) (h2 : t.SameResult u) : s.SameResult u :=
  ⟨h2.1.trans h1.1, h2.2.trans h1.2⟩
theorem SameSink.trans {s t u : State} (h1 : s.SameSink t) (h2 : t.SameSink u) : s.SameSink u :=
  ⟨h2.1.trans h1.1, h2.2.trans h1.2, h2.3.trans h1.3⟩
theorem SameSource.trans {s t u : State} (h1 : s.SameSource t) (h2 : t.SameSource u) : s.SameSource u :=
  ⟨h2.1.trans h1.1, h2.2.trans h1.2, h2.3.trans h1.3⟩

/-- What the traversals leave: the tree, the table and the sink, and the result unless the command succeeds. -/
structure TraverseFrame (s t : State) : Prop where
  tree : s.SameTree t
  table : s.SameTable t
  sink : s.SameSink t
  result : (t.seq ≠ .idle ∨ t.err ≠ none) → s.SameResult t

theorem enterTraverse_frame (s : State) (c : Bool) : s.SameTree (s.enterTraverse c) ∧ s.SameTable (s.enterTraverse c) ∧
    s.SameSink (s.enterTraverse c) ∧ s.SameResult (s.enterTraverse c) := by
  rcases enterTraverse_cases c s with hx | hx | ⟨e, _, _, hx⟩ <;> rw [hx] <;>
    exact ⟨⟨rfl, rfl, rfl⟩, ⟨rfl, rfl⟩, ⟨rfl, rfl, rfl⟩, ⟨rfl, rfl⟩⟩

theorem traverseTick_frame {s : State} (c : Bool) (i : BitVec 16) (d : Nat) (he : s.err = none) :
    s.TraverseFrame (s.traverseTick c i d) := by
  have plain : ∀ t : State, s.SameTree t ∧ s.SameTable t ∧ s.SameSink t ∧ s.SameResult t → s.TraverseFrame t :=
    fun t h => ⟨h.1, h.2.1, h.2.2.1, fun _ => h.2.2.2⟩
  have endK : ∀ k, s.TraverseFrame (s.endWithKey k) := fun k =>
    ⟨⟨rfl, rfl, rfl⟩, ⟨rfl, rfl⟩, ⟨rfl, rfl, rfl⟩, fun h => by
      rcases h with h | h
      · exact absurd rfl h
      · exact absurd he h⟩
  unfold traverseTick
  split
  · exact plain _ ⟨⟨rfl, rfl, rfl⟩, ⟨rfl, rfl⟩, ⟨rfl, rfl, rfl⟩, ⟨rfl, rfl⟩⟩
  · split
    · split
      · exact plain _ ⟨⟨rfl, rfl, rfl⟩, ⟨rfl, rfl⟩, ⟨rfl, rfl, rfl⟩, ⟨rfl, rfl⟩⟩
      · next t ht =>
        have hf := (bitRead_exhausted ht).1
        refine plain _ ⟨⟨?_, ?_, ?_⟩, ⟨?_, ?_⟩, ⟨?_, ?_, ?_⟩, ⟨?_, ?_⟩⟩ <;> rw [hf] <;> rfl
      · next b t ht =>
        have hf := bitRead_frame ht
        unfold moveTo
        simp only
        split
        · refine plain _ ⟨⟨?_, ?_, ?_⟩, ⟨?_, ?_⟩, ⟨?_, ?_, ?_⟩, ⟨?_, ?_⟩⟩ <;> rw [hf] <;> rfl
        · split
          · refine plain _ ⟨⟨?_, ?_, ?_⟩, ⟨?_, ?_⟩, ⟨?_, ?_, ?_⟩, ⟨?_, ?_⟩⟩ <;> rw [hf] <;> rfl
          · refine plain _ ⟨⟨?_, ?_, ?_⟩, ⟨?_, ?_⟩, ⟨?_, ?_, ?_⟩, ⟨?_, ?_⟩⟩ <;> rw [hf] <;> rfl
    · next e _ _ =>
      unfold leafReached
      split
      · split
        · exact endK _
        · obtain ⟨h1, h2, h3, h4⟩ := enterTraverse_frame (s.outWrite (e.key.setWidth 8)) true
          exact plain _ ⟨⟨h1.1, h1.2, h1.3⟩, ⟨h2.1, h2.2⟩, ⟨h3.1, h3.2, h3.3⟩, ⟨h4.1, h4.2⟩⟩
      · exact endK _

theorem traverseRun_frame (s : State) : s.Moves → s.TraverseFrame s.traverseRun := by
  refine traverse_induction (P := fun s => s.Moves → s.TraverseFrame s.traverseRun) ?_ ?_ s
  · intro s hn _
    rw [traverseRun_stop hn]
    exact ⟨.refl s, .refl s, .refl s, fun _ => .refl s⟩
  · intro s c i d hs ih hm
    have he : s.err = none := by
      by_contra h'
      have := hm.error h'
      rw [hs] at this; cases this
    have ht : s.tick = s.traverseTick c i d := by simp [tick, hs]
    have hm' : (s.traverseTick c i d).Moves := by rw [← ht]; exact moves_tick hm
    have h1 := traverseTick_frame c i d he
    have h2 := ih hm'
    rw [traverseRun_step hs]
    refine ⟨h1.tree.trans h2.tree, h1.table.trans h2.table, h1.sink.trans h2.sink, fun h => ?_⟩
    refine SameResult.trans (h1.result ?_) (h2.result h)
    -- if the iteration had ended the command in success, the run would be over
    by_contra hcon
    simp only [not_or, not_not, ne_eq] at hcon
    rw [traverseRun_stop (noTraverse_of_idle hcon.1)] at h
    rcases h with h | h
    · exact h hcon.1
    · exact h hcon.2

/-- What the tree decoder leaves: the code table's entries and the sink, and the result unless the command succeeds. -/
structure TreeDecFrame (s t : State) : Prop where
  codes : t.codes = s.codes
  valid : t.tableValid = s.tableValid
  root : t.root = s.root
  sink : s.SameSink t
  result : (t.seq ≠ .idle ∨ t.err ≠ none) → s.SameResult t

theorem treeDecRun_frame (s : State) : s.Moves → s.TreeDecFrame s.treeDecRun := by
  refine treeDec_induction (P := fun s => s.Moves → s.TreeDecFrame s.treeDecRun) ?_ ?_ s
  · intro s hn hm
    rw [treeDecRun_stop hn]
    have h := traverseRun_frame s hm
    exact ⟨h.table.1, h.table.2, h.tree.2, h.sink, h.result⟩
  · intro s c k hs ih hm
    have ht : s.tick = s.treeDecTick c k := by simp [tick, hs]
    have h2 := ih (by rw [← ht]; exact moves_tick hm)
    rw [treeDecRun_step hs]
    have h1 : (s.treeDecTick c k).codes = s.codes ∧ (s.treeDecTick c k).tableValid = s.tableValid ∧
        (s.treeDecTick c k).root = s.root ∧ s.SameSink (s.treeDecTick c k) ∧ s.SameResult (s.treeDecTick c k) := by
      rcases treeDecTick_cases hs with ⟨_, ht⟩ | ⟨hole, rest, _, ⟨x, t, hr, _, hf, ht⟩ | ⟨code, t, hr, _, _, hf, ht⟩ | ⟨e, t, hr, _, hf, ht⟩⟩
      · rw [ht]
        unfold finishTree
        split
        · obtain ⟨h1, h2, h3, h4⟩ := enterTraverse_frame { s with nodeCount := BitVec.ofNat 17 k.n } true
          exact ⟨h2.1, h2.2, h1.2, ⟨h3.1, h3.2, h3.3⟩, ⟨h4.1, h4.2⟩⟩
        · exact ⟨rfl, rfl, rfl, ⟨rfl, rfl, rfl⟩, ⟨rfl, rfl⟩⟩
      · rw [ht]; refine ⟨?_, ?_, ?_, ⟨?_, ?_, ?_⟩, ⟨?_, ?_⟩⟩ <;> rw [hf]
      · rw [ht]; refine ⟨?_, ?_, ?_, ⟨?_, ?_, ?_⟩, ⟨?_, ?_⟩⟩ <;> rw [hf] <;> rfl
      · rw [ht]; refine ⟨?_, ?_, ?_, ⟨?_, ?_, ?_⟩, ⟨?_, ?_⟩⟩ <;> rw [hf] <;> rfl
    obtain ⟨a, b, c', d, e⟩ := h1
    exact ⟨h2.codes.trans a, h2.valid.trans b, h2.root.trans c', d.trans h2.sink, fun h => e.trans (h2.result h)⟩

/-- A traversal of SYM_DEC writes nothing to OUT (R200). -/
theorem traverseRun_out (s : State) :
    (∀ c i d, s.seq = .running (.traverse c i d) → c = false) → s.traverseRun.out = s.out := by
  refine traverse_induction (P := fun s =>
    (∀ c i d, s.seq = .running (.traverse c i d) → c = false) → s.traverseRun.out = s.out) ?_ ?_ s
  · intro s hn _; rw [traverseRun_stop hn]
  · intro s c i d hs ih hc
    have hcf : c = false := hc c i d hs
    subst hcf
    have key : (s.traverseTick false i d).out = s.out ∧
        ∀ c' i' d', (s.traverseTick false i d).seq = .running (.traverse c' i' d') → c' = false := by
      unfold traverseTick
      split
      · exact ⟨rfl, fun _ _ _ h => by simp at h⟩
      · split
        · split
          · exact ⟨rfl, fun _ _ _ h => by simp at h⟩
          · next t ht => rw [(bitRead_exhausted ht).1]; exact ⟨rfl, fun _ _ _ h => by simp at h⟩
          · next b t ht =>
            have hf := bitRead_frame ht
            unfold moveTo
            simp only
            split
            · rw [hf]; exact ⟨rfl, fun _ _ _ h => by simp at h⟩
            · split
              · rw [hf]; exact ⟨rfl, fun _ _ _ h => by simp at h⟩
              · rw [hf]
                refine ⟨rfl, fun c' i' d' h => ?_⟩
                simp only [setCursor_fields, Seq.running.injEq, Cursor.traverse.injEq] at h
                exact h.1.symm
        · simp only [leafReached, Bool.false_eq_true, if_false]
          exact ⟨rfl, fun _ _ _ h => by simp [endWithKey] at h⟩
    rw [traverseRun_step hs, ih key.2, key.1]

/-- The tree decoder leaves ROOT and TABLE_VALID as its start set them (R160). -/
theorem treeDecLoop_root (f : Nat) : ∀ s : State, (treeDecLoop f s).root = s.root ∧ (treeDecLoop f s).tableValid = s.tableValid := by
  induction f with
  | zero => intro s; exact ⟨rfl, rfl⟩
  | succ f ih =>
    intro s
    by_cases hn : s.NoTreeDec
    · rw [treeDecLoop_stop hn]; exact ⟨rfl, rfl⟩
    · simp only [NoTreeDec, not_forall, ne_eq, not_not] at hn
      obtain ⟨c, k, hs⟩ := hn
      rw [treeDecLoop_succ hs]
      have h := ih (s.treeDecTick c k)
      suffices (s.treeDecTick c k).root = s.root ∧ (s.treeDecTick c k).tableValid = s.tableValid from
        ⟨h.1.trans this.1, h.2.trans this.2⟩
      rcases treeDecTick_cases hs with ⟨_, ht⟩ | ⟨hole, rest, _, ⟨x, t, _, _, hf, ht⟩ | ⟨code, t, _, _, _, hf, ht⟩ | ⟨e, t, _, _, hf, ht⟩⟩
      · rw [ht]
        unfold finishTree
        split
        · obtain ⟨h1, h2, _⟩ := enterTraverse_frame { s with nodeCount := BitVec.ofNat 17 k.n } true
          exact ⟨h1.2, h2.2⟩
        · exact ⟨rfl, rfl⟩
      · rw [ht]; constructor <;> rw [hf]
      · rw [ht]; constructor <;> rw [hf] <;> rfl
      · rw [ht]; constructor <;> rw [hf] <;> rfl

/-- How TREE_DEC ends from `s`: OUT and the result are left, and an error is one of R160's three and leaves no entry (R162). -/
structure TreeEnd (s t : State) : Prop where
  out : t.out = s.out
  result : s.SameResult t
  error : t.err = none ∨ ∃ e, (e = .malformedTree ∨ e = .nodeCap ∨ e = .depth) ∧ t.err = some e ∧ t.nodes = [] ∧ t.nodeCount = 0

/-- The tree decoder of TREE_DEC (R160, R162). -/
theorem treeDecRun_end (s : State) : s.err = none → (∃ k, s.seq = .running (.treeDec false k)) → s.TreeEnd s.treeDecRun := by
  refine treeDec_induction (P := fun s => s.err = none → (∃ k, s.seq = .running (.treeDec false k)) → s.TreeEnd s.treeDecRun) ?_ ?_ s
  · rintro s hn _ ⟨k, hk⟩; exact absurd hk (hn _ _)
  · rintro s c k hs ih he ⟨k', hk'⟩
    rw [hs] at hk'
    cases hk'
    have stop : ∀ t : State, t.seq = .idle ∨ (∃ c, t.seq = .held c) → t.treeDecRun = t := by
      intro t h
      rcases h with h | ⟨c, h⟩
      · rw [treeDecRun_stop (noTreeDec_of_idle h), traverseRun_stop (noTraverse_of_idle h)]
      · rw [treeDecRun_stop (noTreeDec_of_held h), traverseRun_stop (noTraverse_of_held h)]
    rw [treeDecRun_step hs]
    rcases treeDecTick_cases hs with ⟨_, ht⟩ | ⟨hole, rest, _, ⟨x, t, hr, _, hf, ht⟩ | ⟨code, t, hr, _, _, hf, ht⟩ | ⟨e, t, hr, h3, hf, ht⟩⟩
    · rw [ht]
      have : (s.finishTree false k.n).seq = .idle := rfl
      rw [stop _ (.inl this)]
      exact ⟨rfl, ⟨rfl, rfl⟩, .inl he⟩
    · have h1 : (s.treeDecTick false k).err = none := by rw [ht, hf]; exact he
      have h2 := ih h1 ⟨_, by rw [ht]⟩
      refine ⟨h2.out.trans ?_, SameResult.trans ⟨?_, ?_⟩ h2.result, h2.error⟩ <;> rw [ht, hf]
    · rw [ht, stop _ (.inr ⟨_, rfl⟩)]
      refine ⟨?_, ⟨?_, ?_⟩, .inl ?_⟩ <;> rw [hf] <;> first | rfl | exact he
    · rw [ht, stop _ (.inl rfl)]
      refine ⟨?_, ⟨?_, ?_⟩, .inr ⟨e, h3, rfl, rfl, rfl⟩⟩ <;> rw [hf] <;> rfl

theorem payloadLoop_frame (q : List InItem) : ∀ s : State, s.SameTree (payloadLoop q s) ∧ s.SameTable (payloadLoop q s) ∧
    s.SameResult (payloadLoop q s) ∧ s.SameSource (payloadLoop q s) := by
  induction q with
  | nil => intro s; exact ⟨⟨rfl, rfl, rfl⟩, ⟨rfl, rfl⟩, ⟨rfl, rfl⟩, ⟨rfl, rfl, rfl⟩⟩
  | cons x q ih =>
    intro s
    cases x with
    | eos =>
      simp only [payloadLoop]
      refine ⟨⟨?_, ?_, ?_⟩, ⟨?_, ?_⟩, ⟨?_, ?_⟩, ⟨?_, ?_, ?_⟩⟩ <;> simp
    | byte b =>
      simp only [payloadLoop]
      split
      · exact ⟨⟨rfl, rfl, rfl⟩, ⟨rfl, rfl⟩, ⟨rfl, rfl⟩, ⟨rfl, rfl, rfl⟩⟩
      · next e _ =>
        obtain ⟨h1, h2, h3, h4⟩ := ih ({ s with inq := q }.bitWrites e.path)
        refine ⟨⟨?_, ?_, ?_⟩, ⟨?_, ?_⟩, ⟨?_, ?_⟩, ⟨?_, ?_, ?_⟩⟩
        · rw [h1.1]; simp
        · rw [h1.2]; simp
        · rw [h1.3]; simp
        · rw [h2.1]; simp
        · rw [h2.2]; simp
        · rw [h3.1]; simp
        · rw [h3.2]; simp
        · rw [h4.1]; simp
        · rw [h4.2]; simp
        · rw [h4.3]; simp

end State

end Sys2Proof.Machine
end

