-- ==== Sys2Proof/Laws/Errors.lean ====
section
/-!
SUPPORT. The errors and the holds: which errors a walk can raise (R140), the repeated key (R183), a source that ends or runs dry inside
a payload (R201, R83) or a tree description (R160, R165), and a tree that is too large, with the first node that does not fit (R160,
R254).
-/

namespace Sys2Proof.Machine

/-! ### Walks -/

theorem walkVisit_error {cfg : Config} {m : Memory} {dup : Bool} {v : Visit} {rest : List Visit} {w : WalkState} {e : ErrorCode}
    (h : walkVisit cfg m dup v rest w = .error e) :
    e = .badNode ∨ e = .depth ∨ e = .shared ∨ (e = .dupLeaf ∧ dup = true) := by
  unfold walkVisit at h
  split at h
  · cases h; exact .inl rfl
  · split at h
    · cases h; exact .inr (.inl rfl)
    · split at h
      · cases h; exact .inr (.inr (.inl rfl))
      · split at h
        · cases h
        · split at h
          · next hd =>
            cases h
            simp only [Bool.and_eq_true] at hd
            exact .inr (.inr (.inr ⟨rfl, hd.1⟩))
          · cases h

/-- A walk raises one of its four errors, E_DUP_LEAF only where it looks for repeated keys (R140). -/
theorem walkLoop_error {cfg : Config} {m : Memory} {dup : Bool} : ∀ (f : Nat) (w : WalkState) {e : ErrorCode},
    walkLoop cfg m dup f w = .error e → e = .badNode ∨ e = .depth ∨ e = .shared ∨ (e = .dupLeaf ∧ dup = true) := by
  intro f
  induction f with
  | zero =>
    intro w e h
    obtain ⟨stack, visits, seen, order⟩ := w
    cases stack with
    | nil => rw [walkLoop_nil] at h; cases h
    | cons v rest => rw [walkLoop_zero] at h; cases h; exact .inr (.inr (.inl rfl))
  | succ f ih =>
    intro w e h
    obtain ⟨stack, visits, seen, order⟩ := w
    cases stack with
    | nil => rw [walkLoop_nil] at h; cases h
    | cons v rest =>
      rw [walkLoop_cons] at h
      cases hv : walkVisit cfg m dup v rest { stack := v :: rest, visits := visits, seen := seen, order := order } with
      | error e' => rw [hv] at h; cases h; exact walkVisit_error hv
      | ok w' => rw [hv] at h; exact ih w' h

/-- A walk that looks for repeated keys ends in E_DUP_LEAF at the first leaf whose key has been met (R140, R183). -/
theorem walkLoop_dup (cfg : Config) (m : Memory) (t : Tree) :
    ∀ (i : BitVec 16) (d : Nat) (p : Bits) (rest : List Visit) (v : Nat) (seen : List Nat) (order : List Visit) (f : Nat),
      denotes cfg.nodeCap m t i = true → d + t.height ≤ cfg.depthCap → v + t.nodeCount ≤ cfg.nodeCap →
      ¬ (t.keys.Nodup ∧ ∀ k ∈ t.keys, k ∉ seen) →
      walkLoop cfg m true (f + t.nodeCount)
          { stack := { index := i, depth := d, path := p } :: rest, visits := v, seen := seen, order := order } =
        .error .dupLeaf := by
  have leafCase : ∀ (e : NodeEntry) (i : BitVec 16) (d : Nat) (p : Bits) (rest : List Visit) (v : Nat) (seen : List Nat)
      (order : List Visit) (f : Nat), usableNode cfg.nodeCap m i = some e → e.kind ≠ .branch → d ≤ cfg.depthCap →
      v + 1 ≤ cfg.nodeCap → e.key.toNat ∈ seen →
      walkLoop cfg m true (f + 1)
          { stack := { index := i, depth := d, path := p } :: rest, visits := v, seen := seen, order := order } =
        .error .dupLeaf := by
    intro e i d p rest v seen order f he hk hd hv hs
    rw [walkLoop_cons]
    simp only [walkVisit, he]
    rw [if_neg (by omega), if_neg (by omega), if_neg hk, if_pos (by simpa using hs)]
  induction t with
  | branch l r ihl ihr =>
    intro i d p rest v seen order f hd hh hv hk
    obtain ⟨e, he, hkind, hl, hr⟩ := denotes_branch hd
    simp only [Tree.height, Tree.nodeCount] at hh hv
    have hstep : walkLoop cfg m true (f + (Tree.branch l r).nodeCount)
          { stack := { index := i, depth := d, path := p } :: rest, visits := v, seen := seen, order := order } =
        walkLoop cfg m true (f + r.nodeCount + l.nodeCount)
          { stack := { index := e.left, depth := d + 1, path := p ++ [false] } ::
              { index := e.right, depth := d + 1, path := p ++ [true] } :: rest
            visits := v + 1, seen := seen, order := order ++ [{ index := i, depth := d, path := p }] } := by
      have hc : f + (Tree.branch l r).nodeCount = (f + r.nodeCount + l.nodeCount) + 1 := by simp only [Tree.nodeCount]; omega
      rw [hc, walkLoop_cons]
      simp only [walkVisit, he]
      rw [if_neg (by omega), if_neg (by omega), if_pos hkind]
    rw [hstep]
    by_cases hkl : l.keys.Nodup ∧ ∀ k ∈ l.keys, k ∉ seen
    · rw [walkLoop_tree cfg m true l e.left (d + 1) (p ++ [false]) _ (v + 1) seen _ (f + r.nodeCount) hl (by omega) (by omega)
        (fun _ => hkl)]
      refine ihr _ _ _ _ _ _ _ _ hr (by omega) (by omega) ?_
      intro ⟨h1, h2⟩
      apply hk
      rw [Tree.keys_branch]
      simp only [if_true, List.mem_append, List.mem_reverse, not_or] at h2
      refine ⟨List.nodup_append.2 ⟨hkl.1, h1, fun a ha b hb hab => (h2 b hb).1 (hab ▸ ha)⟩, ?_⟩
      intro k hmem
      rcases List.mem_append.1 hmem with h | h
      · exact hkl.2 k h
      · exact (h2 k h).2
    · have : f + r.nodeCount + l.nodeCount = (f + r.nodeCount) + l.nodeCount := rfl
      rw [this]
      exact ihl _ _ _ _ _ _ _ _ hl (by omega) (by omega) hkl
  | leaf sym =>
    intro i d p rest v seen order f hd hh hv hk
    obtain ⟨e, he, hkind, hsym⟩ := denotes_leaf hd
    simp only [Tree.height, Tree.nodeCount] at hh hv
    refine leafCase e i d p rest v seen order f he (by simp [hkind]) (by omega) hv ?_
    rw [key_leaf hkind, hsym]
    by_contra hn
    exact hk ⟨by simp [Tree.keys_leaf], by simpa [Tree.keys_leaf] using hn⟩
  | endMessage =>
    intro i d p rest v seen order f hd hh hv hk
    obtain ⟨e, he, hkind⟩ := denotes_endMessage hd
    simp only [Tree.height, Tree.nodeCount] at hh hv
    refine leafCase e i d p rest v seen order f he (by simp [hkind]) (by omega) hv ?_
    rw [key_eom hkind]
    by_contra hn
    exact hk ⟨by simp [Tree.keys_endMessage], by simpa [Tree.keys_endMessage] using hn⟩

namespace State

/-- The walk of a tree with a key met twice (R183). -/
theorem walk_dup {s : State} {t : Tree} (ht : s.treeAtRoot t = true) (hf : s.fits t) (hk : ¬ t.keys.Nodup) :
    s.walk true = .error .dupLeaf := by
  obtain ⟨hh, hn⟩ := hf
  have h := walkLoop_dup s.cfg s.nodes t s.root 0 [] [] 0 [] [] (s.cfg.nodeCap + 1 - t.nodeCount) ht (by omega) (by omega)
    (fun h => hk h.1)
  have e : s.cfg.nodeCap + 1 - t.nodeCount + t.nodeCount = s.cfg.nodeCap + 1 := by omega
  rw [e] at h
  exact h

/-! ### The end of the source -/

theorem eos_bitRead {s t : State} {b : Bool} (h : s.bitRead = .bit b t) : InItem.eos ∈ s.inq → InItem.eos ∈ t.inq := by
  unfold bitRead at h
  split at h
  · cases h
  · split at h
    · split at h
      · cases h
      · cases h
      · next b' rest hq => cases h; intro hm; rw [hq] at hm; simpa using hm
    · cases h; exact id

theorem eos_afterBits (n : Nat) : ∀ s : State, InItem.eos ∈ s.inq → InItem.eos ∈ (s.afterBits n).inq := by
  induction n with
  | zero => intro s h; exact h
  | succ n ih =>
    intro s h
    cases hb : s.bitRead with
    | bit b t => rw [afterBits_succ hb]; exact ih t (eos_bitRead hb h)
    | exhausted t => simpa [afterBits, hb] using h
    | hold => simpa [afterBits, hb] using h

theorem endsAfter_limit {s : State} {q : Bits} (h : s.endsAfter q) : s.limitAllows q.length := by
  obtain ⟨rest, _, h | ⟨rfl, _⟩ | ⟨_, h, _⟩⟩ := h
  · exact .inr (Nat.le_of_eq h.symm)
  · exact .inl rfl
  · exact .inr (Nat.le_of_lt h)

/-- The next BitRead after the last bit answers EXHAUSTED. -/
theorem endsAfter_nil {s : State} (h8 : s.icnt.toNat ≤ 8) (h : s.endsAfter []) : ∃ t, s.bitRead = .exhausted t := by
  have limit : s.inLimit.toNat ≤ s.inBits.toNat → ∃ t, s.bitRead = .exhausted t := fun h =>
    ⟨s, by simp [bitRead, BitVec.le_def, h]⟩
  obtain ⟨rest, hb, h | ⟨_, h⟩ | ⟨hr, hl, hm⟩⟩ := h
  · exact limit (by simp only [List.length_nil] at h; omega)
  · exact limit h
  · subst hr
    simp only [List.length_nil, Nat.add_zero] at hl
    rcases bitRead_empty h8 (by rw [BitVec.lt_def]; exact hl) (by simpa using hb) with ⟨hq, _⟩ | ⟨r, _, hx⟩
    · rw [hq] at hm; cases hm
    · exact ⟨_, hx⟩

theorem limitAllows_bitRead {s t : State} {b : Bool} {n : Nat} (h : s.bitRead = .bit b t) (hl : s.limitAllows (n + 1)) :
    t.limitAllows n := by
  have h1 : t.inBits = s.inBits + 1 := by rw [bitRead_frame h]
  have h2 : t.inLimit = s.inLimit := by rw [bitRead_frame h]
  have := s.inLimit.isLt
  simp only [limitAllows] at hl
  simp only [limitAllows, h1, h2, BitVec.toNat_add]
  have : (1 : BitVec 32).toNat = 1 := rfl
  omega

theorem endsAfter_cons {s : State} {b : Bool} {q : Bits} (h8 : s.icnt.toNat ≤ 8) (h : s.endsAfter (b :: q)) :
    ∃ t, s.bitRead = .bit b t ∧ t.icnt.toNat ≤ 8 ∧ t.endsAfter q := by
  obtain ⟨rest, hb, hc⟩ := h
  simp only [List.length_cons, reduceCtorEq, false_and, false_or] at hc
  have hlt : s.inBits.toNat < s.inLimit.toNat := by rcases hc with hc | ⟨_, hc, _⟩ <;> omega
  obtain ⟨t, ht, htb⟩ := bitRead_bit (bs := q ++ rest) h8 (by rw [BitVec.lt_def]; exact hlt) hb
  have hf := bitRead_frame ht
  have hin : t.inBits = s.inBits + 1 := by rw [hf]
  have hlm : t.inLimit = s.inLimit := by rw [hf]
  have hinN : t.inBits.toNat = s.inBits.toNat + 1 := by
    have := s.inLimit.isLt
    rw [hin, BitVec.toNat_add]
    have : (1 : BitVec 32).toNat = 1 := rfl
    omega
  refine ⟨t, ht, icnt_bitRead h8 ht, rest, htb, ?_⟩
  rw [hlm, hinN]
  rcases hc with hc | ⟨h1, h2, h3⟩
  · left; omega
  · right; right; exact ⟨h1, by omega, eos_bitRead ht h3⟩

/-- The state in which the source has ended after `q`. -/
theorem endsAfter_exhausted (q : Bits) : ∀ {s : State}, s.icnt.toNat ≤ 8 → s.endsAfter q →
    ∃ u, (s.afterBits q.length).bitRead = .exhausted u := by
  induction q with
  | nil => intro s h8 h; exact endsAfter_nil h8 h
  | cons b q ih =>
    intro s h8 h
    obtain ⟨t, ht, h8t, htq⟩ := endsAfter_cons h8 h
    rw [List.length_cons, afterBits_succ ht]
    exact ih h8t htq

/-- The state in which the source has run dry after `q` (R83). -/
theorem driesAfter_hold {s : State} {q : Bits} (h8 : s.icnt.toNat ≤ 8) (h : s.driesAfter q) :
    (s.afterBits q.length).bitRead = .hold := by
  obtain ⟨hb, hl, hne⟩ := h
  have hl1 : s.limitAllows (q.length + 1) := .inr (by omega)
  have hb' : s.sourceBits = q ++ [] := by rw [List.append_nil, hb]
  obtain ⟨h1, h2, _⟩ := afterBits_spec q h8 (.inr (by omega)) hb'
  have hlim := limitAllows_afterBits (n := 1) h8 hl1 hb'
  rcases bitRead_empty h2 (by rw [BitVec.lt_def]; simp only [limitAllows] at hlim; omega) h1 with ⟨_, h⟩ | ⟨r, hr, _⟩
  · exact h
  · obtain ⟨xs, hx⟩ := inq_afterBits q.length s
    exact absurd (by rw [hx, hr]; simp) hne

/-- The source returns the bits `q` and then no bit, since it has ended or holds. -/
def stopsAfter (s : State) (q : Bits) : Prop :=
  s.limitAllows q.length ∧ (∃ rest, s.sourceBits = q ++ rest) ∧ ∀ b t, (s.afterBits q.length).bitRead ≠ .bit b t

theorem stopsAfter_ends {s : State} {q : Bits} (h8 : s.icnt.toNat ≤ 8) (h : s.endsAfter q) : s.stopsAfter q := by
  obtain ⟨u, hu⟩ := endsAfter_exhausted q h8 h
  obtain ⟨rest, hb, _⟩ := id h
  exact ⟨endsAfter_limit h, ⟨rest, hb⟩, by simp [hu]⟩

theorem stopsAfter_dries {s : State} {q : Bits} (h8 : s.icnt.toNat ≤ 8) (h : s.driesAfter q) : s.stopsAfter q := by
  have hh := driesAfter_hold h8 h
  obtain ⟨hb, hl, _⟩ := h
  exact ⟨.inr (by omega), ⟨[], by rw [List.append_nil, hb]⟩, by simp [hh]⟩

theorem stopsAfter_append {s : State} {p q : Bits} (h8 : s.icnt.toNat ≤ 8) (h : s.stopsAfter (p ++ q)) :
    (s.limitAllows p.length ∧ ∃ rest, s.sourceBits = p ++ rest) ∧ (s.afterBits p.length).icnt.toNat ≤ 8 ∧
      (s.afterBits p.length).stopsAfter q ∧ (s.afterBits p.length).afterBits q.length = s.afterBits (p ++ q).length := by
  obtain ⟨hl, ⟨rest, hb⟩, hn⟩ := h
  have hl0 : s.limitAllows (p.length + q.length) := by rwa [← List.length_append]
  have hb0 : s.sourceBits = p ++ (q ++ rest) := by rw [hb, List.append_assoc]
  have hlp : s.limitAllows p.length := by simp only [limitAllows] at hl0 ⊢; omega
  obtain ⟨h1, h2, _⟩ := afterBits_spec p h8 hlp hb0
  have hadd := afterBits_add h8 hl hb
  exact ⟨⟨hlp, _, hb0⟩, h2, ⟨limitAllows_afterBits h8 hl0 hb0, ⟨rest, h1⟩, by rwa [hadd]⟩, hadd⟩

theorem stopsAfter_cons {s : State} {b : Bool} {q : Bits} (h8 : s.icnt.toNat ≤ 8) (h : s.stopsAfter (b :: q)) :
    ∃ t, s.bitRead = .bit b t ∧ t.icnt.toNat ≤ 8 ∧ t.stopsAfter q := by
  obtain ⟨hl, ⟨rest, hb⟩, hn⟩ := h
  obtain ⟨t, ht, htb⟩ := bitRead_bit (bs := q ++ rest) h8
    (by rw [BitVec.lt_def]; simp only [limitAllows, List.length_cons] at hl; omega) hb
  rw [List.length_cons, afterBits_succ ht] at hn
  exact ⟨t, ht, icnt_bitRead h8 ht, limitAllows_bitRead ht hl, ⟨rest, htb⟩, hn⟩

/-- Where the source stops depends on the source only. -/
theorem stopsAfter_graft {s u : State} {q : Bits} (h : u.inLimit = s.inLimit) (hs : s.stopsAfter q) : (graft s u).stopsAfter q := by
  obtain ⟨hl, hb, hn⟩ := hs
  refine ⟨?_, hb, ?_⟩
  · simpa only [limitAllows, graft, h] using hl
  · intro b t
    rw [afterBits_graft q.length s u h, bitRead_graft _ u (by rw [h, afterBits_frame q.length s]; rfl)]
    cases hr : (s.afterBits q.length).bitRead with
    | bit b' t' => exact absurd hr (hn b' t')
    | exhausted t' => simp
    | hold => simp

/-- Reading bits does not look at the cursor. -/
theorem afterBits_setCursor (n : Nat) (s : State) (c : Cursor) : (s.setCursor c).afterBits n = (s.afterBits n).setCursor c := by
  have h := afterBits_graft n s (s.setCursor c) rfl
  rw [show graft s (s.setCursor c) = s.setCursor c from rfl] at h
  rw [h]
  conv_rhs => rw [afterBits_frame n s]
  rfl

theorem bitRead_setCursor (s : State) (c : Cursor) :
    (s.setCursor c).bitRead =
      match s.bitRead with
      | .bit b t => .bit b (t.setCursor c)
      | .exhausted t => .exhausted (t.setCursor c)
      | .hold => .hold := by
  have h := bitRead_with s s.nodes (.running c) s.out
  rw [show ({ s with nodes := s.nodes, seq := .running c, out := s.out } : State) = s.setCursor c from rfl] at h
  rw [h]
  cases hb : s.bitRead with
  | hold => rfl
  | bit b t =>
    have hf := bitRead_frame hb
    simp only [setCursor]
    rw [hf]
  | exhausted t =>
    have hf := (bitRead_exhausted hb).1
    simp only [setCursor]
    rw [hf]

/-- A traversal at a branch whose source returns no bit: the payload is truncated, or the command holds (R201, R83). -/
def stopTraverse (c : Bool) (i : BitVec 16) (d : Nat) (s : State) : State :=
  match s.bitRead with
  | .exhausted u => u.raise .truncatedPayload
  | _ => s.holdAt (.traverse c i d)

theorem stopTraverse_setCursor (c : Bool) (i : BitVec 16) (d : Nat) (s : State) (x : Cursor) :
    (s.setCursor x).stopTraverse c i d = s.stopTraverse c i d := by
  simp only [stopTraverse, bitRead_setCursor]
  cases s.bitRead <;> rfl

theorem stopTraverse_noTraverse (c : Bool) (i : BitVec 16) (d : Nat) (s : State) : (s.stopTraverse c i d).NoTraverse := by
  unfold stopTraverse
  split
  · exact noTraverse_of_idle rfl
  · exact noTraverse_of_held rfl

/-- A traversal whose source stops before a leaf is reached stops at the entry the bits lead to (R201, R83). -/
theorem traverseRun_stops (t : Tree) : ∀ (q : Bits) (s : State) (c : Bool) (i : BitVec 16) (d : Nat),
    s.seq = .running (.traverse c i d) → denotes s.cfg.nodeCap s.nodes t i = true → d + t.height ≤ s.cfg.depthCap →
    (∀ e ∈ t.leaves [], ¬ e.2 <+: q) → s.icnt.toNat ≤ 8 → s.stopsAfter q →
    ∃ j, follow s.cfg.nodeCap s.nodes i q = some j ∧
      s.traverseRun = (s.afterBits q.length).stopTraverse c j (d + q.length) := by
  induction t with
  | branch l r ihl ihr =>
    intro q s c i d hs hd hh hp h8 he
    obtain ⟨e, hu, hk, hdl, hdr⟩ := denotes_branch hd
    simp only [Tree.height] at hh
    cases q with
    | nil =>
      refine ⟨i, rfl, ?_⟩
      have htick : s.traverseTick c i d = s.stopTraverse c i d := by
        simp only [traverseTick, hu, hk, if_true, stopTraverse]
        cases hb : s.bitRead with
        | bit b t => exact absurd hb (he.2.2 b t)
        | exhausted t => rfl
        | hold => rfl
      rw [traverseRun_step hs, htick]
      exact traverseRun_stop (stopTraverse_noTraverse c i d s)
    | cons b q =>
      obtain ⟨t, ht, h8t, hte⟩ := stopsAfter_cons h8 he
      have hf := bitRead_frame ht
      have hcfg : t.cfg = s.cfg := by rw [hf]
      have hnodes : t.nodes = s.nodes := by rw [hf]
      have go : ∀ (v : Tree), v.height + 1 + d ≤ s.cfg.depthCap →
          denotes s.cfg.nodeCap s.nodes v (if b then e.right else e.left) = true →
          (∀ x ∈ v.leaves [], ¬ x.2 <+: q) →
          (∀ (q : Bits) (s : State) (c : Bool) (i : BitVec 16) (d : Nat),
            s.seq = .running (.traverse c i d) → denotes s.cfg.nodeCap s.nodes v i = true → d + v.height ≤ s.cfg.depthCap →
            (∀ e ∈ v.leaves [], ¬ e.2 <+: q) → s.icnt.toNat ≤ 8 → s.stopsAfter q →
            ∃ j, follow s.cfg.nodeCap s.nodes i q = some j ∧
              s.traverseRun = (s.afterBits q.length).stopTraverse c j (d + q.length)) →
          ∃ j, follow s.cfg.nodeCap s.nodes i (b :: q) = some j ∧
            s.traverseRun = (s.afterBits (b :: q).length).stopTraverse c j (d + (b :: q).length) := by
        intro v hv hdv hpv ih
        obtain ⟨e', he', _⟩ := denotes_kind hdv
        have htick := traverseTick_branch (c := c) hu hk ht he' (by omega : d + 1 ≤ s.cfg.depthCap)
        obtain ⟨j, h1, h2⟩ := ih q (t.setCursor (.traverse c (if b then e.right else e.left) (d + 1))) c
          (if b then e.right else e.left) (d + 1) rfl (by simpa [hcfg, hnodes] using hdv) (by simp [hcfg]; omega) hpv h8t
          (stopsAfter_graft (u := t.setCursor (.traverse c (if b then e.right else e.left) (d + 1))) rfl hte)
        refine ⟨j, ?_, ?_⟩
        · simp only [setCursor_fields, hcfg, hnodes] at h1
          simp only [follow, hu, hk, if_true, h1]
        · rw [traverseRun_step hs, htick, h2, afterBits_setCursor, stopTraverse_setCursor, List.length_cons, afterBits_succ ht,
            show d + 1 + q.length = d + (q.length + 1) by omega]
      have sub : ∀ v : Tree, (∀ x ∈ v.leaves [b], x ∈ (Tree.branch l r).leaves []) →
          ∀ x ∈ v.leaves [], ¬ x.2 <+: q := by
        intro v hv x hx hpre
        have hm : (x.1, b :: x.2) ∈ v.leaves [b] := by
          rw [Tree.leaves_path, List.mem_map]
          exact ⟨x, hx, by simp⟩
        exact hp _ (hv _ hm) (List.cons_prefix_cons.2 ⟨rfl, hpre⟩)
      cases b with
      | false =>
        exact go l (by omega) (by simpa using hdl)
          (sub l fun x hx => by simp only [Tree.leaves, List.nil_append]; exact List.mem_append_left _ hx) ihl
      | true =>
        exact go r (by omega) (by simpa using hdr)
          (sub r fun x hx => by simp only [Tree.leaves, List.nil_append]; exact List.mem_append_right _ hx) ihr
  | leaf sym =>
    intro q s c i d hs hd hh hp h8 he
    exact absurd (List.nil_prefix) (hp (sym.toNat, []) (by simp [Tree.leaves]))
  | endMessage =>
    intro q s c i d hs hd hh hp h8 he
    exact absurd (List.nil_prefix) (hp (256, []) (by simp [Tree.leaves]))

/-! ### Following any path -/

theorem readNode_setCursor {n d : Nat} (c : Cursor) : ∀ (f : Nat) (code : Bits) (s : State),
    readNode n d f code (s.setCursor c) =
      match readNode n d f code s with
      | .code k t => .code k (t.setCursor c)
      | .hold b t => .hold b (t.setCursor c)
      | .fail e t => .fail e (t.setCursor c) := by
  intro f
  induction f with
  | zero => intro code s; rfl
  | succ f ih =>
    intro code s
    simp only [readNode, bitRead_setCursor]
    cases hb : s.bitRead with
    | hold => rfl
    | exhausted t => rfl
    | bit b t =>
      simp only [setCursor_fields]
      cases hc : (if code = [] then firstBitCheck t.cfg n d else none) with
      | some e => simp
      | none =>
        simp only
        cases hd : decodeNode (code ++ [b]) with
        | ok p => simp
        | error e => simp only [ih]

/-- The tree phase of DECOMPRESS fails as TREE_DEC does (R225). -/
theorem treeDecRun_composite (s : State) : ∀ k, s.err = none → s.seq = .running (.treeDec false k) → s.treeDecRun.err ≠ none →
    (s.setCursor (.treeDec true k)).treeDecRun = s.treeDecRun := by
  refine treeDec_induction (P := fun s => ∀ k, s.err = none → s.seq = .running (.treeDec false k) → s.treeDecRun.err ≠ none →
    (s.setCursor (.treeDec true k)).treeDecRun = s.treeDecRun) ?_ ?_ s
  · intro s hn k _ hs; exact absurd hs (hn _ _)
  · intro s c k hs ih k' he hs' herr
    rw [hs] at hs'
    cases hs'
    rw [treeDecRun_step hs] at herr ⊢
    rw [treeDecRun_step (s := s.setCursor (.treeDec true k)) rfl]
    have stop : ∀ t : State, t.seq = .idle ∨ (∃ c, t.seq = .held c) → t.treeDecRun = t := by
      intro t h
      rcases h with h | ⟨c, h⟩
      · rw [treeDecRun_stop (noTreeDec_of_idle h), traverseRun_stop (noTraverse_of_idle h)]
      · rw [treeDecRun_stop (noTreeDec_of_held h), traverseRun_stop (noTraverse_of_held h)]
    rcases treeDecTick_cases hs with ⟨hh, ht⟩ | ⟨hole, rest, hh, ⟨x, t, hr, _, hf, ht⟩ | ⟨code, t, hr, _, _, hf, ht⟩ | ⟨e, t, hr, _, hf, ht⟩⟩
    · rw [ht, stop _ (.inl rfl)] at herr
      exact absurd he herr
    · have hx : (s.setCursor (.treeDec true k)).treeDecTick true k = (s.treeDecTick false k).setCursor
          (.treeDec true { n := k.n + 1, holes := openHoles k.n hole.depth rest x, code := [] }) := by
        rw [ht]
        have hn : t.nodes = s.nodes := by rw [hf]
        simp only [treeDecTick, fetchNode, hh, readNode_setCursor, hr, placeNode, setCursor_fields, Option.getD_some]
        rw [hn]
        rfl
      rw [hx]
      exact ih _ (by rw [ht, hf]; exact he) (by rw [ht]) herr
    · rw [ht, stop _ (.inr ⟨_, rfl⟩), hf] at herr
      exact absurd he herr
    · have hx : (s.setCursor (.treeDec true k)).treeDecTick true k = s.treeDecTick false k := by
        rw [ht]
        simp only [treeDecTick, fetchNode, hh, readNode_setCursor, hr, treeDecStop]
        rfl
      rw [hx]

theorem follow_append (cap : Nat) (m : Memory) (p q : Bits) : ∀ i,
    follow cap m i (p ++ q) = (follow cap m i p).bind fun j => follow cap m j q := by
  induction p with
  | nil => intro i; rfl
  | cons b p ih =>
    intro i
    simp only [List.cons_append, follow]
    split
    · split
      · exact ih _
      · rfl
    · rfl

/-- A path with a last bit leads through a branch to that branch's child. -/
theorem follow_last {cap : Nat} {m : Memory} {i j : BitVec 16} {p : Bits} (hp : p ≠ []) (h : follow cap m i p = some j) :
    ∃ q b k e, p = q ++ [b] ∧ follow cap m i q = some k ∧ usableNode cap m k = some e ∧ e.kind = .branch ∧
      j = if b then e.right else e.left := by
  obtain ⟨q, b, rfl⟩ : ∃ q b, p = q ++ [b] := ⟨p.dropLast, p.getLast hp, (List.dropLast_append_getLast hp).symm⟩
  rw [follow_append] at h
  cases hk : follow cap m i q with
  | none => rw [hk] at h; cases h
  | some k =>
    rw [hk] at h
    simp only [Option.bind_some, follow] at h
    cases he : usableNode cap m k with
    | none => rw [he] at h; cases h
    | some e =>
      rw [he] at h
      simp only at h
      split at h
      · next hb => cases h; exact ⟨q, b, k, e, rfl, hk, he, hb, rfl⟩
      · cases h

/-- The first entry of a path to a usable entry is usable. -/
theorem follow_head {cap : Nat} {m : Memory} {i j : BitVec 16} {p : Bits} (h : follow cap m i p = some j)
    (hj : (usableNode cap m j).isSome = true) : (usableNode cap m i).isSome = true := by
  cases p with
  | nil => cases h; exact hj
  | cons b p =>
    simp only [follow] at h
    cases hi : usableNode cap m i with
    | none => rw [hi] at h; cases h
    | some e => rfl

/-- A traversal follows the source's bits as far as they lead through branches to a usable entry within DEPTH_CAP (R201). -/
theorem traverseRun_follow (p : Bits) : ∀ (s : State) (c : Bool) (i j : BitVec 16) (d : Nat) (rest : Bits),
    follow s.cfg.nodeCap s.nodes i p = some j → (usableNode s.cfg.nodeCap s.nodes j).isSome = true →
    d + p.length ≤ s.cfg.depthCap → s.icnt.toNat ≤ 8 → s.limitAllows p.length → s.sourceBits = p ++ rest →
    (s.setCursor (.traverse c i d)).traverseRun =
      ((s.afterBits p.length).setCursor (.traverse c j (d + p.length))).traverseRun := by
  induction p with
  | nil => intro s c i j d rest hf _ _ _ _ _; cases hf; rfl
  | cons b p ih =>
    intro s c i j d rest hf hj hd h8 hl hb
    simp only [List.length_cons, limitAllows] at hd hl
    simp only [follow] at hf
    cases he : usableNode s.cfg.nodeCap s.nodes i with
    | none => rw [he] at hf; cases hf
    | some e =>
      rw [he] at hf
      simp only at hf
      split at hf
      · next hk =>
        obtain ⟨t, ht, htb⟩ := bitRead_bit (bs := p ++ rest) h8 (by rw [BitVec.lt_def]; omega) hb
        have hfr := bitRead_frame ht
        have hcfg : t.cfg = s.cfg := by rw [hfr]
        have hnodes : t.nodes = s.nodes := by rw [hfr]
        have hlim : t.limitAllows p.length := by
          have h1 : t.inBits = s.inBits + 1 := by rw [hfr]
          have h2 : t.inLimit = s.inLimit := by rw [hfr]
          have := s.inLimit.isLt
          simp only [limitAllows, h1, h2, BitVec.toNat_add]
          have : (1 : BitVec 32).toNat = 1 := rfl
          omega
        obtain ⟨e', he'⟩ := Option.isSome_iff_exists.1 (follow_head hf hj)
        have hread : (s.setCursor (.traverse c i d)).bitRead = .bit b (t.setCursor (.traverse c i d)) := by
          rw [bitRead_setCursor, ht]
        have htick := traverseTick_branch (s := s.setCursor (.traverse c i d)) (c := c) (i := i) (d := d) he hk hread he'
          (by simp only [setCursor_fields]; omega)
        rw [traverseRun_step (s := s.setCursor (.traverse c i d)) rfl, htick, List.length_cons, afterBits_succ ht]
        have hsc : (t.setCursor (.traverse c i d)).setCursor (.traverse c (if b then e.right else e.left) (d + 1)) =
            t.setCursor (.traverse c (if b then e.right else e.left) (d + 1)) := rfl
        rw [hsc, ih t c _ j (d + 1) rest (by rw [hcfg, hnodes]; exact hf) (by rw [hcfg, hnodes]; exact hj)
          (by rw [hcfg]; omega) (icnt_bitRead h8 ht) hlim htb, show d + 1 + p.length = d + (p.length + 1) by omega]
      · cases hf

/-! ### A description cut off -/

/-- The tree decoder where the source returns no bit: the description is malformed, or the command holds (R160, R83). -/
def stopTree (c : Bool) (k : TreeCursor) (m : Memory) (s : State) : State :=
  match s.bitRead with
  | .exhausted u => u.failTree .malformedTree
  | _ => { s with nodes := m }.holdAt (.treeDec c k)

theorem stopTree_with (c : Bool) (k : TreeCursor) (m m' : Memory) (x : Seq) (s : State) :
    { s with nodes := m', seq := x }.stopTree c k m = s.stopTree c k m := by
  have h := bitRead_with s m' x s.out
  rw [show ({ s with nodes := m', seq := x, out := s.out } : State) = { s with nodes := m', seq := x } from rfl] at h
  simp only [stopTree, h]
  cases hb : s.bitRead with
  | bit b t => rfl
  | hold => rfl
  | exhausted t =>
    have ho : t.out = s.out := by rw [(bitRead_exhausted hb).1]
    simp only [failTree, raise, ← ho]

theorem stopTree_noTreeDec (c : Bool) (k : TreeCursor) (m : Memory) (s : State) : (s.stopTree c k m).NoTreeDec := by
  unfold stopTree
  split
  · exact noTreeDec_of_idle rfl
  · exact noTreeDec_of_held rfl

/-- A node code before whose end the source stops: the reading fails, or holds with the bits read (R116, R160, R83). -/
theorem readNode_stops {n d : Nat} (k : NodeCode) : ∀ (q code : Bits) (s : State) (fuel : Nat),
    code ++ q <+: k.bits → code ++ q ≠ k.bits → q.length < fuel → (code = [] → firstBitCheck s.cfg n d = none) →
    s.icnt.toNat ≤ 8 → s.stopsAfter q →
    readNode n d fuel code s = match (s.afterBits q.length).bitRead with
      | .exhausted u => .fail .malformedTree u
      | _ => .hold (code ++ q) (s.afterBits q.length) := by
  intro q
  induction q with
  | nil =>
    intro code s fuel _ _ hf _ h8 he
    cases fuel with
    | zero => omega
    | succ fuel =>
      simp only [readNode, List.length_nil, afterBits_zero, List.append_nil]
      cases hb : s.bitRead with
      | bit b t => exact absurd hb (he.2.2 b t)
      | exhausted t => rfl
      | hold => rfl
  | cons b q ih =>
    intro code s fuel hk hne hf hc h8 he
    cases fuel with
    | zero => omega
    | succ fuel =>
      obtain ⟨t, ht, h8t, hte⟩ := stopsAfter_cons h8 he
      have hcfg := bitRead_cfg ht
      have hchk : (if code = [] then firstBitCheck t.cfg n d else none) = none := by
        split
        · next h => rw [hcfg]; exact hc h
        · rfl
      have hcode : code ++ [b] ++ q = code ++ b :: q := by simp
      have hlt : (code ++ [b]).length < k.bits.length := by
        have h1 := hk.length_le
        rcases Nat.lt_or_ge (code ++ b :: q).length k.bits.length with h | h
        · simp only [List.length_append, List.length_cons, List.length_nil] at h ⊢; omega
        · exact absurd (hk.eq_of_length (by omega)) hne
      have hshort : decodeNode (code ++ [b]) = .error .truncatedCode := by
        have h1 := decodeNode_short k hlt
        have hpre : code ++ [b] <+: k.bits := List.IsPrefix.trans ⟨q, hcode⟩ hk
        rwa [← List.prefix_iff_eq_take.1 hpre] at h1
      have hr := ih (code ++ [b]) t fuel (by rw [hcode]; exact hk) (by rw [hcode]; exact hne)
        (by simp only [List.length_cons] at hf; omega) (by simp) h8t hte
      simp only [readNode, ht, hchk, hshort, hr, hcode, List.length_cons, afterBits_succ ht]

/-- The tree decoder's iteration inside whose node code the source stops (R160, R165, R83). -/
theorem treeDecTick_stops {s : State} {c : Bool} {n : Nat} {hole : Hole} {rest : List Hole} (k : NodeCode) {q : Bits}
    (h : s.seq = .running (.treeDec c { n := n, holes := hole :: rest, code := [] })) (hq : q <+: k.bits) (hne : q ≠ k.bits)
    (hchk : firstBitCheck s.cfg n hole.depth = none) (h8 : s.icnt.toNat ≤ 8) (he : s.stopsAfter q) (f : Nat) :
    ∃ x m, treeDecLoop (f + 1) s = (s.afterBits q.length).stopTree c x m := by
  have hlen : q.length < 10 := by
    have h1 := length_bits_le k
    have h2 := hq.length_le
    rcases Nat.lt_or_ge q.length k.bits.length with h | h
    · omega
    · exact absurd (hq.eq_of_length (by omega)) hne
  have hr := readNode_stops (n := n) (d := hole.depth) k q [] s 10 hq hne hlen (fun _ => hchk) h8 he
  refine ⟨{ n := n, holes := hole :: rest, code := [] ++ q }, (s.afterBits q.length).nodes, ?_⟩
  rw [treeDecLoop_succ h]
  have : s.treeDecTick c { n := n, holes := hole :: rest, code := [] } =
      (s.afterBits q.length).stopTree c { n := n, holes := hole :: rest, code := [] ++ q } (s.afterBits q.length).nodes := by
    simp only [treeDecTick, fetchNode, hr, stopTree]
    cases (s.afterBits q.length).bitRead <;> rfl
  rw [this, treeDecLoop_stop (stopTree_noTreeDec _ _ _ _)]

/-- Reading bits looks neither at the node memory nor at the cursor. -/
theorem afterBits_at (n : Nat) (s : State) (m : Memory) (x : Seq) :
    { s with nodes := m, seq := x }.afterBits n = { s.afterBits n with nodes := m, seq := x } := by
  have h := afterBits_with n s m x s.out
  rw [show ({ s with nodes := m, seq := x, out := s.out } : State) = { s with nodes := m, seq := x } from rfl] at h
  rw [h]
  have ho : (s.afterBits n).out = s.out := by rw [afterBits_frame n s]; rfl
  rw [← ho]

/-- The tree decoder over a description inside which the source stops (R160, R165, R83). -/
theorem treeDecLoop_stops (t : Tree) : ∀ (q : Bits) (s : State) (c : Bool) (n : Nat) (slot : Slot) (d : Nat) (rest : List Hole) (f : Nat),
    s.seq = .running (.treeDec c { n := n, holes := { slot := slot, depth := d } :: rest, code := [] }) →
    n + t.nodeCount ≤ s.cfg.nodeCap → d + t.height ≤ s.cfg.depthCap → s.icnt.toNat ≤ 8 →
    q <+: t.desc → q ≠ t.desc → s.stopsAfter q →
    ∃ k m, treeDecLoop (f + t.nodeCount) s = (s.afterBits q.length).stopTree c k m := by
  induction t with
  | branch l r ihl ihr =>
    intro q s c n slot d rest f hs hn hd h8 hq hne he
    simp only [Tree.nodeCount, Tree.height] at hn hd
    have hdesc : (Tree.branch l r).desc = true :: (l.desc ++ r.desc) := by simp [Tree.desc, NodeCode.bits]
    rw [hdesc] at hq hne
    have hchk : firstBitCheck s.cfg n d = none := firstBitCheck_none.2 ⟨by omega, by omega⟩
    have hcount : f + (Tree.branch l r).nodeCount = (f + r.nodeCount + l.nodeCount) + 1 := by
      simp only [Tree.nodeCount]; omega
    rw [hcount]
    cases q with
    | nil => exact treeDecTick_stops .branch hs (List.nil_prefix) (by simp [NodeCode.bits]) hchk h8 he _
    | cons b q =>
      obtain ⟨rfl, hq'⟩ := List.cons_prefix_cons.1 hq
      have hne' : q ≠ l.desc ++ r.desc := fun h => hne (by rw [h])
      obtain ⟨⟨hlim1, r1, hsb1⟩, h81, he1, hadd1⟩ := stopsAfter_append (p := [true]) (q := q) h8 he
      rw [treeDecLoop_succ hs, treeDecTick_code .branch hs hchk h8 hlim1 hsb1]
      rw [show NodeCode.branch.bits.length = [true].length from rfl]
      have hcfg1 : (s.afterBits [true].length).cfg = s.cfg := by rw [afterBits_frame [true].length s]; rfl
      rw [show (true :: q).length = ([true] ++ q).length from rfl, ← hadd1]
      generalize s.afterBits [true].length = s1 at *
      -- the state in which the left subtree is read
      let x1 : Seq := .running (.treeDec c { n := n + 1, holes := openHoles n d rest .branch, code := [] })
      by_cases hcase : l.desc <+: q
      · obtain ⟨q2, rfl⟩ := hcase
        have hq2 : q2 <+: r.desc := (List.prefix_append_right_inj l.desc).1 hq'
        have hne2 : q2 ≠ r.desc := fun h => hne' (by rw [h])
        obtain ⟨⟨hlimL, r2, hsb2⟩, h82, he2, hadd2⟩ := stopsAfter_append (p := l.desc) (q := q2) h81 he1
        rw [treeDecLoop_tree l { s1 with nodes := place s.nodes slot n .branch, seq := x1 } c (n + 1) (.leftOf n) (d + 1) _ _
          r2 rfl (by simp only [hcfg1]; omega) (by simp only [hcfg1]; omega) h81 hlimL hsb2, afterBits_at]
        have hcfg2 : (s1.afterBits l.desc.length).cfg = s.cfg := by rw [afterBits_frame l.desc.length s1]; exact hcfg1
        rw [← hadd2]
        generalize s1.afterBits l.desc.length = s2 at *
        let x2 : Seq := .running (.treeDec c
          { n := n + 1 + l.nodeCount, holes := { slot := .rightOf n, depth := d + 1 } :: rest, code := [] })
        obtain ⟨k, m, h⟩ := ihr q2 { s2 with nodes := placeTree l (place s.nodes slot n .branch) (.leftOf n) (n + 1), seq := x2 }
          c (n + 1 + l.nodeCount) (.rightOf n) (d + 1) rest f rfl (by simp only [hcfg2]; omega)
          (by simp only [hcfg2]; omega) h82 hq2 hne2 (stopsAfter_graft (u := { s2 with nodes := _, seq := x2 }) rfl he2)
        refine ⟨k, m, ?_⟩
        rw [afterBits_at, stopTree_with] at h
        exact h
      · have hql : q <+: l.desc := by
          rcases List.prefix_or_prefix_of_prefix hq' (List.prefix_append l.desc r.desc) with h | h
          · exact h
          · exact absurd h hcase
        have hqne : q ≠ l.desc := fun h => hcase (by rw [h])
        obtain ⟨k, m, h⟩ := ihl q { s1 with nodes := place s.nodes slot n .branch, seq := x1 } c (n + 1) (.leftOf n) (d + 1)
          _ (f + r.nodeCount) rfl (by simp only [hcfg1]; omega) (by simp only [hcfg1]; omega) h81 hql hqne
          (stopsAfter_graft (u := { s1 with nodes := _, seq := x1 }) rfl he1)
        refine ⟨k, m, ?_⟩
        rw [afterBits_at, stopTree_with] at h
        exact h
  | leaf sym =>
    intro q s c n slot d rest f hs hn hd h8 hq hne he
    simp only [Tree.nodeCount] at hn
    have hchk : firstBitCheck s.cfg n d = none := firstBitCheck_none.2 ⟨by omega, by omega⟩
    exact treeDecTick_stops (.leaf sym) hs hq hne hchk h8 he f
  | endMessage =>
    intro q s c n slot d rest f hs hn hd h8 hq hne he
    simp only [Tree.nodeCount] at hn
    have hchk : firstBitCheck s.cfg n d = none := firstBitCheck_none.2 ⟨by omega, by omega⟩
    exact treeDecTick_stops .eom hs hq hne hchk h8 he f

/-- TREE_DEC, and the tree phase of DECOMPRESS, over a description inside which the source stops (R160, R165, R225, R83). -/
theorem treeDecRun_stops {s : State} {t : Tree} {q : Bits} (c : Bool) (hf : s.fits t) (h8 : s.icnt.toNat ≤ 8) (hq : q <+: t.desc)
    (hne : q ≠ t.desc) (he : s.stopsAfter q) :
    ∃ k m, (s.beginTreeDec c).treeDecRun =
      { s.afterBits q.length with tableValid := false, nodeCount := 0, root := 0 }.stopTree c k m := by
  obtain ⟨hh, hn⟩ := hf
  have hcfg : (s.beginTreeDec c).cfg = s.cfg := rfl
  obtain ⟨k, m, h⟩ := treeDecLoop_stops t q (s.beginTreeDec c) c 0 .root 0 [] (s.cfg.nodeCap + 2 - t.nodeCount) rfl
    (by rw [hcfg]; omega) (by rw [hcfg]; omega) h8 hq hne (stopsAfter_graft (s := s) (u := s.beginTreeDec c) rfl he)
  have hc : s.cfg.nodeCap + 2 - t.nodeCount + t.nodeCount = (s.beginTreeDec c).cfg.nodeCap + 2 := by rw [hcfg]; omega
  rw [hc, show s.beginTreeDec c = graft s (s.beginTreeDec c) from rfl,
    afterBits_graft q.length s (s.beginTreeDec c) rfl] at h
  refine ⟨k, m, ?_⟩
  have hx : graft (s.afterBits q.length) (s.beginTreeDec c) =
      { { s.afterBits q.length with tableValid := false, nodeCount := 0, root := 0 } with
        nodes := [], seq := (s.beginTreeDec c).seq } := by
    have hfr := afterBits_frame q.length s
    generalize s.afterBits q.length = u at *
    rw [hfr]
    rfl
  rw [hx, stopTree_with] at h
  have hrun : (s.beginTreeDec c).treeDecRun =
      (treeDecLoop ((graft s (s.beginTreeDec c)).cfg.nodeCap + 2) (graft s (s.beginTreeDec c))).traverseRun := rfl
  rw [hrun, h, traverseRun_stop]
  unfold stopTree
  split
  · exact noTraverse_of_idle rfl
  · exact noTraverse_of_held rfl

theorem treeDecRun_ends {s v : State} {t : Tree} {q : Bits} (c : Bool) (hf : s.fits t) (h8 : s.icnt.toNat ≤ 8) (hq : q <+: t.desc)
    (hne : q ≠ t.desc) (he : s.endsAfter q) (hv : (s.afterBits q.length).bitRead = .exhausted v) :
    (s.beginTreeDec c).treeDecRun = { v with tableValid := false, root := 0 }.failTree .malformedTree := by
  obtain ⟨k, m, h⟩ := treeDecRun_stops c hf h8 hq hne (stopsAfter_ends h8 he)
  have hb := bitRead_graft (s.afterBits q.length)
    { s.afterBits q.length with tableValid := false, nodeCount := 0, root := 0 } rfl
  rw [hv] at hb
  have hw := (bitRead_exhausted hv).1
  rw [h, stopTree]
  simp only [show (graft (s.afterBits q.length) { s.afterBits q.length with tableValid := false, nodeCount := 0, root := 0 } : State) =
    { s.afterBits q.length with tableValid := false, nodeCount := 0, root := 0 } from rfl] at hb
  rw [hb]
  generalize s.afterBits q.length = w at *
  generalize v.inq = iq at hw
  subst hw
  rfl

theorem treeDecRun_dries {s : State} {t : Tree} {q : Bits} (c : Bool) (hf : s.fits t) (h8 : s.icnt.toNat ≤ 8) (hq : q <+: t.desc)
    (hne : q ≠ t.desc) (he : s.driesAfter q) :
    ∃ k m, (s.beginTreeDec c).treeDecRun = { s.afterBits q.length with
      nodes := m, tableValid := false, nodeCount := 0, root := 0, seq := .held (.treeDec c k) } := by
  obtain ⟨k, m, h⟩ := treeDecRun_stops c hf h8 hq hne (stopsAfter_dries h8 he)
  have hb := bitRead_graft (s.afterBits q.length)
    { s.afterBits q.length with tableValid := false, nodeCount := 0, root := 0 } rfl
  rw [driesAfter_hold h8 he] at hb
  simp only [show (graft (s.afterBits q.length) { s.afterBits q.length with tableValid := false, nodeCount := 0, root := 0 } : State) =
    { s.afterBits q.length with tableValid := false, nodeCount := 0, root := 0 } from rfl] at hb
  exact ⟨k, m, by rw [h, stopTree, hb]; rfl⟩

/-! ### A tree that is too large -/

/-- The first bit of a node that has no entry or lies too deep ends the command (R160, R254). -/
theorem treeDecTick_unfit {s : State} {c : Bool} {n : Nat} {hole : Hole} {rest : List Hole} {e : ErrorCode} {b : Bool} {bs : Bits}
    (h : s.seq = .running (.treeDec c { n := n, holes := hole :: rest, code := [] }))
    (hchk : firstBitCheck s.cfg n hole.depth = some e) (h8 : s.icnt.toNat ≤ 8) (hl : s.inBits < s.inLimit)
    (hb : s.sourceBits = b :: bs) : ∃ u, s.bitRead = .bit b u ∧ ∀ f, treeDecLoop (f + 1) s = u.failTree e := by
  obtain ⟨t, ht, _⟩ := bitRead_bit h8 hl hb
  refine ⟨t, ht, fun f => ?_⟩
  rw [treeDecLoop_succ h]
  have hcfg := bitRead_cfg ht
  have : s.treeDecTick c { n := n, holes := hole :: rest, code := [] } = t.failTree e := by
    simp only [treeDecTick, fetchNode, readNode, ht, if_true, hcfg, hchk, treeDecStop]
  rw [this, treeDecLoop_stop (noTreeDec_of_idle rfl)]

theorem preorder_length (t : Tree) : ∀ d b, (t.preorder d b).length = t.nodeCount := by
  induction t with
  | branch l r ihl ihr => intro d b; simp only [Tree.preorder, Tree.nodeCount, List.length_cons, List.length_append, ihl, ihr]; omega
  | leaf _ => intros; rfl
  | endMessage => intros; rfl

theorem nodeCount_pos (t : Tree) : 0 < t.nodeCount := by cases t <;> simp only [Tree.nodeCount] <;> omega

/-- The bits before a node of the tree lie within the tree's description. -/
theorem preorder_bits (t : Tree) : ∀ d b, ∀ p ∈ t.preorder d b, b ≤ p.2 ∧ p.2 < b + t.size := by
  induction t with
  | branch l r ihl ihr =>
    intro d b p hp
    simp only [Tree.preorder, Tree.size, List.mem_cons, List.mem_append] at hp ⊢
    rcases hp with rfl | hp | hp
    · simp only; omega
    · have := ihl _ _ p hp; omega
    · have := ihr _ _ p hp; omega
  | leaf _ => intro d b p hp; simp only [Tree.preorder, List.mem_singleton] at hp; subst hp; simp only [Tree.size]; omega
  | endMessage => intro d b p hp; simp only [Tree.preorder, List.mem_singleton] at hp; subst hp; simp only [Tree.size]; omega

/-- A tree whose nodes all lie within a depth is at most that high. -/
theorem preorder_height (t : Tree) : ∀ d b cap, (∀ p ∈ t.preorder d b, p.1 ≤ cap) → d + t.height ≤ cap := by
  induction t with
  | branch l r ihl ihr =>
    intro d b cap h
    simp only [Tree.preorder, List.mem_cons, List.mem_append] at h
    have h1 := ihl (d + 1) (b + 1) cap fun p hp => h p (.inr (.inl hp))
    have h2 := ihr (d + 1) (b + 1 + l.size) cap fun p hp => h p (.inr (.inr hp))
    simp only [Tree.height]; omega
  | leaf _ => intro d b cap h; exact h (d, b) (by simp [Tree.preorder])
  | endMessage => intro d b cap h; exact h (d, b) (by simp [Tree.preorder])

theorem failTree_at (e : ErrorCode) (s : State) (m : Memory) (x : Seq) :
    { s with nodes := m, seq := x }.failTree e = s.failTree e := rfl

/-- The tree decoder ends at the first node in pre-order that has no entry or lies too deep, right after that node's first bit, with
E_NODE_CAP before E_DEPTH (R160, R254). -/
theorem treeDecLoop_first (t : Tree) : ∀ (s : State) (c : Bool) (n : Nat) (slot : Slot) (d b : Nat) (rest : List Hole) (f i dd k : Nat)
    (e : ErrorCode) (r : Bits),
    s.seq = .running (.treeDec c { n := n, holes := { slot := slot, depth := d } :: rest, code := [] }) →
    (t.preorder d b)[i]? = some (dd, b + k) →
    (∀ j p, j < i → (t.preorder d b)[j]? = some p → n + j < s.cfg.nodeCap ∧ p.1 ≤ s.cfg.depthCap) →
    firstBitCheck s.cfg (n + i) dd = some e → s.icnt.toNat ≤ 8 →
    s.limitAllows (k + 1) → s.sourceBits = t.desc.take (k + 1) ++ r →
    treeDecLoop (f + t.nodeCount) s = (s.afterBits (k + 1)).failTree e := by
  have head : ∀ (t : Tree) (s : State) (c : Bool) (n : Nat) (slot : Slot) (d b : Nat) (rest : List Hole) (f dd k : Nat)
      (e : ErrorCode) (r : Bits),
      s.seq = .running (.treeDec c { n := n, holes := { slot := slot, depth := d } :: rest, code := [] }) →
      (t.preorder d b)[0]? = some (dd, b + k) → firstBitCheck s.cfg (n + 0) dd = some e → s.icnt.toNat ≤ 8 →
      s.limitAllows (k + 1) → s.sourceBits = t.desc.take (k + 1) ++ r →
      treeDecLoop (f + t.nodeCount) s = (s.afterBits (k + 1)).failTree e := by
    intro t s c n slot d b rest f dd k e r hs hi hc h8 hl hb
    obtain ⟨rfl, rfl⟩ : dd = d ∧ k = 0 := by
      cases t <;> simp only [Tree.preorder, List.getElem?_cons_zero, Option.some.injEq, Prod.mk.injEq] at hi <;> omega
    obtain ⟨x, xs, hx⟩ : ∃ x xs, s.sourceBits = x :: xs := by
      have := t.length_desc
      cases ht : t.desc with
      | nil => rw [ht] at this; cases t <;> simp only [List.length_nil, Tree.size] at this <;> omega
      | cons x xs => exact ⟨x, [] ++ r, by rw [hb, ht]; rfl⟩
    have hlt : s.inBits < s.inLimit := by rw [BitVec.lt_def]; simp only [limitAllows] at hl; omega
    obtain ⟨u, hu, hloop⟩ := treeDecTick_unfit hs hc h8 hlt hx
    have hcount : f + t.nodeCount = (f + t.nodeCount - 1) + 1 := by have := nodeCount_pos t; omega
    rw [hcount, hloop, afterBits_succ hu, afterBits_zero]
  induction t with
  | branch l r ihl ihr =>
    intro s c n slot d b rest f i dd k e tl hs hi hbefore hc h8 hl hb
    cases i with
    | zero => exact head _ s c n slot d b rest f dd k e tl hs hi hc h8 hl hb
    | succ i =>
      have h0 := hbefore 0 (d, b) (by omega) rfl
      have hchk : firstBitCheck s.cfg n d = none := firstBitCheck_none.2 ⟨by omega, h0.2⟩
      simp only [Tree.preorder, List.getElem?_cons_succ] at hi
      have hdesc : (Tree.branch l r).desc = true :: (l.desc ++ r.desc) := by simp [Tree.desc, NodeCode.bits]
      have hbefore' : ∀ j p, j < i → (l.preorder (d + 1) (b + 1) ++ r.preorder (d + 1) (b + 1 + l.size))[j]? = some p →
          n + 1 + j < s.cfg.nodeCap ∧ p.1 ≤ s.cfg.depthCap := by
        intro j p hj hp
        have := hbefore (j + 1) p (by omega) (by simpa only [Tree.preorder, List.getElem?_cons_succ] using hp)
        exact ⟨by omega, this.2⟩
      have hll := preorder_length l (d + 1) (b + 1)
      -- the branch's own bit
      obtain ⟨k', rfl⟩ : ∃ k', k = k' + 1 := by
        refine ⟨k - 1, ?_⟩
        rcases List.mem_append.1 (List.mem_of_getElem? hi) with h | h
        · have := (preorder_bits _ _ _ _ h).1; simp only at this; omega
        · have := (preorder_bits _ _ _ _ h).1; simp only at this; omega
      rw [hdesc, List.take_succ_cons] at hb
      have hb1 : s.sourceBits = [true] ++ ((l.desc ++ r.desc).take (k' + 1) ++ tl) := hb
      have hl1 : s.limitAllows ([true].length + (k' + 1)) := by
        simp only [limitAllows, List.length_cons, List.length_nil] at hl ⊢; omega
      have hl0 : s.limitAllows [true].length := by simp only [limitAllows] at hl1 ⊢; omega
      have hcount : f + (Tree.branch l r).nodeCount = (f + r.nodeCount + l.nodeCount) + 1 := by
        simp only [Tree.nodeCount]; omega
      rw [hcount, treeDecLoop_succ hs, treeDecTick_code .branch hs hchk h8 hl0 hb1, show NodeCode.branch.bits.length = [true].length from rfl]
      obtain ⟨hsb1, h81, hf1⟩ := afterBits_spec [true] h8 hl0 hb1
      have hlim1 := limitAllows_afterBits h8 hl1 hb1
      have hread : s.afterBits (k' + 1 + 1) = (s.afterBits [true].length).afterBits (k' + 1) := by
        obtain ⟨t, ht, _⟩ := bitRead_bit h8 (by rw [BitVec.lt_def]; simp only [limitAllows] at hl; omega) hb1
        rw [afterBits_succ ht, show [true].length = 1 from rfl, afterBits_one ht]
      rw [hread]
      have hcfg1 : (s.afterBits [true].length).cfg = s.cfg := by rw [hf1]
      generalize s.afterBits [true].length = s1 at *
      let x1 : Seq := .running (.treeDec c { n := n + 1, holes := openHoles n d rest .branch, code := [] })
      by_cases hin : i < l.nodeCount
      · rw [List.getElem?_append_left (by omega)] at hi
        have hm := preorder_bits _ _ _ _ (List.mem_of_getElem? hi)
        simp only at hm
        have hbl : s1.sourceBits = l.desc.take (k' + 1) ++ tl := by
          rw [hsb1, List.take_append_of_le_length (by rw [l.length_desc]; omega)]
        have h := ihl { s1 with nodes := place s.nodes slot n .branch, seq := x1 } c (n + 1) (.leftOf n) (d + 1) (b + 1) _
          (f + r.nodeCount) i dd k' e tl rfl (by rw [hi]; congr 2; omega)
          (fun j p hj hp => by
            simp only [hcfg1]
            exact hbefore' j p hj (by rw [List.getElem?_append_left (by omega)]; exact hp))
          (by simp only [hcfg1]; rw [show n + 1 + i = n + (i + 1) by omega]; exact hc) h81 hlim1 hbl
        rw [afterBits_at, failTree_at] at h
        exact h
      · rw [List.getElem?_append_right (by omega), hll] at hi
        have hm := preorder_bits _ _ _ _ (List.mem_of_getElem? hi)
        simp only at hm
        obtain ⟨k2, rfl⟩ : ∃ k2, k' = l.size + k2 := ⟨k' - l.size, by omega⟩
        have hcapl : n + 1 + l.nodeCount ≤ s.cfg.nodeCap := by
          have hpos := nodeCount_pos l
          have hlast : l.nodeCount - 1 < (l.preorder (d + 1) (b + 1)).length := by omega
          have := hbefore' (l.nodeCount - 1) _ (by omega)
            (by rw [List.getElem?_append_left hlast]; exact List.getElem?_eq_getElem hlast)
          omega
        have hdepl : d + 1 + l.height ≤ s.cfg.depthCap := by
          refine preorder_height l (d + 1) (b + 1) _ fun p hp => ?_
          obtain ⟨j, hj, rfl⟩ := List.getElem_of_mem hp
          exact (hbefore' j _ (by omega) (by rw [List.getElem?_append_left hj]; exact List.getElem?_eq_getElem hj)).2
        have htake : (l.desc ++ r.desc).take (l.size + k2 + 1) = l.desc ++ r.desc.take (k2 + 1) := by
          rw [List.take_append, l.length_desc, List.take_of_length_le (by rw [l.length_desc]; omega),
            show l.size + k2 + 1 - l.size = k2 + 1 by omega]
        rw [htake, List.append_assoc] at hsb1
        have hlim2 : s1.limitAllows (l.desc.length + (k2 + 1)) := by
          rw [l.length_desc]; simp only [limitAllows] at hlim1 ⊢; omega
        have hlimL : s1.limitAllows l.desc.length := by simp only [limitAllows] at hlim2 ⊢; omega
        rw [treeDecLoop_tree l { s1 with nodes := place s.nodes slot n .branch, seq := x1 } c (n + 1) (.leftOf n) (d + 1) _ _
          _ rfl (by simp only [hcfg1]; omega) (by simp only [hcfg1]; omega) h81 hlimL hsb1, afterBits_at]
        obtain ⟨hsb2, h82, hf2⟩ := afterBits_spec l.desc h81 hlimL hsb1
        have hlimR := limitAllows_afterBits h81 hlim2 hsb1
        have hcfg2 : (s1.afterBits l.desc.length).cfg = s.cfg := by rw [hf2]; exact hcfg1
        have hq : (r.desc.take (k2 + 1)).length = k2 + 1 := by rw [List.length_take, r.length_desc]; omega
        have hadd := afterBits_add (p := l.desc) (r := r.desc.take (k2 + 1)) (s := s1) (rest := tl) h81
          (by rw [List.length_append, hq]; exact hlim2) (by rw [hsb1, List.append_assoc])
        rw [List.length_append, hq, l.length_desc, show l.size + (k2 + 1) = l.size + k2 + 1 by omega] at hadd
        rw [← hadd, ← l.length_desc]
        generalize s1.afterBits l.desc.length = s2 at *
        let x2 : Seq := .running (.treeDec c
          { n := n + 1 + l.nodeCount, holes := { slot := .rightOf n, depth := d + 1 } :: rest, code := [] })
        have h := ihr { s2 with nodes := placeTree l (place s.nodes slot n .branch) (.leftOf n) (n + 1), seq := x2 }
          c (n + 1 + l.nodeCount) (.rightOf n) (d + 1) (b + 1 + l.size) rest f (i - l.nodeCount) dd k2 e tl rfl
          (by rw [hi]; congr 2; omega)
          (fun j p hj hp => by
            simp only [hcfg2]
            have := hbefore' (l.nodeCount + j) p (by omega)
              (by rw [List.getElem?_append_right (by omega), hll, show l.nodeCount + j - l.nodeCount = j by omega]; exact hp)
            exact ⟨by omega, this.2⟩)
          (by simp only [hcfg2]; rw [show n + 1 + l.nodeCount + (i - l.nodeCount) = n + (i + 1) by omega]; exact hc) h82 hlimR hsb2
        rw [afterBits_at, failTree_at] at h
        exact h
  | leaf sym =>
    intro s c n slot d b rest f i dd k e tl hs hi hbefore hc h8 hl hb
    cases i with
    | zero => exact head _ s c n slot d b rest f dd k e tl hs hi hc h8 hl hb
    | succ i => simp [Tree.preorder] at hi
  | endMessage =>
    intro s c n slot d b rest f i dd k e tl hs hi hbefore hc h8 hl hb
    cases i with
    | zero => exact head _ s c n slot d b rest f dd k e tl hs hi hc h8 hl hb
    | succ i => simp [Tree.preorder] at hi

/-- TREE_DEC over the description of a tree, read as far as the first bit of the first node that has no entry or lies too deep
(R160, R254). -/
theorem treeDecRun_first {s : State} {t : Tree} {i d b : Nat} {e : ErrorCode} {r : Bits} (c : Bool)
    (hi : (t.preorder 0 0)[i]? = some (d, b))
    (hbefore : ∀ j p, j < i → (t.preorder 0 0)[j]? = some p → j < s.cfg.nodeCap ∧ p.1 ≤ s.cfg.depthCap)
    (hc : firstBitCheck s.cfg i d = some e) (h8 : s.icnt.toNat ≤ 8) (hl : s.limitAllows (b + 1))
    (hb : s.sourceBits = t.desc.take (b + 1) ++ r) :
    (s.beginTreeDec c).treeDecRun = { s.afterBits (b + 1) with tableValid := false, root := 0 }.failTree e := by
  have h := treeDecLoop_first t (s.beginTreeDec c) c 0 .root 0 0 [] (s.cfg.nodeCap + 2) i d b e r rfl (by rw [Nat.zero_add]; exact hi)
    (fun j p hj hp => by rw [Nat.zero_add]; exact hbefore j p hj hp) (by rw [Nat.zero_add]; exact hc) h8 hl hb
  have hbound : (s.beginTreeDec c).treeDecBound ≤ s.cfg.nodeCap + 2 + t.nodeCount :=
    Nat.le_trans (s.beginTreeDec c).treeDecBound_le (Nat.le_add_right _ _)
  rw [treeDecRun_eq hbound, h, traverseRun_stop (noTraverse_of_idle rfl), show s.beginTreeDec c = graft s (s.beginTreeDec c) from rfl,
    afterBits_graft (b + 1) s (s.beginTreeDec c) rfl]
  have hfr := afterBits_frame (b + 1) s
  generalize s.afterBits (b + 1) = u at *
  rw [hfr]
  rfl

/-- The tree decoder over the description of a tree that needs more entries or more depth than there are (R160). -/
theorem treeDecLoop_unfit (t : Tree) : ∀ (s : State) (c : Bool) (n : Nat) (slot : Slot) (d : Nat) (rest : List Hole) (f : Nat) (r : Bits),
    s.seq = .running (.treeDec c { n := n, holes := { slot := slot, depth := d } :: rest, code := [] }) →
    s.cfg.nodeCap < n + t.nodeCount ∨ s.cfg.depthCap < d + t.height → s.icnt.toNat ≤ 8 →
    s.limitAllows t.desc.length → s.sourceBits = t.desc ++ r →
    ∃ e u, treeDecLoop (f + t.nodeCount) s = failTree e u ∧
      ((e = .nodeCap ∧ s.cfg.nodeCap < n + t.nodeCount) ∨ (e = .depth ∧ s.cfg.depthCap < d + t.height)) := by
  induction t with
  | branch l r ihl ihr =>
    intro s c n slot d rest f tl hs hu h8 hlim hb
    simp only [Tree.nodeCount, Tree.height] at hu ⊢
    have hdesc : (Tree.branch l r).desc = NodeCode.branch.bits ++ (l.desc ++ r.desc) := by
      simp [Tree.desc, List.append_assoc]
    rw [hdesc] at hlim hb
    have hlim1 : s.limitAllows (NodeCode.branch.bits.length + (l.desc ++ r.desc).length) := by
      rwa [List.length_append] at hlim
    have hl0 : s.limitAllows NodeCode.branch.bits.length := by simp only [limitAllows] at hlim1 ⊢; omega
    have hcount : f + (1 + l.nodeCount + r.nodeCount) = (f + r.nodeCount + l.nodeCount) + 1 := by omega
    rw [hcount]
    rw [List.append_assoc] at hb
    cases hc : firstBitCheck s.cfg n d with
    | some e =>
      obtain ⟨u, _, hl⟩ := treeDecTick_unfit hs hc h8 (by rw [BitVec.lt_def]; simp only [limitAllows, NodeCode.bits, List.length_cons] at hl0; omega) hb
      refine ⟨e, u, hl _, ?_⟩
      unfold firstBitCheck at hc
      split at hc
      · cases hc; exact .inl ⟨rfl, by omega⟩
      · split at hc
        · cases hc; exact .inr ⟨rfl, by omega⟩
        · cases hc
    | none =>
      rw [treeDecLoop_succ hs, treeDecTick_code .branch hs hc h8 hl0 hb]
      obtain ⟨hn0, hd0⟩ := firstBitCheck_none.1 hc
      obtain ⟨hsb1, h81, hf1⟩ := afterBits_spec NodeCode.branch.bits h8 hl0 hb
      have hlim2 := limitAllows_afterBits h8 hlim1 hb
      generalize s.afterBits NodeCode.branch.bits.length = s1 at *
      have hcfg1 : s1.cfg = s.cfg := by rw [hf1]
      have hlim2' : s1.limitAllows (l.desc.length + r.desc.length) := by rwa [List.length_append] at hlim2
      have hlimL : s1.limitAllows l.desc.length := by simp only [limitAllows] at hlim2' ⊢; omega
      have hsbL : s1.sourceBits = l.desc ++ (r.desc ++ tl) := by rw [hsb1, List.append_assoc]
      let x1 : Seq := .running (.treeDec c { n := n + 1, holes := openHoles n d rest .branch, code := [] })
      by_cases hfit : n + 1 + l.nodeCount ≤ s.cfg.nodeCap ∧ d + 1 + l.height ≤ s.cfg.depthCap
      · rw [treeDecLoop_tree l { s1 with nodes := place s.nodes slot n .branch, seq := x1 } c (n + 1) (.leftOf n) (d + 1) _ _
          (r.desc ++ tl) rfl (by simp only [hcfg1]; omega) (by simp only [hcfg1]; omega) h81 hlimL hsbL]
        rw [show ({ s1 with nodes := place s.nodes slot n .branch, seq := x1 } : State) =
          { s1 with nodes := place s.nodes slot n .branch, seq := x1, out := s1.out } from rfl,
          afterBits_with l.desc.length s1 (place s.nodes slot n .branch) x1 s1.out]
        obtain ⟨hsb2, h82, hf2⟩ := afterBits_spec l.desc h81 hlimL hsbL
        have hlimR := limitAllows_afterBits h81 hlim2' hsbL
        generalize s1.afterBits l.desc.length = s2 at *
        have hcfg2 : s2.cfg = s.cfg := by rw [hf2]; exact hcfg1
        obtain ⟨e, u, hl, he⟩ := ihr { s2 with
            nodes := placeTree l (place s.nodes slot n .branch) (.leftOf n) (n + 1)
            seq := .running (.treeDec c { n := n + 1 + l.nodeCount, holes := { slot := .rightOf n, depth := d + 1 } :: rest, code := [] })
            out := s1.out } c (n + 1 + l.nodeCount) (.rightOf n) (d + 1) rest f tl rfl (by simp only [hcfg2]; omega)
            h82 hlimR hsb2
        refine ⟨e, u, hl, ?_⟩
        simp only [hcfg2] at he
        rcases he with ⟨h1, h2⟩ | ⟨h1, h2⟩
        · exact .inl ⟨h1, by omega⟩
        · exact .inr ⟨h1, by omega⟩
      · obtain ⟨e, u, hl, he⟩ := ihl { s1 with nodes := place s.nodes slot n .branch, seq := x1 } c (n + 1) (.leftOf n) (d + 1)
          _ (f + r.nodeCount) (r.desc ++ tl) rfl (by simp only [hcfg1]; omega) h81 hlimL hsbL
        refine ⟨e, u, hl, ?_⟩
        simp only [hcfg1] at he
        rcases he with ⟨h1, h2⟩ | ⟨h1, h2⟩
        · exact .inl ⟨h1, by omega⟩
        · exact .inr ⟨h1, by omega⟩
  | leaf sym =>
    intro s c n slot d rest f r hs hu h8 hl hb
    simp only [Tree.nodeCount, Tree.height] at hu ⊢
    have hchk : firstBitCheck s.cfg n d = some .nodeCap ∧ s.cfg.nodeCap ≤ n ∨ firstBitCheck s.cfg n d = some .depth ∧ s.cfg.depthCap < d := by
      unfold firstBitCheck
      by_cases h1 : s.cfg.nodeCap ≤ n
      · simp [h1]
      · rw [if_neg h1, if_pos (by omega)]; exact .inr ⟨rfl, by omega⟩
    have hlt : s.inBits < s.inLimit := by
      rw [BitVec.lt_def]; simp only [limitAllows, Tree.desc, NodeCode.bits, List.length_cons] at hl; omega
    rcases hchk with ⟨hc, hx⟩ | ⟨hc, hx⟩
    · obtain ⟨u, _, h⟩ := treeDecTick_unfit hs hc h8 hlt hb
      exact ⟨_, u, h f, .inl ⟨rfl, by omega⟩⟩
    · obtain ⟨u, _, h⟩ := treeDecTick_unfit hs hc h8 hlt hb
      exact ⟨_, u, h f, .inr ⟨rfl, by omega⟩⟩
  | endMessage =>
    intro s c n slot d rest f r hs hu h8 hl hb
    simp only [Tree.nodeCount, Tree.height] at hu ⊢
    have hchk : firstBitCheck s.cfg n d = some .nodeCap ∧ s.cfg.nodeCap ≤ n ∨ firstBitCheck s.cfg n d = some .depth ∧ s.cfg.depthCap < d := by
      unfold firstBitCheck
      by_cases h1 : s.cfg.nodeCap ≤ n
      · simp [h1]
      · rw [if_neg h1, if_pos (by omega)]; exact .inr ⟨rfl, by omega⟩
    have hlt : s.inBits < s.inLimit := by
      rw [BitVec.lt_def]; simp only [limitAllows, Tree.desc, NodeCode.bits, List.length_cons] at hl; omega
    rcases hchk with ⟨hc, hx⟩ | ⟨hc, hx⟩
    · obtain ⟨u, _, h⟩ := treeDecTick_unfit hs hc h8 hlt hb
      exact ⟨_, u, h f, .inl ⟨rfl, by omega⟩⟩
    · obtain ⟨u, _, h⟩ := treeDecTick_unfit hs hc h8 hlt hb
      exact ⟨_, u, h f, .inr ⟨rfl, by omega⟩⟩

end State

end Sys2Proof.Machine
end

