-- ==== Sys2Proof/Laws/Commands.lean ====
section
/-!
SUPPORT. One law per command over a tree at ROOT or at the head of the source, and the small facts about bit sequences they are used
with: what `exec` answers, in terms of the sink's and source's operations.
-/

namespace Sys2Proof.Machine

namespace State

/-! ### Bit sequences -/

/-- The bits of IN's leading bytes (R73, R77). -/
theorem itemBits_bytes (bytes : List Byte) (more : List InItem) : itemBits (bytes.map .byte ++ more) = streamBits bytes ++ itemBits more := by
  induction bytes with
  | nil => rfl
  | cons b bs ih =>
    simp only [List.map_cons, List.cons_append, itemBits, ih, streamBits_cons, List.append_assoc]

/-- With no buffered bit the source's bits are IN's (R55). -/
theorem sourceBits_empty {s : State} (h : s.icnt = 0) : s.sourceBits = itemBits s.inq := by
  have h0 : s.icnt.toNat = 0 := by rw [h]; rfl
  simp [sourceBits, h0]

/-- The bytes appended to OUT hold the bits appended to the sink's stream (R76). -/
theorem streamBits_inj_append {a b : List Byte} {x : Bits} (h : streamBits (a ++ b) = streamBits a ++ x) : streamBits b = x := by
  rw [streamBits_append] at h
  exact List.append_cancel_left h

/-- Bit n of a byte sequence's stream is bit 7 - (n mod 8) of byte n / 8 (R76, R77). -/
theorem getD_streamBits : ∀ (bytes : List Byte) (n : Nat), n < 8 * bytes.length →
    (streamBits bytes).getD n false = (bytes.getD (n / 8) 0).getLsbD (7 - n % 8) := by
  intro bytes
  induction bytes with
  | nil => intro n h; simp at h
  | cons b bs ih =>
    intro n h
    rw [streamBits_cons]
    by_cases hn : n < 8
    · rw [List.getD_append _ _ _ _ (by simpa using hn), List.getD_eq_getElem _ _ (by simpa using hn), getElem_msbBits]
      rw [show n / 8 = 0 by omega, show n % 8 = n by omega]
      simp [BitVec.getMsbD, hn]
    · rw [List.getD_append_right _ _ _ _ (by simpa using Nat.not_lt.1 hn)]
      simp only [length_msbBits]
      rw [ih (n - 8) (by simp only [List.length_cons] at h; omega)]
      rw [show n / 8 = (n - 8) / 8 + 1 by omega, show n % 8 = (n - 8) % 8 by omega]
      rfl

/-! ### Nodes and trees -/

/-- What makes an entry unusable to a walk or traversal (R140, R201). -/
theorem usableNode_none {cap : Nat} {m : Memory} {i : BitVec 16} : usableNode cap m i = none ↔
    (cap ≤ i.toNat ∨ tableGet m i.toNat = none ∨ ∃ e, tableGet m i.toNat = some e ∧ e.kind = .reserved) := by
  unfold usableNode
  split
  · next h => simp [h]
  · next h =>
    cases ht : tableGet m i.toNat with
    | none => simp
    | some e => simp; omega

/-- The counts of a tree's leaves that give its size (R142). -/
theorem size_counts (t : Tree) : ∀ p, (t.leaves p).length ≤ t.nodeCount ∧
    t.size = (t.nodeCount - (t.leaves p).length) + 10 * (t.leaves p).countP (fun e => e.1 < 256) +
      2 * (t.leaves p).countP (fun e => e.1 = 256) := by
  induction t with
  | branch l r ihl ihr =>
    intro p
    obtain ⟨h1, h2⟩ := ihl (p ++ [false])
    obtain ⟨h3, h4⟩ := ihr (p ++ [true])
    simp only [Tree.leaves, List.length_append, List.countP_append, Tree.nodeCount, Tree.size]
    omega
  | leaf s =>
    intro p
    have := s.isLt
    simp [Tree.leaves, Tree.nodeCount, Tree.size, show s.toNat < 256 by omega, show s.toNat ≠ 256 by omega]
  | endMessage => intro p; simp [Tree.leaves, Tree.nodeCount, Tree.size]

/-- Tree descriptions parse in one way (R117). -/
theorem desc_unique : ∀ (t u : Tree) (x y : Bits), t.desc ++ x = u.desc ++ y → t = u ∧ x = y := by
  intro t
  induction t with
  | branch l r ihl ihr =>
    intro u x y h
    cases u with
    | branch l' r' =>
      simp only [Tree.desc, List.append_assoc, List.append_cancel_left_eq] at h
      obtain ⟨rfl, h2⟩ := ihl _ _ _ h
      obtain ⟨rfl, h3⟩ := ihr _ _ _ h2
      exact ⟨rfl, h3⟩
    | leaf s => simp [Tree.desc, NodeCode.bits] at h
    | endMessage => simp [Tree.desc, NodeCode.bits] at h
  | leaf s =>
    intro u x y h
    have hu : u.desc ++ y = u.desc ++ y := rfl
    cases u with
    | branch l' r' => simp [Tree.desc, NodeCode.bits] at h
    | leaf s' =>
      have h1 := decodeNode_bits (.leaf s) x
      have h2 := decodeNode_bits (.leaf s') y
      simp only [Tree.desc] at h
      rw [h, h2] at h1
      simp at h1
      exact ⟨by rw [h1.1], h1.2.symm⟩
    | endMessage => simp [Tree.desc, NodeCode.bits] at h
  | endMessage =>
    intro u x y h
    cases u with
    | branch l' r' => simp [Tree.desc, NodeCode.bits] at h
    | leaf s' => simp [Tree.desc, NodeCode.bits] at h
    | endMessage => simpa [Tree.desc, NodeCode.bits] using h

/-! ### Encoding commands -/

/-- The end of a command that wrote bits. -/
theorem bitWrites_succeed (s : State) (bs : Bits) : (s.bitWrites bs).succeed =
    { s with obuf := (s.bitWrites bs).succeed.obuf, ocnt := (s.bitWrites bs).succeed.ocnt,
             outBits := s.outBits + BitVec.ofNat 32 bs.length, out := (s.bitWrites bs).succeed.out, done := true, seq := .idle } := by
  conv_lhs => rw [bitWrites_frame]
  rfl

/-- TREE_ENC of a tree that fits (R141, R143). -/
theorem exec_treeEnc_tree {s : State} {t : Tree} (ht : s.treeAtRoot t = true) (hf : s.fits t) :
    exec .treeEnc s = .next (s.bitWrites t.desc).succeed := by
  simp only [exec, execTreeEnc, walk_tree false ht hf (by simp), treeEncAfter, descBits_treeVisits t _ _ _ ht]

/-- TABLE_BUILD of a tree that fits and has no repeated key (R180). -/
theorem exec_tableBuild_tree {s : State} {t : Tree} (ht : s.treeAtRoot t = true) (hf : s.fits t) (hk : t.keys.Nodup) :
    exec .tableBuild s = .next (s.clearTable.fillTable (treeVisits s.nodes t s.root 0 [])).succeed := by
  have hw : s.clearTable.walk true = .ok (treeVisits s.nodes t s.root 0 []) := walk_tree (s := s.clearTable) true ht hf (fun _ => hk)
  simp only [exec, execTableBuild, hw, tableBuildAfter]

/-- The table TABLE_BUILD leaves (R180, R181). -/
theorem codes_leaf {s : State} {t : Tree} (ht : s.treeAtRoot t = true) (hk : t.keys.Nodup) :
    (∀ k p, (k, p) ∈ t.leaves [] → tableGet (codesOf s.nodes (treeVisits s.nodes t s.root 0 [])) k = some { len := BitVec.ofNat 9 p.length, path := p }) ∧
      (∀ k, k ∉ t.keys → tableGet (codesOf s.nodes (treeVisits s.nodes t s.root 0 [])) k = none) := by
  refine ⟨?_, ?_⟩
  · intro k p h; rw [tableGet_codesOf_tree ht hk, Tree.pathOf_leaf hk h]; rfl
  · intro k h; rw [tableGet_codesOf_tree ht hk, Tree.pathOf_none h]; rfl

/-- The state in which COMPRESS's input loop starts (R224). -/
def payloadStart (s : State) (t : Tree) : State :=
  ({ s with codes := codesOf s.nodes (treeVisits s.nodes t s.root 0 []), tableValid := true } : State).bitWrites t.desc

/-- COMPRESS of a tree that fits, has no repeated key and has an end-of-message leaf (R224). -/
theorem exec_compress_tree {s : State} {t : Tree} (ht : s.treeAtRoot t = true) (hf : s.fits t) (hk : t.keys.Nodup) (he : 256 ∈ t.keys) :
    exec .compress s = .next (payloadLoop s.inq (payloadStart s t)) := by
  have hw : s.clearTable.walk true = .ok (treeVisits s.nodes t s.root 0 []) := walk_tree (s := s.clearTable) true ht hf (fun _ => hk)
  obtain ⟨p, hp⟩ := Tree.pathOf_of_mem he
  have h256 : tableGet (s.clearTable.fillTable (treeVisits s.nodes t s.root 0 [])).codes 256 = some (codeEntry p) := by
    have := tableGet_codesOf_tree ht hk 256
    rw [hp] at this
    exact this
  have hd : descBits s.clearTable.nodes (treeVisits s.nodes t s.root 0 []) = t.desc := descBits_treeVisits t _ _ _ ht
  simp only [exec, execCompress, hw, compressAfter, h256, hd, payloadRun]
  have : ((s.clearTable.fillTable (treeVisits s.nodes t s.root 0 [])).bitWrites t.desc).inq = s.inq := by simp
  rw [this]
  rfl

theorem payloadStart_codePath {s : State} {t : Tree} (ht : s.treeAtRoot t = true) (hk : t.keys.Nodup) (k : Nat) :
    (payloadStart s t).codePath k = (t.pathOf k).getD [] := by
  have h : (payloadStart s t).codes = codesOf s.nodes (treeVisits s.nodes t s.root 0 []) := by simp [payloadStart]
  simp only [codePath, h, tableGet_codesOf_tree ht hk]
  cases t.pathOf k <;> rfl

theorem payloadStart_isSome {s : State} {t : Tree} (ht : s.treeAtRoot t = true) (hk : t.keys.Nodup) (k : Nat) :
    (tableGet (payloadStart s t).codes k).isSome = true ↔ k ∈ t.keys := by
  have h : (payloadStart s t).codes = codesOf s.nodes (treeVisits s.nodes t s.root 0 []) := by simp [payloadStart]
  rw [h, tableGet_codesOf_tree ht hk, ← Tree.pathOf_isSome]; simp

/-! ### Decoding commands -/

/-- A traversal enters on a path that leads on through the root. -/
theorem enterTraverse_follow {s : State} {p : Bits} {j : BitVec 16} {e : NodeEntry} (c : Bool)
    (hf : follow s.cfg.nodeCap s.nodes s.root p = some j) (hu : usableNode s.cfg.nodeCap s.nodes j = some e)
    (hp : p = [] → e.kind ≠ .leaf) : s.enterTraverse c = s.setCursor (.traverse c s.root 0) := by
  cases p with
  | nil => cases hf; simp [enterTraverse, hu, hp rfl]
  | cons b p =>
    simp only [follow] at hf
    cases hr : usableNode s.cfg.nodeCap s.nodes s.root with
    | none => rw [hr] at hf; cases hf
    | some r =>
      rw [hr] at hf
      simp only at hf
      split at hf
      · next hk => simp [enterTraverse, hr, hk]
      · cases hf

/-- SYM_DEC as far as the path `p` (R200, R201). -/
theorem exec_symDec_follow {s : State} {p rest : Bits} {j : BitVec 16} {e : NodeEntry}
    (hf : follow s.cfg.nodeCap s.nodes s.root p = some j) (hu : usableNode s.cfg.nodeCap s.nodes j = some e)
    (hp : p = [] → e.kind ≠ .leaf) (hd : p.length ≤ s.cfg.depthCap) (h8 : s.icnt.toNat ≤ 8) (hl : s.limitAllows p.length)
    (hb : s.sourceBits = p ++ rest) :
    exec .symDec s = .next ((s.afterBits p.length).setCursor (.traverse false j p.length)).traverseRun := by
  simp only [exec, execSymDec, enterTraverse_follow false hf hu hp]
  rw [traverseRun_follow p s false s.root j 0 rest hf (by rw [hu]; rfl) (by omega) h8 hl hb, Nat.zero_add]

/-- SYM_DEC at a leaf (R200). -/
theorem traverseRun_leaf {s : State} {j : BitVec 16} {e : NodeEntry} {d : Nat} (hu : usableNode s.cfg.nodeCap s.nodes j = some e)
    (hk : e.kind ≠ .branch) : (s.setCursor (.traverse false j d)).traverseRun = s.endWithKey e.key := by
  rw [traverseRun_step (s := s.setCursor (.traverse false j d)) rfl]
  simp only [traverseTick, setCursor_fields, hu, if_neg hk, leafReached, Bool.false_eq_true, if_false]
  rw [traverseRun_stop (noTraverse_of_idle rfl)]; rfl

/-- TREE_DEC of a description of a tree that fits (R160). -/
theorem exec_treeDec_tree {s : State} {t : Tree} {r : Bits} (hf : s.fits t) (h8 : s.icnt.toNat ≤ 8) (hl : s.limitAllows t.size)
    (hb : s.sourceBits = t.desc ++ r) :
    exec .treeDec s = .next { s.afterBits t.desc.length with
      nodes := placeTree t [] .root 0, tableValid := false, nodeCount := BitVec.ofNat 17 t.nodeCount, root := 0,
      done := true, seq := .idle } := by
  rw [← t.length_desc] at hl
  simp only [exec, execTreeDec, treeDecRun_tree t false hf h8 hl hb]
  rw [traverseRun_stop (noTraverse_of_idle rfl)]
  rfl

theorem target_ne {slot : Slot} {n : Nat} (h : slot ≠ .rightOf n) : slot.target ≠ some n := by
  cases slot with
  | root => simp [Slot.target]
  | leftOf j => simp [Slot.target]
  | rightOf j => simpa [Slot.target] using h

/-- The state in which the payload phase of DECOMPRESS starts (R225). -/
def afterTree (s : State) (t : Tree) : State :=
  { s.afterBits t.desc.length with
    nodes := placeTree t [] .root 0, tableValid := false, nodeCount := BitVec.ofNat 17 t.nodeCount, root := 0,
    seq := .running (.treeDec true { n := t.nodeCount, holes := [], code := [] }) }

theorem nodeCap_of_wf {c : Config} (h : c.wf = true) : c.nodeCap ≤ 65535 ∧ 1 ≤ c.nodeCap := by simp [Config.wf] at h; omega

theorem afterTree_at {s : State} {t : Tree} (hc : s.cfg.wf = true) (hf : s.fits t) : (afterTree s t).treeAtRoot t = true := by
  have : (afterTree s t).cfg = s.cfg := by simp only [afterTree]; rw [afterBits_frame]; rfl
  simp only [treeAtRoot, this]
  exact denotes_placeTree (nodeCap_of_wf hc).1 t hf.2

/-- DECOMPRESS's tree phase over a description of a tree that fits (R225). -/
theorem exec_decompress_tree {s : State} {t : Tree} {r : Bits} (hf : s.fits t) (h8 : s.icnt.toNat ≤ 8)
    (hl : s.limitAllows t.desc.length) (hb : s.sourceBits = t.desc ++ r) :
    exec .decompress s = .next ((afterTree s t).enterTraverse true).traverseRun := by
  simp only [exec, execDecompress, treeDecRun_tree t true hf h8 hl hb]
  rfl

theorem afterTree_afterBits (s : State) (t : Tree) (n : Nat) :
    ((afterTree s t).setCursor (.traverse true 0 0)).afterBits n =
      graft ((s.afterBits t.desc.length).afterBits n) ((afterTree s t).setCursor (.traverse true 0 0)) := by
  exact afterBits_graft n (s.afterBits t.desc.length) ((afterTree s t).setCursor (.traverse true 0 0)) rfl

/-- DECOMPRESS whose source stops inside the payload, after the description, the paths of some bytes and bits that reach no leaf: it
stops at the entry those bits lead to, with the tree in place and the bytes in OUT (R225, R201, R83). -/
theorem exec_decompress_stops {s : State} {t : Tree} {input : List Byte} {q : Bits} (hc : s.cfg.wf = true) (hf : s.fits t)
    (hleaf : t.isLeaf = false) (hin : ∀ b ∈ input, b.toNat ∈ t.keys) (hq : ∀ e ∈ t.leaves [], ¬ e.2 <+: q) (h8 : s.icnt.toNat ≤ 8)
    (he : s.stopsAfter (t.desc ++ pathBits t input ++ q)) :
    ∃ j, follow s.cfg.nodeCap (placeTree t [] .root 0) 0 q = some j ∧
      exec .decompress s = .next ({ s.afterBits (t.desc ++ pathBits t input ++ q).length with
        nodes := placeTree t [] .root 0, tableValid := false, nodeCount := BitVec.ofNat 17 t.nodeCount, root := 0,
        out := s.out ++ input }.stopTraverse true j q.length) := by
  have he1 := he
  rw [List.append_assoc] at he1
  obtain ⟨⟨hld, rest, hb0⟩, h8', he2, hadd1⟩ := stopsAfter_append h8 he1
  obtain ⟨⟨hlp, rest2, hb2⟩, h82, he3, hadd2⟩ := stopsAfter_append (p := pathBits t input) h8' he2
  have hat := afterTree_at hc hf
  have hent := enterTraverse_tree hat true
  simp only [hleaf, Bool.false_eq_true, if_false] at hent
  have hcfg : (afterTree s t).cfg = s.cfg := by simp only [afterTree]; rw [afterBits_frame]; rfl
  have hout : (afterTree s t).out = s.out := by simp only [afterTree]; rw [afterBits_frame]; rfl
  have hrun := exec_decompress_tree hf h8 hld hb0
  rw [hent, show (afterTree s t).root = 0 from rfl, traverseRun_input hleaf input ((afterTree s t).setCursor (.traverse true 0 0)) rest2 rfl hat (by simpa [hcfg] using hf.1) hin h8' hlp hb2,
    afterTree_afterBits] at hrun
  generalize hz : ({ graft ((s.afterBits t.desc.length).afterBits (pathBits t input).length) ((afterTree s t).setCursor (.traverse true 0 0)) with
    out := ((afterTree s t).setCursor (.traverse true 0 0)).out ++ input } : State) = z at hrun
  have hzs : z.seq = .running (.traverse true 0 0) := by rw [← hz]; rfl
  have hzc : z.cfg = s.cfg := by rw [← hz]; exact hcfg
  have hzn : z.nodes = placeTree t [] .root 0 := by rw [← hz]; rfl
  have hzd : denotes z.cfg.nodeCap z.nodes t 0 = true := by rw [hzc, hzn, ← hcfg]; exact hat
  have hz8 : z.icnt.toNat ≤ 8 := by rw [← hz]; exact h82
  have hlim : z.inLimit = ((s.afterBits t.desc.length).afterBits (pathBits t input).length).inLimit := by
    rw [← hz, afterBits_frame (pathBits t input).length (s.afterBits t.desc.length)]; rfl
  have hzg : z = graft ((s.afterBits t.desc.length).afterBits (pathBits t input).length) z := by rw [← hz]; rfl
  obtain ⟨j, hj, hcut⟩ := traverseRun_stops t q z true 0 0 hzs hzd (by rw [hzc, Nat.zero_add]; exact hf.1) hq hz8
    (by rw [hzg]; exact stopsAfter_graft hlim he3)
  rw [hzc, hzn] at hj
  refine ⟨j, hj, ?_⟩
  rw [hrun, hcut, Nat.zero_add, hzg, afterBits_graft q.length _ z hlim, hadd2, hadd1, List.append_assoc]
  congr 1
  have hfr := afterBits_frame (t.desc ++ (pathBits t input ++ q)).length s
  have hfr2 := afterBits_frame t.desc.length s
  have hsame : graft (s.afterBits (t.desc ++ (pathBits t input ++ q)).length) z =
      ({ s.afterBits (t.desc ++ (pathBits t input ++ q)).length with
      nodes := placeTree t [] .root 0, tableValid := false, nodeCount := BitVec.ofNat 17 t.nodeCount, root := 0,
      out := s.out ++ input } : State).setCursor (.traverse true 0 0) := by
    rw [← hz, ← hout]
    generalize s.afterBits (t.desc ++ (pathBits t input ++ q)).length = a at *
    rw [hfr]
    simp only [afterTree, graft, setCursor]
    rw [hfr2]
    rfl
  rw [hsame, stopTraverse_setCursor]

end State

end Sys2Proof.Machine
end

