-- ==== Sys2Proof/Laws/PerInstr.lean ====
section
/-!
SUPPORT. Families of statements made instruction by instruction. `Encoding`: what the encoder writes has the length and the fixed
bits the spec gives every encoding (R110, R111, R116).
-/

namespace Sys2Proof.Laws

namespace Encoding

/-- The instruction is well-formed, and so is what the encoder writes for it: a command is a word below 12 (R110, R111), a node
code has 1, 2 or 10 bits and starts as its kind does (R116). -/
def Statement (i : Instr) : Prop := i.wf = true ∧ (encode i).wf = true

theorem nop : Statement .nop := by simp [Statement, Instr.wf, encode, Code.wf]
theorem treeEnc : Statement .treeEnc := by simp [Statement, Instr.wf, encode, Code.wf]
theorem treeDec : Statement .treeDec := by simp [Statement, Instr.wf, encode, Code.wf]
theorem tableBuild : Statement .tableBuild := by simp [Statement, Instr.wf, encode, Code.wf]
theorem symEnc : Statement .symEnc := by simp [Statement, Instr.wf, encode, Code.wf]
theorem symDec : Statement .symDec := by simp [Statement, Instr.wf, encode, Code.wf]
theorem flush : Statement .flush := by simp [Statement, Instr.wf, encode, Code.wf]
theorem compress : Statement .compress := by simp [Statement, Instr.wf, encode, Code.wf]
theorem decompress : Statement .decompress := by simp [Statement, Instr.wf, encode, Code.wf]
theorem sinkReset : Statement .sinkReset := by simp [Statement, Instr.wf, encode, Code.wf]
theorem sourceReset : Statement .sourceReset := by simp [Statement, Instr.wf, encode, Code.wf]
theorem drainIn : Statement .drainIn := by simp [Statement, Instr.wf, encode, Code.wf]
theorem dBranch : Statement .dBranch := by simp [Statement, Instr.wf, encode, Code.wf, NodeCode.bits]
theorem dEom : Statement .dEom := by simp [Statement, Instr.wf, encode, Code.wf, NodeCode.bits]
theorem dLeaf (sym : Byte) : Statement (.dLeaf sym) := by
  simp [Statement, Instr.wf, encode, Code.wf, NodeCode.bits]

end Encoding

end Sys2Proof.Laws
end

