-- ==== Sys2Proof/Laws/Program.lean ====
section
/-!
SUPPORT. Runs of several steps, and the host's program lines in them: the writes of a `NODE` line and the reads of `WAIT` (R123, R124).
-/

namespace Sys2Proof.Machine

namespace State

theorem run_succ (n : Nat) {s t : State} (h : step s = .next t) : Sys2Proof.core.run (n + 1) s = Sys2Proof.core.run n t := by
  simp only [Host.Core.run, Sys2Proof.core, h]

theorem run_one {s t : State} (h : step s = .next t) : Sys2Proof.core.run 1 s = .next t := by
  rw [run_succ 0 h]; rfl

/-- A run is a run of its first part and then of the rest. -/
theorem run_add (m : Nat) : ∀ (n : Nat) {s t : State}, Sys2Proof.core.run m s = .next t → Sys2Proof.core.run (m + n) s = Sys2Proof.core.run n t := by
  induction m with
  | zero => intro n s t h; cases h; rw [Nat.zero_add]
  | succ m ih =>
    intro n s t h
    rw [show m + 1 + n = (m + n) + 1 by omega]
    simp only [Host.Core.run] at h ⊢
    cases hs : Sys2Proof.core.step s with
    | next u => rw [hs] at h; exact ih n h
    | fault f => rw [hs] at h; cases h
    | refused r => rw [hs] at h; cases h

theorem passes_iff (x : Event) : x.passesWait = true ↔ x ∈ ([.take, .reset, .core, .tick, .pause] : List Event) := by
  cases x <;> simp [Event.passesWait]

theorem waitAgain_other {rest : List Event} (h : ∀ x, rest.head? = some x → x ∉ ([.take, .reset, .core, .tick, .pause] : List Event)) :
    waitAgain rest = .core :: .wait :: rest := by
  cases rest with
  | nil => rfl
  | cons x more =>
    have := h x rfl
    rw [← passes_iff] at this
    simp [waitAgain, this]

/-- One read of `WAIT` as a step (R124). -/
theorem step_wait (s : State) (rest : List Event) : step { s with events := .wait :: rest } =
    .next { s with reads := s.reads ++ [s.statusWord], events := if s.busy then waitAgain rest else rest } := by
  simp only [step]
  rw [waitTurn_eq]
  rfl

theorem step_wait_other {s : State} {rest : List Event} (hb : s.busy = true)
    (h : ∀ x, rest.head? = some x → x ∉ ([.take, .reset, .core, .tick, .pause] : List Event)) :
    step { s with events := .wait :: rest } = .next { s with reads := s.reads ++ [s.statusWord], events := .core :: .wait :: rest } := by
  rw [step_wait, hb, if_pos rfl, waitAgain_other h]

/-- A `WR` line while BUSY = 0 (R123, R64). -/
theorem write_step {s : State} (hb : s.busy = false) (r : Reg) (v : Word) (rest : List Event) :
    step { s with events := .write r.offset v :: rest } = .next { s.writeReg r v with events := rest } :=
  writesTo_idle hb r v r.offset rest (ofOffset_offset r)

/-- The three writes of a `NODE` line (R124, R38). -/
theorem node_line {s : State} (hb : s.busy = false) (i : BitVec 16) (link w : Word) (rest : List Event) (hi : i.toNat < s.cfg.nodeCap) :
    Sys2Proof.core.run 3 { s with events := [.write Reg.nodeAddr.offset (i.setWidth 32), .write Reg.nodeLink.offset link,
      .write Reg.nodeData.offset w] ++ rest } = .next { s with
        events := rest, nodes := tablePut s.nodes i.toNat (nodeOfWrite w link), tableValid := false, nodeAddr := i, nodeLink := link } := by
  have hx : (i.setWidth 32).extractLsb' 0 16 = i := by
    apply BitVec.eq_of_getLsbD_eq; intro j hj; simp [BitVec.getLsbD_setWidth, hj]; intro; omega
  have h1 : step { s with events := [.write Reg.nodeAddr.offset (i.setWidth 32), .write Reg.nodeLink.offset link,
      .write Reg.nodeData.offset w] ++ rest } = .next { s with nodeAddr := i, events := [.write Reg.nodeLink.offset link,
      .write Reg.nodeData.offset w] ++ rest } := by
    have := write_step hb .nodeAddr (i.setWidth 32) ([.write Reg.nodeLink.offset link, .write Reg.nodeData.offset w] ++ rest)
    simp only [writeReg, hx] at this
    exact this
  have h2 := write_step (s := { s with nodeAddr := i }) hb .nodeLink link (.write Reg.nodeData.offset w :: rest)
  have h3 := write_step (s := { s with nodeAddr := i, nodeLink := link }) hb .nodeData w rest
  simp only [writeReg, writeNodeData, if_pos hi] at h3
  rw [run_succ 2 h1]
  exact (run_succ 1 h2).trans ((run_succ 0 h3).trans rfl)

theorem links_append (l r : BitVec 16) : (r.setWidth 32 <<< 16) ||| l.setWidth 32 = r ++ l := by
  apply BitVec.eq_of_getLsbD_eq
  intro j hj
  simp only [BitVec.getLsbD_or, BitVec.getLsbD_shiftLeft, BitVec.getLsbD_setWidth, BitVec.getLsbD_append]
  by_cases h : j < 16
  · simp [h, hj]
  · have : l.getLsbD j = false := BitVec.getLsbD_of_ge _ _ (by omega)
    simp [h, hj, this]; omega

theorem append_low (l r : BitVec 16) : (r ++ l).extractLsb' 0 16 = l := by
  apply BitVec.eq_of_getLsbD_eq; intro j hj
  simp only [BitVec.getLsbD_extractLsb', BitVec.getLsbD_append, Nat.zero_add, hj, decide_true, if_true, Bool.true_and]

theorem append_high (l r : BitVec 16) : (r ++ l).extractLsb' 16 16 = r := by
  apply BitVec.eq_of_getLsbD_eq; intro j hj
  simp only [BitVec.getLsbD_extractLsb', BitVec.getLsbD_append, hj, decide_true, Bool.true_and]
  rw [if_neg (by omega)]; congr 1; omega

theorem leafWrite_fields (sym : Byte) : ((sym.setWidth 32 <<< 8) ||| (0x1 : Word)).extractLsb' 0 2 = 1 ∧
    ((sym.setWidth 32 <<< 8) ||| (0x1 : Word)).extractLsb' 8 8 = sym := by
  constructor <;> (apply BitVec.eq_of_getLsbD_eq; intro j hj; interval_cases j <;> simp)

theorem replicate_snoc {α : Type} (n : Nat) (a : α) (l : List α) : l ++ [a] ++ List.replicate n a = l ++ List.replicate (n + 1) a := by
  rw [List.append_assoc, List.replicate_succ]; rfl

/-- The reads of a `WAIT` before the core's turn (R124, R288). -/
theorem run_polls (s : State) (hb : s.busy = true) (rest : List Event) : ∀ polls, ∀ r : List Word,
    Sys2Proof.core.run (2 * polls) { s with events := .wait :: (List.replicate polls .pause ++ rest), reads := r } =
      .next { s with events := .wait :: rest, reads := r ++ List.replicate polls s.statusWord } := by
  intro polls
  induction polls with
  | zero => intro r; simp only [Nat.mul_zero, List.replicate_zero, List.append_nil, List.nil_append]; rfl
  | succ n ih =>
    intro r
    have h1 := step_wait { s with reads := r } (List.replicate (n + 1) .pause ++ rest)
    simp only [show ({ s with reads := r } : State).busy = true from hb, if_true] at h1
    rw [show 2 * (n + 1) = (2 * n + 1) + 1 by omega, run_succ _ h1]
    rw [List.replicate_succ, List.cons_append]
    rw [run_succ (2 * n) (t := { s with events := .wait :: (List.replicate n .pause ++ rest), reads := r ++ [s.statusWord] })]
    · rw [ih, replicate_snoc]
    · rfl

end State

end Sys2Proof.Machine
end

