-- ==== Sys2Proof/Tests/Slice0.lean ====
section
/-!
SUPPORT. The model's own tests: ill-formed terms are refused, words written out from the spec decode to their instructions, each
instruction reproduces vectors of spec/95_test_vectors.md (each test names its vector), and the hypotheses of every statement can be
met together, at the ends of the ranges they speak of.
-/

namespace Sys2Proof.Tests

open Sys2Proof.Machine

/-! ### Helpers -/

/-- The state a step or an instruction answers. -/
def after (o : Machine.Outcome) : State :=
  match o with
  | .next t => t
  | .fault _ => State.reset
  | .refused _ => State.reset

def branchAt (l r : BitVec 16) : NodeEntry := { kind := .branch, sym := 0, left := l, right := r }

def leafAt (s : Byte) : NodeEntry := { kind := .leaf, sym := s, left := 0, right := 0 }

def eomAt : NodeEntry := { kind := .eom, sym := 0, left := 0, right := 0 }

/-- T1 of spec/95_test_vectors.md. -/
def treeT1 : Machine.Tree := .branch (.leaf 65) (.branch (.leaf 66) .endMessage)

def memT1 : Memory := [(0, branchAt 1 2), (1, leafAt 65), (2, branchAt 3 4), (3, leafAt 66), (4, eomAt)]

/-- The reset state with T1 loaded. -/
def sT1 : State := { State.reset with nodes := memT1 }

/-- The table of V-TB-1. -/
def codesT1 : CodeTable :=
  [(65, { len := 1, path := [false] }), (66, { len := 2, path := [true, false] }), (256, { len := 2, path := [true, true] })]

/-- The tree of V-TB-2: a repeated key. -/
def sDup : State := { State.reset with nodes := [(0, branchAt 1 2), (1, leafAt 5), (2, leafAt 5)] }

/-- The tree of V-TB-4: no end-of-message leaf. -/
def sNoEom : State := { State.reset with nodes := [(0, branchAt 1 2), (1, leafAt 1), (2, leafAt 2)] }

def bytesIn (bs : List Byte) : List InItem := bs.map .byte

/-- The reset state with items in IN. -/
def sIn (xs : List InItem) : State := { State.reset with inq := xs }

/-- The bytes of V-L1-1. -/
def streamT1 : List Byte := [0xA8, 0x35, 0x08, 0x4C]

def sBusy : State := { State.reset with seq := .running (.issued 0) }

def sErr : State := { State.reset with err := some .badNode, done := true }

def sHeld : State := { State.reset with seq := .held .drain }

/-! ### Well-formedness: each check refuses an ill-formed term -/

theorem test_wf_hardware : Config.hardware.wf = true := by decide
theorem test_wf_nodeCap_low : Config.wf { nodeCap := 0, depthCap := 256 } = false := by decide
theorem test_wf_nodeCap_high : Config.wf { nodeCap := 65536, depthCap := 256 } = false := by decide
theorem test_wf_depthCap_low : Config.wf { nodeCap := 513, depthCap := 0 } = false := by decide
theorem test_wf_depthCap_high : Config.wf { nodeCap := 513, depthCap := 257 } = false := by decide
theorem test_wf_word_opcode : Code.wf (.word 0x0000000C) = false := by decide
theorem test_wf_word_reserved : Code.wf (.word 0x00000011) = false := by decide
theorem test_wf_bits_empty : Code.wf (.bits []) = false := by decide
theorem test_wf_bits_branch_long : Code.wf (.bits [true, false]) = false := by decide
theorem test_wf_bits_eom_long : Code.wf (.bits [false, false, false]) = false := by decide
theorem test_wf_bits_leaf_short : Code.wf (.bits [false, true, false]) = false := by decide

/-! ### Decoding: words and bits written out from R111 and R113 to R115 -/

theorem test_decode_nop : decode (.word 0x00000000) = .ok .nop := by decide
theorem test_decode_treeEnc : decode (.word 0x00000001) = .ok .treeEnc := by decide
theorem test_decode_treeDec : decode (.word 0x00000002) = .ok .treeDec := by decide
theorem test_decode_tableBuild : decode (.word 0x00000003) = .ok .tableBuild := by decide
theorem test_decode_symEnc : decode (.word 0x00000004) = .ok .symEnc := by decide
theorem test_decode_symDec : decode (.word 0x00000005) = .ok .symDec := by decide
theorem test_decode_flush : decode (.word 0x00000006) = .ok .flush := by decide
theorem test_decode_compress : decode (.word 0x00000007) = .ok .compress := by decide
theorem test_decode_decompress : decode (.word 0x00000008) = .ok .decompress := by decide
theorem test_decode_sinkReset : decode (.word 0x00000009) = .ok .sinkReset := by decide
theorem test_decode_sourceReset : decode (.word 0x0000000A) = .ok .sourceReset := by decide
theorem test_decode_drainIn : decode (.word 0x0000000B) = .ok .drainIn := by decide
theorem test_decode_dBranch : decode (.bits [true]) = .ok .dBranch := by decide
theorem test_decode_dEom : decode (.bits [false, false]) = .ok .dEom := by decide

/-- R141's example: 65 is `01000001`. -/
theorem test_decode_dLeaf :
    decode (.bits [false, true, false, true, false, false, false, false, false, true]) = .ok (.dLeaf 65) := by decide

theorem test_decode_illegal_opcode : decode (.word 0x0000000F) = .error .unassignedOpcode := by decide
theorem test_decode_illegal_reserved : decode (.word 0x80000001) = .error .reservedBits := by decide
theorem test_decode_truncated : decode (.bits [false, true, false]) = .error .truncatedCode := by decide
theorem test_decode_trailing : decode (.bits [true, true]) = .error .trailingBits := by decide

/-- The bits of a table row: a command word, and a node code laid out in bytes as the bit source reads them. -/
theorem test_decode_table : decodeTableWord 32 0x00000007 = some .compress ∧ decodeTableWord 8 0x80 = some .dBranch ∧
    decodeTableWord 8 0x00 = some .dEom ∧ decodeTableWord 16 0x4050 = some (.dLeaf 65) ∧ decodeTableWord 32 0x0000000C = none := by
  decide

/-! ### One step each -/

/-- V-SC-6. -/
theorem test_nop : (after (exec .nop sBusy)).statusWord = 0x00000002 := by decide

/-- V-TE-3. -/
theorem test_treeEnc : (after (exec .treeEnc sT1)).out = [0xA8, 0x35, 0x08] ∧ (after (exec .treeEnc sT1)).outBits = 24 ∧
    (after (exec .treeEnc sT1)).ocnt = 0 := by decide

/-- V-TE-5: the fourth visit exceeds NODE_CAP = 3. -/
theorem test_treeEnc_shared :
    (after (exec .treeEnc { State.reset with
      cfg := { nodeCap := 3, depthCap := 256 }
      nodes := [(0, branchAt 1 1), (1, branchAt 2 2), (2, eomAt)] })).err = some .shared := by decide

/-- V-TD-1. -/
theorem test_treeDec :
    (after (exec .treeDec (sIn (bytesIn streamT1 ++ [.eos])))).nodes = memT1 ∧
    (after (exec .treeDec (sIn (bytesIn streamT1 ++ [.eos])))).nodeCount = 5 ∧
    (after (exec .treeDec (sIn (bytesIn streamT1 ++ [.eos])))).bitStateWord = 0x08000000 ∧
    (after (exec .treeDec (sIn (bytesIn streamT1 ++ [.eos])))).inq = [.byte 0x4C, .eos] := by decide

/-- V-TD-10: E_DEPTH, after the first bit of the node at depth 2. V-TD-13: IN runs dry. -/
theorem test_treeDec_stops :
    (after (exec .treeDec { sIn [.byte 0xC0, .eos] with cfg := { nodeCap := 513, depthCap := 1 } })).err = some .depth ∧
    (after (exec .treeDec { sIn [.byte 0xC0, .eos] with cfg := { nodeCap := 513, depthCap := 1 } })).inBits = 3 ∧
    (after (exec .treeDec (sIn []))).statusWord = 0x00000041 := by decide

/-- V-TB-1. -/
theorem test_tableBuild : (after (exec .tableBuild sT1)).codes = codesT1 ∧ (after (exec .tableBuild sT1)).tableValid = true := by
  decide

/-- V-TB-2. -/
theorem test_tableBuild_dup : (after (exec .tableBuild { sDup with codes := codesT1, tableValid := true })).err = some .dupLeaf ∧
    (after (exec .tableBuild { sDup with codes := codesT1, tableValid := true })).codes = [] := by decide

/-- V-SE-8: the first bit completes the byte. -/
theorem test_symEnc :
    (after (exec .symEnc { sT1 with codes := codesT1, tableValid := true, symbol := 0x42, ocnt := 7, obuf := 0xFE })).out = [0xFF] ∧
    (after (exec .symEnc { sT1 with codes := codesT1, tableValid := true, symbol := 0x42, ocnt := 7, obuf := 0xFE })).bitStateWord =
      0x00000001 := by decide

/-- V-SE-3: a key above 256. -/
theorem test_symEnc_mismatch :
    (after (exec .symEnc { sT1 with codes := codesT1, tableValid := true, symbol := 300#9 })).err = some .mismatch := by decide

/-- V-SD-3. -/
theorem test_symDec : (after (exec .symDec { sT1 with inq := [.byte 0xC0] })).result = 0x100 ∧
    (after (exec .symDec { sT1 with inq := [.byte 0xC0] })).resEom = true ∧
    (after (exec .symDec { sT1 with inq := [.byte 0xC0] })).inBits = 2 := by decide

/-- V-SD-4: IN_LIMIT ends the source after the first bit. -/
theorem test_symDec_truncated :
    (after (exec .symDec { sT1 with inq := [.byte 0x80], inLimit := 1 })).statusWord = 0x00000206 ∧
    (after (exec .symDec { sT1 with inq := [.byte 0x80], inLimit := 1 })).icnt = 7 := by decide

/-- V-SC-1. -/
theorem test_flush : (after (exec .flush { State.reset with ocnt := 5, obuf := 0x98, outBits := 5 })).out = [0x98] ∧
    (after (exec .flush { State.reset with ocnt := 5, obuf := 0x98, outBits := 5 })).outBits = 5 := by decide

/-- V-L1-1. -/
theorem test_compress :
    (after (exec .compress { sT1 with inq := bytesIn [0x41, 0x42, 0x41] ++ [.eos] })).out = streamT1 ∧
    (after (exec .compress { sT1 with inq := bytesIn [0x41, 0x42, 0x41] ++ [.eos] })).tableValid = true ∧
    (after (exec .compress { sT1 with inq := bytesIn [0x41, 0x42, 0x41] ++ [.eos] })).outBits = 30 :=
  ⟨by decide, by decide, by decide⟩

/-- V-CO-7: E_MISMATCH at the second byte. -/
theorem test_compress_mismatch :
    (after (exec .compress { sT1 with inq := bytesIn [0x41, 0x43, 0x42] ++ [.eos] })).out = [0xA8, 0x35, 0x08] ∧
    (after (exec .compress { sT1 with inq := bytesIn [0x41, 0x43, 0x42] ++ [.eos] })).ocnt = 1 ∧
    (after (exec .compress { sT1 with inq := bytesIn [0x41, 0x43, 0x42] ++ [.eos] })).inq = [.byte 0x42, .eos] := by decide

/-- V-L1-2. -/
theorem test_decompress :
    (after (exec .decompress (sIn (bytesIn streamT1 ++ [.eos])))).out = [0x41, 0x42, 0x41] ∧
    (after (exec .decompress (sIn (bytesIn streamT1 ++ [.eos])))).statusWord = 0x00000012 ∧
    (after (exec .decompress (sIn (bytesIn streamT1 ++ [.eos])))).bitStateWord = 0x4C020000 := by decide

/-- V-DC-3: the payload is cut off. -/
theorem test_decompress_truncated :
    (after (exec .decompress (sIn (bytesIn [0xA8, 0x35, 0x08, 0x40] ++ [.eos])))).statusWord = 0x00000206 ∧
    (after (exec .decompress (sIn (bytesIn [0xA8, 0x35, 0x08, 0x40] ++ [.eos])))).out =
      [0x41, 0x42, 0x41, 0x41, 0x41, 0x41, 0x41] := by decide

/-- V-SC-3. -/
theorem test_sinkReset :
    (after (exec .sinkReset { State.reset with ocnt := 3, obuf := 0xA0, outBits := 3 })).bitStateWord = 0 ∧
    (after (exec .sinkReset { State.reset with ocnt := 3, obuf := 0xA0, outBits := 3 })).outBits = 0 := by decide

/-- V-SC-4. -/
theorem test_sourceReset :
    (after (exec .sourceReset { sIn [.eos] with icnt := 2, ibuf := 0x4C, inBits := 30 })).bitStateWord = 0 ∧
    (after (exec .sourceReset { sIn [.eos] with icnt := 2, ibuf := 0x4C, inBits := 30 })).inq = [.eos] := by decide

/-- V-SC-5b. -/
theorem test_drainIn :
    (after (exec .drainIn (sIn [.byte 0x12, .byte 0x34, .eos, .byte 0x56]))).inq = [.byte 0x56] := by decide

/-- V-SC-5c. -/
theorem test_drainIn_holds : (after (exec .drainIn (sIn [.byte 0x12]))).statusWord = 0x00000041 := by decide

/-- The first node code of V-TD-5, placed (R160). -/
theorem test_dBranch : (after (exec .dBranch (State.reset.beginTreeDec false))).nodes = [(0, branchAt 1 0)] := by decide

/-- V-TD-2's node code, placed (R160). -/
theorem test_dEom : (after (exec .dEom (State.reset.beginTreeDec false))).nodes = [(0, eomAt)] := by decide

/-- V-TD-6's node code, placed (R160). -/
theorem test_dLeaf : (after (exec (.dLeaf 1) (State.reset.beginTreeDec false))).nodes = [(0, leafAt 1)] := by decide

/-- An accepted word runs as the first instruction after reset; so does a node code (notes/assumptions/9.md). -/
theorem test_fetchWord : (after (step (State.reset.withFetchWord 32 0x0000000C))).statusWord = 0x00000506 ∧
    (after (step (State.reset.withFetchWord 16 0x4050))).nodes = [(0, leafAt 65)] := by decide

/-- V-SC-7c and V-SC-7d: the refused CMD write, and the acknowledgement. -/
theorem test_ack :
    (after (step { State.reset with err := some .illegalCmd, done := true, events := [.write 0x08 0] })).statusWord = 0x00000526 ∧
    (after (step { State.reset with err := some .illegalCmd, done := true, cmdOvr := true, events := [.write 0x0C 0x26] })).statusWord =
      0 := by decide

/-- R124: `WAIT` is over where BUSY reads 0, and stays for a command that holds, whose STATUS is V-SC-5c's. -/
theorem test_wait : (after (step { State.reset with events := [.wait] })).events = [] ∧
    (after (step { State.reset with events := [.wait] })).reads = [0] ∧
    (after (step { sHeld with events := [.wait] })).events = [.core, .wait] ∧
    (after (step { sHeld with events := [.wait] })).reads = [0x00000041] := by decide

/-- T1's nodes in pre-order, each with its depth and the bits before it, counted in V-TE-3's bytes: codes of 1, 10, 1, 10 and 2 bits. -/
theorem test_preorder : treeT1.preorder 0 0 = [(0, 0), (1, 1), (1, 11), (2, 12), (2, 22)] := by decide

/-- V-TB-1's readback of the path of 256. -/
theorem test_readback : (after (step { State.reset with codes := codesT1, codeKey := 256, events := [.read 0x4C] })).reads =
    [0xC0000000] := by decide

/-! ### Witnesses: the hypotheses of each statement can be met, clause by clause, at the ends of their ranges -/

/-- T1 with its table. -/
def sTable : State := { sT1 with codes := codesT1, tableValid := true }

/-- A two-symbol tree: no end-of-message leaf, each key once. -/
def treeNoEom : Machine.Tree := .branch (.leaf 1) (.leaf 2)

def treeDup : Machine.Tree := .branch (.leaf 5) (.leaf 5)

/-- A branch whose left child is itself and whose right child is not written. -/
def sLoop : State := { State.reset with nodes := [(0, branchAt 0 1)] }

/-- Small capacities, at whose bounds a tree is quickly. -/
def small : Config := { nodeCap := 3, depthCap := 1 }

theorem test_witness_NodeCodesDecode : (leafAt 255).kind = .leaf ∧ (leafAt 0).kind = .leaf := by decide

theorem test_witness_NodeCodesArePrefixFree : (NodeCode.leaf 65).bits <+: (NodeCode.leaf 65).bits ∧
    treeT1.desc ++ [true] = treeT1.desc ++ [true] ∧ decodeNode [] = .error .truncatedCode ∧
    decodeNode [false, true, false, true, false, false, false, false, false] = .error .truncatedCode := by decide

theorem test_witness_StepRunsAcceptedCommand :
    { State.reset with seq := .running (.issued 0x0000000B) }.seq = .running (.issued 0x0000000B) ∧
    decode (.word 0x0000000B) = .ok .drainIn := by decide

/-- At the last free index, at DEPTH_CAP, at IN_LIMIT, with ICNT = 8. -/
theorem test_witness_StepRunsFetchedNodeCode :
    ∃ s : State, s.seq = .running (.treeDec false { n := 2, holes := [{ slot := .root, depth := 1 }], code := [] }) ∧
      2 < s.cfg.nodeCap ∧ 1 ≤ s.cfg.depthCap ∧ s.icnt.toNat ≤ 8 ∧ s.limitAllows NodeCode.branch.bits.length ∧
      s.sourceBits = NodeCode.branch.bits ++ [false, false, false, false, false, false, false] :=
  ⟨{ State.reset with
      cfg := small
      ibuf := 0x80
      icnt := 8
      inLimit := 1
      seq := .running (.treeDec false { n := 2, holes := [{ slot := .root, depth := 1 }], code := [] }) },
    by decide, by decide, by decide, by decide, by unfold State.limitAllows; decide, by decide⟩

theorem test_witness_WritesWhileBusyAreDropped : sBusy.busy = true ∧ sHeld.busy = true := by decide

theorem test_witness_CommandsWhileErrorAreDropped :
    sErr.busy = false ∧ sErr.err = some .badNode ∧ Reg.root ≠ .cmd ∧ Reg.root ≠ .status ∧
    { sErr with err := none }.WritesTo .root 2 ({ sErr with err := none }.writeReg .root 2) ∧ (4#32).getLsbD 2 = true :=
  ⟨by decide, by decide, by decide, by decide, State.writesTo_idle (by decide) _ _, by decide⟩

theorem test_witness_CommandsAreAccepted : State.reset.busy = false ∧ State.reset.err = none ∧ decodeWord 0x0B = .ok .drainIn ∧
    decodeWord 0x0C = .error .unassignedOpcode ∧ decodeWord 0x10 = .error .reservedBits := by decide

theorem test_witness_IllegalWordsEndInError : State.reset.busy = false ∧ State.reset.err = none ∧
    ((0x0000000C#32).extractLsb' 4 28 = 0 ∧ 12 ≤ ((0x0000000C#32).extractLsb' 0 4).toNat) ∧
    ((0x0000000F#32).extractLsb' 4 28 = 0 ∧ 12 ≤ ((0x0000000F#32).extractLsb' 0 4).toNat) ∧
    (0x00000010#32).extractLsb' 4 28 ≠ 0 ∧ (0xFFFFFFFF#32).extractLsb' 4 28 ≠ 0 := by decide

theorem test_witness_RegistersReadBackWrites : State.reset.busy = false ∧ Reg.root.rwMask = some 0x0000FFFF ∧
    Reg.codeSel.rwMask = some 0x000701FF ∧ Reg.symbol ≠ .codeSel ∧ Reg.symbol ∉ Reg.codeSel.shownBy := by decide

theorem test_witness_ReservedAndReadOnlyAccesses : Reg.ofOffset 0x50 = none ∧ Reg.ofOffset 0xFF = none ∧ Reg.id ∈ Reg.readOnly ∧
    Reg.codeData ∈ Reg.readOnly ∧ State.reset.busy = false := by decide

theorem test_witness_NodeDataWriteStoresEntry : State.reset.busy = false ∧
    ({ State.reset with nodeAddr := 512 } : State).nodeAddr.toNat < ({ State.reset with nodeAddr := 512 } : State).cfg.nodeCap ∧
    ({ State.reset with nodeAddr := 513 } : State).cfg.nodeCap ≤ ({ State.reset with nodeAddr := 513 } : State).nodeAddr.toNat := by
  decide

theorem test_witness_NodeReadback :
    (∃ s : State, s.busy = false ∧ s.nodeAddr.toNat < s.cfg.nodeCap ∧ tableGet s.nodes s.nodeAddr.toNat = some (leafAt 7) ∧
      s.nodeAddr.toNat + 1 = s.cfg.nodeCap) ∧
    (∃ s : State, s.busy = false ∧ s.cfg.nodeCap = s.nodeAddr.toNat) ∧
    (∃ s : State, s.busy = false ∧ s.nodeAddr.toNat < s.cfg.nodeCap ∧ tableGet s.nodes s.nodeAddr.toNat = none) :=
  ⟨⟨{ State.reset with nodeAddr := 512, nodes := [(512, leafAt 7)] }, by decide, by decide, by decide, by decide⟩,
    ⟨{ State.reset with nodeAddr := 513 }, by decide, by decide⟩, ⟨State.reset, by decide, by decide, by decide⟩⟩

theorem test_witness_StatusWordFields : sHeld.seq = .held .drain ∧ State.reset.err = none ∧ sErr.err = some .badNode := by decide

theorem test_witness_StatusWriteClears : State.reset.busy = false ∧ sBusy.busy = true := by decide

theorem test_witness_InterruptLevel : State.reset.busy = false ∧ State.reset.err = none ∧ State.reset.cmdOvr = false := by decide

theorem test_witness_ReadsWhileBusyAreFree : sBusy.busy = true ∧ Reg.ofOffset 0x08 = some .cmd ∧ Reg.ofOffset 0x4F = some .codeData ∧
    Reg.cmd ≠ .status ∧ Reg.cmd ≠ .id ∧ Reg.cmd ≠ .cfg := by decide

theorem test_witness_ConstantAndBufferReads : State.reset.cfg.wf = true ∧ State.reset.busy = false ∧ State.reset.cfg = Config.hardware ∧
    Reg.inBits ∈ [Reg.id, .cfg, .bitState, .nodeCount, .result, .outBits, .inBits] := by decide

theorem test_witness_CodeReadback :
    (∃ s : State, s.busy = false ∧ s.codeKey.toNat = 256 ∧ tableGet s.codes s.codeKey.toNat =
      some { len := 2, path := [true, true] }) ∧
    (∃ s : State, s.busy = false ∧ 256 < s.codeKey.toNat ∧ s.codeKey.toNat = 257) ∧
    (∃ s : State, s.busy = false ∧ tableGet s.codes s.codeKey.toNat = none) :=
  ⟨⟨{ sTable with codeKey := 256 }, by decide, by decide, by decide⟩, ⟨{ sTable with codeKey := 257 }, by decide, by decide, by decide⟩,
    ⟨sTable, by decide, by decide⟩⟩

theorem test_witness_SinkPacksMsbFirst : 15 < 8 * ([0xA8, 0x01] : List Byte).length ∧ (0 : Nat) < 8 := by decide

/-- The limit met exactly, and one bit below it with each head of IN, and with a byte in hand. -/
theorem test_witness_BitReadStep :
    (∃ s : State, s.inLimit.toNat ≤ s.inBits.toNat ∧ s.inLimit = s.inBits) ∧
    (∃ s : State, s.inBits.toNat < s.inLimit.toNat ∧ s.icnt = 0 ∧ s.inq = []) ∧
    (∃ s : State, s.inBits.toNat < s.inLimit.toNat ∧ s.icnt = 0 ∧ s.inq = [.eos]) ∧
    (∃ s : State, s.inBits.toNat + 1 = s.inLimit.toNat ∧ s.icnt = 0 ∧ s.inq = [.byte 0x80] ∧
      s.sourceBits = true :: [false, false, false, false, false, false, false]) ∧
    (∃ s : State, s.inBits.toNat < s.inLimit.toNat ∧ s.icnt ≠ 0 ∧ s.icnt.toNat ≤ 8) :=
  ⟨⟨{ State.reset with inLimit := 3, inBits := 3 }, by decide, by decide⟩, ⟨State.reset, by decide, by decide, by decide⟩,
    ⟨sIn [.eos], by decide, by decide, by decide⟩,
    ⟨{ sIn [.byte 0x80] with inLimit := 4, inBits := 3 }, by decide, by decide, by decide, by decide⟩,
    ⟨{ State.reset with icnt := 8 }, by decide, by decide, by decide⟩⟩

theorem test_witness_ChannelTurnsAndHolds : (∀ c, State.reset.seq ≠ .held c) ∧ sHeld.seq = .held .drain ∧
    ({ State.reset with out := [7] } : State).out = 7 :: [] ∧ State.reset.out = [] ∧ step sHeld = .next sHeld :=
  ⟨fun _ => by simp [State.reset], rfl, rfl, rfl, rfl⟩

theorem test_witness_FlushCompletes : State.reset.ocnt = 0 ∧ ({ State.reset with ocnt := 7, obuf := 0xFE } : State).ocnt ≠ 0 ∧
    State.reset.SinkClear ∧ ({ State.reset with ocnt := 7, obuf := 0xFE } : State).SinkClear := by
  unfold State.SinkClear; decide

theorem test_witness_DrainInCompletes :
    (sIn [.byte 1, .eos, .byte 2]).inq = ([1] : List Byte).map .byte ++ .eos :: [.byte 2] ∧
    (sIn [.eos]).inq = ([] : List Byte).map .byte ++ .eos :: [] ∧ (sIn [.byte 1]).inq = ([1] : List Byte).map .byte ∧
    State.reset.inq = ([] : List Byte).map .byte := by decide

/-- Each check of a visit, at its bound: index, depth, number of visits, repeated key. -/
theorem test_witness_WalkChecksInOrder :
    ∃ s : State, ∃ v v' : Visit, ∃ e b : NodeEntry, s.walk false = .ok [{ index := 512, depth := 0, path := [] }] ∧
      usableNode s.cfg.nodeCap s.nodes v.index = some e ∧ e.kind = .leaf ∧ e.key.toNat ∈ [7] ∧ e.key.toNat ∉ [8] ∧
      usableNode s.cfg.nodeCap s.nodes 3 = some b ∧ b.kind = .branch ∧
      usableNode s.cfg.nodeCap s.nodes 513 = none ∧ usableNode s.cfg.nodeCap s.nodes 2 = none ∧
      v.depth ≤ s.cfg.depthCap ∧ v.depth = 256 ∧ s.cfg.depthCap < v'.depth ∧ v'.depth = 257 ∧ 512 + 1 ≤ s.cfg.nodeCap ∧
      s.cfg.nodeCap < 513 + 1 :=
  ⟨{ State.reset with root := 512, nodes := [(2, { leafAt 1 with kind := .reserved }), (3, branchAt 2 2), (512, leafAt 7)] },
    { index := 512, depth := 256, path := [] }, { index := 512, depth := 257, path := [] }, leafAt 7, branchAt 2 2,
    by decide, by decide, by decide, by decide, by decide, by decide, by decide, by decide, by decide, by decide, by decide,
    by decide, by decide, by decide, by decide⟩

theorem t1_fits : sT1.fits treeT1 := ⟨by decide, by decide⟩

/-- A tree at both of its bounds. -/
theorem test_witness_TreeEncWritesDescription : sT1.treeAtRoot treeT1 = true ∧ sT1.fits treeT1 ∧ sT1.SinkClear ∧
    ({ sNoEom with cfg := small } : State).treeAtRoot treeNoEom = true ∧ ({ sNoEom with cfg := small } : State).fits treeNoEom ∧
    treeNoEom.nodeCount = 3 ∧ treeNoEom.height = 1 :=
  ⟨by decide, t1_fits, by unfold State.SinkClear; decide, by decide, ⟨by decide, by decide⟩, by decide, by decide⟩

theorem test_witness_TableBuildRecordsPaths : sT1.treeAtRoot treeT1 = true ∧ sT1.fits treeT1 ∧ treeT1.keys.Nodup ∧
    (256, [true, true]) ∈ treeT1.leaves [] ∧ 67 ∉ treeT1.keys := ⟨by decide, t1_fits, by decide, by decide, by decide⟩

/-- No tree at all, and a tree that repeats a key. -/
theorem test_witness_TableBuildErrors :
    (¬ ∃ t : Tree, State.reset.treeAtRoot t = true ∧ State.reset.fits t ∧ t.keys.Nodup) ∧
    (¬ ∃ t : Tree, sDup.treeAtRoot t = true ∧ sDup.fits t ∧ t.keys.Nodup) ∧ sDup.treeAtRoot treeDup = true ∧ sDup.fits treeDup := by
  refine ⟨?_, ?_, by decide, ⟨by decide, by decide⟩⟩
  · rintro ⟨t, h, -⟩
    cases t <;> simp [State.treeAtRoot, denotes, usableNode, State.reset, tableGet] at h
  · rintro ⟨t, h, -, hn⟩
    rw [denotes_unique h (show sDup.treeAtRoot treeDup = true by decide)] at hn
    exact absurd hn (by decide)

theorem test_witness_SymEncWritesPath : sT1.tableValid = false ∧ sTable.tableValid = true ∧
    (256 < ({ sTable with symbol := 257 } : State).symbol.toNat ∧ ({ sTable with symbol := 257 } : State).tableValid = true) ∧
    tableGet sTable.codes sTable.symbol.toNat = none ∧ ({ sTable with symbol := 256 } : State).symbol.toNat ≤ 256 ∧
    tableGet sTable.codes 256 = some { len := 2, path := [true, true] } ∧ sTable.SinkClear := by
  unfold State.SinkClear; decide

/-- A path read to IN_LIMIT, and a symbol leaf at the root, whose path is empty. -/
theorem test_witness_PathsArePrefixFreeAndDecode :
    (∃ s u v : State, s.cfg.wf = true ∧ exec .tableBuild s = .next u ∧ u.tableValid = true ∧
      tableGet u.codes 256 = some { len := 2, path := [true, true] } ∧ [true, true] <+: [true, true] ∧
      v.cfg = u.cfg ∧ v.nodes = u.nodes ∧ v.root = u.root ∧ v.icnt.toNat ≤ 8 ∧ v.limitAllows (2#9).toNat ∧ v.inLimit = 2 ∧
      v.sourceBits = [true, true] ++ [false, false, false, false, false, false] ∧
      usableNode v.cfg.nodeCap v.nodes v.root = some (branchAt 1 2) ∧ (branchAt 1 2).kind ≠ .leaf) ∧
    (∃ s u : State, exec .tableBuild s = .next u ∧ u.tableValid = true ∧ tableGet u.codes 9 = some { len := 0, path := [] } ∧
      usableNode u.cfg.nodeCap u.nodes u.root = some (leafAt 9)) :=
  ⟨⟨sT1, after (exec .tableBuild sT1), { sT1 with inq := [.byte 0xC0], inLimit := 2 }, by decide, rfl, by decide, by decide,
      by decide, by decide, by decide, by decide, by decide, by unfold State.limitAllows; decide, by decide, by decide, by decide,
      by decide⟩,
    ⟨{ State.reset with nodes := [(0, leafAt 9)] }, after (exec .tableBuild { State.reset with nodes := [(0, leafAt 9)] }), rfl,
      by decide, by decide, by decide⟩⟩

/-- A leaf at DEPTH_CAP with the bits of its path up to IN_LIMIT, and an end-of-message leaf at the root with IN_LIMIT below IN_BITS. -/
theorem test_witness_SymDecReachesLeaf :
    (∃ s : State, follow s.cfg.nodeCap s.nodes s.root [true] = some 2 ∧ usableNode s.cfg.nodeCap s.nodes 2 = some (leafAt 2) ∧
      (leafAt 2).kind ≠ .branch ∧ [true].length = s.cfg.depthCap ∧ s.icnt.toNat ≤ 8 ∧ s.limitAllows [true].length ∧
      s.inLimit = 1 ∧ s.sourceBits = [true] ++ []) ∧
    (∃ s : State, follow s.cfg.nodeCap s.nodes s.root [] = some 0 ∧ usableNode s.cfg.nodeCap s.nodes 0 = some eomAt ∧
      eomAt.kind ≠ .branch ∧ eomAt.kind ≠ .leaf ∧ s.limitAllows 0 ∧ s.sourceBits = [] ++ [] ∧ s.inLimit.toNat < s.inBits.toNat) :=
  ⟨⟨{ sNoEom with cfg := small, ibuf := 1, icnt := 1, inLimit := 1 }, by decide, by decide, by decide, by decide, by decide,
      by unfold State.limitAllows; decide, by decide, by decide⟩,
    ⟨{ State.reset with nodes := [(0, eomAt)], inLimit := 2, inBits := 3 }, by decide, by decide, by decide, by decide,
      by unfold State.limitAllows; decide, by decide, by decide⟩⟩

/-- One state for each end: no usable root, a symbol leaf at the root, a bad node met later, a node past DEPTH_CAP, the source ending
at IN_LIMIT, at an EOS and with IN_LIMIT below IN_BITS, and IN running dry. -/
theorem test_witness_SymDecErrorsAndHold :
    usableNode State.reset.cfg.nodeCap State.reset.nodes State.reset.root = none ∧
    (∃ s : State, usableNode s.cfg.nodeCap s.nodes s.root = some (leafAt 9) ∧ (leafAt 9).kind = .leaf) ∧
    (∃ s : State, follow s.cfg.nodeCap s.nodes s.root [true] = some 1 ∧ [true].length ≤ s.cfg.depthCap + 1 ∧ s.icnt.toNat ≤ 8 ∧
      s.limitAllows [true].length ∧ s.sourceBits = [true] ++ [] ∧ usableNode s.cfg.nodeCap s.nodes 1 = none) ∧
    (∃ s : State, follow s.cfg.nodeCap s.nodes s.root [false, false] = some 0 ∧ [false, false].length = s.cfg.depthCap + 1 ∧
      s.icnt.toNat ≤ 8 ∧ s.limitAllows [false, false].length ∧ s.sourceBits = [false, false] ++ [] ∧
      usableNode s.cfg.nodeCap s.nodes 0 = some (branchAt 0 1)) ∧
    (∃ s : State, follow s.cfg.nodeCap s.nodes s.root [false] = some 0 ∧ usableNode s.cfg.nodeCap s.nodes 0 = some (branchAt 0 1) ∧
      [false].length = s.cfg.depthCap ∧ s.icnt.toNat ≤ 8 ∧ s.endsAfter [false]) ∧
    (∃ s : State, follow s.cfg.nodeCap s.nodes s.root [false] = some 0 ∧ s.endsAfter [false] ∧ s.inq = [.eos]) ∧
    (∃ s : State, follow s.cfg.nodeCap s.nodes s.root [] = some 0 ∧ usableNode s.cfg.nodeCap s.nodes 0 = some (branchAt 0 1) ∧
      s.icnt.toNat ≤ 8 ∧ s.endsAfter [] ∧ s.inLimit.toNat < s.inBits.toNat) ∧
    (∃ s : State, follow s.cfg.nodeCap s.nodes s.root [false] = some 0 ∧ s.icnt.toNat ≤ 8 ∧ s.driesAfter [false]) :=
  ⟨by decide, ⟨{ State.reset with nodes := [(0, leafAt 9)] }, by decide, by decide⟩,
    ⟨{ sLoop with ibuf := 1, icnt := 1 }, by decide, by decide, by decide, by unfold State.limitAllows; decide, by decide, by decide⟩,
    ⟨{ sLoop with cfg := small, icnt := 2 }, by decide, by decide, by decide, by unfold State.limitAllows; decide, by decide,
      by decide⟩,
    ⟨{ sLoop with cfg := small, icnt := 2, inLimit := 1 }, by decide, by decide, by decide, by decide,
      ⟨[false], by decide, by decide⟩⟩,
    ⟨{ sLoop with icnt := 1, inq := [.eos] }, by decide, ⟨[], by decide, by decide⟩, by decide⟩,
    ⟨{ sLoop with inLimit := 2, inBits := 3 }, by decide, by decide, by decide, ⟨[], by decide, by decide⟩, by decide⟩,
    ⟨{ sLoop with icnt := 1 }, by decide, by decide, by unfold State.driesAfter; decide⟩⟩

/-- T1 with IN_LIMIT at its size, and a tree at both bounds. -/
theorem test_witness_TreeDecRebuildsTree :
    (∃ s : State, s.cfg.wf = true ∧ s.fits treeT1 ∧ s.icnt.toNat ≤ 8 ∧ s.limitAllows treeT1.size ∧ s.inLimit.toNat = treeT1.size ∧
      s.sourceBits = treeT1.desc ++ []) ∧
    (∃ s : State, s.cfg.wf = true ∧ s.fits (.branch .endMessage .endMessage) ∧ s.cfg = small ∧
      s.limitAllows (Machine.Tree.branch .endMessage .endMessage).size ∧
      s.sourceBits = (Machine.Tree.branch .endMessage .endMessage).desc ++ [false, false, false]) :=
  ⟨⟨{ sIn (bytesIn [0xA8, 0x35, 0x08]) with inLimit := 24 }, by decide, ⟨by decide, by decide⟩, by decide,
      by unfold State.limitAllows; decide, by decide, by decide⟩,
    ⟨{ sIn (bytesIn [0x80]) with cfg := small }, by decide, ⟨by decide, by decide⟩, by decide, by unfold State.limitAllows; decide,
      by decide⟩⟩

/-- A tree with a node that is one too many and one too deep at once, its second. -/
def treeDeep : Machine.Tree := .branch (.branch .endMessage .endMessage) .endMessage

/-- A description cut at once and within its last node code, by an EOS, by IN_LIMIT and by an IN_LIMIT below IN_BITS; one inside which IN
runs dry, at once and within its last node code; one node too many; one level too deep. -/
theorem test_witness_TreeDecErrors :
    (∃ s : State, s.fits treeT1 ∧ s.icnt.toNat ≤ 8 ∧ [] <+: treeT1.desc ∧ [] ≠ treeT1.desc ∧ s.endsAfter [] ∧ s.inq = [.eos]) ∧
    (∃ s : State, s.fits treeT1 ∧ s.icnt.toNat ≤ 8 ∧ s.endsAfter [] ∧ s.inLimit.toNat < s.inBits.toNat) ∧
    (∃ s : State, s.fits treeT1 ∧ s.icnt.toNat ≤ 8 ∧ treeT1.desc.take 23 <+: treeT1.desc ∧ treeT1.desc.take 23 ≠ treeT1.desc ∧
      s.endsAfter (treeT1.desc.take 23)) ∧
    (∃ s : State, s.fits treeT1 ∧ s.icnt.toNat ≤ 8 ∧ s.driesAfter [] ∧ s.inq = []) ∧
    (∃ s : State, s.fits treeT1 ∧ s.icnt.toNat ≤ 8 ∧ s.driesAfter (treeT1.desc.take 23) ∧ s.inLimit.toNat = 24) ∧
    (∃ s : State, ¬ s.fits (.branch .endMessage .endMessage) ∧ s.icnt.toNat ≤ 8 ∧
      s.limitAllows (Machine.Tree.branch .endMessage .endMessage).size ∧ s.cfg.nodeCap = 2 ∧
      s.sourceBits = (Machine.Tree.branch .endMessage .endMessage).desc ++ [false, false, false]) ∧
    (∃ s : State, ¬ s.fits treeDeep ∧ s.icnt.toNat ≤ 8 ∧ s.limitAllows treeDeep.size ∧ s.cfg.depthCap = 1 ∧
      s.sourceBits = treeDeep.desc ++ []) :=
  ⟨⟨sIn [.eos], ⟨by decide, by decide⟩, by decide, by decide, by decide, ⟨[], by decide, by decide⟩, by decide⟩,
    ⟨{ State.reset with inLimit := 2, inBits := 3 }, ⟨by decide, by decide⟩, by decide, ⟨[], by decide, by decide⟩, by decide⟩,
    ⟨{ sIn (bytesIn [0xA8, 0x35, 0x08]) with inLimit := 23 }, ⟨by decide, by decide⟩, by decide, by decide, by decide,
      ⟨[false], by decide, by decide⟩⟩,
    ⟨sIn [], ⟨by decide, by decide⟩, by decide, by unfold State.driesAfter; decide, by decide⟩,
    ⟨{ sIn (bytesIn [0x1A, 0x84]) with ibuf := 0x54, icnt := 7, inLimit := 24 },
      ⟨by decide, by decide⟩, by decide, by unfold State.driesAfter; decide, by decide⟩,
    ⟨{ sIn (bytesIn [0x80]) with cfg := { nodeCap := 2, depthCap := 1 } }, by unfold State.fits; decide, by decide,
      by unfold State.limitAllows; decide, by decide, by decide⟩,
    ⟨{ sIn (bytesIn [0xC0]) with cfg := { nodeCap := 9, depthCap := 1 } }, by unfold State.fits; decide, by decide,
      by unfold State.limitAllows; decide, by decide, by decide⟩⟩

/-- The first node that cannot be placed: the third, with both errors at once, which is E_NODE_CAP; the same node one level too deep
only, with IN_LIMIT right after its first bit; and the root itself, whose one bit is all the source holds. -/
theorem test_witness_TreeDecErrors_first :
    (∃ s : State, (treeDeep.preorder 0 0)[2]? = some (2, 2) ∧
      (∀ j, j < 2 → ∀ p, (treeDeep.preorder 0 0)[j]? = some p → j < s.cfg.nodeCap ∧ p.1 ≤ s.cfg.depthCap) ∧ s.icnt.toNat ≤ 8 ∧
      s.limitAllows (2 + 1) ∧ s.sourceBits = treeDeep.desc.take (2 + 1) ++ [false, false, false, false, false] ∧
      s.cfg.nodeCap ≤ 2 ∧ s.cfg.depthCap < 2) ∧
    (∃ s : State, (∀ j, j < 2 → ∀ p, (treeDeep.preorder 0 0)[j]? = some p → j < s.cfg.nodeCap ∧ p.1 ≤ s.cfg.depthCap) ∧
      s.icnt.toNat ≤ 8 ∧ s.limitAllows (2 + 1) ∧ s.inLimit = 3 ∧
      s.sourceBits = treeDeep.desc.take (2 + 1) ++ [false, false, false, false, false] ∧ 2 < s.cfg.nodeCap ∧ s.cfg.depthCap < 2) ∧
    (∃ s : State, (treeDeep.preorder 0 0)[0]? = some (0, 0) ∧ s.icnt.toNat ≤ 8 ∧ s.limitAllows (0 + 1) ∧
      s.sourceBits = treeDeep.desc.take (0 + 1) ++ [] ∧ s.cfg.nodeCap ≤ 0) :=
  ⟨⟨{ sIn (bytesIn [0xC0]) with cfg := { nodeCap := 2, depthCap := 1 } }, by decide, by decide, by decide,
      by unfold State.limitAllows; decide, by decide, by decide, by decide⟩,
    ⟨{ sIn (bytesIn [0xC0]) with cfg := small, inLimit := 3 }, by decide, by decide, by unfold State.limitAllows; decide, by decide,
      by decide, by decide, by decide⟩,
    ⟨{ State.reset with cfg := { nodeCap := 0, depthCap := 1 }, ibuf := 1, icnt := 1 }, by decide, by decide,
      by unfold State.limitAllows; decide, by decide, by decide⟩⟩

theorem test_witness_FailedTreeDecLeavesNoTree : ∃ s u v : State, s.err = none ∧ exec .treeDec s = .next u ∧
    u.err = some .malformedTree ∧ v.nodes = u.nodes :=
  ⟨sIn [.eos], after (exec .treeDec (sIn [.eos])), State.reset, by decide, rfl, by decide, by decide⟩

/-- A node at the root, a right child, no hole left, and no tree being read. -/
theorem test_witness_NodeCodesPlaceEntries :
    (State.reset.beginTreeDec false).seq =
      .running (.treeDec false { n := 0, holes := [{ slot := .root, depth := 0 }], code := [] }) ∧ Slot.root ≠ .rightOf 0 ∧
    (∃ s : State, s.seq = .running (.treeDec true { n := 2, holes := [{ slot := .rightOf 0, depth := 1 }], code := [] }) ∧
      Slot.rightOf 0 ≠ .rightOf 2 ∧ tableGet s.nodes 0 = some (branchAt 1 0) ∧ (1 : Nat) ≠ 2 ∧ Slot.rightOf 0 ≠ .rightOf 1) ∧
    (∃ s : State, s.seq = .running (.treeDec false { n := 1, holes := [], code := [] }) ∧
      ∀ composite c, s.seq = .running (.treeDec composite c) → c.holes = []) ∧
    (∀ composite c, State.reset.seq = .running (.treeDec composite c) → c.holes = []) :=
  ⟨by decide, by decide,
    ⟨{ State.reset with
        nodes := [(0, branchAt 1 0), (1, eomAt)]
        seq := .running (.treeDec true { n := 2, holes := [{ slot := .rightOf 0, depth := 1 }], code := [] }) },
      by decide, by decide, by decide, by decide, by decide⟩,
    ⟨{ State.reset with seq := .running (.treeDec false { n := 1, holes := [], code := [] }) }, rfl, fun _ _ h => by cases h; rfl⟩,
    fun _ _ h => by cases h⟩

theorem test_witness_CompressCompletes : ∃ s : State, s.treeAtRoot treeT1 = true ∧ s.fits treeT1 ∧ treeT1.keys.Nodup ∧
    256 ∈ treeT1.keys ∧ (∀ b ∈ ([0x41, 0x42] : List Byte), b.toNat ∈ treeT1.keys) ∧
    s.inq = ([0x41, 0x42] : List Byte).map .byte ++ .eos :: [] ∧ s.SinkClear ∧ s.ocnt = 0 ∧ (65, [false]) ∈ treeT1.leaves [] ∧
    67 ∉ treeT1.keys :=
  ⟨{ sT1 with inq := bytesIn [0x41, 0x42] ++ [.eos] }, by decide, t1_fits, by decide, by decide, by decide, by decide,
    by unfold State.SinkClear; decide, by decide, by decide, by decide⟩

theorem test_witness_CompressErrorsAndHold :
    (∃ s u : State, exec .tableBuild s = .next u ∧ u.tableValid = false) ∧
    (∃ u : State, sNoEom.treeAtRoot treeNoEom = true ∧ sNoEom.fits treeNoEom ∧ treeNoEom.keys.Nodup ∧ 256 ∉ treeNoEom.keys ∧
      exec .tableBuild sNoEom = .next u) ∧
    (∃ s : State, s.treeAtRoot treeT1 = true ∧ s.fits treeT1 ∧ treeT1.keys.Nodup ∧ 256 ∈ treeT1.keys ∧
      s.inq = ([0x41] : List Byte).map .byte ++ [.byte 0x43, .eos] ∧ (0x43#8).toNat ∉ treeT1.keys) ∧
    (∃ s : State, s.treeAtRoot treeT1 = true ∧ s.fits treeT1 ∧ s.inq = ([0x41] : List Byte).map .byte ++ [] ∧
      (∀ b ∈ ([0x41] : List Byte), b.toNat ∈ treeT1.keys) ∧ (256, [true, true]) ∈ treeT1.leaves [] ∧ 67 ∉ treeT1.keys) :=
  ⟨⟨sDup, after (exec .tableBuild sDup), rfl, by decide⟩,
    ⟨after (exec .tableBuild sNoEom), by decide, ⟨by decide, by decide⟩, by decide, by decide, rfl⟩,
    ⟨{ sT1 with inq := bytesIn [0x41, 0x43] ++ [.eos] }, by decide, t1_fits, by decide, by decide, by decide, by decide⟩,
    ⟨{ sT1 with inq := bytesIn [0x41] }, by decide, t1_fits, by decide, by decide, by decide, by decide⟩⟩

/-- V-L1-1's stream, with IN_LIMIT at its length. -/
theorem test_witness_DecompressCompletes : ∃ s : State, s.cfg.wf = true ∧ s.fits treeT1 ∧ treeT1.isLeaf = false ∧
    256 ∈ treeT1.keys ∧ (∀ b ∈ ([0x41, 0x42, 0x41] : List Byte), b.toNat ∈ treeT1.keys) ∧ s.icnt.toNat ≤ 8 ∧
    s.limitAllows (treeT1.stream [0x41, 0x42, 0x41]).length ∧ s.inLimit = 30 ∧
    s.sourceBits = treeT1.stream [0x41, 0x42, 0x41] ++ [false, false] :=
  ⟨{ sIn (bytesIn streamT1) with inLimit := 30 }, by decide, ⟨by decide, by decide⟩, by decide, by decide, by decide, by decide,
    by unfold State.limitAllows; decide, by decide, by decide⟩

/-- A cut description; one inside which IN runs dry; a symbol leaf as the root; a payload cut by IN_LIMIT within a path, and by an EOS
right after a symbol; and one in which IN runs dry within a path. -/
theorem test_witness_DecompressErrors :
    (∃ s u : State, s.err = none ∧ exec .treeDec s = .next u ∧ u.err = some .malformedTree) ∧
    (∃ s : State, s.fits treeT1 ∧ s.icnt.toNat ≤ 8 ∧ treeT1.desc.take 8 <+: treeT1.desc ∧ treeT1.desc.take 8 ≠ treeT1.desc ∧
      s.driesAfter (treeT1.desc.take 8)) ∧
    (∃ s : State, s.cfg.wf = true ∧ s.icnt.toNat ≤ 8 ∧ s.limitAllows 10 ∧ s.inLimit = 10 ∧
      s.sourceBits = (Machine.Tree.leaf 65).desc ++ [false, false, false, false, false, false]) ∧
    (∃ s : State, s.cfg.wf = true ∧ s.fits treeT1 ∧ treeT1.isLeaf = false ∧ (∀ b ∈ ([0x41] : List Byte), b.toNat ∈ treeT1.keys) ∧
      (∀ e ∈ treeT1.leaves [], ¬ e.2 <+: [true]) ∧ s.icnt.toNat ≤ 8 ∧
      s.endsAfter (treeT1.desc ++ ([0x41] : List Byte).flatMap (fun b => (treeT1.pathOf b.toNat).getD []) ++ [true])) ∧
    (∃ s : State, (∀ e ∈ treeT1.leaves [], ¬ e.2 <+: []) ∧ s.icnt.toNat ≤ 8 ∧
      s.endsAfter (treeT1.desc ++ ([] : List Byte).flatMap (fun b => (treeT1.pathOf b.toNat).getD []) ++ [])) ∧
    (∃ s : State, s.cfg.wf = true ∧ s.fits treeT1 ∧ (∀ b ∈ ([0x41] : List Byte), b.toNat ∈ treeT1.keys) ∧
      (∀ e ∈ treeT1.leaves [], ¬ e.2 <+: [true]) ∧ s.icnt.toNat ≤ 8 ∧
      s.driesAfter (treeT1.desc ++ ([0x41] : List Byte).flatMap (fun b => (treeT1.pathOf b.toNat).getD []) ++ [true])) :=
  ⟨⟨sIn [.eos], after (exec .treeDec (sIn [.eos])), by decide, rfl, by decide⟩,
    ⟨sIn (bytesIn [0xA8]), ⟨by decide, by decide⟩, by decide, by decide, by decide, by unfold State.driesAfter; decide⟩,
    ⟨{ sIn (bytesIn [0x50, 0x40]) with inLimit := 10 }, by decide, by decide, by unfold State.limitAllows; decide, by decide,
      by decide⟩,
    ⟨{ sIn (bytesIn streamT1) with inLimit := 26 }, by decide, ⟨by decide, by decide⟩, by decide, by decide, by decide, by decide,
      ⟨[false, false, true, true, false, false], by decide, by decide⟩⟩,
    ⟨sIn (bytesIn [0xA8, 0x35, 0x08] ++ [.eos]), by decide, by decide, ⟨[], by decide, by decide⟩⟩,
    ⟨{ sIn (bytesIn [0xA0, 0xD4, 0x21]) with ibuf := 2, icnt := 2 }, by decide, ⟨by decide, by decide⟩, by decide,
      by decide, by decide, by unfold State.driesAfter; decide⟩⟩

theorem test_witness_TreeRoundTrip : sT1.cfg.wf = true ∧ sT1.treeAtRoot treeT1 = true ∧ sT1.fits treeT1 ∧ sT1.ocnt = 0 ∧
    sT1.SinkClear ∧
    ∃ w : State, w.cfg = sT1.cfg ∧ w.icnt = 0 ∧ w.inq = ([0xA8, 0x35, 0x08] : List Byte).map .byte ++ [] ∧
      w.limitAllows treeT1.size ∧ w.inLimit.toNat = treeT1.size :=
  ⟨by decide, by decide, t1_fits, by decide, by unfold State.SinkClear; decide,
    { sIn (bytesIn [0xA8, 0x35, 0x08]) with inLimit := 24 }, by decide, by decide, by decide, by unfold State.limitAllows; decide,
    by decide⟩

theorem test_witness_CompressDecompressRoundTrip : ∃ s : State, s.cfg.wf = true ∧ s.treeAtRoot treeT1 = true ∧ s.fits treeT1 ∧
    treeT1.keys.Nodup ∧ 256 ∈ treeT1.keys ∧ treeT1.isLeaf = false ∧
    (∀ b ∈ ([0x41, 0x42, 0x41] : List Byte), b.toNat ∈ treeT1.keys) ∧ s.ocnt = 0 ∧ s.SinkClear ∧
    s.inq = ([0x41, 0x42, 0x41] : List Byte).map .byte ++ .eos :: [] ∧ (treeT1.stream [0x41, 0x42, 0x41]).length = 30 ∧ 30 < 2 ^ 32 ∧
    ∃ w : State, w.cfg = s.cfg ∧ w.inLimit = 0xFFFFFFFF ∧ w.inq = streamT1.map .byte ++ [.eos] :=
  ⟨{ sT1 with inq := bytesIn [0x41, 0x42, 0x41] ++ [.eos] }, by decide, by decide, t1_fits, by decide, by decide, by decide,
    by decide, by decide, by unfold State.SinkClear; decide, by decide, by decide, by decide, sIn (bytesIn streamT1 ++ [.eos]),
    by decide, by decide, by decide⟩

theorem test_witness_CommandsEndOneOfThreeWays : sBusy.seq = .running (.issued 0) ∧ sBusy.err = none := by decide

theorem test_witness_CommandsLeaveHostState :
    decodeWord 0x01 = .ok .treeEnc ∧ exec .treeEnc sT1 = .next (after (exec .treeEnc sT1)) := ⟨by decide, rfl⟩

theorem test_witness_EncoderFrames : exec .treeEnc sT1 = .next (after (exec .treeEnc sT1)) ∧
    exec .symEnc sTable = .next (after (exec .symEnc sTable)) ∧ exec .tableBuild sT1 = .next (after (exec .tableBuild sT1)) ∧
    exec .compress sT1 = .next (after (exec .compress sT1)) := ⟨rfl, rfl, rfl, rfl⟩

theorem test_witness_DecoderFrames : sT1.err = none ∧ exec .symDec sT1 = .next (after (exec .symDec sT1)) ∧
    exec .treeDec sT1 = .next (after (exec .treeDec sT1)) ∧ exec .decompress sT1 = .next (after (exec .decompress sT1)) :=
  ⟨by decide, rfl, rfl, rfl⟩

/-- A state with a tree, its table, a partial byte and a traversal under way. -/
def sWork : State :=
  { sTable with
    nodeCount := 5
    obuf := 0x80
    ocnt := 1
    ibuf := 0xC0
    icnt := 8
    seq := .running (.traverse false 2 1) }

theorem test_witness_StorageInvariantKept : sWork.StorageInv ∧ step sWork = .next (after (step sWork)) :=
  ⟨{ cfg := by decide, nodes := by decide, codes := by decide, entries := by unfold CodeEntry.ok; decide, sink := by decide,
     source := by decide, count := by decide, error := by decide,
     cursor := fun c h => by rcases h with h | h <;> cases h; exact (by decide : 1 ≤ 256) }, rfl⟩

theorem sWork_tableInv : sWork.TableInv :=
  ⟨fun _ => ⟨[{ index := 0, depth := 0, path := [] }, { index := 1, depth := 1, path := [false] },
      { index := 2, depth := 1, path := [true] }, { index := 3, depth := 2, path := [true, false] },
      { index := 4, depth := 2, path := [true, true] }], by decide, by decide⟩,
    fun c h => by rcases h with h | h <;> cases h; trivial⟩

theorem test_witness_TableInvariantKept : sWork.TableInv ∧ step sWork = .next (after (step sWork)) := ⟨sWork_tableInv, rfl⟩

theorem test_witness_ValidTableMatchesTree : sWork.TableInv ∧ sWork.tableValid = true ∧
    tableGet sWork.codes 66 = some { len := 2, path := [true, false] } := ⟨sWork_tableInv, by decide, by decide⟩

/-- A NODE line for the last entry. -/
theorem test_witness_HostLinesExpand : encode .compress = .word 0x00000007 ∧ State.reset.busy = false ∧
    (512#16).toNat < State.reset.cfg.nodeCap ∧ (512#16).toNat + 1 = State.reset.cfg.nodeCap := by decide

/-- `RUN NOP` with two reads more than needed, the program going on and ending; and a `WAIT` on a held command. -/
theorem test_witness_WaitReadsUntilIdle : State.reset.busy = false ∧ State.reset.err = none ∧ sBusy.busy = true ∧
    Event.pause ∈ ([.take, .reset, .core, .tick, .pause] : List Event) ∧ encode .nop = .word 0x00000000 ∧
    (∀ x, ([.read 0x0C] : List Event).head? = some x → x ∉ ([.take, .reset, .core, .tick, .pause] : List Event)) ∧
    (∀ x, ([] : List Event).head? = some x → x ∉ ([.take, .reset, .core, .tick, .pause] : List Event)) ∧
    (∀ s : State, ∃ u : State, exec .nop s = .next u ∧ u.seq = .idle) ∧ sHeld.seq = .held .drain :=
  ⟨by decide, by decide, by decide, by decide, by decide, by simp, by simp, fun _ => ⟨_, rfl, rfl⟩, by decide⟩

/-- A DRAIN_IN that meets an empty IN. -/
theorem test_witness_HoldsSplitACommand : ∃ s t : State, (∀ d, s.seq ≠ .held d) ∧ s.coreTurn = .next t ∧ t.seq = .held .drain :=
  ⟨{ State.reset with seq := .running (.issued 0x0B) }, after ({ State.reset with seq := .running (.issued 0x0B) } : State).coreTurn,
    fun _ => by simp, rfl, by decide⟩

end Sys2Proof.Tests
end

section
/-!
PROOFS. The statements of spec/00_scope.md: how a turn of the core ends (R17), and that neither the grain of its turns nor a hold
changes what a command does (R15, R83).
-/

namespace Sys2Proof.Machine

namespace State

/-! ### How a turn ends -/

theorem moves_running {s : State} {c : Cursor} (hs : s.seq = .running c) (he : s.err = none) : s.Moves :=
  ⟨fun h => by simp [hs] at h, fun h => absurd he h, fun d h => by simp [hs] at h⟩

/-- The core's turn ends as its moves do (R17). -/
theorem moves_coreTurn {s t : State} (hm : s.Moves) (he : s.err = none) (ht : s.coreTurn = .next t) : t.Moves := by
  rcases coreTurn_cases s with ⟨hf, h⟩ | ⟨w, _, ⟨i, hd, h⟩ | ⟨_, h⟩⟩ <;> rw [ht] at h
  · cases h; exact moves_resume hm hf
  · obtain ⟨h1, h2, h3⟩ := decodeWord_isCommand hd
    exact (moves_exec he h1 h2 h3 h.symm).1
  · cases h; exact moves_raise

/-- A state in which a command has ended or is held is exactly one of R17's three outcomes. -/
theorem oneOutcome_of_settled {t : State} (hm : t.Moves) (hs : t.Settled) :
    (t.Succeeded ∧ (∀ e, ¬ t.Failed e) ∧ ¬ t.Waiting) ∨
    (¬ t.Succeeded ∧ (∃ e, t.Failed e ∧ ∀ e', t.Failed e' → e' = e) ∧ ¬ t.Waiting) ∨
    (¬ t.Succeeded ∧ (∀ e, ¬ t.Failed e) ∧ t.Waiting ∧ t.busy = true ∧ t.holdIn = true) := by
  rcases hs with hi | ⟨c, hc⟩
  · have hdone := hm.done hi
    have hwait : ¬ t.Waiting := by rintro ⟨⟨c, hc⟩, -⟩; simp [hi] at hc
    cases he : t.err with
    | none => exact .inl ⟨⟨hi, hdone, he⟩, fun e h => by simp [Failed, he] at h, hwait⟩
    | some e =>
      refine .inr (.inl ⟨fun h => by simp [Succeeded, he] at h, ⟨e, ⟨hi, hdone, he⟩, fun e' h => ?_⟩, hwait⟩)
      obtain ⟨-, -, h⟩ := h
      exact Option.some.inj (h.symm.trans he)
  · exact .inr (.inr ⟨fun h => by simp [Succeeded, hc] at h, fun e h => by simp [Failed, hc] at h,
      ⟨⟨c, hc⟩, hm.hold c hc⟩, by simp [busy, hc], by simp [holdIn, hc]⟩)

/-! ### Iterations of the core -/

theorem coreTicks_succ {s t : State} (h : s.coreTick = .next t) (n : Nat) : s.coreTicks (n + 1) = t.coreTicks n := by
  simp [coreTicks, h]

/-- With no command to begin, the core's iterations are its cursor's. -/
theorem coreTicks_eq_iterate (n : Nat) {s : State} (h : s.fetchCommand = none) : s.coreTicks n = .next (tick^[n] s) := by
  induction n generalizing s with
  | zero => rfl
  | succ n ih => rw [coreTicks_succ (coreTick_running h), ih (fetchCommand_tick h), Function.iterate_succ_apply]

/-- With no command to begin, enough iterations are the turn (R15). -/
theorem exists_coreTicks_eq_coreTurn {s : State} (h : s.fetchCommand = none) : ∃ n, s.coreTicks n = s.coreTurn := by
  obtain ⟨n, hn⟩ := reaches_all h
  exact ⟨n, by rw [coreTicks_eq_iterate n h, hn]; simp [coreTurn, h]⟩

/-! ### An append to a held command -/

theorem appendIn_held {s : State} {c : Cursor} (h : s.seq = .held c) (x : InItem) :
    s.appendIn x = { s with inq := s.inq ++ [x], seq := .running c } := by
  simp [appendIn, h]

end State

/-! ### The statements -/

/-- Settles O49: the turn ends or holds the command, and the core's moves set DONE when it ends and hold only with IN empty. -/
theorem commandsEndOneOfThreeWays : Obligations.CommandsEndOneOfThreeWays := by
  intro s c rest hs he
  obtain ⟨t, ht, hset⟩ := State.coreTurn_settled { s with events := rest }
  have hm : State.Moves { s with events := rest } := State.moves_running hs he
  exact ⟨t, ht, State.oneOutcome_of_settled (State.moves_coreTurn hm he ht) hset⟩

/-- Settles O57: after one iteration no command waits to be begun, and from there the iterations reach what the turn answers. -/
theorem iterationsAreTheTurn : Obligations.IterationsAreTheTurn := by
  intro s
  obtain ⟨t, htick, hturn, hf⟩ := s.coreTick_coreTurn
  obtain ⟨n, hn⟩ := State.exists_coreTicks_eq_coreTurn hf
  exact ⟨⟨t, htick, hturn⟩, n + 1, by rw [State.coreTicks_succ htick, hn, hturn]⟩

/-- Settles O58: the turn with one more item to come is the turn, continued once the item is appended. -/
theorem holdsSplitACommand : Obligations.HoldsSplitACommand := by
  intro s t c x hs ht hc
  rw [← State.appendIn_held hc x]
  exact (State.coreTurn_more x hs ht).symm

end Sys2Proof.Machine
end

section
/-!
PROOFS. The statements of spec/10_state.md about what stays: the storage invariant (R54, R55) and the table invariant (R53) under
every turn, and what only the host changes (R20, R58).
-/

namespace Sys2Proof.Machine

/-! ### What every turn keeps -/

namespace State

/-- A predicate that the events still to come do not matter to, and that every turn of host and core keeps (R14, R255). -/
structure KeptByTurns (P : State → Prop) : Prop where
  events : ∀ {s : State} (evs : List Event), P s → P { s with events := evs }
  write : ∀ {s : State} (o : BitVec 8) (v : Word), P s → P (s.hostWrite o v)
  read : ∀ {s : State} (o : BitVec 8), P s → P (s.hostRead o)
  append : ∀ {s : State} (x : InItem), P s → P (s.appendIn x)
  wait : ∀ {s : State}, P s → P s.waitTurn
  take : ∀ {s : State}, P s → P s.takeOut
  reset : ∀ {s : State}, P s → P s.resetBlock
  core : ∀ {s t : State}, P s → s.coreTurn = .next t → P t
  tick : ∀ {s t : State}, P s → s.coreTick = .next t → P t

/-- A step is one turn, so it keeps what every turn keeps. -/
theorem KeptByTurns.step {P : State → Prop} (k : KeptByTurns P) {s t : State} (h : P s) (ht : step s = .next t) : P t := by
  unfold Machine.step at ht
  split at ht
  · exact k.core h ht
  · next ev rest _ =>
    have hr : P { s with events := rest } := k.events rest h
    cases ev with
    | write o v => cases ht; exact k.write o v hr
    | read o => cases ht; exact k.read o hr
    | append x => cases ht; exact k.append x hr
    | wait => cases ht; exact k.wait hr
    | take => cases ht; exact k.take hr
    | reset => cases ht; exact k.reset hr
    | core => exact k.core hr ht
    | tick => exact k.tick hr ht
    | pause => cases ht; exact hr

theorem storageInv_keptByTurns : KeptByTurns StorageInv where
  events evs h := h.withEvents evs
  write o v h := h.hostWrite o v
  read o h := h.hostRead o
  append x h := h.appendIn x
  wait h := h.waitTurn
  take h := h.takeOut
  reset h := h.resetBlock
  core h ht := h.coreTurn ht
  tick h ht := h.coreTick ht

theorem tableInv_keptByTurns : KeptByTurns TableInv where
  events evs h := h.withEvents evs
  write o v h := h.hostWrite o v
  read o h := h.hostRead o
  append x h := h.appendIn x
  wait h := h.waitTurn
  take h := h.takeOut
  reset _ := .resetBlock _
  core h ht := h.coreTurn ht
  tick h ht := h.coreTick ht

/-- A valid table is the table of a tree at ROOT that fits, and whose keys differ (R53). -/
theorem TableInv.exists_tree {s : State} (h : s.TableInv) (hv : s.tableValid = true) :
    ∃ t : Tree, s.treeAtRoot t = true ∧ s.fits t ∧ t.keys.Nodup ∧
      ∀ k, tableGet s.codes k = (t.pathOf k).map codeEntry := by
  obtain ⟨order, hw, hcodes⟩ := h.current hv
  obtain ⟨t, hroot, hfit, hkeys⟩ := walk_ok_tree hw
  obtain rfl : order = treeVisits s.nodes t s.root 0 [] := by
    simpa [walk_tree true hroot hfit hkeys] using hw.symm
  exact ⟨t, hroot, hfit, hkeys rfl, fun k => hcodes ▸ tableGet_codesOf_tree hroot (hkeys rfl) k⟩

end State

/-- Settles O53: each turn keeps the storage invariant. -/
theorem storageInvariantKept : Obligations.StorageInvariantKept :=
  fun _ _ h ht => State.storageInv_keptByTurns.step h ht

/-- Settles O54: each turn keeps the table invariant. -/
theorem tableInvariantKept : Obligations.TableInvariantKept :=
  fun _ _ h ht => State.tableInv_keptByTurns.step h ht

/-- Settles O56: the table reads as the paths of the tree's keys, and a key's path is that of a leaf. -/
theorem validTableMatchesTree : Obligations.ValidTableMatchesTree := by
  intro s h hv
  obtain ⟨t, hroot, hfit, -, hget⟩ := h.exists_tree hv
  refine ⟨t, hroot, hfit, fun k => ?_, fun k e he => ?_⟩
  · rw [hget, Option.isSome_map]
    exact Tree.pathOf_isSome
  · rw [hget] at he
    obtain ⟨p, hp, rfl⟩ := Option.map_eq_some_iff.1 he
    exact Tree.mem_leaves_of_pathOf hp

/-- Settles O50: a command is begun and carried on by moves none of which touches the host's side. -/
theorem commandsLeaveHostState : Obligations.CommandsLeaveHostState := by
  intro w i s t hd ht
  obtain ⟨h1, h2, h3⟩ := State.decodeWord_isCommand hd
  obtain ⟨hhost, hout, hinq⟩ := State.quiet_exec h1 h2 h3 ht
  exact ⟨hhost, hout, hinq⟩

end Sys2Proof.Machine
end

section
/-!
PROOFS. The register window (R21 to R48, R60 to R66), for the statements of spec/10_state.md: the fields of its words, what a write
does to each register, and what the windows show.
-/

namespace Sys2Proof.Machine

/-! ### The fields of a register word -/

/-- A field placed at its bit. -/
theorem getLsbD_field {w : Nat} (x : BitVec w) (k j : Nat) :
    (x.setWidth 32 <<< k : Word).getLsbD j = (decide (j < 32) && decide (k ≤ j) && x.getLsbD (j - k)) := by
  rw [BitVec.getLsbD_shiftLeft, BitVec.getLsbD_setWidth]
  by_cases hj : j < 32
  · by_cases hk : k ≤ j
    · simp [hj, hk, show j - k < 32 by omega]
    · simp [hk, Nat.lt_of_not_le hk]
  · simp [hj]

/-- A field of a word is read back from its place. -/
@[simp] theorem extract_field {w k : Nat} (x : BitVec w) (h : k + w ≤ 32) : (x.setWidth 32 <<< k : Word).extractLsb' k w = x := by
  apply BitVec.eq_of_getLsbD_eq
  intro j hj
  rw [BitVec.getLsbD_extractLsb', getLsbD_field]
  simp [hj, show k + j < 32 by omega]

/-- A field shows nothing apart from its place. -/
@[simp] theorem extract_field_apart {w k a n : Nat} (x : BitVec w) (h : a + n ≤ k ∨ k + w ≤ a) :
    (x.setWidth 32 <<< k : Word).extractLsb' a n = 0 := by
  apply BitVec.eq_of_getLsbD_eq
  intro j hj
  rw [BitVec.getLsbD_extractLsb', getLsbD_field]
  rcases h with h | h
  · simp [show ¬ k ≤ a + j by omega]
  · simp [BitVec.getLsbD_of_ge x (a + j - k) (by omega)]

@[simp] theorem extract_low {w : Nat} (x : BitVec w) (h : w ≤ 32) : (x.setWidth 32 : Word).extractLsb' 0 w = x := by
  simpa using extract_field (k := 0) x (by omega)

@[simp] theorem extract_low_apart {w a n : Nat} (x : BitVec w) (h : w ≤ a) : (x.setWidth 32 : Word).extractLsb' a n = 0 := by
  simpa using extract_field_apart (k := 0) (a := a) (n := n) x (by omega)

/-- Storing a field and showing it at its place masks the word that was written (R63). -/
theorem field_of_extract (v : Word) (k w : Nat) :
    ((v.extractLsb' k w).setWidth 32 <<< k : Word) = v &&& (BitVec.allOnes w).setWidth 32 <<< k := by
  apply BitVec.eq_of_getLsbD_eq
  intro j hj
  rw [BitVec.getLsbD_and, getLsbD_field, getLsbD_field, BitVec.getLsbD_extractLsb', BitVec.getLsbD_allOnes]
  by_cases hk : k ≤ j
  · simp [hj, hk, Bool.and_comm]
  · simp [hk]

theorem low_of_extract (v : Word) (w : Nat) :
    ((v.extractLsb' 0 w).setWidth 32 : Word) = v &&& (BitVec.allOnes w).setWidth 32 := by
  simpa using field_of_extract v 0 w

theorem kind_ofBits_toBits (k : Kind) : Kind.ofBits k.toBits = k := by cases k <;> rfl

namespace State

theorem getElem_flag (b : Bool) (i : Nat) {j : Nat} (hj : j < 32) : (flag b i)[j] = (decide (j = i) && b) := by
  rw [← BitVec.getLsbD_eq_getElem, flag, getLsbD_field, BitVec.getLsbD_ofBool]
  by_cases h : j = i
  · simp [h ▸ hj, h]
  · simp [h]; omega

theorem extract_flag (b : Bool) {i a n : Nat} (h : i < a) : (flag b i).extractLsb' a n = 0 :=
  extract_field_apart _ (.inr h)

/-- The flags of STATUS at their bits (R25 to R31). -/
theorem statusWord_flags (s : State) :
    s.statusWord.getLsbD 0 = s.busy ∧ s.statusWord.getLsbD 1 = s.done ∧ s.statusWord.getLsbD 2 = s.err.isSome ∧
    s.statusWord.getLsbD 3 = s.tableValid ∧ s.statusWord.getLsbD 4 = s.resEom ∧ s.statusWord.getLsbD 5 = s.cmdOvr ∧
    s.statusWord.getLsbD 6 = s.holdIn ∧ s.statusWord.getLsbD 7 = false := by
  simp [statusWord, getElem_flag]

/-- ERRCODE stands at STATUS[15:8], and the bits above it are 0 (R27, R63). -/
theorem statusWord_errCode (s : State) : s.statusWord.extractLsb' 8 8 = s.errCode ∧ s.statusWord.extractLsb' 16 16 = 0 := by
  simp [statusWord, BitVec.extractLsb'_or, extract_flag]

/-- HOLD_IN is 1 exactly while the command is held (R31). -/
theorem holdIn_iff (s : State) : s.holdIn = true ↔ ∃ c, s.seq = .held c := by
  unfold holdIn
  cases s.seq <;> simp

theorem errCode_none {s : State} (h : s.err = none) : s.errCode = 0 := by simp [errCode, h]

theorem errCode_some {s : State} {e : ErrorCode} (h : s.err = some e) : s.errCode = e.code := by simp [errCode, h]

/-! ### What a register write does -/

theorem writeReg_readOnly {r : Reg} (h : r ∈ Reg.readOnly) (v : Word) (s : State) : s.writeReg r v = s := by
  cases r with
  | cmd | status | ie | root | nodeAddr | nodeLink | nodeData | symbol | inLimit | codeSel => exact absurd h (by decide)
  | _ => rfl

/-- A write to a RO register while BUSY = 0 is dropped (R65). -/
theorem writesTo_readOnly {s : State} (hb : s.busy = false) {r : Reg} (h : r ∈ Reg.readOnly) (v : Word) : s.WritesTo r v s := by
  simpa only [writeReg_readOnly h] using writesTo_idle hb r v

/-- A STATUS write as one next state (R32). -/
theorem statusWrite_eq (w : Word) (s : State) : s.statusWrite w = { s with
    done := s.done && !w.getLsbD 1
    err := if w.getLsbD 2 then none else s.err
    cmdOvr := s.cmdOvr && !w.getLsbD 5 } := by
  unfold statusWrite ackError
  cases w.getLsbD 1 <;> cases w.getLsbD 2 <;> cases w.getLsbD 5 <;> simp

/-- No register but CMD and STATUS looks at the recorded error or changes it (R61). -/
theorem writeReg_err {r : Reg} (hc : r ≠ .cmd) (hs : r ≠ .status) (v : Word) (x : Option ErrorCode) (s : State) :
    ({ s with err := x } : State).writeReg r v = { s.writeReg r v with err := x } := by
  cases r with
  | cmd => exact absurd rfl hc
  | status => exact absurd rfl hs
  | nodeData =>
    show State.writeNodeData _ _ = { s.writeNodeData v with err := x }
    unfold writeNodeData
    split <;> rfl
  | _ => rfl

/-- A RW register shows the stored bits of what was written (R63, R64). -/
theorem regValue_writeReg {r : Reg} {m : Word} (hm : r.rwMask = some m) (v : Word) (s : State) :
    (s.writeReg r v).regValue r = v &&& m := by
  cases r with
  | ie => cases hm; exact low_of_extract v 3
  | root => cases hm; exact low_of_extract v 16
  | nodeAddr => cases hm; exact low_of_extract v 16
  | symbol => cases hm; exact low_of_extract v 9
  | nodeLink => cases hm; exact BitVec.and_allOnes.symm
  | inLimit => cases hm; exact BitVec.and_allOnes.symm
  | codeSel =>
    cases hm
    calc (v.extractLsb' 0 9).setWidth 32 ||| (v.extractLsb' 16 3).setWidth 32 <<< 16
        = v &&& (BitVec.allOnes 9).setWidth 32 ||| v &&& (BitVec.allOnes 3).setWidth 32 <<< 16 := by
          rw [low_of_extract, field_of_extract]
      _ = v &&& 0x000701FF := BitVec.and_or_distrib_left.symm
  | _ => cases hm

/-- A write to a RW register shows in no other register but those it selects for, and in STATUS for ROOT (R34, R36, R47). -/
theorem regValue_writeReg_other {r r' : Reg} {m : Word} (hm : r.rwMask = some m) (hne : r' ≠ r) (hshown : r' ∉ r.shownBy)
    (v : Word) (s : State) : (s.writeReg r v).regValue r' = s.regValue r' := by
  cases r with
  | ie => cases r' with
    | ie => exact absurd rfl hne
    | _ => rfl
  | root => cases r' with
    | root => exact absurd rfl hne
    | status => exact absurd (by decide) hshown
    | _ => rfl
  | nodeAddr => cases r' with
    | nodeAddr => exact absurd rfl hne
    | nodeData | nodeRdlink => exact absurd (by decide) hshown
    | _ => rfl
  | nodeLink => cases r' with
    | nodeLink => exact absurd rfl hne
    | _ => rfl
  | symbol => cases r' with
    | symbol => exact absurd rfl hne
    | _ => rfl
  | inLimit => cases r' with
    | inLimit => exact absurd rfl hne
    | _ => rfl
  | codeSel => cases r' with
    | codeSel => exact absurd rfl hne
    | codeInfo | codeData => exact absurd (by decide) hshown
    | _ => rfl
  | _ => cases hm

/-- A write to a RW register changes no state but that of the RW registers and TABLE_VALID. -/
theorem writeReg_frame {r : Reg} {m : Word} (hm : r.rwMask = some m) (v : Word) (s : State) :
    s.writeReg r v = { s with
      tableValid := (s.writeReg r v).tableValid, ie := (s.writeReg r v).ie, root := (s.writeReg r v).root
      nodeAddr := (s.writeReg r v).nodeAddr, nodeLink := (s.writeReg r v).nodeLink, symbol := (s.writeReg r v).symbol
      inLimit := (s.writeReg r v).inLimit, codeKey := (s.writeReg r v).codeKey, codeWord := (s.writeReg r v).codeWord } := by
  cases r with
  | ie | root | nodeAddr | nodeLink | symbol | inLimit | codeSel => rfl
  | _ => cases hm

/-- Of the RW registers only ROOT clears TABLE_VALID (R34). -/
theorem tableValid_writeReg {r : Reg} {m : Word} (hm : r.rwMask = some m) (hr : r ≠ .root) (v : Word) (s : State) :
    (s.writeReg r v).tableValid = s.tableValid := by
  cases r with
  | root => exact absurd rfl hr
  | ie | nodeAddr | nodeLink | symbol | inLimit | codeSel => rfl
  | _ => cases hm

/-! ### The windows -/

theorem selectedNode_some {s : State} {e : NodeEntry} (hi : s.nodeAddr.toNat < s.cfg.nodeCap)
    (he : tableGet s.nodes s.nodeAddr.toNat = some e) : s.selectedNode = some e := by
  rw [selectedNode, if_pos hi, he]

theorem selectedNode_none {s : State} (h : s.cfg.nodeCap ≤ s.nodeAddr.toNat ∨ tableGet s.nodes s.nodeAddr.toNat = none) :
    s.selectedNode = none := by
  unfold selectedNode
  split
  · next hi => exact h.resolve_left (by omega)
  · rfl

theorem selectedCode_some {s : State} {e : CodeEntry} (hk : s.codeKey.toNat ≤ 256)
    (he : tableGet s.codes s.codeKey.toNat = some e) : s.selectedCode = some e := by
  rw [selectedCode, if_pos hk, he]

theorem selectedCode_none {s : State} (h : 256 < s.codeKey.toNat ∨ tableGet s.codes s.codeKey.toNat = none) :
    s.selectedCode = none := by
  unfold selectedCode
  split
  · next hk => exact h.resolve_left (by omega)
  · rfl

/-- BITSTATE's fields at their places (R46). -/
theorem bitStateWord_fields (s : State) :
    s.bitStateWord.extractLsb' 0 3 = s.ocnt ∧ s.bitStateWord.extractLsb' 3 5 = 0 ∧
    s.bitStateWord.extractLsb' 8 8 = s.obuf ∧ s.bitStateWord.extractLsb' 16 4 = s.icnt ∧
    s.bitStateWord.extractLsb' 20 4 = 0 ∧ s.bitStateWord.extractLsb' 24 8 = s.ibuf := by
  simp [bitStateWord, BitVec.extractLsb'_or]

end State

/-- CFG's fields at their places (R23). -/
theorem cfgWord_fields {c : Config} (h : c.wf = true) :
    ((cfgWord c).extractLsb' 0 16).toNat = c.nodeCap ∧ ((cfgWord c).extractLsb' 16 9).toNat = c.depthCap ∧
    (cfgWord c).extractLsb' 25 7 = 0 := by
  simp only [Config.wf, Bool.and_eq_true, decide_eq_true_eq] at h
  obtain ⟨⟨⟨-, hn⟩, -⟩, hd⟩ := h
  have hn' : c.nodeCap % 65536 = c.nodeCap := Nat.mod_eq_of_lt (by omega)
  have hd' : c.depthCap % 512 = c.depthCap := Nat.mod_eq_of_lt (by omega)
  simp [cfgWord, BitVec.extractLsb'_or, hn', hd']

/-- NODE_DATA's fields at their places (R39). -/
theorem nodeDataWord_fields (e : NodeEntry) :
    (nodeDataWord e).getLsbD 31 = true ∧ (nodeDataWord e).extractLsb' 16 15 = 0 ∧ (nodeDataWord e).extractLsb' 8 8 = e.sym ∧
    (nodeDataWord e).extractLsb' 2 6 = 0 ∧ (nodeDataWord e).extractLsb' 0 2 = e.kind.toBits := by
  simp [nodeDataWord, BitVec.extractLsb'_or]

/-- NODE_RDLINK's halves (R40). -/
theorem linkWord_fields (e : NodeEntry) :
    (linkWord e).extractLsb' 16 16 = e.right ∧ (linkWord e).extractLsb' 0 16 = e.left := by
  simp [linkWord, BitVec.extractLsb'_or]

/-- CODE_INFO's fields at their places (R48). -/
theorem codeInfoWord_fields (e : CodeEntry) :
    (codeInfoWord e).getLsbD 31 = true ∧ (codeInfoWord e).extractLsb' 9 22 = 0 ∧ (codeInfoWord e).extractLsb' 0 9 = e.len := by
  simp [codeInfoWord, BitVec.extractLsb'_or]

end Sys2Proof.Machine
end

section
/-!
PROOFS. The statements of spec/10_state.md about host accesses (R21 to R48, R60 to R66) and the acceptance of a command (R24).
-/

namespace Sys2Proof.Machine

/-! ### Accesses by their offsets -/

/-- Offset bits 1:0 make no difference (R85). -/
theorem ofOffset_aligned (o : BitVec 8) : Reg.ofOffset (o &&& 0xFC) = Reg.ofOffset o := by
  rw [Reg.ofOffset, Reg.ofOffset, BitVec.and_assoc, BitVec.and_self]

/-- The reserved offsets are those from 0x50 on (R62). -/
theorem ofOffset_none_iff : ∀ o : BitVec 8, Reg.ofOffset o = none ↔ 0x50 ≤ o.toNat := by decide

namespace State

theorem hostRead_aligned (o : BitVec 8) (s : State) : s.hostRead (o &&& 0xFC) = s.hostRead o := by
  rw [hostRead, hostRead, ofOffset_aligned]

theorem hostWrite_aligned (o : BitVec 8) (v : Word) (s : State) : s.hostWrite (o &&& 0xFC) v = s.hostWrite o v := by
  rw [hostWrite, hostWrite, ofOffset_aligned]

theorem hostRead_reserved {o : BitVec 8} (ho : Reg.ofOffset o = none) (s : State) :
    s.hostRead o = { s with reads := s.reads ++ [0] } := by
  simp [hostRead, ho]

theorem hostWrite_reserved {o : BitVec 8} (ho : Reg.ofOffset o = none) (v : Word) (s : State) :
    s.hostWrite o v = { s with cmdOvr := s.cmdOvr || s.busy } := by
  unfold hostWrite
  cases hb : s.busy <;> simp [ho]

/-- While BUSY = 0 a register that has the value `v` reads it (R64). -/
theorem readsAs_of_regValue {s : State} (hb : s.busy = false) {r : Reg} {v : Word} (h : s.regValue r = v) : s.ReadsAs r v :=
  h ▸ readsAs_idle hb r

/-! ### Accepted commands -/

theorem coreTurn_command {s : State} {w : Word} {i : Instr} (hs : s.seq = .running (.issued w)) (hd : decodeWord w = .ok i) :
    s.coreTurn = exec i s := by
  simp [coreTurn, fetchCommand, hs, hd]

theorem coreTurn_illegal {s : State} {w : Word} {e : DecodeError} (hs : s.seq = .running (.issued w))
    (hd : decodeWord w = .error e) : s.coreTurn = .next s.illegalCommand := by
  simp [coreTurn, fetchCommand, hs, hd]

theorem writeCmd_accepted {s : State} (he : s.err = none) (v : Word) : s.writeCmd v = s.accept v := by
  simp [writeCmd, he]

theorem writeCmd_dropped {s : State} {e : ErrorCode} (he : s.err = some e) (v : Word) :
    s.writeCmd v = { s with cmdOvr := true } := by
  simp [writeCmd, he]

end State

open State

/-! ### The statements -/

/-- Settles O14: the written field is shown at its place, and the other registers' values do not depend on it. -/
theorem registersReadBackWrites : Obligations.RegistersReadBackWrites := by
  intro s r m v hb hm
  have hframe := writeReg_frame hm v s
  have hb' : (s.writeReg r v).busy = false := by rw [hframe]; exact hb
  refine ⟨s.writeReg r v, writesTo_idle hb r v, readsAs_of_regValue hb' (regValue_writeReg hm v s), ?_,
    fun hr => tableValid_writeReg hm hr v s, fun r' hne hshown => regValue_writeReg_other hm hne hshown v s, hframe⟩
  rintro rfl
  rfl

/-- Settles O16: a table reads at the index it was put at what was put there, and elsewhere what it read before. -/
theorem nodeDataWriteStoresEntry : Obligations.NodeDataWriteStoresEntry := by
  intro s v hb
  have hw := writesTo_idle hb .nodeData v
  refine ⟨fun hi => ?_, fun hi => ?_⟩
  · have hst : s.writeReg .nodeData v =
        { s with nodes := tablePut s.nodes s.nodeAddr.toNat (nodeOfWrite v s.nodeLink), tableValid := false } := if_pos hi
    exact ⟨_, hst ▸ hw, rfl, fun i => tableGet_put s.nodes _ i _⟩
  · have hst : s.writeReg .nodeData v = s := if_neg (by omega)
    rwa [hst] at hw

/-- Settles O17: the window's words hold the selected entry's fields, and are 0 when no entry is selected. -/
theorem nodeReadback : Obligations.NodeReadback := by
  intro s hb
  refine ⟨writesTo_readOnly hb (by decide), fun e hi he => ?_, fun h => ?_⟩
  · have hsel := selectedNode_some hi he
    obtain ⟨hv, hz, hsym, hz', hkind⟩ := nodeDataWord_fields e
    obtain ⟨hright, hleft⟩ := linkWord_fields e
    exact ⟨nodeDataWord e, linkWord e, readsAs_of_regValue hb (by rw [regValue, hsel]),
      readsAs_of_regValue hb (by rw [regValue, hsel]), hv, hz, hsym, hz', by rw [hkind, kind_ofBits_toBits], hright, hleft⟩
  · have hsel := selectedNode_none h
    exact ⟨readsAs_of_regValue hb (by rw [regValue, hsel]), readsAs_of_regValue hb (by rw [regValue, hsel])⟩

/-- Settles O18: STATUS is exact at any time, and its word has each flag at its bit. -/
theorem statusWordFields : Obligations.StatusWordFields := by
  refine ⟨fun s => ?_, by decide, by decide, by decide⟩
  obtain ⟨hbusy, hdone, herr, hvalid, heom, hovr, hhold, h7⟩ := s.statusWord_flags
  obtain ⟨hcode, hz⟩ := s.statusWord_errCode
  exact ⟨s.statusWord, readsAs_exact s rfl, hbusy, hdone, herr, hvalid, heom, hovr, hhold, h7, hcode, hz, s.holdIn_iff,
    errCode_none, fun _ => errCode_some⟩

/-- Settles O22: CFG and BITSTATE hold their fields side by side, and the other registers show one field each. -/
theorem constantAndBufferReads : Obligations.ConstantAndBufferReads := by
  intro s hwf
  refine ⟨fun r v hr hb => ?_, fun hb => ?_, readsAs_exact s rfl, ?_, fun hc => ?_, fun hb => ?_⟩
  · have hro : ∀ r ∈ [Reg.id, .cfg, .bitState, .nodeCount, .result, .outBits, .inBits], r ∈ Reg.readOnly := by decide
    exact writesTo_readOnly hb (hro r hr) v
  · exact ⟨readsAs_idle hb _, readsAs_idle hb _, readsAs_idle hb _, readsAs_idle hb _⟩
  · exact ⟨cfgWord s.cfg, readsAs_exact s rfl, cfgWord_fields hwf⟩
  · have hword : s.regValue .cfg = 0x01000201 := by rw [regValue, hc]; decide
    exact hword ▸ readsAs_exact s rfl
  · exact ⟨s.bitStateWord, readsAs_idle hb .bitState, s.bitStateWord_fields⟩

/-- Settles O23: CODE_DATA shows the path in stream order, and both registers are 0 when no entry is selected. -/
theorem codeReadback : Obligations.CodeReadback := by
  intro s hb
  refine ⟨fun v => ⟨writesTo_readOnly hb (by decide) v, writesTo_readOnly hb (by decide) v⟩, fun e hk he => ?_, fun h => ?_⟩
  · have hsel := selectedCode_some hk he
    obtain ⟨hpresent, hz, hlen⟩ := codeInfoWord_fields e
    refine ⟨codeInfoWord e, pathWord e s.codeWord.toNat, readsAs_of_regValue hb (by rw [regValue, hsel]),
      readsAs_of_regValue hb (by rw [regValue, hsel]), hpresent, hz, hlen, fun t ht => ?_⟩
    rw [getLsbD_pathWord e _ ht]
    split <;> simp [*]
  · have hsel := selectedCode_none h
    exact ⟨readsAs_of_regValue hb (by rw [regValue, hsel]), readsAs_of_regValue hb (by rw [regValue, hsel])⟩

/-- Settles O5: a step is the turn at the head of the schedule, and the core's turn decodes the accepted word. -/
theorem stepRunsAcceptedCommand : Obligations.StepRunsAcceptedCommand := by
  intro s rest
  refine ⟨rfl, rfl, rfl, fun w i hs hd => ⟨?_, ?_⟩⟩
  · exact coreTurn_command (s := { s with events := rest }) hs hd
  · exact coreTurn_command (s := { s with events := [] }) hs hd

/-- Settles O10: a host write looks at BUSY before anything else. -/
theorem writesWhileBusyAreDropped : Obligations.WritesWhileBusyAreDropped :=
  fun _ r v hb => writesTo_busy hb r v

/-- Settles O11: only CMD and STATUS look at the recorded error. -/
theorem commandsWhileErrorAreDropped : Obligations.CommandsWhileErrorAreDropped := by
  intro s e hb he
  refine ⟨fun v => ?_, fun r v t hc hs ht o rest ho => ?_, fun v hv => ?_⟩
  · rw [← writeCmd_dropped he v]
    exact writesTo_idle hb .cmd v
  · have hself : ({ s with err := some e } : State) = s := by rw [← he]
    have ht' := writesTo_unique ht (writesTo_idle (s := { s with err := none }) hb r v)
    rw [writeReg_err hc hs] at ht'
    have hu : s.writeReg r v = { s.writeReg r v with err := some e } := by rw [← writeReg_err hc hs, hself]
    rw [writesTo_idle hb r v o rest ho, hu]
    exact congrArg (fun u : State => Host.Outcome.next { u with err := some e, events := rest }) ht'.symm
  · exact ⟨s.writeReg .status v, writesTo_idle hb .status v, by rw [writeReg, statusWrite_eq, if_pos hv]⟩

/-- Settles O12: acceptance is the CMD write's meaning, and the next turn decodes the word it left in the sequencer. -/
theorem commandsAreAccepted : Obligations.CommandsAreAccepted := by
  intro s v rest hb he
  refine ⟨?_, rfl, fun i hd => ?_, fun e hd => ?_, readsAs_idle hb .cmd⟩
  · have hw := writesTo_idle hb .cmd v
    rwa [writeReg, writeCmd_accepted he] at hw
  · exact coreTurn_command (s := { s with done := false, seq := .running (.issued v), events := rest }) rfl hd
  · exact coreTurn_illegal (s := { s with done := false, seq := .running (.issued v), events := rest }) rfl hd

/-- Settles O15: an access looks at its offset only through the register map, and RO registers have no write of their own. -/
theorem reservedAndReadOnlyAccesses : Obligations.ReservedAndReadOnlyAccesses := by
  refine ⟨by decide, ofOffset_none_iff, fun s o rest ho => ?_, fun s o v rest ho => ?_,
    fun s r v hr hb => writesTo_readOnly hb hr v, fun s o v rest => ⟨?_, ?_⟩⟩
  · exact congrArg Host.Outcome.next (hostRead_reserved ho _)
  · exact congrArg Host.Outcome.next (hostWrite_reserved ho v _)
  · exact congrArg Host.Outcome.next (hostRead_aligned o _).symm
  · exact congrArg Host.Outcome.next (hostWrite_aligned o v _).symm

/-- Settles O19: the three tests of a STATUS write, taken together, are one next state. -/
theorem statusWriteClears : Obligations.StatusWriteClears := by
  intro s w
  refine ⟨fun hb => ?_, fun hb => writesTo_busy hb .status w, readsAs_exact s rfl⟩
  rw [← statusWrite_eq]
  exact writesTo_idle hb .status w

/-- Settles O21: three registers are exact at any time, and any other is a free draw while BUSY = 1. -/
theorem readsWhileBusyAreFree : Obligations.ReadsWhileBusyAreFree := by
  intro s
  refine ⟨readsAs_exact s rfl, readsAs_exact s rfl, readsAs_exact s rfl, fun hb r o rest ho hstatus hid hcfg => ?_⟩
  have hfree : exactWhileBusy r = false := by
    cases r with
    | status => exact absurd rfl hstatus
    | id => exact absurd rfl hid
    | cfg => exact absurd rfl hcfg
    | _ => rfl
  exact read_busy hb hfree ho

end Sys2Proof.Machine
end

section
/-!
PROOFS. The statements of spec/20_memory.md about the bit streams and the channels: BitWrite and BitRead (R76 to R81), appends, takes
and holds (R73, R74, R83, R290), and FLUSH (R221).
-/

namespace Sys2Proof.Machine

namespace State

/-! ### BitRead, case by case -/

/-- At the limit BitRead is EXHAUSTED before anything is read (R81, R291). -/
theorem bitRead_atLimit {s : State} (h : s.inLimit ≤ s.inBits) : s.bitRead = .exhausted s := if_pos h

section BelowLimit

variable {s : State} (hl : s.inBits < s.inLimit)
include hl

theorem bitRead_buffered (h0 : s.icnt ≠ 0) : s.bitRead = s.bitFromBuffer := by
  rw [bitRead, if_neg (BitVec.not_le.2 hl), if_neg h0]

theorem bitRead_noItem (h0 : s.icnt = 0) (hq : s.inq = []) : s.bitRead = .hold := by
  rw [bitRead, if_neg (BitVec.not_le.2 hl), if_pos h0, hq]

theorem bitRead_eos {rest : List InItem} (h0 : s.icnt = 0) (hq : s.inq = .eos :: rest) :
    s.bitRead = .exhausted { s with inq := rest } := by
  rw [bitRead, if_neg (BitVec.not_le.2 hl), if_pos h0, hq]

theorem bitRead_byte {b : Byte} {rest : List InItem} (h0 : s.icnt = 0) (hq : s.inq = .byte b :: rest) :
    s.bitRead = .bit (b.getLsbD 7) { s with inq := rest, ibuf := b, icnt := 7, inBits := s.inBits + 1 } := by
  rw [bitRead, if_neg (BitVec.not_le.2 hl), if_pos h0, hq]
  simp [bitFromBuffer]

end BelowLimit

/-! ### The partial byte -/

theorem sinkFlush_empty {s : State} (h : s.ocnt = 0) : s.sinkFlush = s := if_pos h

theorem sinkFlush_partial {s : State} (h : s.ocnt ≠ 0) :
    s.sinkFlush = { s with out := s.out ++ [s.obuf], obuf := 0, ocnt := 0 } := if_neg h

theorem exec_flush (s : State) : exec .flush s = .next s.sinkFlush.succeed := rfl

/-- A second FLUSH in a row changes nothing (R80). -/
theorem exec_flush_again (s : State) : exec .flush s.sinkFlush.succeed = .next s.sinkFlush.succeed := by
  rw [exec_flush, sinkFlush_empty (s := s.sinkFlush.succeed) (by simp)]
  rfl

/-! ### The channels and the hold -/

theorem takeOut_cons {s : State} {b : Byte} {bs : List Byte} (h : s.out = b :: bs) :
    s.takeOut = { s with out := bs, taken := s.taken ++ [b] } := by
  simp [takeOut, h]

theorem takeOut_nil {s : State} (h : s.out = []) : s.takeOut = s := by
  simp [takeOut, h]

theorem takeOut_seq (s : State) : s.takeOut.seq = s.seq := by
  unfold takeOut
  split <;> rfl

theorem hostRead_seq (o : BitVec 8) (s : State) : (s.hostRead o).seq = s.seq := by
  unfold hostRead
  split
  · rfl
  · split <;> rfl

section Held

variable {s : State} {c : Cursor} (hs : s.seq = .held c)
include hs

/-- A held command has BUSY = 1, so a host write is dropped (R60, R83). -/
theorem hostWrite_held (o : BitVec 8) (v : Word) : s.hostWrite o v = { s with cmdOvr := true } :=
  if_pos (by simp [busy, hs])

theorem fetchCommand_held : s.fetchCommand = none := by simp [fetchCommand, hs]

/-- The core waits while its command is held (R83). -/
theorem coreTurn_held : s.coreTurn = .next s := by
  simp [coreTurn, fetchCommand_held hs, resume_stop (.inr ⟨c, hs⟩)]

theorem coreTick_held : s.coreTick = .next s := by
  rw [coreTick_running (fetchCommand_held hs), tick, hs]

/-- What a step makes of a hold: an append makes the command go on at the same cursor, a reset ends it, and every other turn leaves
it held (R83, R290). -/
theorem step_held {t : State} (ht : step s = .next t) :
    t.seq = .held c ∨ (∃ x rest, s.events = .append x :: rest ∧ t.seq = .running c) ∨
      ∃ rest, s.events = .reset :: rest ∧ t.seq = .idle := by
  unfold step at ht
  split at ht
  · cases (coreTurn_held hs).symm.trans ht
    exact .inl hs
  · next ev rest he =>
    have hr : ({ s with events := rest } : State).seq = .held c := hs
    cases ev with
    | append x => cases ht; exact .inr (.inl ⟨x, rest, he, by rw [appendIn_held hr]⟩)
    | reset => cases ht; exact .inr (.inr ⟨rest, he, rfl⟩)
    | write o v => cases ht; exact .inl (by rw [hostWrite_held hr, hr])
    | read o => cases ht; exact .inl ((hostRead_seq o _).trans hr)
    | wait => cases ht; exact .inl (by rw [waitTurn_eq, hr])
    | take => cases ht; exact .inl ((takeOut_seq _).trans hr)
    | core => cases (coreTurn_held hr).symm.trans ht; exact .inl hr
    | tick => cases (coreTick_held hr).symm.trans ht; exact .inl hr
    | pause => cases ht; exact .inl hr

end Held

end State

open State

/-! ### The statements -/

/-- Settles O24: BitWrite sets one bit of the byte, and appending its bit to the sink's stream is repeated over a sequence. -/
theorem sinkPacksMsbFirst : Obligations.SinkPacksMsbFirst := by
  refine ⟨fun s b => ?_, fun s bs => ⟨sinkBits_bitWrites s bs, by simp⟩, getD_streamBits⟩
  exact ⟨setBit s.obuf (7 - s.ocnt.toNat) b, fun i hi => getLsbD_setBit s.obuf (by omega) b i hi, rfl⟩

/-- Settles O25: the limit is looked at first, then ICNT, then the head of IN, and each answer is the head of the source's stream. -/
theorem bitReadStep : Obligations.BitReadStep := by
  refine ⟨fun s => ⟨fun h => bitRead_atLimit (BitVec.le_def.2 h), fun h => ?_⟩, fun s b bs h8 h hb => ?_, fun bytes => ?_⟩
  · have hl : s.inBits < s.inLimit := BitVec.lt_def.2 h
    exact ⟨bitRead_noItem hl, fun rest => bitRead_eos hl, fun b rest => bitRead_byte hl, bitRead_buffered hl⟩
  · exact bitRead_bit h8 (BitVec.lt_def.2 h) hb
  · simpa [itemBits] using itemBits_bytes bytes []

/-- Settles O26: an append and a take are single updates of a channel, and a step from a hold is one of three cases. -/
theorem channelTurnsAndHolds : Obligations.ChannelTurnsAndHolds := by
  refine ⟨fun s rest => ⟨fun x hs => ?_, fun x c hs => ?_, fun b bs ho => ?_, fun ho => ?_⟩, fun s t c hs ht => ?_⟩
  · exact congrArg Host.Outcome.next (appendIn_notHeld (s := { s with events := rest }) hs x)
  · exact congrArg Host.Outcome.next (appendIn_held (s := { s with events := rest }) hs x)
  · exact congrArg Host.Outcome.next (takeOut_cons (s := { s with events := rest }) ho)
  · exact congrArg Host.Outcome.next (takeOut_nil (s := { s with events := rest }) ho)
  · rcases step_held hs ht with h | ⟨x, rest, he, h⟩ | ⟨rest, he, h⟩
    · exact .inl ⟨h, (holdIn_iff t).2 ⟨c, h⟩⟩
    · exact .inr (.inl ⟨x, rest, he, h, by simp [holdIn, h]⟩)
    · exact .inr (.inr ⟨rest, he, h⟩)

/-- Settles O28: FLUSH is the sink's flush, which pads with the clear bits and leaves no partial byte to a second one. -/
theorem flushCompletes : Obligations.FlushCompletes := by
  refine ⟨rfl, fun s => ⟨fun h => ?_, fun h => ?_, fun hc => ?_⟩⟩
  · rw [exec_flush, sinkFlush_empty h, succeed]
  · rw [exec_flush, sinkFlush_partial h, succeed]
  · exact ⟨s.sinkFlush.succeed, exec_flush s, streamBits_sinkFlush hc, exec_flush_again s⟩

end Sys2Proof.Machine
end

section
/-!
PROOFS. The statements of spec/30_encoding.md: the opcode map and the node codes, read and written (R110 to R118), and the host's
program lines (R123, R124).
-/

namespace Sys2Proof.Machine

/-! ### Command words -/

/-- A word the decoder takes is the one the encoder writes (R111). -/
theorem encode_of_decodeWord {w : Word} {i : Instr} (h : decodeWord w = .ok i) : encode i = .word w := by
  unfold decodeWord at h
  split at h
  case h_13 => split at h <;> cases h
  all_goals
    next hw => cases h; exact congrArg Code.word (BitVec.eq_of_toNat_eq hw.symm)

/-- The decoder takes every word the encoder writes (R111). -/
theorem decodeWord_of_encode {w : Word} {i : Instr} (h : encode i = .word w) : decodeWord w = .ok i := by
  cases i <;> cases h <;> rfl

theorem decodeWord_eq_ok_iff {w : Word} {i : Instr} : decodeWord w = .ok i ↔ encode i = .word w :=
  ⟨encode_of_decodeWord, decodeWord_of_encode⟩

/-! ### Node codes -/

theorem encode_toInstr (k : NodeCode) : encode k.toInstr = .bits k.bits := by cases k <;> rfl

/-- Only node codes are encoded as bits (R110). -/
theorem encode_eq_bits_iff {i : Instr} {bs : Bits} : encode i = .bits bs ↔ ∃ k : NodeCode, k.toInstr = i ∧ k.bits = bs := by
  constructor
  · intro h
    cases i with
    | dBranch => exact ⟨.branch, rfl, Code.bits.inj h⟩
    | dEom => exact ⟨.eom, rfl, Code.bits.inj h⟩
    | dLeaf s => exact ⟨.leaf s, rfl, Code.bits.inj h⟩
    | _ => cases h
  · rintro ⟨k, rfl, rfl⟩
    exact encode_toInstr k

/-- The decoder reads a node code and nothing after it exactly from that code's bits (R116). -/
theorem decodeNode_eq_ok_nil_iff {bs : Bits} {k : NodeCode} : decodeNode bs = .ok (k, []) ↔ k.bits = bs := by
  constructor
  · intro h
    rw [decodeNode_ok h, List.append_nil]
  · rintro rfl
    simpa using decodeNode_bits k []

theorem decode_bits_eq_ok_iff {bs : Bits} {i : Instr} :
    decode (.bits bs) = .ok i ↔ ∃ k : NodeCode, k.toInstr = i ∧ decodeNode bs = .ok (k, []) := by
  cases hd : decodeNode bs with
  | error e => simp [decode, hd]
  | ok p =>
    obtain ⟨k, _ | ⟨b, rest⟩⟩ := p
    · simp [decode, hd]
    · simp [decode, hd]

/-- No node code begins another (R116). -/
theorem nodeCode_eq_of_bits_isPrefix {j k : NodeCode} (h : j.bits <+: k.bits) : j = k := by
  obtain ⟨q, hq⟩ := h
  have hj := decodeNode_bits j q
  rw [hq, decodeNode_eq_ok_nil_iff.2 rfl] at hj
  injection hj with hj
  exact (Prod.mk.inj hj).1.symm

/-- Where no node code stands at the head of a bit sequence, ten more bits complete one that the sequence is cut off from: it is not
as long as the code, which would then be at its head (R116, R117). -/
theorem exists_completion_of_decodeNode_error {bs : Bits} {e : DecodeError} (h : decodeNode bs = .error e) :
    ∃ (k : NodeCode) (q : Bits), q ≠ [] ∧ bs ++ q = k.bits := by
  have hnone : ∀ (k : NodeCode) (r : Bits), bs ≠ k.bits ++ r := by
    rintro k r rfl
    rw [decodeNode_bits] at h
    cases h
  obtain ⟨⟨k, rest⟩, hk⟩ := State.decodeNode_long (bs := bs ++ List.replicate 10 false) (by simp)
  rcases List.append_eq_append_iff.1 (decodeNode_ok hk) with ⟨q, hq, _⟩ | ⟨r, hr, _⟩
  · refine ⟨k, q, ?_, hq.symm⟩
    rintro rfl
    exact hnone k [] (by rw [hq, List.append_nil, List.append_nil])
  · exact absurd hr (hnone k r)

/-- A leaf's code in the numbering of a byte's bits (R115). -/
theorem leaf_bits (s : Byte) : (NodeCode.leaf s).bits = [false, true, s.getLsbD 7, s.getLsbD 6, s.getLsbD 5, s.getLsbD 4,
    s.getLsbD 3, s.getLsbD 2, s.getLsbD 1, s.getLsbD 0] := by
  rw [NodeCode.bits, msbBits_eight]
  simp [BitVec.getMsbD]

/-! ### The host's program lines -/

theorem hostCmd_eq {i : Instr} {w : Word} (h : encode i = .word w) : hostCmd i = [.write Reg.cmd.offset w] := by
  rw [hostCmd, h]

namespace State

/-- `ACK` while BUSY = 0 (R124, R32). -/
theorem run_hostAck {s : State} (hb : s.busy = false) (rest : List Event) :
    Sys2Proof.core.run 1 { s with events := hostAck ++ rest } =
      .next { s with events := rest, done := false, err := none, cmdOvr := false } := by
  have hw := write_step hb .status 0x26 rest
  rw [writeReg, statusWrite_eq] at hw
  refine run_one (hw.trans ?_)
  simp

/-- A `NODE` line while BUSY = 0 stores the entry its words write, at the index it names and nowhere else (R124, R38). -/
theorem run_nodeLine {s : State} (hb : s.busy = false) {i : BitVec 16} (hi : i.toNat < s.cfg.nodeCap) {link w : Word} {e : NodeEntry}
    (he : nodeOfWrite w link = e) (rest : List Event) :
    ∃ t : State, Sys2Proof.core.run 3 { s with events := [.write Reg.nodeAddr.offset (i.setWidth 32),
        .write Reg.nodeLink.offset link, .write Reg.nodeData.offset w] ++ rest } = .next t ∧
      t = { s with events := rest, nodes := t.nodes, tableValid := false, nodeAddr := i, nodeLink := link } ∧
      ∀ j, tableGet t.nodes j = if j = i.toNat then some e else tableGet s.nodes j :=
  ⟨_, node_line hb i link w rest hi, rfl, fun j => by rw [tableGet_put, he]⟩

theorem nodeOfWrite_branch (l r : BitVec 16) :
    nodeOfWrite 0x2 (r ++ l) = { kind := .branch, sym := 0, left := l, right := r } := by
  rw [nodeOfWrite, append_low, append_high]
  rfl

theorem nodeOfWrite_leaf (sym : Byte) :
    nodeOfWrite ((sym.setWidth 32 <<< 8) ||| 0x1) 0 = { kind := .leaf, sym := sym, left := 0, right := 0 } := by
  obtain ⟨hkind, hsym⟩ := leafWrite_fields sym
  rw [nodeOfWrite, hkind, hsym]
  rfl

theorem nodeOfWrite_eom : nodeOfWrite 0x0 0 = { kind := .eom, sym := 0, left := 0, right := 0 } := rfl

/-! ### The reads of `WAIT`, when what stands behind it in the schedule is the host's -/

section HostBehind

variable {rest : List Event} (h : ∀ x, rest.head? = some x → x ∉ ([.take, .reset, .core, .tick, .pause] : List Event))
include h

/-- However often STATUS is read first, `WAIT` comes to the core's turn (R124, I17). -/
theorem run_hostWait {s : State} (hb : s.busy = true) (polls : Nat) :
    ∃ n, Sys2Proof.core.run n { s with events := hostWait polls ++ rest } =
      .next { s with events := .core :: .wait :: rest, reads := s.reads ++ List.replicate polls s.statusWord } := by
  cases polls with
  | zero => exact ⟨0, by simp [hostWait, Host.Core.run]⟩
  | succ n =>
    refine ⟨2 * n + 1, (run_add (2 * n) 1 (run_polls s hb rest n s.reads)).trans (run_one ?_)⟩
    have hw := step_wait_other (s := { s with reads := s.reads ++ List.replicate n s.statusWord }) hb h
    rw [List.replicate_succ', ← List.append_assoc]
    exact hw

/-- A command that ends is over with the first read after its turn (R124). -/
theorem run_hostRun {s u : State} {i : Instr} {w : Word} (polls : Nat) (hb : s.busy = false) (he : s.err = none)
    (hw : encode i = .word w)
    (hx : exec i { s.accept w with
      events := .wait :: rest
      reads := s.reads ++ List.replicate polls (s.accept w).statusWord } = .next u)
    (hu : u.seq = .idle) :
    ∃ n, Sys2Proof.core.run n { s with events := hostRun i polls ++ rest } =
      .next { u with events := rest, reads := u.reads ++ [u.statusWord] } := by
  have hd := decodeWord_of_encode hw
  obtain ⟨h1, h2, h3⟩ := decodeWord_isCommand hd
  have hev : u.events = .wait :: rest := (quiet_exec h1 h2 h3 hx).host.events
  have haccept := write_step hb .cmd w (hostWait polls ++ rest)
  rw [writeReg, writeCmd_accepted he] at haccept
  obtain ⟨n, hpolls⟩ := run_hostWait h (s := s.accept w) rfl polls
  have hcore : step { s.accept w with
      events := .core :: .wait :: rest
      reads := s.reads ++ List.replicate polls (s.accept w).statusWord } = .next u :=
    (coreTurn_command rfl hd).trans hx
  have hlast : step u = .next { u with events := rest, reads := u.reads ++ [u.statusWord] } := by
    have hidle : u.busy = false := by simp [busy, hu]
    have hwait := step_wait u rest
    rwa [hidle, if_neg Bool.false_ne_true, ← hev] at hwait
  refine ⟨n + 2 + 1, ?_⟩
  rw [hostRun, hostCmd_eq hw, List.append_assoc, List.singleton_append, run_succ _ haccept]
  exact (run_add n 2 hpolls).trans ((run_succ 1 hcore).trans (run_one hlast))

/-- A `WAIT` for a held command: each read comes with the core's turn, which finds the command held, and the next (R124, R288). -/
theorem run_wait_held {s : State} {c : Cursor} (hs : s.seq = .held c) (n : Nat) : ∀ r : List Word,
    ∃ ev : List Event, Sys2Proof.core.run n { s with events := .wait :: rest, reads := r } =
        .next { s with events := ev, reads := r ++ List.replicate ((n + 1) / 2) s.statusWord } ∧
      (ev = .wait :: rest ∨ ev = .core :: .wait :: rest) := by
  have hread : ∀ r : List Word, step { s with events := .wait :: rest, reads := r } =
      .next { s with events := .core :: .wait :: rest, reads := r ++ [s.statusWord] } := fun r =>
    step_wait_other (s := { s with reads := r }) (by simp [busy, hs]) h
  have hcore : ∀ r : List Word, step { s with events := .core :: .wait :: rest, reads := r } =
      .next { s with events := .wait :: rest, reads := r } := fun r =>
    coreTurn_held (s := { s with events := .wait :: rest, reads := r }) hs
  induction n using Nat.twoStepInduction with
  | zero => exact fun r => ⟨_, by simp [Host.Core.run], .inl rfl⟩
  | one => exact fun r => ⟨_, run_one (hread r), .inr rfl⟩
  | more n ih _ =>
    intro r
    obtain ⟨ev, hrun, hev⟩ := ih (r ++ [s.statusWord])
    refine ⟨ev, ?_, hev⟩
    rw [run_succ _ (hread r), run_succ _ (hcore _), hrun, show (n + 2 + 1) / 2 = (n + 1) / 2 + 1 by omega, List.replicate_succ,
      List.append_assoc, List.singleton_append]

end HostBehind

end State

open State

/-! ### The statements -/

/-- Settles O3: both layers' decoders take exactly what the encoder writes. -/
theorem decodeAgreesWithEncode : Obligations.DecodeAgreesWithEncode := by
  intro c i
  cases c with
  | word w => exact decodeWord_eq_ok_iff
  | bits bs => rw [decode_bits_eq_ok_iff, encode_eq_bits_iff]; simp only [decodeNode_eq_ok_nil_iff]

/-- Settles O4: a code is read back whatever follows it, so no code and no description is cut in two ways. -/
theorem nodeCodesArePrefixFree : Obligations.NodeCodesArePrefixFree := by
  refine ⟨fun k => ?_, fun _ _ => nodeCode_eq_of_bits_isPrefix, desc_unique, fun _ _ => exists_completion_of_decodeNode_error⟩
  cases k with
  | branch => exact .inl ⟨rfl, rfl⟩
  | eom => exact .inr (.inl ⟨rfl, rfl⟩)
  | leaf s => exact .inr (.inr ⟨rfl, rfl⟩)

/-- Settles O60: a read of `WAIT` is one step, and the three runs repeat it with the turns that stand between. -/
theorem waitReadsUntilIdle : Obligations.WaitReadsUntilIdle := by
  refine ⟨fun s rest => ⟨fun hb => ?_, fun x more hb hr hx => ?_, step_wait_other⟩,
    fun s u i w polls rest hb he hw h hx hu => run_hostRun h polls hb he hw hx hu, fun s c rest n hs h => ?_⟩
  · simp [step_wait, hb]
  · rw [step_wait, if_pos hb, hr, waitAgain, if_pos ((passes_iff x).2 hx)]
  · obtain ⟨ev, hrun, hev⟩ := run_wait_held h hs n s.reads
    exact ⟨_, hrun, rfl, hev⟩

/-- Settles O1: the rows of the map are the words the encoder writes, one for each command and none for a node code. -/
theorem opcodeMapIsExact : Obligations.OpcodeMapIsExact := by
  intro w i
  rw [decodeWord_eq_ok_iff]
  cases i <;> simp [encode] <;> exact eq_comm

/-- Settles O2: a node code's bits decode to it, and a description is the codes of its nodes. -/
theorem nodeCodesDecode : Obligations.NodeCodesDecode := by
  refine ⟨rfl, rfl, fun s => ?_, fun e he => if_pos he, fun l r => rfl, rfl, fun s => leaf_bits s⟩
  rw [← leaf_bits]
  exact decode_bits_eq_ok_iff.2 ⟨.leaf s, rfl, decodeNode_eq_ok_nil_iff.2 rfl⟩

/-- Settles O59: `ACK` is one STATUS write, and a `NODE` line three writes that store the entry its words hold. -/
theorem hostLinesExpand : Obligations.HostLinesExpand := by
  refine ⟨fun i w hw => hostCmd_eq hw, fun i polls => rfl,
    fun s rest hb => ⟨run_hostAck hb rest, fun i hi => ⟨fun l r => ?_, ?_, ?_⟩⟩⟩
  · rw [hostNodeBranch, links_append]
    exact run_nodeLine hb hi (nodeOfWrite_branch l r) rest
  · exact fun sym => run_nodeLine hb hi (nodeOfWrite_leaf sym) rest
  · exact run_nodeLine hb hi nodeOfWrite_eom rest

end Sys2Proof.Machine
end

section
/-!
PROOFS. The statements of spec/40_tree_encoder.md: the walk (R140), TREE_ENC (R141 to R143), the round trip of a tree (R144), and what
the encoding commands leave unchanged (R141, R180, R184, R224).
-/

namespace Sys2Proof.Machine

/-! ### One visit of the walk -/

section Visit

variable {cfg : Config} {m : Memory} {v : Visit} {e : NodeEntry}

theorem walkVisit_badNode (hu : usableNode cfg.nodeCap m v.index = none) (dup : Bool) (rest : List Visit) (w : WalkState) :
    walkVisit cfg m dup v rest w = .error .badNode := by
  simp only [walkVisit, hu]

theorem walkVisit_depth (hu : usableNode cfg.nodeCap m v.index = some e) (hd : cfg.depthCap < v.depth) (dup : Bool)
    (rest : List Visit) (w : WalkState) : walkVisit cfg m dup v rest w = .error .depth := by
  simp only [walkVisit, hu, if_pos hd]

variable {w : WalkState} (hu : usableNode cfg.nodeCap m v.index = some e) (hd : v.depth ≤ cfg.depthCap)
include hu hd

theorem walkVisit_shared (hn : cfg.nodeCap < w.visits + 1) (dup : Bool) (rest : List Visit) :
    walkVisit cfg m dup v rest w = .error .shared := by
  simp only [walkVisit, hu, if_neg hd.not_gt, if_pos hn]

theorem walkVisit_branch (hn : w.visits + 1 ≤ cfg.nodeCap) (hk : e.kind = .branch) (dup : Bool) (rest : List Visit) :
    walkVisit cfg m dup v rest w = .ok
      { stack := { index := e.left, depth := v.depth + 1, path := v.path ++ [false] } ::
          { index := e.right, depth := v.depth + 1, path := v.path ++ [true] } :: rest
        visits := w.visits + 1, seen := w.seen, order := w.order ++ [v] } := by
  simp only [walkVisit, hu, if_neg hd.not_gt, if_neg hn.not_gt, if_pos hk]

/-- Where keys are not looked for, a leaf is only recorded. -/
theorem walkVisit_leaf (hn : w.visits + 1 ≤ cfg.nodeCap) (hk : e.kind ≠ .branch) (rest : List Visit) :
    walkVisit cfg m false v rest w = .ok
      { stack := rest, visits := w.visits + 1, seen := w.seen, order := w.order ++ [v] } := by
  simp [walkVisit, hu, hd.not_gt, hn.not_gt, hk]

theorem walkVisit_dupLeaf (hn : w.visits + 1 ≤ cfg.nodeCap) (hk : e.kind ≠ .branch) (hs : e.key.toNat ∈ w.seen)
    (rest : List Visit) : walkVisit cfg m true v rest w = .error .dupLeaf := by
  simp [walkVisit, hu, hd.not_gt, hn.not_gt, hk, hs]

theorem walkVisit_newLeaf (hn : w.visits + 1 ≤ cfg.nodeCap) (hk : e.kind ≠ .branch) (hs : e.key.toNat ∉ w.seen)
    (rest : List Visit) : walkVisit cfg m true v rest w = .ok
      { stack := rest, visits := w.visits + 1, seen := e.key.toNat :: w.seen, order := w.order ++ [v] } := by
  simp [walkVisit, hu, hd.not_gt, hn.not_gt, hk, hs]

end Visit

namespace State

section Walk

variable {s : State} {dup : Bool} {w : WalkState} {v : Visit} {rest : List Visit} (hw : w.stack = v :: rest)
include hw

theorem walkFrom_error {e : ErrorCode} (h : walkVisit s.cfg s.nodes dup v rest w = .error e) : s.walkFrom dup w = .error e := by
  rw [walkFrom_step s dup hw, h]

theorem walkFrom_ok {w' : WalkState} (h : walkVisit s.cfg s.nodes dup v rest w = .ok w') :
    s.walkFrom dup w = s.walkFrom dup w' := by
  rw [walkFrom_step s dup hw, h]

end Walk

/-- An accepted walk visits a tree that fits, so its visits are at most NODE_CAP (R140). -/
theorem walk_length_le {s : State} {dup : Bool} {order : List Visit} (h : s.walk dup = .ok order) :
    order.length ≤ s.cfg.nodeCap := by
  obtain ⟨t, ht, hf, hk⟩ := walk_ok_tree h
  rw [walk_tree dup ht hf hk] at h
  cases h
  rw [length_treeVisits t _ _ _ ht]
  exact hf.2

/-- A walk that does not look for repeated keys raises one of three errors (R140, R141). -/
theorem walk_false_error {s : State} {e : ErrorCode} (h : s.walk false = .error e) : e = .badNode ∨ e = .depth ∨ e = .shared := by
  rcases walkLoop_error _ _ h with h | h | h | ⟨-, h⟩
  · exact .inl h
  · exact .inr (.inl h)
  · exact .inr (.inr h)
  · cases h

/-! ### How the encoding commands end -/

/-- TREE_ENC ends in an error of its walk, or in success with bits written (R141). -/
theorem exec_treeEnc_cases {s t : State} (h : exec .treeEnc s = .next t) :
    (∃ e, s.walk false = .error e ∧ t = s.raise e) ∨
      ∃ order, s.walk false = .ok order ∧ t = (s.bitWrites (descBits s.nodes order)).succeed := by
  simp only [exec, execTreeEnc, treeEncAfter] at h
  cases hw : s.walk false with
  | error e => rw [hw] at h; cases h; exact .inl ⟨e, rfl, rfl⟩
  | ok order => rw [hw] at h; cases h; exact .inr ⟨order, rfl, rfl⟩

/-- SYM_ENC ends in an error of its look-up, or in success with the path written (R184). -/
theorem exec_symEnc_cases {s t : State} (h : exec .symEnc s = .next t) :
    (∃ e, s.symEncPath = .error e ∧ t = s.raise e) ∨ ∃ p, s.symEncPath = .ok p ∧ t = (s.bitWrites p).succeed := by
  simp only [exec, execSymEnc] at h
  cases hp : s.symEncPath with
  | error e => rw [hp] at h; cases h; exact .inl ⟨e, rfl, rfl⟩
  | ok p => rw [hp] at h; cases h; exact .inr ⟨p, rfl, rfl⟩

/-- TABLE_BUILD ends in an error of its walk with the table cleared, or in success with the table filled (R180). -/
theorem exec_tableBuild_cases {s t : State} (h : exec .tableBuild s = .next t) :
    (∃ e, s.clearTable.walk true = .error e ∧ t = s.clearTable.raise e) ∨
      ∃ order, s.clearTable.walk true = .ok order ∧ t = (s.clearTable.fillTable order).succeed := by
  simp only [exec, execTableBuild, tableBuildAfter] at h
  cases hw : s.clearTable.walk true with
  | error e => rw [hw] at h; cases h; exact .inl ⟨e, rfl, rfl⟩
  | ok order => rw [hw] at h; cases h; exact .inr ⟨order, rfl, rfl⟩

/-- COMPRESS ends in an error of its walk, in E_NO_EOM, or as its input loop does after the description (R224). -/
theorem exec_compress_cases {s t : State} (h : exec .compress s = .next t) :
    (∃ e, s.clearTable.walk true = .error e ∧ t = s.clearTable.raise e) ∨
      ∃ order, s.clearTable.walk true = .ok order ∧
        ((tableGet (codesOf s.nodes order) 256 = none ∧ t = (s.clearTable.fillTable order).raise .noEom) ∨
          ((tableGet (codesOf s.nodes order) 256).isSome = true ∧
            t = ((s.clearTable.fillTable order).bitWrites (descBits s.nodes order)).payloadRun)) := by
  simp only [exec, execCompress, compressAfter] at h
  cases hw : s.clearTable.walk true with
  | error e => rw [hw] at h; cases h; exact .inl ⟨e, rfl, rfl⟩
  | ok order =>
    simp only [hw] at h
    refine .inr ⟨order, rfl, ?_⟩
    cases hc : tableGet (codesOf s.nodes order) 256 with
    | none =>
      have hc' : tableGet (s.clearTable.fillTable order).codes 256 = none := hc
      rw [hc'] at h; cases h; exact .inl ⟨rfl, rfl⟩
    | some x =>
      have hc' : tableGet (s.clearTable.fillTable order).codes 256 = some x := hc
      rw [hc'] at h; cases h; exact .inr ⟨rfl, rfl⟩

/-! ### What the encoding commands leave -/

/-- An error changes ERR, DONE and BUSY only (R250). -/
theorem raise_keeps (s : State) (e : ErrorCode) :
    s.SameTree (s.raise e) ∧ s.SameTable (s.raise e) ∧ s.SameResult (s.raise e) ∧ s.SameSource (s.raise e) ∧
      (s.raise e).inq = s.inq :=
  ⟨⟨rfl, rfl, rfl⟩, ⟨rfl, rfl⟩, ⟨rfl, rfl⟩, ⟨rfl, rfl, rfl⟩, rfl⟩

/-- Written bits change the sink and OUT only (R79). -/
theorem bitWrites_keeps (s : State) (bs : Bits) :
    s.SameTree (s.bitWrites bs) ∧ s.SameTable (s.bitWrites bs) ∧ s.SameResult (s.bitWrites bs) ∧ s.SameSource (s.bitWrites bs) ∧
      (s.bitWrites bs).inq = s.inq := by
  rw [bitWrites_frame]
  exact ⟨⟨rfl, rfl, rfl⟩, ⟨rfl, rfl⟩, ⟨rfl, rfl⟩, ⟨rfl, rfl, rfl⟩, rfl⟩

/-- So does a command that writes bits and ends in success. -/
theorem bitWrites_succeed_keeps (s : State) (bs : Bits) :
    s.SameTree (s.bitWrites bs).succeed ∧ s.SameTable (s.bitWrites bs).succeed ∧ s.SameResult (s.bitWrites bs).succeed ∧
      s.SameSource (s.bitWrites bs).succeed ∧ (s.bitWrites bs).succeed.inq = s.inq := by
  obtain ⟨⟨h1, h2, h3⟩, ⟨h4, h5⟩, ⟨h6, h7⟩, ⟨h8, h9, h10⟩, h11⟩ := s.bitWrites_keeps bs
  exact ⟨⟨h1, h2, h3⟩, ⟨h4, h5⟩, ⟨h6, h7⟩, ⟨h8, h9, h10⟩, h11⟩

/-- The input loop of COMPRESS, entered with the table filled and bits written, leaves the tree, the result and the source
(R224). -/
theorem payloadRun_keeps (s : State) (order : List Visit) (bs : Bits) :
    s.SameTree ((s.clearTable.fillTable order).bitWrites bs).payloadRun ∧
      s.SameResult ((s.clearTable.fillTable order).bitWrites bs).payloadRun ∧
      s.SameSource ((s.clearTable.fillTable order).bitWrites bs).payloadRun := by
  obtain ⟨ht, -, hr, hs, -⟩ := (s.clearTable.fillTable order).bitWrites_keeps bs
  obtain ⟨ht', -, hr', hs'⟩ := payloadLoop_frame ((s.clearTable.fillTable order).bitWrites bs).inq
    ((s.clearTable.fillTable order).bitWrites bs)
  exact ⟨SameTree.trans ⟨ht.1, ht.2, ht.3⟩ ht', SameResult.trans ⟨hr.1, hr.2⟩ hr', SameSource.trans ⟨hs.1, hs.2, hs.3⟩ hs'⟩

/-! ### The bytes of a description, read back -/

/-- From a byte-aligned sink, bits written and flushed are the first bits of the bytes appended to OUT (R76, R80). -/
theorem flushed_bytes {s : State} (h0 : s.ocnt = 0) (hc : s.SinkClear) (bs : Bits) :
    ∃ (bytes : List Byte) (pad : Bits), (s.bitWrites bs).succeed.sinkFlush.out = s.out ++ bytes ∧
      streamBits bytes = bs ++ pad := by
  obtain ⟨bytes, hout⟩ := (((s.quiet_bitWrites bs).trans (quiet_succeed _)).trans (quiet_sinkFlush _)).out
  have haligned : s.sinkBits = streamBits s.out := by simp [sinkBits, h0]
  have hsink : (s.bitWrites bs).succeed.sinkBits = streamBits s.out ++ bs := haligned ▸ s.sinkBits_bitWrites bs
  have hclear : (s.bitWrites bs).succeed.SinkClear := bitWrites_sinkClear hc bs
  have hstream := streamBits_sinkFlush hclear
  rw [hout, hsink, List.append_assoc] at hstream
  exact ⟨bytes, _, hout, streamBits_inj_append hstream⟩

/-- TREE_DEC of bytes that begin with the description of a tree that fits rebuilds the tree, numbered in pre-order (R160, R161). -/
theorem exec_treeDec_bytes {w : State} {t : Tree} {bytes : List Byte} {pad : Bits} {more : List InItem} (hc : w.cfg.wf = true)
    (hf : w.fits t) (h0 : w.icnt = 0) (hq : w.inq = bytes.map .byte ++ more) (hb : streamBits bytes = t.desc ++ pad)
    (hl : w.limitAllows t.size) :
    ∃ x : State, exec .treeDec w = .next x ∧ x.seq = .idle ∧ x.done = true ∧ x.err = w.err ∧ x.root = 0 ∧
      x.treeAtRoot t = true ∧ numbered x.nodes t 0 := by
  have hsource : w.sourceBits = t.desc ++ (pad ++ itemBits more) := by
    rw [sourceBits_empty h0, hq, itemBits_bytes, hb, List.append_assoc]
  refine ⟨_, exec_treeDec_tree hf (by simp [h0]) hl hsource, rfl, rfl, ?_, rfl, ?_,
    numbered_placeTree t [] .root 0 (by simp [Slot.target])⟩
  · simp only; rw [afterBits_frame]; rfl
  · simp only [treeAtRoot]
    rw [afterBits_frame]
    exact denotes_placeTree (nodeCap_of_wf hc).1 t hf.2

end State

open State

/-! ### The statements -/

/-- Settles O47: the bytes hold the description and its padding, and TREE_DEC reads back the tree of a description. -/
theorem treeRoundTrip : Obligations.TreeRoundTrip := by
  intro s t hcfg ht hf h0 hc
  obtain ⟨bytes, pad, hout, hstream⟩ := flushed_bytes h0 hc t.desc
  refine ⟨_, _, bytes, exec_treeEnc_tree ht hf, exec_flush _, hout, by simp, fun w more hw hi hq hl => ?_⟩
  exact exec_treeDec_bytes (hw ▸ hcfg) (by rw [fits, hw]; exact hf) hi hq hstream hl

/-- Settles O30: a walk goes visit by visit, and each clause is one branch of the visit. -/
theorem walkChecksInOrder : Obligations.WalkChecksInOrder := by
  refine ⟨fun m cap i => usableNode_none, fun s dup => ⟨rfl, fun order => walk_length_le⟩, fun s dup w => walkFrom_nil s dup,
    fun s dup w v rest hw => ⟨fun hu => walkFrom_error hw (walkVisit_badNode hu ..), fun e hu =>
      ⟨fun hd => walkFrom_error hw (walkVisit_depth hu hd ..), fun hd =>
        ⟨fun hn => walkFrom_error hw (walkVisit_shared hu hd hn ..), fun hn => ⟨fun hk => ?_, ?_, ?_, ?_⟩⟩⟩⟩⟩
  · exact walkFrom_ok hw (walkVisit_branch hu hd hn hk ..)
  · rintro hk rfl
    exact walkFrom_ok hw (walkVisit_leaf hu hd hn hk ..)
  · rintro hk rfl hs
    exact walkFrom_error hw (walkVisit_dupLeaf hu hd hn hk hs ..)
  · rintro hk rfl hs
    exact walkFrom_ok hw (walkVisit_newLeaf hu hd hn hk hs ..)

/-- Settles O31: TREE_ENC writes the bits of the description, and their number is the size. -/
theorem treeEncWritesDescription : Obligations.TreeEncWritesDescription := by
  refine ⟨rfl, fun s t ht hf => ⟨_, exec_treeEnc_tree ht hf, ?_, sinkBits_bitWrites s t.desc,
    fun hc => bitWrites_sinkClear hc t.desc⟩, fun t => ⟨t.length_desc, (size_counts t []).2⟩, fun _ _ => rfl, fun _ => rfl, rfl⟩
  rw [← t.length_desc]
  exact bitWrites_succeed s t.desc

/-- Settles O32: the walk is accepted exactly when a tree that fits stands at ROOT. -/
theorem treeEncSucceedsOrLeavesNothing : Obligations.TreeEncSucceedsOrLeavesNothing := by
  intro s
  cases hw : s.walk false with
  | ok order =>
    obtain ⟨t, ht, hf, -⟩ := walk_ok_tree hw
    exact .inl ⟨t, ht, hf, fun t' ht' => denotes_unique ht' ht, _, exec_treeEnc_tree ht hf, rfl, rfl, by simp⟩
  | error e =>
    have hnone : ¬ ∃ t, s.treeAtRoot t = true ∧ s.fits t := by
      rintro ⟨t, ht, hf⟩
      rw [walk_tree false ht hf (by simp)] at hw
      cases hw
    exact .inr ⟨hnone, e, walk_false_error hw, by simp only [exec, execTreeEnc, hw, treeEncAfter]; rfl⟩

/-- Settles O51: however a command ends, all it has written is the sink, OUT, the table and how it ended; COMPRESS has taken IN
items besides. -/
theorem encoderFrames : Obligations.EncoderFrames := by
  refine fun s t => ⟨fun h => ?_, fun h => ?_, fun h => ?_, fun h => ?_⟩
  · rcases exec_treeEnc_cases h with ⟨e, -, rfl⟩ | ⟨order, -, rfl⟩
    · exact s.raise_keeps e
    · exact s.bitWrites_succeed_keeps _
  · rcases exec_symEnc_cases h with ⟨e, -, rfl⟩ | ⟨p, -, rfl⟩
    · exact s.raise_keeps e
    · exact s.bitWrites_succeed_keeps p
  · rcases exec_tableBuild_cases h with ⟨e, -, rfl⟩ | ⟨order, -, rfl⟩ <;>
      exact ⟨⟨rfl, rfl, rfl⟩, ⟨rfl, rfl⟩, ⟨rfl, rfl, rfl⟩, ⟨rfl, rfl, rfl⟩, rfl, rfl⟩
  · rcases exec_compress_cases h with ⟨e, -, rfl⟩ | ⟨order, -, ⟨-, rfl⟩ | ⟨-, rfl⟩⟩
    · exact ⟨⟨rfl, rfl, rfl⟩, ⟨rfl, rfl⟩, ⟨rfl, rfl, rfl⟩⟩
    · exact ⟨⟨rfl, rfl, rfl⟩, ⟨rfl, rfl⟩, ⟨rfl, rfl, rfl⟩⟩
    · exact s.payloadRun_keeps order _

end Sys2Proof.Machine
end

section
/-!
PROOFS. The statements of spec/41_tree_decoder.md: the node codes as instructions (R160), TREE_DEC of a whole, a cut and a too large
description (R160 to R165), what a failed TREE_DEC leaves (R162), and what the decoding commands leave unchanged (R160, R200, R225).
-/

namespace Sys2Proof.Machine

/-! ### The entries around a placed node -/

section Place

variable {m : Memory} {n : Nat} (k : NodeCode)

theorem tableGet_place_self {slot : Slot} (hs : slot ≠ .rightOf n) :
    tableGet (place m slot n k) n = some (nodeOfCode n k) := by
  rw [tableGet_place _ _ _ _ _ (State.target_ne hs), if_pos rfl]

/-- The parent of a right child is linked to it (R160). -/
theorem tableGet_place_parent {j : Nat} {e : NodeEntry} (hj : Slot.rightOf j ≠ .rightOf n) (he : tableGet m j = some e) :
    tableGet (place m (.rightOf j) n k) j = some { e with right := BitVec.ofNat 16 n } := by
  have hne : j ≠ n := fun h => hj (congrArg Slot.rightOf h)
  rw [tableGet_place _ _ _ _ _ (State.target_ne hj), if_neg hne, Slot.target, if_pos rfl, he]
  rfl

theorem tableGet_place_other {slot : Slot} {i : Nat} (hs : slot ≠ .rightOf n) (hi : i ≠ n) (hslot : slot ≠ .rightOf i) :
    tableGet (place m slot n k) i = tableGet m i := by
  rw [tableGet_place _ _ _ _ _ (State.target_ne hs), if_neg hi, if_neg (State.target_ne hslot)]

end Place

namespace State

/-! ### Node codes as instructions -/

/-- A node code's instruction is the rest of R160's iteration for that code. -/
theorem exec_toInstr (k : NodeCode) (s : State) : exec k.toInstr s =
    match s.placeNode k with
    | some t => .next t
    | none => .fault .cursorUndefined := by
  cases k <;> rfl

/-- With no tree description being read, or no hole open, there is no iteration to carry on (R56, I12). -/
theorem placeNode_none (k : NodeCode) {s : State} (h : ∀ composite c, s.seq = .running (.treeDec composite c) → c.holes = []) :
    s.placeNode k = none := by
  unfold placeNode
  split
  · next composite c hs => rw [h composite c hs]
  · rfl

theorem afterBits_events (n : Nat) (s : State) (evs : List Event) :
    { s with events := evs }.afterBits n = { s.afterBits n with events := evs } := by
  have h := afterBits_graft n s { s with events := evs } rfl
  rw [afterBits_frame n s]
  exact h

/-- An iteration of the tree decoder carries out the node code at the head of the source (R116, R160). -/
theorem coreTick_nodeCode {s : State} {composite : Bool} {n : Nat} {h : Hole} {holes : List Hole} {k : NodeCode} {more : Bits}
    (hs : s.seq = .running (.treeDec composite { n := n, holes := h :: holes, code := [] })) (hn : n < s.cfg.nodeCap)
    (hd : h.depth ≤ s.cfg.depthCap) (h8 : s.icnt.toNat ≤ 8) (hl : s.limitAllows k.bits.length) (hb : s.sourceBits = k.bits ++ more) :
    s.coreTick = exec k.toInstr (s.afterBits k.bits.length) := by
  have hread : readNode n h.depth 10 [] s = .code k (s.afterBits k.bits.length) :=
    readNode_code k more k.bits [] s 10 rfl (bits_ne_nil k) (length_bits_le k) (fun _ => firstBitCheck_none.2 ⟨hn, hd⟩) h8 hl hb
  have hcommand : s.fetchCommand = none := by simp [fetchCommand, hs]
  simp only [coreTick, hcommand, fetchCode_code hs hread]

/-! ### A description that does not fit -/

/-- TREE_DEC of the description of a tree that does not fit ends in E_NODE_CAP or E_DEPTH, with that cause (R160). -/
theorem exec_treeDec_unfit {s : State} {t : Tree} {rest : Bits} (hf : ¬ s.fits t) (h8 : s.icnt.toNat ≤ 8)
    (hl : s.limitAllows t.size) (hb : s.sourceBits = t.desc ++ rest) :
    ∃ (e : ErrorCode) (u : State), exec .treeDec s = .next (u.failTree e) ∧ u.root = 0 ∧ u.tableValid = false ∧
      ((e = .nodeCap ∧ s.cfg.nodeCap < t.nodeCount) ∨ (e = .depth ∧ s.cfg.depthCap < t.height)) := by
  have hbig : s.cfg.nodeCap < 0 + t.nodeCount ∨ s.cfg.depthCap < 0 + t.height := by
    simp only [fits] at hf
    omega
  obtain ⟨e, u, hloop, hcause⟩ := treeDecLoop_unfit t (s.beginTreeDec false) false 0 .root 0 [] (s.cfg.nodeCap + 2) rest rfl hbig h8
    (by rw [t.length_desc]; exact hl) hb
  have hkept := treeDecLoop_root (s.cfg.nodeCap + 2 + t.nodeCount) (s.beginTreeDec false)
  rw [hloop] at hkept
  have hbound : (s.beginTreeDec false).treeDecBound ≤ s.cfg.nodeCap + 2 + t.nodeCount :=
    Nat.le_trans (s.beginTreeDec false).treeDecBound_le (Nat.le_add_right _ _)
  refine ⟨e, u, ?_, hkept.1, hkept.2, by simpa using hcause⟩
  rw [exec, execTreeDec, treeDecRun_eq hbound, hloop, traverseRun_stop (noTraverse_of_idle rfl)]

/-! ### A memory without entries -/

theorem usableNode_nil (cap : Nat) (i : BitVec 16) : usableNode cap [] i = none := usableNode_none.2 (.inr (.inl rfl))

/-- A walk of a memory without entries fails at the root (R140, R162). -/
theorem walk_badNode_of_nil {s : State} (h : s.nodes = []) (dup : Bool) : s.walk dup = .error .badNode :=
  walkFrom_error rfl (walkVisit_badNode (by rw [h, usableNode_nil]) ..)

/-- SYM_DEC of a memory without entries fails at the root (R162, R201). -/
theorem exec_symDec_of_nil {s : State} (h : s.nodes = []) : exec .symDec s = .next (s.raise .badNode) := by
  have henter : s.enterTraverse false = s.raise .badNode := by simp only [enterTraverse, h, usableNode_nil]
  rw [exec, execSymDec, henter, traverseRun_stop (noTraverse_of_idle rfl)]

/-! ### What the decoding commands leave -/

/-- A command accepted with ERR = 0 that has not succeeded is held, or has ended in an error (R17). -/
theorem not_succeeded_cases {t : State} (hm : t.Moves) (h : ¬ t.Succeeded) : t.seq ≠ .idle ∨ t.err ≠ none := by
  by_contra hc
  simp only [ne_eq, not_or, not_not] at hc
  exact h ⟨hc.1, hm.done hc.1, hc.2⟩

/-- SYM_DEC enters its traversal at ROOT, and leaves what a traversal does (R200, R201). -/
theorem exec_symDec_frame {s t : State} (he : s.err = none) (h : exec .symDec s = .next t) : s.TraverseFrame t ∧ t.out = s.out := by
  cases h
  obtain ⟨htree, htable, hsink, hresult⟩ := s.enterTraverse_frame false
  have hrun := traverseRun_frame _ (moves_enterTraverse he false)
  refine ⟨⟨htree.trans hrun.tree, htable.trans hrun.table, hsink.trans hrun.sink, fun hn => hresult.trans (hrun.result hn)⟩, ?_⟩
  rcases enterTraverse_cases false s with hx | hx | ⟨e, -, -, hx⟩ <;> rw [hx]
  · exact traverseRun_out _ (by simp)
  · exact traverseRun_out _ (by simp)
  · refine traverseRun_out _ fun c i d hs => ?_
    simp only [setCursor_fields, Seq.running.injEq, Cursor.traverse.injEq] at hs
    exact hs.1.symm

theorem beginTreeDec_sameSink (s : State) (composite : Bool) : s.SameSink (s.beginTreeDec composite) := ⟨rfl, rfl, rfl⟩

theorem beginTreeDec_sameResult (s : State) (composite : Bool) : s.SameResult (s.beginTreeDec composite) := ⟨rfl, rfl⟩

/-- TREE_DEC and DECOMPRESS start with TABLE_VALID and ROOT cleared, and the tree decoder leaves both (R160, R225). -/
theorem beginTreeDec_run_frame {s : State} (he : s.err = none) (composite : Bool) :
    (s.beginTreeDec composite).TreeDecFrame (s.beginTreeDec composite).treeDecRun :=
  treeDecRun_frame _ (moves_running rfl he)

/-- TREE_DEC leaves OUT and the result, and an error of it leaves no entry (R160, R162). -/
theorem exec_treeDec_end {s t : State} (he : s.err = none) (h : exec .treeDec s = .next t) :
    (s.beginTreeDec false).TreeDecFrame t ∧ (s.beginTreeDec false).TreeEnd t := by
  cases h
  exact ⟨beginTreeDec_run_frame he false, treeDecRun_end _ he ⟨_, rfl⟩⟩

end State

open State

/-! ### The statements -/

/-- Settles O39: the tree decoder places the tree in pre-order and reads no bit behind its description. -/
theorem treeDecRebuildsTree : Obligations.TreeDecRebuildsTree := by
  refine ⟨rfl, fun s t rest hc hf h8 hl hb => ?_⟩
  have hexec := exec_treeDec_tree hf h8 hl hb
  rw [← t.length_desc] at hl ⊢
  obtain ⟨hsource, -, hafter⟩ := afterBits_spec t.desc h8 hl hb
  generalize s.afterBits t.desc.length = v at *
  refine ⟨_, hexec, ?_, numbered_placeTree t [] .root 0 (by simp [Slot.target]), placeTree_present t, ?_, hsource⟩
  · rw [hafter]
  · rw [treeAtRoot, hafter]
    exact denotes_placeTree (nodeCap_of_wf hc).1 t hf.2

/-- Settles O40: the source stops inside a node code, or the check of a node's first bit fails. -/
theorem treeDecErrors : Obligations.TreeDecErrors := by
  refine ⟨fun s t q hf h8 hq hne => ⟨fun he => ?_, fun hd => ?_⟩, fun s t rest hf h8 hl hb => ?_,
    fun s t i d b rest hi hbefore h8 hl hb => ⟨fun hn => ?_, fun hn hd => ?_⟩⟩
  · obtain ⟨v, hv⟩ := endsAfter_exhausted q h8 he
    exact ⟨v, hv, congrArg Host.Outcome.next (treeDecRun_ends false hf h8 hq hne he hv)⟩
  · obtain ⟨c, m, h⟩ := treeDecRun_dries false hf h8 hq hne hd
    exact ⟨m, c, congrArg Host.Outcome.next h⟩
  · obtain ⟨e, u, hx, hroot, hvalid, hcause⟩ := exec_treeDec_unfit hf h8 hl hb
    exact ⟨e, _, hx, rfl, rfl, rfl, rfl, rfl, hroot, hvalid, hcause⟩
  · exact congrArg Host.Outcome.next (treeDecRun_first false hi hbefore (if_pos hn) h8 hl hb)
  · have hcheck : firstBitCheck s.cfg i d = some .depth := by rw [firstBitCheck, if_neg hn.not_ge, if_pos hd]
    exact congrArg Host.Outcome.next (treeDecRun_first false hi hbefore hcheck h8 hl hb)

/-- Settles O41: an error of the tree decoder is raised with every entry cleared, and at a root without an entry nothing can start. -/
theorem failedTreeDecLeavesNoTree : Obligations.FailedTreeDecLeavesNoTree := by
  intro s u e he h hu
  obtain ⟨hframe, hend⟩ := exec_treeDec_end he h
  rcases hend.error with herr | ⟨e', hcause, herr, hnodes, hcount⟩
  · rw [herr] at hu
    cases hu
  · rw [herr] at hu
    cases hu
    refine ⟨hcause, fun i => by rw [hnodes]; rfl, hcount, hframe.root, hframe.valid, walk_badNode_of_nil hnodes,
      fun v hv => exec_symDec_of_nil (hv.trans hnodes), ?_⟩
    exact (quiet_exec (by simp) (by simp) (by simp) h).inq

/-- Settles O42: the instruction is the placing of its node code, which reads back entry by entry. -/
theorem nodeCodesPlaceEntries : Obligations.NodeCodesPlaceEntries := by
  refine ⟨⟨rfl, rfl, fun _ => rfl⟩, fun s composite n h holes code k hs hslot => ?_, fun s k hno => ?_⟩
  · refine ⟨_, by rw [exec_toInstr, placeNode_some k hs rfl], ?_, ?_, fun j e hj he => ?_,
      fun i hi hne => tableGet_place_other k hslot hi hne⟩
    · cases k <;> rfl
    · refine (tableGet_place_self k hslot).trans ?_
      cases k <;> rfl
    · rw [hj] at hslot ⊢
      exact tableGet_place_parent k hslot he
  · rw [exec_toInstr, placeNode_none k hno]

/-- Settles O52: a decoding command's moves are those of the tree decoder and of the traversals, which leave the rest alone. -/
theorem decoderFrames : Obligations.DecoderFrames := by
  refine fun s t he => ⟨fun h => ?_, fun h => ?_, fun h => ?_⟩
  · obtain ⟨hframe, hout⟩ := exec_symDec_frame he h
    have hm := (moves_exec he (by simp) (by simp) (by simp) h).1
    exact ⟨hframe.tree, hframe.table, hframe.sink, hout, fun hn => hframe.result (not_succeeded_cases hm hn)⟩
  · obtain ⟨hframe, hend⟩ := exec_treeDec_end he h
    exact ⟨(s.beginTreeDec_sameResult false).trans hend.result, (s.beginTreeDec_sameSink false).trans hframe.sink, hframe.codes,
      hend.out, hframe.valid, hframe.root⟩
  · have hm := (moves_exec he (by simp) (by simp) (by simp) h).1
    cases h
    have hframe := beginTreeDec_run_frame he true
    exact ⟨(s.beginTreeDec_sameSink true).trans hframe.sink, hframe.codes, hframe.valid, hframe.root,
      fun hn => (s.beginTreeDec_sameResult true).trans (hframe.result (not_succeeded_cases hm hn))⟩

/-- Settles O6: the reading of a node description ends with the last bit of the node code at the head of the source. -/
theorem stepRunsFetchedNodeCode : Obligations.StepRunsFetchedNodeCode := by
  intro s composite n h holes k more rest hs hn hd h8 hl hb
  obtain ⟨hsource, -, hafter⟩ := afterBits_spec k.bits h8 hl hb
  refine ⟨s.afterBits k.bits.length, ?_, ?_, hsource⟩
  · rw [← afterBits_events]
    exact coreTick_nodeCode (s := { s with events := rest }) hs hn hd h8 hl hb
  · exact hafter

end Sys2Proof.Machine
end

section
/-!
PROOFS. The statements of spec/42_symbol_encoder.md: TABLE_BUILD (R180 to R183), SYM_ENC (R184), and the paths of a built table, which
are prefix-free and lead SYM_DEC back to their keys (R185).
-/

namespace Sys2Proof.Machine

namespace State

/-! ### TABLE_BUILD -/

/-- Where no tree at ROOT fits and repeats no key, the walk raises one of its four errors (R140). -/
theorem walk_true_error {s : State} (h : ¬ ∃ t : Tree, s.treeAtRoot t = true ∧ s.fits t ∧ t.keys.Nodup) :
    ∃ e, (e = .badNode ∨ e = .depth ∨ e = .shared ∨ e = .dupLeaf) ∧ s.walk true = .error e := by
  cases hw : s.walk true with
  | ok order =>
    obtain ⟨t, ht, hf, hk⟩ := walk_ok_tree hw
    exact absurd ⟨t, ht, hf, hk rfl⟩ h
  | error e => exact ⟨e, by simpa using walkLoop_error _ _ hw, rfl⟩

/-- TABLE_BUILD whose walk fails leaves the table empty (R180). -/
theorem exec_tableBuild_error {s : State} {e : ErrorCode} (h : s.walk true = .error e) :
    exec .tableBuild s = .next (s.clearTable.raise e) := by
  have hw : s.clearTable.walk true = .error e := h
  simp only [exec, execTableBuild, hw, tableBuildAfter]

/-- TABLE_BUILD establishes the table invariant, whatever the table was before (R53, R180). -/
theorem tableInv_exec_tableBuild {s u : State} (h : exec .tableBuild s = .next u) : u.TableInv := by
  rcases exec_tableBuild_cases h with ⟨e, -, rfl⟩ | ⟨order, hw, rfl⟩
  · exact .invalid rfl (noCursor rfl)
  · exact ⟨fun _ => ⟨order, hw, rfl⟩, noCursor rfl⟩

/-- Where TABLE_BUILD leaves TABLE_VALID = 1, each entry holds the path of a leaf of the tree at ROOT (R53, R180). -/
theorem exec_tableBuild_valid {s u : State} (h : exec .tableBuild s = .next u) (hv : u.tableValid = true) :
    ∃ t : Tree, u.treeAtRoot t = true ∧ u.fits t ∧
      ∀ k e, tableGet u.codes k = some e → ∃ p, (k, p) ∈ t.leaves [] ∧ e = codeEntry p := by
  obtain ⟨t, hroot, hfit, -, hget⟩ := (tableInv_exec_tableBuild h).exists_tree hv
  refine ⟨t, hroot, hfit, fun k e he => ?_⟩
  obtain ⟨p, hp, rfl⟩ := Option.map_eq_some_iff.1 (hget k ▸ he)
  exact ⟨p, Tree.mem_leaves_of_pathOf hp, rfl⟩

/-! ### SYM_ENC -/

/-- An error of SYM_ENC's look-up ends it with no bit written (R184). -/
theorem exec_symEnc_error {s : State} {e : ErrorCode} (h : s.symEncPath = .error e) : exec .symEnc s = .next (s.raise e) := by
  simp only [exec, execSymEnc, h]

theorem exec_symEnc_path {s : State} {p : Bits} (h : s.symEncPath = .ok p) : exec .symEnc s = .next (s.bitWrites p).succeed := by
  simp only [exec, execSymEnc, h]

theorem symEncPath_noTable {s : State} (hv : s.tableValid = false) : s.symEncPath = .error .noTable := if_pos hv

theorem symEncPath_mismatch {s : State} (hv : s.tableValid = true)
    (h : 256 < s.symbol.toNat ∨ tableGet s.codes s.symbol.toNat = none) : s.symEncPath = .error .mismatch := by
  rcases h with h | h <;> simp [symEncPath, symbolKey, hv, h]

theorem symEncPath_present {s : State} {e : CodeEntry} (hv : s.tableValid = true) (hk : s.symbol.toNat ≤ 256)
    (h : tableGet s.codes s.symbol.toNat = some e) : s.symEncPath = .ok e.path := by
  simp [symEncPath, symbolKey, hv, hk.not_gt, h]

/-! ### SYM_DEC over a path -/

theorem depthCap_of_wf {c : Config} (h : c.wf = true) : c.depthCap ≤ 256 := by simp [Config.wf] at h; omega

/-- LEN holds the length of a path of at most 256 bits (R52). -/
theorem codeEntry_len {p : Bits} (h : p.length ≤ 256) : (codeEntry p).len.toNat = p.length := by
  simp only [codeEntry, BitVec.toNat_ofNat]
  omega

/-- So IN_BITS grows by LEN when such a path is read (R55). -/
theorem codeEntry_len_setWidth {p : Bits} (h : p.length ≤ 256) : (codeEntry p).len.setWidth 32 = BitVec.ofNat 32 p.length := by
  apply BitVec.eq_of_toNat_eq
  rw [BitVec.toNat_setWidth, codeEntry_len h, BitVec.toNat_ofNat]

/-- A symbol leaf at ROOT ends SYM_DEC before any bit is read (R202). -/
theorem exec_symDec_rootSymbol {v : State} {t : Tree} (ht : v.treeAtRoot t = true) (hleaf : t.isLeaf = true) :
    exec .symDec v = .next (v.raise .rootSymbol) := by
  rw [exec, execSymDec, enterTraverse_tree ht, if_pos hleaf, traverseRun_stop (noTraverse_of_idle rfl)]

/-- SYM_DEC over the path of a leaf of the tree at ROOT ends with the leaf's key, after exactly the path's bits (R200, R201). -/
theorem exec_symDec_leaf {v : State} {t : Tree} {k : Nat} {p rest : Bits} (ht : v.treeAtRoot t = true) (hleaf : t.isLeaf = false)
    (hf : t.height ≤ v.cfg.depthCap) (hp : (k, p) ∈ t.leaves []) (h8 : v.icnt.toNat ≤ 8) (hl : v.limitAllows p.length)
    (hb : v.sourceBits = p ++ rest) :
    ∃ x : State, exec .symDec v = .next x ∧ x.result.toNat = k ∧ x.resEom = decide (k = 256) ∧
      x.inBits = v.inBits + BitVec.ofNat 32 p.length ∧ x.sourceBits = rest ∧ x.done = true ∧ x.seq = .idle ∧ x.err = v.err := by
  have henter : v.enterTraverse false = v.setCursor (.traverse false v.root 0) := by simp [enterTraverse_tree ht, hleaf]
  obtain ⟨e, -, -, rfl, hrun⟩ := traverseRun_path t (v.setCursor (.traverse false v.root 0)) false v.root 0 k p rest rfl ht
    (by simpa using hf) hp h8 hl hb
  have hexec : exec .symDec v = .next ((v.afterBits p.length).endWithKey e.key) := by
    rw [exec, execSymDec, henter, hrun, afterBits_setCursor, leafReached, if_neg Bool.false_ne_true,
      traverseRun_stop (noTraverse_of_idle rfl)]
    rfl
  obtain ⟨hsource, -, hafter⟩ := afterBits_spec p h8 hl hb
  have hin : (v.afterBits p.length).inBits = v.inBits + BitVec.ofNat 32 p.length := by rw [hafter]
  have herr : (v.afterBits p.length).err = v.err := by rw [hafter]
  exact ⟨_, hexec, rfl, decide_eq_decide.2 BitVec.toNat_inj.symm, hin, hsource, rfl, rfl, herr⟩

end State

open State

/-! ### The statements -/

/-- Settles O36: a valid table holds the paths of a tree's leaves, which are prefix-free, and a leaf's path leads a traversal to it. -/
theorem pathsArePrefixFreeAndDecode : Obligations.PathsArePrefixFreeAndDecode := by
  intro s u hwf hexec hv
  obtain ⟨t, hroot, ⟨hheight, -⟩, hpresent⟩ := exec_tableBuild_valid hexec hv
  refine ⟨fun k k' e e' he he' hpre => ?_, fun k e v rest he hc hn hr h8 hl hb root hu => ?_⟩
  · obtain ⟨p, hp, rfl⟩ := hpresent k e he
    obtain ⟨p', hp', rfl⟩ := hpresent k' e' he'
    exact congrArg Prod.fst (t.leaves_prefix _ hp _ hp' hpre)
  · obtain ⟨p, hp, rfl⟩ := hpresent k e he
    have hcfg : u.cfg = s.cfg := (quiet_exec (by simp) (by simp) (by simp) hexec).host.cfg
    have hdepth : u.cfg.depthCap ≤ 256 := hcfg ▸ depthCap_of_wf hwf
    have hlength : p.length ≤ t.height := by simpa using t.leaves_length [] _ hp
    have hp256 : p.length ≤ 256 := hlength.trans (hheight.trans hdepth)
    have ht : v.treeAtRoot t = true := by rw [treeAtRoot, hc, hn, hr]; exact hroot
    obtain ⟨root', hu', hkind⟩ := denotes_kind ht
    obtain rfl : root' = root := Option.some.inj (hu'.symm.trans hu)
    refine ⟨fun hk => ?_, fun hk => exec_symDec_rootSymbol ht (hkind.1 hk)⟩
    rw [codeEntry_len_setWidth hp256]
    exact exec_symDec_leaf ht (by simpa [hkind] using hk) (hc ▸ hheight) hp h8 (codeEntry_len hp256 ▸ hl) hb

/-- Settles O33: the walk of the tree is accepted, and its visits fill the table. -/
theorem tableBuildRecordsPaths : Obligations.TableBuildRecordsPaths :=
  ⟨rfl, fun _ _ ht hf hk => ⟨_, exec_tableBuild_tree ht hf hk, rfl, codes_leaf ht hk⟩⟩

/-- Settles O34: the walk fails, with E_DUP_LEAF where a key is repeated. -/
theorem tableBuildErrors : Obligations.TableBuildErrors := by
  intro s hno
  obtain ⟨e, hcause, hw⟩ := walk_true_error hno
  refine ⟨e, hcause, exec_tableBuild_error hw, fun t ht hf => ?_⟩
  have hdup : s.walk true = .error .dupLeaf := walk_dup ht hf fun hk => hno ⟨t, ht, hf, hk⟩
  exact Except.error.inj (hw.symm.trans hdup)

/-- Settles O35: the look-up checks TABLE_VALID, then the key, and answers the path whose bits are written. -/
theorem symEncWritesPath : Obligations.SymEncWritesPath :=
  ⟨rfl, fun s => ⟨fun hv => exec_symEnc_error (symEncPath_noTable hv), fun hv hk => exec_symEnc_error (symEncPath_mismatch hv hk),
    fun e hv hk he => ⟨_, exec_symEnc_path (symEncPath_present hv hk he), bitWrites_succeed s e.path, sinkBits_bitWrites s e.path,
      fun hc => bitWrites_sinkClear hc e.path⟩⟩⟩

end Sys2Proof.Machine
end

section
/-!
PROOFS. The statements of spec/43_bitstream_decoder.md: SYM_DEC to a leaf (R200, R201), and its errors and its hold (R201, R202, R83).
-/

namespace Sys2Proof.Machine

namespace State

/-! ### The bits read -/

theorem afterBits_cfg (n : Nat) (s : State) : (s.afterBits n).cfg = s.cfg := by rw [afterBits_frame n s]; rfl

theorem afterBits_nodes (n : Nat) (s : State) : (s.afterBits n).nodes = s.nodes := by rw [afterBits_frame n s]; rfl

/-- Reading bits changes no entry. -/
theorem usableNode_afterBits (n : Nat) (s : State) (i : BitVec 16) :
    usableNode (s.afterBits n).cfg.nodeCap (s.afterBits n).nodes i = usableNode s.cfg.nodeCap s.nodes i := by
  rw [afterBits_cfg, afterBits_nodes]

/-- After the bits before it, a bit of the source is the next one BitRead returns (R77, R81). -/
theorem bitRead_afterBits {s : State} {q rest : Bits} {b : Bool} (h8 : s.icnt.toNat ≤ 8) (hl : s.limitAllows (q ++ [b]).length)
    (hb : s.sourceBits = (q ++ [b]) ++ rest) :
    (s.afterBits q.length).bitRead = .bit b (s.afterBits (q ++ [b]).length) := by
  have hl1 : s.limitAllows (q.length + 1) := by rwa [List.length_append] at hl
  have hb1 : s.sourceBits = q ++ (b :: rest) := by rw [hb, List.append_assoc]; rfl
  have hlq : s.limitAllows q.length := by simp only [limitAllows] at hl1 ⊢; omega
  obtain ⟨hsource, h8q, -⟩ := afterBits_spec q h8 hlq hb1
  have hnext : (s.afterBits q.length).inBits < (s.afterBits q.length).inLimit := by
    have hone := limitAllows_afterBits h8 hl1 hb1
    rw [BitVec.lt_def]
    simp only [limitAllows] at hone
    omega
  obtain ⟨t, ht, -⟩ := bitRead_bit h8q hnext hsource
  rw [ht, ← afterBits_add h8 hl hb]
  exact congrArg (BitResult.bit b) (afterBits_one ht).symm

/-! ### The checks of a traversal -/

theorem enterTraverse_badNode {s : State} (hu : usableNode s.cfg.nodeCap s.nodes s.root = none) (c : Bool) :
    s.enterTraverse c = s.raise .badNode := by
  simp only [enterTraverse, hu]

theorem enterTraverse_rootSymbol {s : State} {e : NodeEntry} (hu : usableNode s.cfg.nodeCap s.nodes s.root = some e)
    (hk : e.kind = .leaf) (c : Bool) : s.enterTraverse c = s.raise .rootSymbol := by
  simp only [enterTraverse, hu, if_pos hk]

theorem moveTo_badNode {s : State} {e : NodeEntry} {b : Bool}
    (hu : usableNode s.cfg.nodeCap s.nodes (if b then e.right else e.left) = none) (c : Bool) (d : Nat) :
    s.moveTo c e b d = s.raise .badNode := by
  simp only [moveTo, hu]

theorem moveTo_depth {s : State} {e e' : NodeEntry} {b : Bool} {d : Nat}
    (hu : usableNode s.cfg.nodeCap s.nodes (if b then e.right else e.left) = some e') (hd : s.cfg.depthCap < d + 1) (c : Bool) :
    s.moveTo c e b d = s.raise .depth := by
  simp only [moveTo, hu, if_pos hd]

/-! ### A traversal at a branch -/

section Branch

variable {s : State} {i : BitVec 16} {e : NodeEntry} (hu : usableNode s.cfg.nodeCap s.nodes i = some e) (hk : e.kind = .branch)

include hu hk

/-- A move that fails ends the traversal right after its bit (R201). -/
theorem traverseRun_moveTo_raise {b : Bool} {t : State} {c : Bool} {d : Nat} {x : ErrorCode} (hr : s.bitRead = .bit b t)
    (hm : (t.setCursor (.traverse c i d)).moveTo c e b d = t.raise x) :
    (s.setCursor (.traverse c i d)).traverseRun = t.raise x := by
  have htick : (s.setCursor (.traverse c i d)).traverseTick c i d = t.raise x := by
    simp only [traverseTick, setCursor_fields, hu, if_pos hk, bitRead_setCursor, hr, hm]
  rw [traverseRun_step rfl, htick, traverseRun_stop (noTraverse_of_idle rfl)]

/-- A source that returns no bit stops the traversal where it is (R201, R83). -/
theorem traverseRun_stopTraverse (hn : ∀ b t, s.bitRead ≠ .bit b t) (c : Bool) (d : Nat) :
    (s.setCursor (.traverse c i d)).traverseRun = s.stopTraverse c i d := by
  have htick : (s.setCursor (.traverse c i d)).traverseTick c i d = s.stopTraverse c i d := by
    simp only [traverseTick, setCursor_fields, hu, if_pos hk, bitRead_setCursor, stopTraverse]
    cases hr : s.bitRead with
    | bit b t => exact absurd hr (hn b t)
    | exhausted t => rfl
    | hold => rfl
  rw [traverseRun_step rfl, htick, traverseRun_stop (stopTraverse_noTraverse c i d s)]

end Branch

/-! ### SYM_DEC -/

/-- An error of the root's checks ends SYM_DEC (R201, R202). -/
theorem exec_symDec_raise {s : State} {x : ErrorCode} (h : s.enterTraverse false = s.raise x) :
    exec .symDec s = .next (s.raise x) := by
  rw [exec, execSymDec, h, traverseRun_stop (noTraverse_of_idle rfl)]

/-- SYM_DEC ends in the error of the move after the path's last bit, with the path's bits read (R201). -/
theorem exec_symDec_moveTo_raise {s : State} {q rest : Bits} {b : Bool} {k : BitVec 16} {e : NodeEntry} {x : ErrorCode}
    (hf : follow s.cfg.nodeCap s.nodes s.root q = some k) (hu : usableNode s.cfg.nodeCap s.nodes k = some e) (hk : e.kind = .branch)
    (hd : q.length ≤ s.cfg.depthCap) (h8 : s.icnt.toNat ≤ 8) (hl : s.limitAllows (q ++ [b]).length)
    (hb : s.sourceBits = (q ++ [b]) ++ rest)
    (hm : ∀ y, ((s.afterBits (q ++ [b]).length).setCursor y).moveTo false e b q.length =
      (s.afterBits (q ++ [b]).length).raise x) :
    exec .symDec s = .next ((s.afterBits (q ++ [b]).length).raise x) := by
  have hlq : s.limitAllows q.length := by
    simp only [limitAllows, List.length_append] at hl ⊢
    omega
  have hbq : s.sourceBits = q ++ (b :: rest) := by rw [hb, List.append_assoc]; rfl
  rw [exec_symDec_follow hf hu (fun _ => by simp [hk]) hd h8 hlq hbq,
    traverseRun_moveTo_raise ((usableNode_afterBits ..).trans hu) hk (bitRead_afterBits h8 hl hb) (hm _)]

/-- SYM_DEC stops at the branch at which the source returns no bit (R201, R83). -/
theorem exec_symDec_stops {s : State} {q : Bits} {j : BitVec 16} {e : NodeEntry}
    (hf : follow s.cfg.nodeCap s.nodes s.root q = some j) (hu : usableNode s.cfg.nodeCap s.nodes j = some e) (hk : e.kind = .branch)
    (hd : q.length ≤ s.cfg.depthCap) (h8 : s.icnt.toNat ≤ 8) (hs : s.stopsAfter q) :
    exec .symDec s = .next ((s.afterBits q.length).stopTraverse false j q.length) := by
  obtain ⟨hl, ⟨rest, hb⟩, hn⟩ := hs
  rw [exec_symDec_follow hf hu (fun _ => by simp [hk]) hd h8 hl hb,
    traverseRun_stopTraverse ((usableNode_afterBits ..).trans hu) hk hn]

end State

open State

/-! ### The statements -/

/-- Settles O37: the traversal comes to the leaf with the path's bits read, and ends with its key. -/
theorem symDecReachesLeaf : Obligations.SymDecReachesLeaf := by
  refine ⟨rfl, fun s p rest j e hf hu hk hp hd h8 hl hb => ?_⟩
  have hexec : exec .symDec s = .next ((s.afterBits p.length).endWithKey e.key) := by
    rw [exec_symDec_follow hf hu hp hd h8 hl hb, traverseRun_leaf ((usableNode_afterBits ..).trans hu) hk]
  obtain ⟨hsource, -, hafter⟩ := afterBits_spec p h8 hl hb
  refine ⟨_, hexec, ?_, hsource⟩
  generalize s.afterBits p.length = v at *
  rw [hafter]
  rfl

/-- Settles O38: the root's checks come before any bit, a move's checks after its bit, and at a branch the source may stop. -/
theorem symDecErrorsAndHold : Obligations.SymDecErrorsAndHold := by
  refine fun s => ⟨fun hu => exec_symDec_raise (enterTraverse_badNode hu false),
    fun e hu hk => exec_symDec_raise (enterTraverse_rootSymbol hu hk false), fun p rest j hp hf hd h8 hl hb => ?_,
    fun q j e hf hu hk hd h8 => ⟨fun hends => ?_, fun hdries => ?_⟩⟩
  · obtain ⟨q, b, k, e, rfl, hq, hu, hk, rfl⟩ := follow_last hp hf
    have hdq : q.length ≤ s.cfg.depthCap := by simpa using hd
    refine ⟨fun hbad => ?_, fun e' hu' hdeep => ?_⟩
    · exact exec_symDec_moveTo_raise hq hu hk hdq h8 hl hb fun _ => moveTo_badNode ((usableNode_afterBits ..).trans hbad) ..
    · have hpast : (s.afterBits (q ++ [b]).length).cfg.depthCap < q.length + 1 := by
        rw [List.length_append, List.length_singleton] at hdeep
        rw [afterBits_cfg]
        omega
      exact exec_symDec_moveTo_raise hq hu hk hdq h8 hl hb fun _ => moveTo_depth ((usableNode_afterBits ..).trans hu') hpast ..
  · obtain ⟨v, hv⟩ := endsAfter_exhausted q h8 hends
    refine ⟨v, hv, ?_⟩
    rw [exec_symDec_stops hf hu hk hd h8 (stopsAfter_ends h8 hends), stopTraverse, hv]
    rfl
  · rw [exec_symDec_stops hf hu hk hd h8 (stopsAfter_dries h8 hdries), stopTraverse, driesAfter_hold h8 hdries]
    rfl

end Sys2Proof.Machine
end

section
/-!
PROOFS. The statements of spec/44_stream_and_control.md: the control commands (R220 to R223, R226, R227), COMPRESS (R224) and
DECOMPRESS (R225) with their errors and holds (R253, R83), and the round trip (R228).
-/

namespace Sys2Proof.Machine

/-! ### Illegal words -/

/-- A word the decoder takes is below 12 (R111). -/
theorem toNat_lt_of_decodeWord {w : Word} {i : Instr} (h : decodeWord w = .ok i) : w.toNat < 12 := by
  have hw := encode_of_decodeWord h
  cases i <;> cases hw <;> decide

/-- The decoder refuses every word of R112. -/
theorem decodeWord_illegal {w : Word}
    (h : (w.extractLsb' 4 28 = 0 ∧ 12 ≤ (w.extractLsb' 0 4).toNat) ∨ w.extractLsb' 4 28 ≠ 0) : ∃ e, decodeWord w = .error e := by
  cases hd : decodeWord w with
  | error e => exact ⟨e, rfl⟩
  | ok i =>
    have hlt := toNat_lt_of_decodeWord hd
    exfalso
    rcases h with ⟨-, hop⟩ | hrsvd
    · rw [BitVec.extractLsb'_toNat] at hop
      omega
    · refine hrsvd (BitVec.eq_of_toNat_eq ?_)
      rw [BitVec.extractLsb'_toNat, Nat.shiftRight_eq_div_pow, Nat.div_eq_of_lt (by omega)]
      rfl

namespace State

/-! ### Control commands -/

theorem exec_nop (s : State) : exec .nop s = .next { s with done := true, seq := .idle } := rfl

theorem exec_sinkReset (s : State) :
    exec .sinkReset s = .next { s with obuf := 0, ocnt := 0, outBits := 0, done := true, seq := .idle } := rfl

theorem exec_sourceReset (s : State) :
    exec .sourceReset s = .next { s with ibuf := 0, icnt := 0, inBits := 0, done := true, seq := .idle } := rfl

theorem exec_drainIn (s : State) : exec .drainIn s = .next (drainLoop s.inq s) := rfl

/-! ### COMPRESS -/

/-- The state with the code table of the tree at ROOT, valid (R180, R224). -/
def withTable (s : State) (t : Tree) : State :=
  { s with codes := codesOf s.nodes (treeVisits s.nodes t s.root 0 []), tableValid := true }

/-- COMPRESS's input loop starts with the table built and the description written (R224). -/
theorem payloadStart_eq (s : State) (t : Tree) : payloadStart s t = (s.withTable t).bitWrites t.desc := rfl

section Compress

variable {s : State} {t : Tree} (ht : s.treeAtRoot t = true) (hf : s.fits t) (hk : t.keys.Nodup)
include ht hf hk

/-- COMPRESS of a tree without an end-of-message leaf ends before any bit is written (R224). -/
theorem exec_compress_noEom (he : 256 ∉ t.keys) : exec .compress s = .next ((s.withTable t).raise .noEom) := by
  have hw : s.clearTable.walk true = .ok (treeVisits s.nodes t s.root 0 []) := walk_tree (s := s.clearTable) true ht hf fun _ => hk
  have hnone : tableGet (s.clearTable.fillTable (treeVisits s.nodes t s.root 0 [])).codes 256 = none := (codes_leaf ht hk).2 256 he
  simp only [exec, execCompress, hw, compressAfter, hnone]
  rfl

variable (he : 256 ∈ t.keys) {input : List Byte} (hin : ∀ b ∈ input, b.toNat ∈ t.keys)
include he hin

/-- COMPRESS over bytes that are all keys writes the description and their paths, and goes on with what IN holds behind them
(R224). -/
theorem exec_compress_bytes {tail : List InItem} (hq : s.inq = input.map .byte ++ tail) :
    exec .compress s = .next (payloadLoop tail ((s.withTable t).bitWrites (t.desc ++ pathBits t input))) := by
  rw [exec_compress_tree ht hf hk he, hq, payloadLoop_bytes _ _ _ fun b hb => (payloadStart_isSome ht hk _).2 (hin b hb)]
  simp only [payloadStart_codePath ht hk]
  rw [payloadStart_eq, ← bitWrites_append, pathBits]

/-- Where an EOS follows, COMPRESS writes the whole stream and flushes it (R224, R119). -/
theorem exec_compress_stream {rest : List InItem} (hq : s.inq = input.map .byte ++ .eos :: rest) :
    exec .compress s = .next { ((s.withTable t).bitWrites (t.stream input)).sinkFlush with inq := rest }.succeed := by
  have hbits : (payloadStart s t).bitWrites
      ((input.flatMap fun b : Byte => (payloadStart s t).codePath b.toNat) ++ (payloadStart s t).codePath 256) =
      (s.withTable t).bitWrites (t.stream input) := by
    simp only [payloadStart_codePath ht hk]
    rw [payloadStart_eq, ← bitWrites_append, Tree.stream, Tree.payload]
  rw [exec_compress_tree ht hf hk he, hq, payloadLoop_input _ _ _ fun b hb => (payloadStart_isSome ht hk _).2 (hin b hb), hbits]

end Compress

/-- Bits written with the table of the tree: the rest of the state is kept, and the table has the tree's paths and no others
(R224, R253). -/
theorem withTable_bitWrites_spec {s : State} {t : Tree} (ht : s.treeAtRoot t = true) (hk : t.keys.Nodup) (bs : Bits) :
    (s.withTable t).bitWrites bs = { s with
        codes := ((s.withTable t).bitWrites bs).codes, tableValid := true, obuf := ((s.withTable t).bitWrites bs).obuf,
        ocnt := ((s.withTable t).bitWrites bs).ocnt, outBits := s.outBits + BitVec.ofNat 32 bs.length,
        out := ((s.withTable t).bitWrites bs).out } ∧
      ((s.withTable t).bitWrites bs).sinkBits = s.sinkBits ++ bs ∧
      (∀ k p, (k, p) ∈ t.leaves [] →
        tableGet ((s.withTable t).bitWrites bs).codes k = some { len := BitVec.ofNat 9 p.length, path := p }) ∧
      ∀ k, k ∉ t.keys → tableGet ((s.withTable t).bitWrites bs).codes k = none := by
  have hcodes : ((s.withTable t).bitWrites bs).codes = (s.withTable t).codes := by simp
  obtain ⟨hpresent, habsent⟩ := codes_leaf ht hk
  refine ⟨?_, sinkBits_bitWrites (s.withTable t) bs, hcodes ▸ hpresent, hcodes ▸ habsent⟩
  rw [hcodes]
  exact bitWrites_frame (s.withTable t) bs

/-- The end of COMPRESS after the bits `bs`: of the state before it, it keeps all but the table, the sink, OUT and the items of IN
(R224, R94). -/
theorem flushed_stream_frame {s : State} (hc : s.SinkClear) (t : Tree) (bs : Bits) (rest : List InItem) :
    { ((s.withTable t).bitWrites bs).sinkFlush with inq := rest }.succeed =
      { s with codes := (s.withTable t).codes, tableValid := true, obuf := 0, ocnt := 0,
               outBits := s.outBits + BitVec.ofNat 32 bs.length, out := ((s.withTable t).bitWrites bs).sinkFlush.out,
               inq := rest, done := true, seq := .idle } := by
  have hclear : ((s.withTable t).bitWrites bs).SinkClear := bitWrites_sinkClear (s := s.withTable t) hc bs
  simp only [succeed, sinkFlush_fields, bitWrites_fields, obuf_sinkFlush hclear]
  rfl

/-- Behind the bits the sink held, OUT gets the bits written and at most seven zero bits (R119). -/
theorem flushed_stream_bits {s : State} (hc : s.SinkClear) (t : Tree) (bs : Bits) :
    ∃ pad, pad < 8 ∧
      streamBits ((s.withTable t).bitWrites bs).sinkFlush.out = s.sinkBits ++ bs ++ List.replicate pad false := by
  refine ⟨(8 - ((s.withTable t).bitWrites bs).ocnt.toNat) % 8, by omega, ?_⟩
  rw [streamBits_sinkFlush (bitWrites_sinkClear (s := s.withTable t) hc bs), sinkBits_bitWrites]
  rfl

/-- A byte-aligned sink holds no bits beside those in OUT (R54, R76). -/
theorem sinkBits_aligned {s : State} (h : s.ocnt = 0) : s.sinkBits = streamBits s.out := by simp [sinkBits, h]

/-- The number of whole bytes that bits and less than a byte of padding fill (R119). -/
theorem length_of_padded {xs ys : List Byte} {bs : Bits} {pad : Nat} (hp : pad < 8)
    (h : streamBits xs = streamBits ys ++ bs ++ List.replicate pad false) : xs.length = ys.length + (bs.length + 7) / 8 := by
  have hlen := congrArg List.length h
  simp only [List.length_append, length_streamBits, List.length_replicate] at hlen
  omega

/-! ### DECOMPRESS -/

/-- The state with the entries of a decoded tree, at ROOT = 0 and in pre-order, and no others, and with the given bytes in OUT
(R161, R225). -/
def holdingTree (t : Tree) (out : List Byte) (s : State) : State :=
  { s with nodes := placeTree t [] .root 0, tableValid := false, nodeCount := BitVec.ofNat 17 t.nodeCount, root := 0, out := out }

theorem graft_holdingTree (t : Tree) (out : List Byte) (w : State) : graft w (holdingTree t out w) = holdingTree t out w := rfl

/-- Reading bits and placing a tree touch different parts of the state. -/
theorem holdingTree_afterBits (t : Tree) (out : List Byte) (n : Nat) (s : State) :
    holdingTree t out (s.afterBits n) = graft (s.afterBits n) (holdingTree t out s) := by
  rw [afterBits_frame n s]
  rfl

/-- The state in which the payload phase of DECOMPRESS starts, as an update of the state before the command (R225). -/
theorem afterTree_eq_graft (s : State) (t : Tree) : afterTree s t = graft (s.afterBits t.desc.length)
    { holdingTree t s.out s with seq := .running (.treeDec true { n := t.nodeCount, holes := [], code := [] }) } := by
  rw [afterTree, afterBits_frame t.desc.length s]
  rfl

/-- The entries of a decoded tree that fits (R161, R51). -/
theorem placeTree_entries {s : State} {t : Tree} (hc : s.cfg.wf = true) (hf : s.fits t) :
    numbered (placeTree t [] .root 0) t 0 ∧ (∀ i, (tableGet (placeTree t [] .root 0) i).isSome = decide (i < t.nodeCount)) ∧
      denotes s.cfg.nodeCap (placeTree t [] .root 0) t 0 = true :=
  ⟨numbered_placeTree t [] .root 0 (by simp [Slot.target]), placeTree_present t, denotes_placeTree (nodeCap_of_wf hc).1 t hf.2⟩

/-- An ended source ends the traversal of a decoded tree (R201). -/
theorem stopTraverse_ended {w v : State} (h : w.bitRead = .exhausted v) (t : Tree) (out : List Byte) (j : BitVec 16) (d : Nat) :
    (holdingTree t out w).stopTraverse true j d = (holdingTree t out v).raise .truncatedPayload := by
  have hread := bitRead_graft w (holdingTree t out w) rfl
  rw [h, graft_holdingTree] at hread
  obtain ⟨hv, -⟩ := bitRead_exhausted h
  rw [stopTraverse, hread, hv]
  rfl

/-- A source that has run dry makes it hold (R83). -/
theorem stopTraverse_dry {w : State} (h : w.bitRead = .hold) (t : Tree) (out : List Byte) (j : BitVec 16) (d : Nat) :
    (holdingTree t out w).stopTraverse true j d = (holdingTree t out w).holdAt (.traverse true j d) := by
  have hread := bitRead_graft w (holdingTree t out w) rfl
  rw [h, graft_holdingTree] at hread
  rw [stopTraverse, hread]

/-- DECOMPRESS of the stream of a tree and an input ends with the tree in place, the input in OUT and the stream read (R225). -/
theorem exec_decompress_stream {s : State} {t : Tree} {input : List Byte} {rest : Bits} (hc : s.cfg.wf = true) (hf : s.fits t)
    (hleaf : t.isLeaf = false) (he : 256 ∈ t.keys) (hin : ∀ b ∈ input, b.toNat ∈ t.keys) (h8 : s.icnt.toNat ≤ 8)
    (hl : s.limitAllows (t.stream input).length) (hb : s.sourceBits = t.stream input ++ rest) :
    exec .decompress s =
      .next ((holdingTree t (s.out ++ input) (s.afterBits (t.stream input).length)).endWithKey 256) := by
  rw [Tree.stream] at hl hb ⊢
  have hadd := afterBits_add h8 hl hb
  rw [List.length_append] at hl
  rw [List.append_assoc] at hb
  have hld : s.limitAllows t.desc.length := by simp only [limitAllows] at hl ⊢; omega
  obtain ⟨hsource, h8', -⟩ := afterBits_spec t.desc h8 hld hb
  have hlp := limitAllows_afterBits h8 hl hb
  have hat := afterTree_at hc hf
  have henter : (afterTree s t).enterTraverse true = (afterTree s t).setCursor (.traverse true 0 0) := by
    rw [enterTraverse_tree hat, hleaf]
    rfl
  have htree := afterTree_eq_graft s t
  have hcfg : (afterTree s t).cfg = s.cfg := by rw [htree]; rfl
  rw [exec_decompress_tree hf h8 hld hb, henter,
    traverseRun_payload hleaf he input ((afterTree s t).setCursor (.traverse true 0 0)) rest rfl hat (by simpa [hcfg] using hf.1) hin
      h8' hlp hsource, afterTree_afterBits, hadd, htree, holdingTree_afterBits]
  rfl

/-- DECOMPRESS of the description of a symbol leaf ends where TREE_DEC does, with no payload bit read (R202, R225). -/
theorem exec_decompress_rootSymbol {s : State} {t : Tree} {rest : Bits} (hc : s.cfg.wf = true) (hf : s.fits t)
    (hleaf : t.isLeaf = true) (h8 : s.icnt.toNat ≤ 8) (hl : s.limitAllows t.desc.length) (hb : s.sourceBits = t.desc ++ rest) :
    exec .decompress s = .next ((afterTree s t).raise .rootSymbol) := by
  rw [exec_decompress_tree hf h8 hl hb, enterTraverse_tree (afterTree_at hc hf), if_pos hleaf,
    traverseRun_stop (noTraverse_of_idle rfl)]

/-! ### The bytes of a stream -/

/-- Of bytes and an EOS behind them, items that hold no whole byte and include the EOS are the EOS (R73). -/
theorem eq_eos_of_suffix {bytes : List Byte} {xs q : List InItem} (h : bytes.map .byte ++ [.eos] = xs ++ q) (he : .eos ∈ q)
    (hlen : (itemBits q).length < 8) : q = [.eos] := by
  induction bytes generalizing xs with
  | nil =>
    cases xs with
    | nil => exact h.symm
    | cons x xs =>
      obtain ⟨-, hq⟩ := List.append_eq_nil_iff.1 (List.cons.inj h).2.symm
      rw [hq] at he
      cases he
  | cons b bytes ih =>
    cases xs with
    | nil =>
      rw [← show InItem.byte b :: (bytes.map .byte ++ [.eos]) = q from h, itemBits, List.length_append, length_msbBits] at hlen
      omega
    | cons x xs => exact ih (List.cons.inj h).2

/-- DECOMPRESS of the bytes of a stream and an EOS behind them appends the input and has taken every byte, but not the EOS
(R228). -/
theorem exec_decompress_bytes {w : State} {t : Tree} {input bytes : List Byte} {pad : Nat} (hc : w.cfg.wf = true) (hf : w.fits t)
    (hleaf : t.isLeaf = false) (he : 256 ∈ t.keys) (hin : ∀ b ∈ input, b.toNat ∈ t.keys) (h0 : w.icnt = 0)
    (hl : w.limitAllows (t.stream input).length) (hq : w.inq = bytes.map .byte ++ [.eos])
    (hbytes : streamBits bytes = t.stream input ++ List.replicate pad false) (hpad : pad < 8) :
    ∃ y : State, exec .decompress w = .next y ∧ y.out = w.out ++ input ∧ y.seq = .idle ∧ y.done = true ∧ y.err = w.err ∧
      y.result = 256 ∧ y.resEom = true ∧ y.inq = [.eos] := by
  have h8 : w.icnt.toNat ≤ 8 := by simp [h0]
  have hb : w.sourceBits = t.stream input ++ List.replicate pad false := by
    rw [sourceBits_empty h0, hq, itemBits_bytes, hbytes]
    exact List.append_nil _
  obtain ⟨hsource, -, -⟩ := afterBits_spec (t.stream input) h8 hl hb
  have hinq : (w.afterBits (t.stream input).length).inq = [.eos] := by
    obtain ⟨xs, hxs⟩ := inq_afterBits (t.stream input).length w
    refine eq_eos_of_suffix (hq.symm.trans hxs) (eos_afterBits _ w (by simp [hq])) ?_
    have hleft := congrArg List.length hsource
    rw [sourceBits_eq, List.length_append, List.length_replicate] at hleft
    omega
  have herr : (w.afterBits (t.stream input).length).err = w.err := by rw [afterBits_frame]; rfl
  exact ⟨_, exec_decompress_stream hc hf hleaf he hin h8 hl hb, rfl, rfl, rfl, herr, rfl, rfl, hinq⟩

end State

open State

/-! ### The statements -/

/-- Settles O27: each is one update of the state, answered at once. -/
theorem nopAndBufferResetsComplete : Obligations.NopAndBufferResetsComplete :=
  ⟨⟨rfl, rfl, rfl⟩, fun s => ⟨exec_nop s, exec_sinkReset s, exec_sourceReset s⟩⟩

/-- Settles O13: the word is accepted, and the core's turn finds that the decoder refuses it. -/
theorem illegalWordsEndInError : Obligations.IllegalWordsEndInError := by
  intro s w rest hb he hw
  obtain ⟨e, hd⟩ := decodeWord_illegal hw
  have hwrite := write_step hb .cmd w (.core :: rest)
  rw [writeReg, writeCmd_accepted he] at hwrite
  have hcore : step { s.accept w with events := .core :: rest } = .next { s.accept w with events := rest }.illegalCommand :=
    coreTurn_illegal (s := { s.accept w with events := rest }) rfl hd
  exact ⟨(run_succ 1 hwrite).trans (run_one hcore), rfl⟩

/-- Settles O29: the loop takes items up to the first EOS, or all of them. -/
theorem drainInCompletes : Obligations.DrainInCompletes := by
  refine ⟨rfl, fun s bytes => ⟨fun rest hq => ?_, fun hq => ?_⟩⟩
  · rw [exec_drainIn, hq, drainLoop_eos]
    rfl
  · rw [exec_drainIn, hq, drainLoop_bytes]
    rfl

/-- Settles O43: the table is built, the stream written and flushed, and the padding is less than a byte. -/
theorem compressCompletes : Obligations.CompressCompletes := by
  refine ⟨rfl, fun s t input rest ht hf hk he hin hq hc => ?_⟩
  obtain ⟨pad, hpad, hbits⟩ := flushed_stream_bits hc t (t.stream input)
  obtain ⟨hpresent, habsent⟩ := codes_leaf ht hk
  refine ⟨_, (exec_compress_stream ht hf hk he hin hq).trans (congrArg Host.Outcome.next (flushed_stream_frame hc t _ rest)),
    rfl, ⟨pad, hpad, hbits⟩, hpresent, habsent, fun h0 => length_of_padded hpad ?_⟩
  rw [hbits, sinkBits_aligned h0]

/-- Settles O44: the walk fails as TABLE_BUILD's does, the built table has no end path, or the input loop stops behind the bits of
the bytes before. -/
theorem compressErrorsAndHold : Obligations.CompressErrorsAndHold := by
  refine ⟨fun s u hx hv => ?_, fun s u t ht hf hk he hx => ?_, fun s t input tail ht hf hk he hin hq => ?_⟩
  · rcases exec_tableBuild_cases hx with ⟨e, hw, rfl⟩ | ⟨order, -, rfl⟩
    · simp only [exec, execCompress, hw, compressAfter]
    · cases hv
  · rw [exec_tableBuild_tree ht hf hk] at hx
    cases hx
    exact exec_compress_noEom ht hf hk he
  · have hrun := exec_compress_bytes ht hf hk he hin hq
    obtain ⟨hframe, hbits, hpresent, habsent⟩ := withTable_bitWrites_spec ht hk (t.desc ++ pathBits t input)
    rw [← List.append_assoc] at hbits
    generalize (s.withTable t).bitWrites (t.desc ++ pathBits t input) = v at *
    refine ⟨?_, ?_⟩
    · rintro b rest rfl hb
      refine ⟨{ v with inq := rest }.raise .mismatch, ?_, ?_, hbits, hpresent, habsent⟩
      · simp only [hrun, payloadLoop, habsent _ hb]
      · rw [hframe]
        rfl
    · rintro rfl
      refine ⟨{ v with inq := [] }.holdAt .payload, hrun, ?_, hbits, hpresent, habsent⟩
      rw [hframe]
      rfl

/-- Settles O45: the stream is read as the description and the payload, and the tree placed is the one described. -/
theorem decompressCompletes : Obligations.DecompressCompletes := by
  refine ⟨rfl, fun s t input rest hc hf hleaf he hin h8 hl hb => ?_⟩
  obtain ⟨hsource, -, hafter⟩ := afterBits_spec (t.stream input) h8 hl hb
  obtain ⟨hnumbered, hpresent, htree⟩ := placeTree_entries hc hf
  rw [← afterBits_cfg (t.stream input).length s] at htree
  refine ⟨_, exec_decompress_stream hc hf hleaf he hin h8 hl hb, ?_, hnumbered, hpresent, htree, hsource⟩
  generalize s.afterBits (t.stream input).length = v at *
  rw [hafter]
  rfl

/-- Settles O46: the tree phase is TREE_DEC's, the decoded root may be a symbol leaf, and the payload stops where the source does. -/
theorem decompressErrors : Obligations.DecompressErrors := by
  refine ⟨fun s u e he hx hu => ?_, fun s t q hf h8 hq hne hd => ?_, fun s sym rest hc h8 hl hb => ?_,
    fun s t input q read hc hf hleaf hin hq h8 hread => ?_⟩
  · cases hx
    have herr : (s.beginTreeDec false).treeDecRun.err ≠ none := by rw [hu]; exact Option.some_ne_none e
    exact congrArg Host.Outcome.next (treeDecRun_composite (s.beginTreeDec false) _ he rfl herr)
  · obtain ⟨c, m, h⟩ := treeDecRun_dries true hf h8 hq hne hd
    exact ⟨m, c, congrArg Host.Outcome.next h⟩
  · have hf : s.fits (.leaf sym) := ⟨Nat.zero_le _, (nodeCap_of_wf hc).2⟩
    obtain ⟨-, -, hafter⟩ := afterBits_spec (Tree.leaf sym).desc h8 hl hb
    exact ⟨_, exec_treeDec_tree hf h8 hl hb, exec_decompress_rootSymbol hc hf rfl h8 hl hb, congrArg State.inBits hafter⟩
  · subst hread
    obtain ⟨hnumbered, hpresent, htree⟩ := placeTree_entries hc hf
    refine ⟨fun hends => ?_, fun hdries => ?_⟩
    · obtain ⟨v, hv⟩ := endsAfter_exhausted _ h8 hends
      obtain ⟨j, -, hx⟩ := exec_decompress_stops hc hf hleaf hin hq h8 (stopsAfter_ends h8 hends)
      have hcfg : v.cfg = s.cfg := (congrArg State.cfg (bitRead_exhausted hv).1).trans (afterBits_cfg _ s)
      rw [← hcfg] at htree
      exact ⟨_, v, hv, hx.trans (congrArg Host.Outcome.next (stopTraverse_ended hv t (s.out ++ input) j q.length)), rfl,
        hnumbered, hpresent, htree⟩
    · have hv := driesAfter_hold h8 hdries
      obtain ⟨j, hj, hx⟩ := exec_decompress_stops hc hf hleaf hin hq h8 (stopsAfter_dries h8 hdries)
      rw [← afterBits_cfg _ s] at htree hj
      exact ⟨_, j, hx.trans (congrArg Host.Outcome.next (stopTraverse_dry hv t (s.out ++ input) j q.length)), rfl,
        hnumbered, hpresent, htree, hj⟩

/-- Settles O48: the bytes COMPRESS appends hold the stream and less than a byte of padding, which DECOMPRESS reads back. -/
theorem compressDecompressRoundTrip : Obligations.CompressDecompressRoundTrip := by
  intro s t input rest hc ht hf hk he hleaf hin h0 hclear hq hlen
  obtain ⟨u, hx, hu, ⟨pad, hpad, hbits⟩, -⟩ := compressCompletes.2 s t input rest ht hf hk he hin hq hclear
  obtain ⟨bytes, hout⟩ := (quiet_exec (by simp) (by simp) (by simp) hx).out
  have hstream : streamBits bytes = t.stream input ++ List.replicate pad false := by
    rw [hout, sinkBits_aligned h0, List.append_assoc] at hbits
    exact streamBits_inj_append hbits
  refine ⟨u, bytes, hx, by rw [hu], hout, fun w hw hlim hqw => ?_⟩
  have hl : State.limitAllows { w with ibuf := 0, icnt := 0, inBits := 0, done := true, seq := .idle } (t.stream input).length := by
    refine .inr ?_
    simp only [hlim, BitVec.ofNat_eq_ofNat, BitVec.toNat_ofNat]
    omega
  obtain ⟨y, hy⟩ := exec_decompress_bytes (hw ▸ hc) (by rw [fits, hw]; exact hf) hleaf he hin rfl hl hqw hstream hpad
  exact ⟨_, y, exec_sourceReset w, hy⟩

end Sys2Proof.Machine
end

section
/-!
PROOFS. The statements of spec/60_exceptions.md: no turn of host or core stops the machine (R250), and the interrupt output (R258).
-/

namespace Sys2Proof.Machine

namespace State

/-! ### Every turn answers a next state -/

theorem exists_coreTurn_next (s : State) : ∃ t, s.coreTurn = .next t := by
  obtain ⟨t, ht, -⟩ := s.coreTurn_settled
  exact ⟨t, ht⟩

theorem exists_coreTick_next (s : State) : ∃ t, s.coreTick = .next t := by
  obtain ⟨t, ht, -⟩ := s.coreTick_coreTurn
  exact ⟨t, ht⟩

/-! ### The interrupt output -/

/-- IE holds its three bits at the low end of its word (R33). -/
theorem getLsbD_regValue_ie (s : State) {i : Nat} (hi : i < 32) : (s.regValue .ie).getLsbD i = s.ie.getLsbD i := by
  simp [regValue, hi]

theorem interrupt_noFlag {s : State} (hdone : s.done = false) (herr : s.err = none) (hovr : s.cmdOvr = false) :
    s.interrupt = false := by
  simp [interrupt, hdone, herr, hovr]

theorem interrupt_disabled {s : State} (h : s.ie = 0) : s.interrupt = false := by simp [interrupt, h]

end State

open State

/-! ### The statements -/

/-- Settles O7: a host turn, a reset and a pause are total functions, and the core's turn and its iteration answer a next state. -/
theorem stepNeverStops : Obligations.StepNeverStops := by
  intro s
  unfold step
  split
  · exact s.exists_coreTurn_next
  · next ev rest _ =>
    cases ev with
    | core => exact exists_coreTurn_next _
    | tick => exact exists_coreTick_next _
    | write | read | append | wait | take | reset | pause => exact ⟨_, rfl⟩

/-- Settles O20: INT reads three flags and their enables, so it is low once the flags are cleared or IE is 0. -/
theorem interruptLevel : Obligations.InterruptLevel := by
  refine ⟨fun s => ?_, rfl, fun s hb => ?_, fun s hb => ?_, fun s v hb he hovr => ?_⟩
  · obtain ⟨-, hdone, herr, -, -, hovr, -, -⟩ := s.statusWord_flags
    rw [hdone, herr, hovr, getLsbD_regValue_ie s (by decide), getLsbD_regValue_ie s (by decide),
      getLsbD_regValue_ie s (by decide), interrupt]
  · refine ⟨_, writesTo_idle hb .status 0x26, ?_⟩
    rw [writeReg, statusWrite_eq]
    exact interrupt_noFlag (Bool.and_false _) rfl (Bool.and_false _)
  · exact ⟨_, writesTo_idle hb .ie 0, interrupt_disabled rfl⟩
  · refine ⟨_, writesTo_idle hb .cmd v, ?_⟩
    rw [writeReg, writeCmd_accepted he]
    exact interrupt_noFlag rfl he hovr

end Sys2Proof.Machine
end

section
/-!
PROOFS. Reset (R280, R281), for the statements of spec/70_reset_and_hazards.md: what the registers read from the reset state, the
reset turn, and the invariants' base case.
-/

namespace Sys2Proof.Machine

namespace State

/-! ### The registers after reset -/

/-- The word each register reads after reset (R281): the two constants and IN_LIMIT, and 0 everywhere else. -/
def resetWord : Reg → Word
  | .id => 0x48554631
  | .cfg => 0x01000201
  | .inLimit => 0xFFFFFFFF
  | _ => 0

/-- No entry is listed after reset, so the windows show 0; every other register shows its fields' reset values. -/
theorem regValue_reset (r : Reg) : State.reset.regValue r = resetWord r := by
  cases r with
  | nodeData | nodeRdlink => rw [regValue, selectedNode_none (.inr rfl)]; rfl
  | codeInfo | codeData => rw [regValue, selectedCode_none (.inr rfl)]; rfl
  | _ => rfl

theorem readsAs_reset (r : Reg) : State.reset.ReadsAs r (resetWord r) :=
  readsAs_of_regValue rfl (regValue_reset r)

/-! ### The reset turn -/

/-- A reset turn is the reset event, whatever the core is doing (R280). -/
theorem step_reset (s : State) (rest : List Event) :
    step { s with events := .reset :: rest } = .next { s with events := rest }.resetBlock := rfl

/-- The reset state is its own reset. -/
theorem resetBlock_reset : State.reset.resetBlock = State.reset := rfl

/-! ### The invariants after reset -/

theorem storageInv_reset : State.reset.StorageInv where
  cfg := rfl
  nodes := rfl
  codes := rfl
  entries := fun _ he => absurd he List.not_mem_nil
  sink := fun _ _ => BitVec.getLsbD_zero
  source := Nat.zero_le _
  count := Nat.zero_le _
  error := fun _ => rfl
  cursor := noCursor rfl

theorem tableInv_reset : State.reset.TableInv := resetBlock_reset ▸ TableInv.resetBlock State.reset

end State

open State

/-! ### The statements -/

/-- Settles O8: every register reads its word of the table, the lists of entries are empty, and INT has no enable. -/
theorem resetValues : Obligations.ResetValues := by
  refine ⟨readsAs_reset .id, readsAs_reset .cfg, readsAs_reset .cmd, readsAs_reset .status, readsAs_reset .ie,
    readsAs_reset .root, readsAs_reset .nodeCount, readsAs_reset .nodeAddr, readsAs_reset .nodeLink, readsAs_reset .nodeData,
    readsAs_reset .nodeRdlink, readsAs_reset .symbol, readsAs_reset .result, readsAs_reset .outBits, readsAs_reset .inBits,
    readsAs_reset .inLimit, readsAs_reset .bitState, readsAs_reset .codeSel, readsAs_reset .codeInfo, readsAs_reset .codeData,
    ?flags⟩
  case flags =>
    exact ⟨rfl, rfl, rfl, rfl, rfl, rfl, rfl, errCode_none rfl, fun _ => rfl, fun _ => rfl, rfl, rfl, rfl, rfl, rfl,
      interrupt_disabled rfl⟩

/-- Settles O9: the reset turn is the reset event, which keeps the parameters, the channels and the host's side and nothing else. -/
theorem resetEvent : Obligations.ResetEvent := step_reset

/-- Settles O55: the reset state has no entry, no cursor and no valid table. -/
theorem invariantsHoldAtReset : Obligations.InvariantsHoldAtReset := ⟨storageInv_reset, tableInv_reset⟩

end Sys2Proof.Machine
end
